-- ==== Sys2Proof/Word.lean ====
section
/-! DEFINITION. The words of the two serial lines. Every other quantity of the SC6 is an integer in a
stated unit (00_scope, Units and ranges) and is held as a Nat or an Int. -/

namespace Sys2Proof

/-- A byte of the message link or of the dock line (R1, R18). -/
abbrev Byte := BitVec 8

/-- A two-byte number of the message link or of the dock line (R17, R18). -/
abbrev Word16 := BitVec 16

end Sys2Proof
end

