-- ==== Sys2Proof/Syntax.lean ====
section
/-! DEFINITION. The commands of the SC6: one constructor for each row of spec/opcode_table.json. The
operands are what the event carries from outside the part: bytes of a line, payload fields of a request,
converted quantities, levels of a switch input. -/

namespace Sys2Proof

/-- The index of one of four like units: timers T0 to T3 (R51), watch units W0 to W3 (R69). -/
inductive Idx4 where
  | i0 | i1 | i2 | i3
  deriving DecidableEq, Repr, Inhabited

/-- The line detectors D0 (DOCK_SENSE), D1 (BIN_LATCH) and D2 (AUX) (R57). -/
inductive DetectorId where
  | d0 | d1 | d2
  deriving DecidableEq, Repr, Inhabited

/-- Six like things, one for each cell of the pack, members 1 to 6 (R36). -/
structure Six (α : Type) where
  c1 : α
  c2 : α
  c3 : α
  c4 : α
  c5 : α
  c6 : α
  deriving DecidableEq, Repr, Inhabited

/-- A pulse on IMP as the two fixed comparators of the front end class it (R140). -/
inductive Pulse where
  /-- at or below the low level: not counted -/
  | faint
  /-- above the low level, not above the high level -/
  | fine
  /-- above the high level -/
  | coarse
  deriving DecidableEq, Repr, Inhabited

/-- One conversion of a plain converted channel, before the rounding and the range of its rule
(R40 to R43): currents in microamperes, temperatures in thousandths of a degree, the dock-sense voltage
in microvolts, the speed in whole su. -/
inductive Conversion where
  | packI (microamps : Int)
  | packT (millidegrees : Int)
  | motorT (millidegrees : Int)
  | motorI (microamps : Int)
  | speed (su : Nat)
  | dockV (microvolts : Int)
  deriving DecidableEq, Repr, Inhabited

/-- A command: a stimulus that changes the state of the SC6.

A constructor named after a request of the message link is that request arriving whole and checked at the
request queue, with its payload fields as operands (entry 1 of the assumption log). The operands
`dockSense` and `binLatch` are the levels that D0 and D1 sample at their first evaluation, and are read
only if the command completes a warm start (R60, entry 12). -/
inductive Instr where
  -- bytes and frames of the message link
  | byteArrival (byte : Byte) (stopError : Bool)
  | frameReceived (length kind : Byte) (payload : List Byte) (check : Byte)
  | gapTimeout
  | unknownRequest (kind : Byte) (payload : List Byte)
  | transmitEnd (dockSense binLatch : Bool)
  -- link requests
  | identify
  | getStatus (option : Option Byte)
  | sleep
  | restart
  -- starts and supplies
  | wake (dockSense binLatch : Bool)
  | dockWake (binLatch : Bool)
  | resetAssert
  | resetRelease (dockSense binLatch : Bool)
  | supplyDip
  | supplyReturn (dockSense binLatch : Bool)
  | keepaliveLoss
  | coldStart (dockSense binLatch : Bool)
  -- settings
  | acknowledgeKeepAlive
  | readSection (sectionNo first count reserve : Byte)
  | writeSection (sectionNo first count conditional : Byte) (entries : List Byte)
  | writePreset (first count conditional : Byte) (entries : List Byte)
  | writeSuction (first count conditional : Byte) (entries : List Byte)
  | writeDirt (first count conditional : Byte) (entries : List Byte)
  | writeGauge (first count conditional : Byte) (entries : List Byte)
  | writeCharge (first count conditional : Byte) (entries : List Byte)
  | writeLimits (first count conditional : Byte) (entries : List Byte)
  | writeWatch (first count conditional : Byte) (entries : List Byte)
  | writeTimer (first count conditional : Byte) (entries : List Byte)
  | writeService (first count conditional : Byte) (entries : List Byte)
  | writeNotice (first count conditional : Byte) (entries : List Byte)
  -- measurement and the gauge second
  | cellSample (tapOpen : Six Bool) (millivolts : Six Int)
  | channelSample (conversion : Conversion)
  | keepaliveShuntSample (microamps : Int)
  | readChannels (ids : List Byte)
  | gaugeSecond
  -- timers, detectors, run time
  | timerExpiry (timer : Idx4)
  | timerControl (timer action : Byte)
  | detection (detector : DetectorId)
  | armDetector (detector polarity debounce : Byte)
  | runSecond
  | readRunTime
  | resetFilterTime
  | clearServiceDue
  -- watches
  | readClearWatchHits
  -- suction control
  | controlPeriod
  | selectPreset (preset : Byte)
  | resume
  | clearHalt
  | readClearConditions
  -- overrides
  | setBoost (flag : Byte)
  | setSoftOverrides (flag : Byte)
  | pushOverride (cap : Word16)
  | releaseOverride
  | readOverrides
  -- dirt
  | impact (pulse : Pulse)
  | readDirtHistory (count : Byte)
  -- charging and the dock line
  | clearChargeFault
  | probeDue
  | keepDue
  | retryWaitEnd
  | dockFrameSent
  | offerReceived (dockKind : Byte) (maxVoltage maxCurrent : Word16)
  | grantReceived (voltage current : Word16)
  | declineReceived (reason : Byte)
  | keepackReceived (current : Word16)
  | dockAnswerTimeout
  | invalidDockAnswer
  deriving DecidableEq, Repr

end Sys2Proof
end

