-- ==== Sys2Proof/Machine/Records.lean ====
section
/-! DEFINITION. The records that State is made of: plain data, named as the manual names it, one group for
each block of the SC6 (00_scope, Block diagram). -/

namespace Sys2Proof.Machine

/-! ### Groups of like things -/

/-- Four like things: timers T0 to T3, watch units W0 to W3. -/
structure Four (α : Type) where
  i0 : α
  i1 : α
  i2 : α
  i3 : α
  deriving DecidableEq, Repr, Inhabited

/-- Eight like things: presets 0 to 7. -/
structure Eight (α : Type) where
  p0 : α
  p1 : α
  p2 : α
  p3 : α
  p4 : α
  p5 : α
  p6 : α
  p7 : α
  deriving DecidableEq, Repr, Inhabited

/-- The number of a preset, 0 to 7 (R88). -/
inductive PresetId where
  | p0 | p1 | p2 | p3 | p4 | p5 | p6 | p7
  deriving DecidableEq, Repr, Inhabited

/-- Three like things: detectors D0 to D2. -/
structure Three (α : Type) where
  d0 : α
  d1 : α
  d2 : α
  deriving DecidableEq, Repr, Inhabited

/-! ### The message link (chapter 1) -/

/-- A request of the queue: its kind and payload (R3). -/
structure Request where
  kind : Byte
  payload : List Byte
  deriving DecidableEq, Repr, Inhabited

/-- The receiver (R1): its state and its buffer, oldest byte first. `body` also holds how many body bytes
are still expected. -/
inductive Receiver where
  | hunt
  | length
  | body (expected : Nat) (buffer : List Byte)
  | check (buffer : List Byte)
  deriving DecidableEq, Repr, Inhabited

/-- What follows the last byte of a frame: nothing, or the ending of an accepted Sleep or Restart
(R13, R15). -/
inductive Ending where
  | plain | sleep | restart
  deriving DecidableEq, Repr, Inhabited

/-- A reply or a notice: kind, payload, and what follows its last byte. -/
structure Frame where
  kind : Byte
  payload : List Byte
  ending : Ending
  deriving DecidableEq, Repr, Inhabited

/-- The notice kinds 0x80 to 0x89 (R7, R17). STARTED, 0x8A, has no enable and is taken by the transmitter
at the warm start that makes it pending (R11), so it never stands in the set between two steps. -/
inductive NoticeKind where
  | suction | override | watch | condition | dirt | pack | dock | timer | service | detector
  deriving DecidableEq, Repr, Inhabited

/-- One mark for each notice kind: the pending-notice set (R7), the notice enables (R8). -/
structure NoticeMarks where
  suction : Bool
  override : Bool
  watch : Bool
  condition : Bool
  dirt : Bool
  pack : Bool
  dock : Bool
  timer : Bool
  service : Bool
  detector : Bool
  deriving DecidableEq, Repr, Inhabited

/-- One mark for each condition flag: the report enables of the NOTICE section (R119). -/
structure ReportEnables where
  inv : Bool
  ovf : Bool
  unf : Bool
  lim : Bool
  deriving DecidableEq, Repr, Inhabited

/-- The link controller (R1 to R16) with the NOTICE section (R8). -/
structure Link where
  receiver : Receiver
  /-- oldest first -/
  queue : List Request
  slot : Option Frame
  closing : Bool
  overrun : Bool
  check : Bool
  gap : Bool
  notices : NoticeMarks
  accWatch : Four Bool
  accTimer : Four Bool
  /-- the detectors of the accumulation set, each with the level at its detection -/
  accDetector : Three (Option Bool)
  /-- the frame the transmitter is sending -/
  tx : Option Frame
  enables : NoticeMarks
  reports : ReportEnables
  deriving DecidableEq, Repr, Inhabited

/-! ### Sections (chapter 2) -/

/-- The ten sections by number (R19). -/
inductive SectionId where
  | preset | suction | dirt | gauge | charge | limits | watch | timer | service | notice
  deriving DecidableEq, Repr, Inhabited

/-- The reservation (R22, R30). -/
structure Reservation where
  sectionId : SectionId
  first : Nat
  count : Nat
  broken : Bool
  deriving DecidableEq, Repr, Inhabited

/-- An entry of PRESET (chapter 6, Presets). -/
structure PresetEntry where
  base : Nat
  step : Nat
  ceiling : Nat
  notify : Bool
  deriving DecidableEq, Repr, Inhabited

/-- The entry of SUCTION (R90). -/
structure SuctionEntry where
  kFan : Nat
  sMin : Nat
  slewUp : Nat
  slewDown : Nat
  tKnee : Int
  tCut : Int
  currentLimit : Nat
  deriving DecidableEq, Repr, Inhabited

/-- The entry of DIRT (R139). -/
structure DirtEntry where
  t1 : Nat
  t2 : Nat
  t3 : Nat
  h : Nat
  floor : Nat
  floorMax : Nat
  blank : Nat
  hold : Bool
  deriving DecidableEq, Repr, Inhabited

/-- The writable fields of GAUGE (R164). -/
structure GaugeEntry where
  design : Nat
  qFull : Nat
  cycles : Nat
  deriving DecidableEq, Repr, Inhabited

/-- The entry of CHARGE (R184). -/
structure ChargeEntry where
  iCc : Nat
  vCv : Nat
  iTerm : Nat
  iPre : Nat
  windowLow : Int
  windowHigh : Int
  cool : Int
  deriving DecidableEq, Repr, Inhabited

/-- The entry of LIMITS (R163). -/
structure LimitsEntry where
  wPackMax : Nat
  socKnee : Nat
  vSag : Nat
  vCut : Nat
  packHot : Nat
  lowThreshold : Nat
  lowCap : Nat
  deriving DecidableEq, Repr, Inhabited

/-- The channels of the table by id, 0 to 10 (R36). -/
inductive ChannelId where
  | cell | packI | packT | motorT | motorI | speed | dockV | target | dirtNet | soc | budget
  deriving DecidableEq, Repr, Inhabited

inductive WatchKind where
  | off | gate | trap
  deriving DecidableEq, Repr, Inhabited

inductive WatchAction where
  | report | hold | override
  deriving DecidableEq, Repr, Inhabited

/-- An entry of WATCH (R69). -/
structure WatchRecord where
  kind : WatchKind
  channel : ChannelId
  low : Int
  high : Int
  resolution : Nat
  action : WatchAction
  cap : Nat
  report : Bool
  deriving DecidableEq, Repr, Inhabited

/-- The tick lengths of the four rate clocks (R50). -/
inductive Rate where
  | ms1 | ms16 | ms250 | s4
  deriving DecidableEq, Repr, Inhabited

inductive TimerMode where
  | oneShot | repeats
  deriving DecidableEq, Repr, Inhabited

/-- An entry of TIMER, less its running field, which shows the running mark (R51). -/
structure TimerEntry where
  rate : Rate
  preset : Nat
  mode : TimerMode
  notice : Bool
  deriving DecidableEq, Repr, Inhabited

/-- The entry of SERVICE, less SERVICE_DUE (chapter 4, The service match). -/
structure ServiceEntry where
  hours : Nat
  anyHours : Bool
  minutes : Nat
  anyMinutes : Bool
  enable : Bool
  deriving DecidableEq, Repr, Inhabited

/-- A run-time counter (R63). -/
structure RunTime where
  hours : Nat
  minutes : Nat
  seconds : Nat
  deriving DecidableEq, Repr, Inhabited

/-- The gauge's trust (R164). -/
inductive Trust where
  | estimated | calibrated
  deriving DecidableEq, Repr, Inhabited

/-- The keep-alive domain (R33): its sections, the gauge values, the run-time counters with the service
match, the pack-current accumulator, the marker and KEEPALIVE_LOST. -/
structure KeepAlive where
  presets : Eight PresetEntry
  suction : SuctionEntry
  dirt : DirtEntry
  gauge : GaugeEntry
  trust : Trust
  qRem : Nat
  /-- the discharge accumulator (R168) -/
  discharged : Nat
  /-- set from a cold start until the estimate is taken (R167) -/
  estimatePending : Bool
  charge : ChargeEntry
  limits : LimitsEntry
  service : ServiceEntry
  serviceDue : Bool
  motorTotal : RunTime
  filter : RunTime
  /-- the pack-current accumulator (R48), mA -/
  accSum : Int
  accCount : Nat
  /-- set while the keep-alive marker is intact -/
  marker : Bool
  keepAliveLost : Bool
  deriving DecidableEq, Repr, Inhabited

/-! ### The channel table (chapter 3) -/

/-- A record or group member that may be NO READING (R36). -/
inductive Reading where
  | valid (value : Int)
  | noReading
  deriving DecidableEq, Repr, Inhabited

/-- The channel table. The channels that R36 says are never NO READING hold a value alone. -/
structure Channels where
  cell : Six Reading
  packI : Int
  packT : Reading
  motorT : Reading
  motorI : Nat
  speed : Nat
  dockV : Nat
  target : Nat
  dirtNet : Nat
  soc : Nat
  budget : Nat
  deriving DecidableEq, Repr, Inhabited

/-! ### Timers and detectors (chapter 4) -/

/-- A timer: working rate, down-count, running mark (R51). -/
structure Timer where
  rate : Rate
  count : Nat
  running : Bool
  deriving DecidableEq, Repr, Inhabited

inductive Polarity where
  | falling | rising
  deriving DecidableEq, Repr, Inhabited

/-- A line detector (R57). The measurement is the milliseconds since the sample that began it. -/
structure Detector where
  armed : Bool
  polarity : Polarity
  debounce : Nat
  measurement : Option Nat
  deriving DecidableEq, Repr, Inhabited

/-- The timer and detector unit's main-domain state. `clock` is the milliseconds since the rate clocks
started, modulo the longest period, 4000 ms. -/
structure Tdu where
  clock : Nat
  entries : Four TimerEntry
  timers : Four Timer
  detectors : Three Detector
  runMark : Bool
  runMs : Nat
  deriving DecidableEq, Repr, Inhabited

/-! ### Watches (chapter 5) -/

/-- A comparison state: the override condition (set while RAISED) and the outside count (R69). -/
structure Comparison where
  raised : Bool
  outside : Nat
  deriving DecidableEq, Repr, Inhabited

/-- The two shadow records of a claim (R80). -/
structure Shadows where
  w2 : WatchRecord
  w3 : WatchRecord
  deriving DecidableEq, Repr, Inhabited

/-- The watch unit. The claim mark is set exactly while the shadows are present. -/
structure Wcu where
  entries : Four WatchRecord
  comparisons : Four Comparison
  hits : Four Bool
  heldAccess : Bool
  claim : Option Shadows
  deriving DecidableEq, Repr, Inhabited

/-! ### Suction control, the condition record, overrides (chapters 6 to 8) -/

/-- The states in which the drive may stand, reported or underlying (R87). -/
inductive Motion where
  | off | spinUp | run | brake
  deriving DecidableEq, Repr, Inhabited

inductive HaltCause where
  | stall | overcurrent | stackFull
  deriving DecidableEq, Repr, Inhabited

/-- The suction state (R86): one of OFF, SPINUP, RUN and BRAKE; HELD with its underlying state and pending
target (R87, R93); HALT with its cause (R102). -/
inductive Suction where
  | moving (motion : Motion)
  | held (underlying : Motion) (pending : Nat)
  | halt (cause : HaltCause)
  deriving DecidableEq, Repr, Inhabited

/-- The six suction states as other blocks and the host see them (R86). -/
inductive SuctionState where
  | off | spinUp | run | held | brake | halt
  deriving DecidableEq, Repr, Inhabited

/-- The sources of the override stack (R123). -/
inductive Source where
  | binOpen | packLow | packHot | motorHot | docked
  | watch (unit : Idx4)
  | lowCharge | hostCap
  deriving DecidableEq, Repr, Inhabited

/-- An entry of the override stack (R122). Its class is fixed by its source (`Source.isHard`). -/
structure OverrideEntry where
  source : Source
  cap : Nat
  saved : Bool
  released : Bool
  deriving DecidableEq, Repr, Inhabited

/-- The hard condition marks (R103). -/
structure HardMarks where
  binOpen : Bool
  packLow : Bool
  packHot : Bool
  motorHot : Bool
  docked : Bool
  deriving DecidableEq, Repr, Inhabited

inductive ConditionSource where
  | boost | thermal | power | floor | gauge | budget | dirt
  deriving DecidableEq, Repr, Inhabited

inductive ConditionFlag where
  | inv | ovf | unf | lim
  deriving DecidableEq, Repr, Inhabited

/-- The condition record (R116): each flag is clear, or set with its first source. -/
structure Conditions where
  inv : Option ConditionSource
  ovf : Option ConditionSource
  unf : Option ConditionSource
  lim : Option ConditionSource
  deriving DecidableEq, Repr, Inhabited

/-- The suction controller. -/
structure Snc where
  suction : Suction
  preset : PresetId
  adopted : Nat
  applied : Nat
  marks : HardMarks
  spinUpCount : Nat
  stallCount : Nat
  overCount : Nat
  /-- the budget last told by the pack manager (R108) -/
  budget : Nat
  /-- the override stack, newest (top) first -/
  stack : List OverrideEntry
  boostPermitted : Bool
  softOverrides : Bool
  conditions : Conditions
  deriving DecidableEq, Repr, Inhabited

/-! ### Dirt sensing (chapter 9) -/

/-- Score, net and level of a classified window (R154). -/
structure Classified where
  score : Nat
  net : Nat
  level : Nat
  deriving DecidableEq, Repr, Inhabited

/-- A window record (R154): a blanked window has no classification. -/
structure WindowRecord where
  fine : Nat
  coarse : Nat
  applied : Nat
  classified : Option Classified
  deriving DecidableEq, Repr, Inhabited

/-- The dirt sensing unit. -/
structure Dsu where
  fine : Nat
  coarse : Nat
  opening : Nat
  dirtLevel : Nat
  boostLevel : Nat
  quiet : Nat
  /-- the history ring, oldest first -/
  ring : List WindowRecord
  deriving DecidableEq, Repr, Inhabited

/-! ### The pack manager (chapters 10 and 11) -/

/-- The charging states other than PAUSED_TEMP. -/
inductive Phase where
  | precharge | cc | cv | done
  deriving DecidableEq, Repr, Inhabited

inductive ChargeFault where
  | timeout | prechargeLimit | cellOver | hot | sense | declined | unsuited
  deriving DecidableEq, Repr, Inhabited

/-- The pack states (R158). PAUSED_TEMP holds the state it left (R191), CHARGE_FAULT its kind (R193). -/
inductive PackState where
  | discharge | protect | dockedWait
  | charging (phase : Phase)
  | paused (left : Phase)
  | fault (kind : ChargeFault)
  deriving DecidableEq, Repr, Inhabited

/-- A learning run (R169). -/
structure Learning where
  qStart : Nat
  added : Nat
  deriving DecidableEq, Repr, Inhabited

/-- The pack manager's main-domain state. -/
structure Pmg where
  state : PackState
  lowMark : Bool
  hotMark : Bool
  lowCount : Nat
  recoveryCount : Nat
  lowCharge : Bool
  learning : Option Learning
  /-- the last eight means, oldest first (R172) -/
  means : List Int
  foldback : Nat
  /-- the budget last computed and told (R174) -/
  budget : Nat
  askedVoltage : Nat
  askedCurrent : Nat
  precharge : Nat
  taper : Nat
  bleedSet : Six Bool
  deriving DecidableEq, Repr, Inhabited

/-! ### The dock line controller (chapter 11) -/

inductive Session where
  | absent | probing | offered | active | lost
  deriving DecidableEq, Repr, Inhabited

/-- A stored offer (R177). -/
structure Offer where
  dockKind : Nat
  maxVoltage : Nat
  maxCurrent : Nat
  deriving DecidableEq, Repr, Inhabited

/-- The frames the SC6 sends on the dock line (R18). -/
inductive DockFrame where
  | probe
  | ask (voltage current : Nat)
  | keep
  | quit
  deriving DecidableEq, Repr, Inhabited

/-- The frames that the dock sends (R18). -/
inductive DockAnswer where
  | offer (dockKind : Byte) (maxVoltage maxCurrent : Word16)
  | grant (voltage current : Word16)
  | decline (reason : Byte)
  | keepack (current : Word16)
  deriving DecidableEq, Repr, Inhabited

/-- The exchange in progress (R178). `newer` marks that a newer asked pair was handed over during it
(R181), `ordered` that the leave-charging order came in OFFERED during it (R183). -/
structure Exchange where
  frame : DockFrame
  /-- clear while the frame is being sent, set while its answer is awaited -/
  awaiting : Bool
  newer : Bool
  ordered : Bool
  deriving DecidableEq, Repr, Inhabited

/-- A running retry wait (R181): 200 ms after a missed ASK, 500 ms after a first DECLINE. -/
inductive RetryWait where
  | afterMiss | afterDecline
  deriving DecidableEq, Repr, Inhabited

/-- The dock line controller (R177). The three due marks are frames that fell due while an exchange was in
progress (R178, R183). -/
structure Dlc where
  session : Session
  offer : Option Offer
  askVoltage : Nat
  askCurrent : Nat
  askDue : Bool
  probes : Nat
  misses : Nat
  declines : Nat
  dockCurrent : Nat
  exchange : Option Exchange
  retry : Option RetryWait
  quitDue : Bool
  keepDue : Bool
  probeDue : Bool
  deriving DecidableEq, Repr, Inhabited

/-! ### Starts, supplies and pins (R11, R13 to R15) -/

inductive StartCause where
  | cold | restart | wake | dock | reset | supply
  deriving DecidableEq, Repr, Inhabited

/-- Whether the main domain runs, is off for SLEEP, or is held at the start of a warm start. -/
inductive Domain where
  | awake
  | sleep
  | held (cause : StartCause)
  deriving DecidableEq, Repr, Inhabited

/-- The levels of the input lines: true is high for the three switch inputs; the last two are true while
RESET is driven low and while the main supply is below its operating level. -/
structure Pins where
  dockSense : Bool
  binLatch : Bool
  aux : Bool
  resetLow : Bool
  supplyLow : Bool
  deriving DecidableEq, Repr, Inhabited

end Sys2Proof.Machine
end

