-- ==== Sys2Proof/Config.lean ====
section
/-! DEFINITION. The free values: what the manual leaves open. Each is an opaque constant without a body, so
nothing can be proved of it and a claim that is proved holds whatever it is. A use applies it to
`State.draws`, which the use advances. -/

namespace Sys2Proof

/-- Where the next of several unordered events is put in the order in which they are taken: "The order in
which separate blocks act on separate events is not fixed by this manual" (00_scope, Conventions).
Entry 5. -/
opaque Config.place : Nat → Nat

/-- The mean of a gauge second whose accumulator is empty. R48 says that a gauge second always holds a
sample, and states no mean for one that does not. Entry 8. -/
opaque Config.emptyMean : Nat → Int

/-- The level byte of a DETECTOR notice for a detector that is not in the accumulation set (R17 states
none). Entry 9. -/
opaque Config.absentLevel : Nat → Bool

/-- What the keep-alive domain holds after its supply fell below retention (R20: "It loses them"), until
the cold start that follows. Entry 10. -/
opaque Config.lostKeepAlive : Nat → Machine.KeepAlive

/-- The quotient of the state of charge where Q_full is 0, from Q_rem. R166 says that Q_full is never so low; only a
lost keep-alive record can hold it. Entry 10. -/
opaque Config.chargeWithoutFull : Nat → Nat

/-- Which of two causes a start reports when a second line holds the main domain during the first hold
(R15 states neither; a cold start reports COLD, R11). Entry 11. -/
opaque Config.secondCause : Nat → Bool

/-- Whether an input line (AUX, BIN_LATCH, DOCK_SENSE) stands at a tick at another level than before. What drives the
lines is outside the part, and a bounce or an edge that no command speaks of is one of its moves (R57). Entry 39. -/
opaque Config.lineMoved : DetectorId → Nat → Bool

end Sys2Proof
end

