-- ==== Sys2Proof/Machine/Codes.lean ====
section
/-! DEFINITION. Bytes and codes of the two lines (R17, R18): numbers to bytes and back, enumerated values to
their codes and back, whole frames. -/

namespace Sys2Proof.Machine

/-! ### Numbers, least significant byte first (R17) -/

def byteOf (n : Nat) : Byte := BitVec.ofNat 8 n
/-- A signed number of one byte, two's complement. -/
def byteOfInt (v : Int) : Byte := BitVec.ofInt 8 v
def flagByte (b : Bool) : Byte := if b then 1 else 0
def bytes2 (n : Nat) : List Byte := [byteOf n, byteOf (n / 256)]
def bytes4 (n : Nat) : List Byte :=
  [byteOf n, byteOf (n / 256), byteOf (n / 65536), byteOf (n / 16777216)]
/-- A signed number of three bytes, two's complement. -/
def bytes3s (v : Int) : List Byte :=
  let w : BitVec 24 := BitVec.ofInt 24 v
  [w.extractLsb' 0 8, w.extractLsb' 8 8, w.extractLsb' 16 8]

def nat2 (lo hi : Byte) : Nat := lo.toNat + 256 * hi.toNat
def nat4 (b0 b1 b2 b3 : Byte) : Nat :=
  b0.toNat + 256 * b1.toNat + 65536 * b2.toNat + 16777216 * b3.toNat
def int1 (b : Byte) : Int := b.toInt
def int3 (b0 b1 b2 : Byte) : Int :=
  (BitVec.ofNat 24 (b0.toNat + 256 * b1.toNat + 65536 * b2.toNat)).toInt
/-- An on/off field: 0 is off and any other byte on (R25). -/
def flagOf (b : Byte) : Bool := decide (b ≠ 0)

/-- A set of four units as one byte: bit k for unit k (R17). -/
def unitBits (f : Four Bool) : Byte :=
  byteOf ((if f.i0 then 1 else 0) + (if f.i1 then 2 else 0) + (if f.i2 then 4 else 0) +
    (if f.i3 then 8 else 0))

/-! ### Reply statuses (R17) -/

/-- The status of a reply. -/
inductive Status where
  | ok | clamped | unknown | length | badSection | badIndex | range | readOnly | held | state | stale
  deriving DecidableEq, Repr

def statusByte : Status → Byte
  | .ok => 0x00
  | .clamped => 0x01
  | .unknown => 0x10
  | .length => 0x11
  | .badSection => 0x12
  | .badIndex => 0x13
  | .range => 0x14
  | .readOnly => 0x15
  | .held => 0x16
  | .state => 0x17
  | .stale => 0x18

/-! ### Enumerated values (R17, Codes) -/

def suctionCode : SuctionState → Byte
  | .off => 0
  | .spinUp => 1
  | .run => 2
  | .held => 3
  | .brake => 4
  | .halt => 5

def haltCode : Option HaltCause → Byte
  | none => 0
  | some .stall => 1
  | some .overcurrent => 2
  | some .stackFull => 3

def packCode : PackState → Byte
  | .discharge => 0
  | .protect => 1
  | .dockedWait => 2
  | .charging .precharge => 3
  | .charging .cc => 4
  | .charging .cv => 5
  | .charging .done => 6
  | .paused _ => 7
  | .fault _ => 8

def faultCode : Option ChargeFault → Byte
  | none => 0
  | some .timeout => 1
  | some .prechargeLimit => 2
  | some .cellOver => 3
  | some .hot => 4
  | some .sense => 5
  | some .declined => 6
  | some .unsuited => 7

def sessionCode : Session → Byte
  | .absent => 0
  | .probing => 1
  | .offered => 2
  | .active => 3
  | .lost => 4

def sourceCode : Source → Byte
  | .binOpen => 1
  | .packLow => 2
  | .packHot => 3
  | .motorHot => 4
  | .docked => 5
  | .watch .i0 => 6
  | .watch .i1 => 7
  | .watch .i2 => 8
  | .watch .i3 => 9
  | .lowCharge => 10
  | .hostCap => 11

def conditionCode : Option ConditionSource → Byte
  | none => 0
  | some .boost => 1
  | some .thermal => 2
  | some .power => 3
  | some .floor => 4
  | some .gauge => 5
  | some .budget => 6
  | some .dirt => 7

def channelCode : ChannelId → Byte
  | .cell => 0
  | .packI => 1
  | .packT => 2
  | .motorT => 3
  | .motorI => 4
  | .speed => 5
  | .dockV => 6
  | .target => 7
  | .dirtNet => 8
  | .soc => 9
  | .budget => 10

def channelOf? (b : Byte) : Option ChannelId :=
  match b.toNat with
  | 0 => some .cell
  | 1 => some .packI
  | 2 => some .packT
  | 3 => some .motorT
  | 4 => some .motorI
  | 5 => some .speed
  | 6 => some .dockV
  | 7 => some .target
  | 8 => some .dirtNet
  | 9 => some .soc
  | 10 => some .budget
  | _ => none

def watchKindCode : WatchKind → Byte
  | .off => 0
  | .gate => 1
  | .trap => 2

def watchKindOf? (b : Byte) : Option WatchKind :=
  match b.toNat with
  | 0 => some .off
  | 1 => some .gate
  | 2 => some .trap
  | _ => none

def watchActionCode : WatchAction → Byte
  | .report => 0
  | .hold => 1
  | .override => 2

def watchActionOf? (b : Byte) : Option WatchAction :=
  match b.toNat with
  | 0 => some .report
  | 1 => some .hold
  | 2 => some .override
  | _ => none

def rateCode : Rate → Byte
  | .ms1 => 0
  | .ms16 => 1
  | .ms250 => 2
  | .s4 => 3

def rateOf? (b : Byte) : Option Rate :=
  match b.toNat with
  | 0 => some .ms1
  | 1 => some .ms16
  | 2 => some .ms250
  | 3 => some .s4
  | _ => none

def modeCode : TimerMode → Byte
  | .oneShot => 0
  | .repeats => 1

def modeOf? (b : Byte) : Option TimerMode :=
  match b.toNat with
  | 0 => some .oneShot
  | 1 => some .repeats
  | _ => none

def trustCode : Trust → Byte
  | .estimated => 0
  | .calibrated => 1

def causeCode : StartCause → Byte
  | .cold => 0
  | .restart => 1
  | .wake => 2
  | .dock => 3
  | .reset => 4
  | .supply => 5

def sectionCode : SectionId → Byte
  | .preset => 0
  | .suction => 1
  | .dirt => 2
  | .gauge => 3
  | .charge => 4
  | .limits => 5
  | .watch => 6
  | .timer => 7
  | .service => 8
  | .notice => 9

def sectionOf? (b : Byte) : Option SectionId :=
  match b.toNat with
  | 0 => some .preset
  | 1 => some .suction
  | 2 => some .dirt
  | 3 => some .gauge
  | 4 => some .charge
  | 5 => some .limits
  | 6 => some .watch
  | 7 => some .timer
  | 8 => some .service
  | 9 => some .notice
  | _ => none

def presetOf? (b : Byte) : Option PresetId :=
  match b.toNat with
  | 0 => some .p0
  | 1 => some .p1
  | 2 => some .p2
  | 3 => some .p3
  | 4 => some .p4
  | 5 => some .p5
  | 6 => some .p6
  | 7 => some .p7
  | _ => none

def presetNo : PresetId → Nat
  | .p0 => 0
  | .p1 => 1
  | .p2 => 2
  | .p3 => 3
  | .p4 => 4
  | .p5 => 5
  | .p6 => 6
  | .p7 => 7

def unitNo : Idx4 → Nat
  | .i0 => 0
  | .i1 => 1
  | .i2 => 2
  | .i3 => 3

def unitOf? (n : Nat) : Option Idx4 :=
  match n with
  | 0 => some .i0
  | 1 => some .i1
  | 2 => some .i2
  | 3 => some .i3
  | _ => none

def noticeCode : NoticeKind → Byte
  | .suction => 0x80
  | .override => 0x81
  | .watch => 0x82
  | .condition => 0x83
  | .dirt => 0x84
  | .pack => 0x85
  | .dock => 0x86
  | .timer => 0x87
  | .service => 0x88
  | .detector => 0x89

/-! ### Frames as bytes -/

/-- The check byte that makes a sum of bytes zero modulo 256 (R17, R18). -/
def checkByte (bytes : List Byte) : Byte := 0 - bytes.foldl (· + ·) 0

/-- A host-link frame on the line (R17): start, length, kind, payload, check. -/
def hostFrameBytes (kind : Byte) (payload : List Byte) : List Byte :=
  let summed := byteOf (payload.length + 1) :: kind :: payload
  0xB4 :: summed ++ [checkByte summed]

/-- The bytes that the transmitter sends for a frame (R9, R17). -/
def frameBytes (f : Frame) : List Byte := hostFrameBytes f.kind f.payload

def dockFrameKind : DockFrame → Byte
  | .probe => 0x11
  | .ask _ _ => 0x12
  | .keep => 0x13
  | .quit => 0x14

def dockFramePayload : DockFrame → List Byte
  | .ask v i => bytes2 v ++ bytes2 i
  | .probe | .keep | .quit => []

/-- A frame on the dock line (R18): kind, length, payload, check. -/
def dockLineBytes (kind : Byte) (payload : List Byte) : List Byte :=
  let summed := kind :: byteOf payload.length :: payload
  summed ++ [checkByte summed]

/-- A frame that the SC6 sends on the dock line (R18). -/
def dockFrameBytes (f : DockFrame) : List Byte := dockLineBytes (dockFrameKind f) (dockFramePayload f)

def dockAnswerKind : DockAnswer → Byte
  | .offer _ _ _ => 0x21
  | .grant _ _ => 0x22
  | .decline _ => 0x23
  | .keepack _ => 0x24

def dockAnswerPayload : DockAnswer → List Byte
  | .offer dockKind maxVoltage maxCurrent =>
      dockKind :: bytes2 maxVoltage.toNat ++ bytes2 maxCurrent.toNat
  | .grant voltage current => bytes2 voltage.toNat ++ bytes2 current.toNat
  | .decline reason => [reason]
  | .keepack current => bytes2 current.toNat

/-- A frame that the dock sends (R18). -/
def dockAnswerBytes (a : DockAnswer) : List Byte := dockLineBytes (dockAnswerKind a) (dockAnswerPayload a)

/-- A two-byte field of a received frame (R18). -/
def word16 (lo hi : Byte) : Word16 := BitVec.ofNat 16 (nat2 lo hi)

/-- Reads the bytes of a received frame: none where the check sum is not zero, where the kind is none that the
dock sends, or where the length byte is not the length of its kind (R18, R178). -/
def dockAnswer? (bytes : List Byte) : Option DockAnswer :=
  if bytes.foldl (· + ·) 0 = (0 : Byte) then
    match bytes with
    | kind :: length :: rest =>
        match kind.toNat, length.toNat, rest with
        | 0x21, 5, [dockKind, v0, v1, i0, i1, _] => some (.offer dockKind (word16 v0 v1) (word16 i0 i1))
        | 0x22, 4, [v0, v1, i0, i1, _] => some (.grant (word16 v0 v1) (word16 i0 i1))
        | 0x23, 1, [reason, _] => some (.decline reason)
        | 0x24, 2, [i0, i1, _] => some (.keepack (word16 i0 i1))
        | _, _, _ => none
    | _ => none
  else none

/-- The ranges of an OFFER (R178). -/
def offerInRange (voltage current : Nat) : Bool :=
  decide (12000 ≤ voltage) && decide (voltage ≤ 30000) && decide (500 ≤ current) &&
    decide (current ≤ 4000)

/-- Whether the bytes that arrived are a miss whatever frame was sent: no frame of R18, or an OFFER out of range
(R178). -/
def alwaysMisses (bytes : List Byte) : Bool :=
  match dockAnswer? bytes with
  | none => true
  | some (.offer _ voltage current) => !offerInRange voltage.toNat current.toNat
  | some (.grant _ _) | some (.decline _) | some (.keepack _) => false

/-- The STARTED notice (R11, R17): cold or warm, the cause, KEEPALIVE_LOST. -/
def startedFrame (cause : StartCause) (keepAliveLost : Bool) : Frame where
  kind := 0x8A
  payload := [flagByte (decide (cause = .cold)), causeCode cause, flagByte keepAliveLost]
  ending := .plain

end Sys2Proof.Machine
end

