-- ==== Sys2Proof/Machine/StartValues.lean ====
section
/-! DEFINITION. What a cold start gives the keep-alive domain and what a warm start gives each block of the
main domain: the tables "Values after start" of the chapters. -/

namespace Sys2Proof.Machine

/-! ### One value for each of a group -/

def Four.all {α : Type} (a : α) : Four α := ⟨a, a, a, a⟩
def Six.all {α : Type} (a : α) : Six α := ⟨a, a, a, a, a, a⟩

/-! ### What a cold start gives the keep-alive domain -/

def RunTime.zero : RunTime := { hours := 0, minutes := 0, seconds := 0 }

/-- The cold defaults of PRESET (R33). -/
def PresetEntry.cold : Eight PresetEntry where
  p0 := { base := 0, step := 0, ceiling := 0, notify := false }
  p1 := { base := 450, step := 50, ceiling := 150, notify := false }
  p2 := { base := 700, step := 80, ceiling := 200, notify := false }
  p3 := { base := 1100, step := 0, ceiling := 0, notify := false }
  p4 := { base := 0, step := 0, ceiling := 0, notify := false }
  p5 := { base := 0, step := 0, ceiling := 0, notify := false }
  p6 := { base := 0, step := 0, ceiling := 0, notify := false }
  p7 := { base := 0, step := 0, ceiling := 0, notify := false }

/-- The keep-alive domain after a cold start: the cold defaults of R33, the gauge values of R176, the
counters of R68, the accumulator of R49, the marker and KEEPALIVE_LOST of R35. -/
def KeepAlive.cold : KeepAlive where
  presets := PresetEntry.cold
  suction :=
    { kFan := 300, sMin := 250, slewUp := 8, slewDown := 20, tKnee := 70, tCut := 110,
      currentLimit := 45000 }
  dirt :=
    { t1 := 60, t2 := 150, t3 := 300, h := 20, floor := 40, floorMax := 400, blank := 50, hold := true }
  gauge := { design := 9000000, qFull := 9000000, cycles := 0 }
  trust := .estimated
  qRem := 0
  discharged := 0
  estimatePending := true
  charge :=
    { iCc := 2000, vCv := 4200, iTerm := 150, iPre := 200, windowLow := 0, windowHigh := 45, cool := 10 }
  limits :=
    { wPackMax := 400, socKnee := 40, vSag := 3300, vCut := 3000, packHot := 60, lowThreshold := 10,
      lowCap := 600 }
  service := { hours := 0, anyHours := false, minutes := 0, anyMinutes := false, enable := false }
  serviceDue := false
  motorTotal := RunTime.zero
  filter := RunTime.zero
  accSum := 0
  accCount := 0
  marker := true
  keepAliveLost := true

/-! ### What a warm start gives each block of the main domain -/

def NoticeMarks.none : NoticeMarks where
  suction := false
  override := false
  watch := false
  condition := false
  dirt := false
  pack := false
  dock := false
  timer := false
  service := false
  detector := false

/-- The warm-start enables of the NOTICE section (R8). -/
def NoticeMarks.warmEnables : NoticeMarks :=
  { NoticeMarks.none with suction := true, override := true, pack := true, dock := true }

/-- The values that a warm start gives the link controller (R16), with STARTED taken by the transmitter (R11). -/
def Link.warm (cause : StartCause) (keepAliveLost : Bool) : Link where
  receiver := .hunt
  queue := []
  slot := none
  closing := false
  overrun := false
  check := false
  gap := false
  notices := NoticeMarks.none
  accWatch := Four.all false
  accTimer := Four.all false
  accDetector := { d0 := none, d1 := none, d2 := none }
  tx := some (startedFrame cause keepAliveLost)
  enables := NoticeMarks.warmEnables
  reports := { inv := false, ovf := false, unf := false, lim := false }

/-- The link controller right after the completion of a warm start: the pack manager's move to DISCHARGE has
asked for the PACK notice, which waits behind STARTED (R158, R159, entry 14). -/
def Link.started (cause : StartCause) (keepAliveLost : Bool) : Link :=
  { Link.warm cause keepAliveLost with notices := { NoticeMarks.none with pack := true } }

/-- The channel table after a warm start: 0, VALID throughout (R49). -/
def Channels.warm : Channels where
  cell := Six.all (.valid 0)
  packI := 0
  packT := .valid 0
  motorT := .valid 0
  motorI := 0
  speed := 0
  dockV := 0
  target := 0
  dirtNet := 0
  soc := 0
  budget := 0

/-- The TIMER section after a warm start (R67). -/
def TimerEntry.warm : Four TimerEntry where
  i0 := { rate := .ms16, preset := 16, mode := .repeats, notice := false }
  i1 := { rate := .s4, preset := 2700, mode := .oneShot, notice := false }
  i2 := { rate := .ms250, preset := 8, mode := .oneShot, notice := false }
  i3 := { rate := .ms1, preset := 1, mode := .oneShot, notice := false }

/-- A detector armed for one edge with debounce 8, 32 ms, and no measurement yet (R59, R60). -/
def Detector.armedFor (p : Polarity) : Detector :=
  { armed := true, polarity := p, debounce := 8, measurement := none }

/-- The timer and detector unit after a warm start that finds both inputs low (R67, R68). A high input is
dealt with by the first evaluation (R60). -/
def Tdu.warm : Tdu where
  clock := 0
  entries := TimerEntry.warm
  timers :=
    { i0 := { rate := .ms16, count := 16, running := true }
      i1 := { rate := .s4, count := 2700, running := false }
      i2 := { rate := .ms250, count := 8, running := false }
      i3 := { rate := .ms1, count := 1, running := false } }
  detectors :=
    { d0 := Detector.armedFor .rising
      d1 := Detector.armedFor .rising
      d2 := { armed := false, polarity := .rising, debounce := 0, measurement := none } }
  runMark := false
  runMs := 0

/-- The warm-start record of a WATCH entry (R85). -/
def WatchRecord.warm : WatchRecord where
  kind := .off
  channel := .cell
  low := 0
  high := 0
  resolution := 0
  action := .report
  cap := 0
  report := false

def Comparison.clear : Comparison := { raised := false, outside := 0 }

/-- The watch unit after a warm start (R85). -/
def Wcu.warm : Wcu where
  entries := Four.all WatchRecord.warm
  comparisons := Four.all Comparison.clear
  hits := Four.all false
  heldAccess := false
  claim := none

def Conditions.clear : Conditions := { inv := none, ovf := none, unf := none, lim := none }

def HardMarks.clear : HardMarks :=
  { binOpen := false, packLow := false, packHot := false, motorHot := false, docked := false }

/-- The suction controller after a warm start (R107, R121, R138). -/
def Snc.warm : Snc where
  suction := .moving .off
  preset := .p0
  adopted := 0
  applied := 0
  marks := HardMarks.clear
  spinUpCount := 0
  stallCount := 0
  overCount := 0
  budget := 0
  stack := []
  boostPermitted := true
  softOverrides := true
  conditions := Conditions.clear

/-- The dirt sensing unit after a warm start (R157). -/
def Dsu.warm : Dsu where
  fine := 0
  coarse := 0
  opening := 0
  dirtLevel := 0
  boostLevel := 0
  quiet := 0
  ring := []

/-- The pack manager after a warm start (R176, R197), before the budget is computed at the completion of
the start. -/
def Pmg.warm : Pmg where
  state := .discharge
  lowMark := false
  hotMark := false
  lowCount := 0
  recoveryCount := 0
  lowCharge := false
  learning := none
  means := []
  foldback := 100
  budget := 0
  askedVoltage := 0
  askedCurrent := 0
  precharge := 0
  taper := 0
  bleedSet := Six.all false

/-- The dock line controller after a warm start (R197). -/
def Dlc.warm : Dlc where
  session := .absent
  offer := none
  askVoltage := 0
  askCurrent := 0
  askDue := false
  probes := 0
  misses := 0
  declines := 0
  dockCurrent := 0
  exchange := none
  retry := none
  quitDue := false
  keepDue := false
  probeDue := false

end Sys2Proof.Machine
end

