-- ==== Sys2Proof/Machine/State.lean ====
section
/-! DEFINITION. The state of the SC6 as plain data and the state right after reset. -/

namespace Sys2Proof.Machine

/-- No command of the SC6 stops the machine with a fault: HALT, a charge fault and the link flags are state,
and refusals of requests are replies (R5, R102, R193). The type has no constructor. -/
inductive Fault where
  deriving DecidableEq, Repr

/-- Why a command has no meaning in the model. -/
inductive Refusal where
  /-- raised by `exec` for a command that has no meaning yet; safe (the machine stops) -/
  | notModelled (mnemonic : String)
  deriving DecidableEq, Repr

/-- The state of the SC6. -/
structure State where
  /-- the keep-alive domain (R33) -/
  ka : KeepAlive
  /-- the link controller, LKC -/
  link : Link
  /-- the settings store's reservation (R22) -/
  reservation : Option Reservation
  /-- the channel table of the measurement unit, MSU -/
  chan : Channels
  /-- the timer and detector unit, TDU -/
  tdu : Tdu
  /-- the watch unit, WCU -/
  wcu : Wcu
  /-- the suction controller, SNC -/
  snc : Snc
  /-- the dirt sensing unit, DSU -/
  dsu : Dsu
  /-- the pack manager, PMG -/
  pmg : Pmg
  /-- the dock line controller, DLC -/
  dlc : Dlc
  /-- whether the main domain runs (R14, R15) -/
  domain : Domain
  /-- the levels of the input lines -/
  pins : Pins
  /-- the bleed outputs BLD1 to BLD6 (R39) -/
  bleedOut : Six Bool
  /-- the model's own: commands that wait, first in first out -/
  pending : List Instr
  /-- the model's own: index of the next free value (Config) -/
  draws : Nat
  deriving DecidableEq, Repr

/-- The state right after reset: the keep-alive domain has powered up with its marker lost, and the cold
start and its warm start have completed with the switch inputs low (R33, R35). STARTED is in transmission
(R11), and the PACK notice of the move to DISCHARGE is pending (R159, entry 14). The budget computed at the
completion sees Q_rem 0 and is 0 W (R176). -/
def State.reset : State where
  ka := KeepAlive.cold
  link := Link.started .cold true
  reservation := none
  chan := Channels.warm
  tdu := Tdu.warm
  wcu := Wcu.warm
  snc := Snc.warm
  dsu := Dsu.warm
  pmg := Pmg.warm
  dlc := Dlc.warm
  domain := .awake
  pins := { dockSense := false, binLatch := false, aux := false, resetLow := false, supplyLow := false }
  bleedOut := Six.all false
  pending := []
  draws := 0

/-! ### Updates, one for each field that commands write -/

def State.modKa (f : KeepAlive → KeepAlive) (s : State) : State := { s with ka := f s.ka }
def State.modLink (f : Link → Link) (s : State) : State := { s with link := f s.link }
def State.setReservation (r : Option Reservation) (s : State) : State := { s with reservation := r }
def State.modChan (f : Channels → Channels) (s : State) : State := { s with chan := f s.chan }
def State.modTdu (f : Tdu → Tdu) (s : State) : State := { s with tdu := f s.tdu }
def State.modWcu (f : Wcu → Wcu) (s : State) : State := { s with wcu := f s.wcu }
def State.modSnc (f : Snc → Snc) (s : State) : State := { s with snc := f s.snc }
def State.modDsu (f : Dsu → Dsu) (s : State) : State := { s with dsu := f s.dsu }
def State.modPmg (f : Pmg → Pmg) (s : State) : State := { s with pmg := f s.pmg }
def State.modDlc (f : Dlc → Dlc) (s : State) : State := { s with dlc := f s.dlc }
def State.setDomain (d : Domain) (s : State) : State := { s with domain := d }
def State.modPins (f : Pins → Pins) (s : State) : State := { s with pins := f s.pins }
def State.setBleedOut (b : Six Bool) (s : State) : State := { s with bleedOut := b }
def State.setPending (p : List Instr) (s : State) : State := { s with pending := p }
def State.setDraws (n : Nat) (s : State) : State := { s with draws := n }

end Sys2Proof.Machine
end

