-- ==== Sys2Proof/Machine/Ops.lean ====
section
/-! DEFINITION. Shared operations: access to groups of like things, notice requests, reservation breaks,
timers, detectors, bleed outputs, and the taking of several events in a free order. -/

namespace Sys2Proof.Machine

/-! ### Groups of like things -/

def allUnits : List Idx4 := [.i0, .i1, .i2, .i3]

def Four.get {α : Type} (f : Four α) : Idx4 → α
  | .i0 => f.i0
  | .i1 => f.i1
  | .i2 => f.i2
  | .i3 => f.i3

def Four.set {α : Type} (f : Four α) (k : Idx4) (a : α) : Four α :=
  match k with
  | .i0 => { f with i0 := a }
  | .i1 => { f with i1 := a }
  | .i2 => { f with i2 := a }
  | .i3 => { f with i3 := a }

def Three.get {α : Type} (f : Three α) : DetectorId → α
  | .d0 => f.d0
  | .d1 => f.d1
  | .d2 => f.d2

def Three.set {α : Type} (f : Three α) (d : DetectorId) (a : α) : Three α :=
  match d with
  | .d0 => { f with d0 := a }
  | .d1 => { f with d1 := a }
  | .d2 => { f with d2 := a }

def Eight.get {α : Type} (f : Eight α) : PresetId → α
  | .p0 => f.p0
  | .p1 => f.p1
  | .p2 => f.p2
  | .p3 => f.p3
  | .p4 => f.p4
  | .p5 => f.p5
  | .p6 => f.p6
  | .p7 => f.p7

def Eight.set {α : Type} (f : Eight α) (p : PresetId) (a : α) : Eight α :=
  match p with
  | .p0 => { f with p0 := a }
  | .p1 => { f with p1 := a }
  | .p2 => { f with p2 := a }
  | .p3 => { f with p3 := a }
  | .p4 => { f with p4 := a }
  | .p5 => { f with p5 := a }
  | .p6 => { f with p6 := a }
  | .p7 => { f with p7 := a }

/-- Members 1 to 6 in order. -/
def Six.toList {α : Type} (f : Six α) : List α := [f.c1, f.c2, f.c3, f.c4, f.c5, f.c6]

def Six.map {α β : Type} (g : α → β) (f : Six α) : Six β :=
  ⟨g f.c1, g f.c2, g f.c3, g f.c4, g f.c5, g f.c6⟩

/-! ### Readings (R36) -/

/-- The value of a VALID record; a NO READING record gives none. -/
def Reading.value? : Reading → Option Int
  | .valid v => some v
  | .noReading => none

/-- The value a record carries on the link: a NO READING record carries 0 (R36, R47). -/
def Reading.shown : Reading → Int
  | .valid v => v
  | .noReading => 0

def Reading.isValid : Reading → Bool
  | .valid _ => true
  | .noReading => false

/-- The values of the VALID members of a CELL record (R38). -/
def validCells (cell : Six Reading) : List Int := (Six.toList cell).filterMap Reading.value?

/-- The least of a list of values, none for the empty list. -/
def least : List Int → Option Int
  | [] => none
  | v :: rest => some (rest.foldl min v)

def greatest : List Int → Option Int
  | [] => none
  | v :: rest => some (rest.foldl max v)

/-- The minimum cell: the lowest VALID member (R38). -/
def lowestCell (cell : Six Reading) : Option Int := least (validCells cell)

/-- The maximum cell: the highest VALID member (R38). -/
def highestCell (cell : Six Reading) : Option Int := greatest (validCells cell)

def allCellsValid (cell : Six Reading) : Bool := (Six.toList cell).all Reading.isValid

/-! ### Events in an order that the manual does not fix (entry 5) -/

def insertAt {α : Type} : Nat → α → List α → List α
  | 0, a, l => a :: l
  | _ + 1, a, [] => [a]
  | n + 1, a, b :: l => b :: insertAt n a l

/-- A list in a free order, with the index of the next free value. A list of fewer than two needs none. -/
def arrange {α : Type} (draws : Nat) : List α → List α × Nat
  | [] => ([], draws)
  | [a] => ([a], draws)
  | a :: b :: l =>
      let rest := arrange draws (b :: l)
      (insertAt (Config.place rest.2 % (rest.1.length + 1)) a rest.1, rest.2 + 1)

/-- Takes separate events of separate blocks one after the other, in a free order
(00_scope, Conventions). -/
def inAnyOrder (events : List (State → State)) (s : State) : State :=
  let order := arrange s.draws events
  order.1.foldl (fun t event => event t) (s.setDraws order.2)

/-! ### Notices (R7) -/

def NoticeMarks.get (m : NoticeMarks) : NoticeKind → Bool
  | .suction => m.suction
  | .override => m.override
  | .watch => m.watch
  | .condition => m.condition
  | .dirt => m.dirt
  | .pack => m.pack
  | .dock => m.dock
  | .timer => m.timer
  | .service => m.service
  | .detector => m.detector

def NoticeMarks.set (m : NoticeMarks) (k : NoticeKind) (b : Bool) : NoticeMarks :=
  match k with
  | .suction => { m with suction := b }
  | .override => { m with override := b }
  | .watch => { m with watch := b }
  | .condition => { m with condition := b }
  | .dirt => { m with dirt := b }
  | .pack => { m with pack := b }
  | .dock => { m with dock := b }
  | .timer => { m with timer := b }
  | .service => { m with service := b }
  | .detector => { m with detector := b }

/-- A request for a notice kind: granted when the kind is enabled, dropped otherwise (R7). -/
def askNotice (k : NoticeKind) (s : State) : State :=
  s.modLink fun l => if l.enables.get k then { l with notices := l.notices.set k true } else l

/-- A request for the WATCH notice, naming its unit. -/
def askWatchNotice (u : Idx4) (s : State) : State :=
  s.modLink fun l =>
    if l.enables.watch then
      { l with notices := l.notices.set .watch true, accWatch := l.accWatch.set u true }
    else l

/-- A request for the TIMER notice, naming its timer. -/
def askTimerNotice (t : Idx4) (s : State) : State :=
  s.modLink fun l =>
    if l.enables.timer then
      { l with notices := l.notices.set .timer true, accTimer := l.accTimer.set t true }
    else l

/-- A request for the DETECTOR notice, naming its detector with the level at detection. -/
def askDetectorNotice (d : DetectorId) (level : Bool) (s : State) : State :=
  s.modLink fun l =>
    if l.enables.detector then
      { l with
        notices := l.notices.set .detector true
        accDetector := l.accDetector.set d (some level) }
    else l

/-! ### The reservation (R30) -/

/-- Whether a write of a range touches an entry inside the reserved range. -/
def Reservation.touchedBy (r : Reservation) (sectionId : SectionId) (first count : Nat) : Bool :=
  decide (r.sectionId = sectionId) && decide (first < r.first + r.count) &&
    decide (r.first < first + count)

/-- A write of a range breaks a reservation that it touches. -/
def breakReservation (sectionId : SectionId) (first count : Nat) (s : State) : State :=
  s.setReservation (s.reservation.map fun r =>
    if r.touchedBy sectionId first count then { r with broken := true } else r)

/-! ### Timers (R51 to R55) -/

/-- A reload: rate and preset from the entry (R51). -/
def Timer.reloadedFrom (e : TimerEntry) (running : Bool) : Timer :=
  { rate := e.rate, count := e.preset, running := running }

def setTimerRunning (k : Idx4) (running : Bool) (s : State) : State :=
  s.modTdu fun t =>
    { t with timers := t.timers.set k (Timer.reloadedFrom (t.entries.get k) running) }

/-- A start reloads the timer and sets its running mark (R52). -/
def startTimer (k : Idx4) (s : State) : State := setTimerRunning k true s

/-- A stop reloads the timer and clears its running mark (R54). -/
def stopTimer (k : Idx4) (s : State) : State := setTimerRunning k false s

/-! ### Detectors (R57, R59) -/

def Polarity.newLevel : Polarity → Bool
  | .rising => true
  | .falling => false

/-- The polarity for the edge that leaves a level. -/
def Polarity.leaving (level : Bool) : Polarity := if level then .falling else .rising

/-- Arms a detector anew: any measurement is dropped. -/
def armDetector (d : DetectorId) (p : Polarity) (debounce : Nat) (s : State) : State :=
  s.modTdu fun t =>
    { t with
      detectors := t.detectors.set d
        { armed := true, polarity := p, debounce := debounce, measurement := none } }

/-- Clears the armed mark and drops the measurement. -/
def disarmDetector (d : DetectorId) (s : State) : State :=
  s.modTdu fun t =>
    { t with
      detectors := t.detectors.set d
        { t.detectors.get d with armed := false, measurement := none } }

/-! ### Bleed outputs (R39) -/

/-- Drives the bleed outputs from the bleed set. -/
def driveBleed (s : State) : State := s.setBleedOut s.pmg.bleedSet

/-- A change of the bleed set outside a suspension: the outputs follow at the same event (R39). -/
def setBleedSet (b : Six Bool) (s : State) : State :=
  driveBleed (s.modPmg fun p => { p with bleedSet := b })

end Sys2Proof.Machine
end

