-- ==== Sys2Proof/Machine/Operands.lean ====
section
/-! DEFINITION. The rounding and the ranges of the converted channels (R38, R40 to R43). -/

namespace Sys2Proof.Machine

/-- A value held at the nearer end of a range. -/
def clampInt (lo hi v : Int) : Int := max lo (min hi v)

def clampNat (lo hi v : Nat) : Nat := max lo (min hi v)

/-- PACK_I in whole mA, truncated toward zero and held to −40000..8000 (R40). -/
def packIOf (microamps : Int) : Int := clampInt (-40000) 8000 (microamps.tdiv 1000)

/-- MOTOR_I: the magnitude in whole mA, truncated and held to 60000 (R40). -/
def motorIOf (microamps : Int) : Nat := min 60000 (microamps.natAbs / 1000)

/-- A half degree is rounded away from zero (R41). -/
def roundHalfAway (millidegrees : Int) : Int :=
  if 0 ≤ millidegrees then (millidegrees + 500) / 1000 else -((-millidegrees + 500) / 1000)

/-- A temperature in whole °C, NO READING outside −40..125 (R41). -/
def temperatureOf (millidegrees : Int) : Reading :=
  let t := roundHalfAway millidegrees
  if -40 ≤ t ∧ t ≤ 125 then .valid t else .noReading

/-- SPEED: 0 below 30 su, held to 1250 (R42). -/
def speedOf (su : Nat) : Nat := if su < 30 then 0 else min 1250 su

/-- DOCK_V in whole mV, truncated and held to 32000 (R43). A conversion below 0 is held at the end of the
channel's range (R36). -/
def dockVOf (microvolts : Int) : Nat := min 32000 (microvolts.tdiv 1000).toNat

/-- A member of a CELL sample (R38): `open1` and `open2` tell whether a tap of the member was found open. -/
def cellOf (open1 open2 : Bool) (millivolts : Int) : Reading :=
  if open1 || open2 then .noReading
  else if 0 ≤ millivolts ∧ millivolts ≤ 5000 then .valid millivolts
  else .noReading

/-- A CELL sample: an open tap k makes members k and k+1 NO READING, an open tap 6 member 6 (R38). -/
def cellsOf (tapOpen : Six Bool) (millivolts : Six Int) : Six Reading where
  c1 := cellOf false tapOpen.c1 millivolts.c1
  c2 := cellOf tapOpen.c1 tapOpen.c2 millivolts.c2
  c3 := cellOf tapOpen.c2 tapOpen.c3 millivolts.c3
  c4 := cellOf tapOpen.c3 tapOpen.c4 millivolts.c4
  c5 := cellOf tapOpen.c4 tapOpen.c5 millivolts.c5
  c6 := cellOf tapOpen.c5 tapOpen.c6 millivolts.c6

end Sys2Proof.Machine
end

