-- ==== Sys2Proof/Machine/Flags.lean ====
section
/-! DEFINITION. The flags: the condition record (R116, R117), the link flags (R4). -/

namespace Sys2Proof.Machine

def Conditions.get (c : Conditions) : ConditionFlag → Option ConditionSource
  | .inv => c.inv
  | .ovf => c.ovf
  | .unf => c.unf
  | .lim => c.lim

def Conditions.set (c : Conditions) (f : ConditionFlag) (src : ConditionSource) : Conditions :=
  match f with
  | .inv => { c with inv := some src }
  | .ovf => { c with ovf := some src }
  | .unf => { c with unf := some src }
  | .lim => { c with lim := some src }

def ReportEnables.get (r : ReportEnables) : ConditionFlag → Bool
  | .inv => r.inv
  | .ovf => r.ovf
  | .unf => r.unf
  | .lim => r.lim

/-- A report of a flag with its source: it sets a clear flag and, with the flag's report enable on, asks for
the CONDITION notice; a set flag keeps its first source (R117). -/
def reportCondition (f : ConditionFlag) (src : ConditionSource) (s : State) : State :=
  match s.snc.conditions.get f with
  | some _ => s
  | none =>
      let t := s.modSnc fun c => { c with conditions := c.conditions.set f src }
      if s.link.reports.get f then askNotice .condition t else t

/-- A report made only when its condition holds. -/
def reportIf (holds : Bool) (f : ConditionFlag) (src : ConditionSource) (s : State) : State :=
  if holds then reportCondition f src s else s

def setCheck (s : State) : State := s.modLink fun l => { l with check := true }
def setGap (s : State) : State := s.modLink fun l => { l with gap := true }
def setOverrun (s : State) : State := s.modLink fun l => { l with overrun := true }

/-- The link flags of a GetStatus reply: bit 0 OVERRUN, bit 1 CHECK, bit 2 GAP (R17). -/
def linkFlagByte (l : Link) : Byte :=
  byteOf ((if l.overrun then 1 else 0) + (if l.check then 2 else 0) + (if l.gap then 4 else 0))

end Sys2Proof.Machine
end

