-- ==== Sys2Proof/Machine/Pipeline.lean ====
section
/-! DEFINITION. The setpoint pipeline: the six stages of one evaluation as arithmetic (R108 to R115). -/

namespace Sys2Proof.Machine

/-- The inputs of an evaluation (R108). -/
structure PipelineInputs where
  base : Nat
  step : Nat
  ceiling : Nat
  level : Nat
  boostPermitted : Bool
  motorT : Reading
  tKnee : Int
  tCut : Int
  budget : Nat
  kFan : Nat
  cap : Nat
  sMin : Nat
  deriving DecidableEq, Repr

/-- What an evaluation yields: the computed target and the conditions that hold in it (R115). -/
structure Computed where
  target : Nat
  boostOver : Bool
  thermalInvalid : Bool
  powerLimited : Bool
  floored : Bool
  deriving DecidableEq, Repr

/-- Whether a speed's modelled power is within a budget, compared exactly (R111, R112). -/
def withinPower (kFan budget speed : Nat) : Bool := decide (kFan * speed ^ 3 ≤ budget * 10 ^ 9)

/-- Tries the bits of the power bound from a high one down. -/
def raiseBound (kFan budget : Nat) : Nat → Nat → Nat
  | 0, s => s
  | n + 1, s =>
      raiseBound kFan budget n
        (if s + 2 ^ n ≤ 1250 && withinPower kFan budget (s + 2 ^ n) then s + 2 ^ n else s)

/-- s_max: the largest whole speed of 0..1250 whose modelled power is within the budget (R111). -/
def powerBound (kFan budget : Nat) : Nat := raiseBound kFan budget 11 0

/-- The effective cap: the smallest cap among unreleased entries, or 1250 (R131). -/
def effectiveCap (stack : List OverrideEntry) : Nat :=
  stack.foldl (fun c e => if e.released then c else min c e.cap) 1250

/-- Whether stage 2 adds boost: P on and L above 0 (R109, R115). -/
def boosts (i : PipelineInputs) : Bool := i.boostPermitted && decide (0 < i.level)

/-- The addition of stage 2 (R109). -/
def boostAddition (i : PipelineInputs) : Nat := if boosts i then min (i.level * i.step) i.ceiling else 0

/-- The derate factor D_t of stage 3, in 256ths (R110). -/
def derateFactor (motorT : Reading) (tKnee tCut : Int) : Nat :=
  match motorT with
  | .noReading => 128
  | .valid t =>
      if t ≤ tKnee then 256
      else if tCut ≤ t then 0
      else (256 * (tCut - t) / (tCut - tKnee)).toNat

/-- The figure of stages 1 and 2: a boosted sum above 1250 is set to 1250, and without boost s2 is s1 (R109). A base
speed above 1250, which only a lost keep-alive record gives, is therefore not held here (entry 10); stage 4 bounds the
target all the same (R111). -/
def stage2 (i : PipelineInputs) : Nat := if boosts i then min 1250 (i.base + boostAddition i) else i.base
/-- Stage 3 (R110). -/
def stage3 (i : PipelineInputs) : Nat := stage2 i * derateFactor i.motorT i.tKnee i.tCut / 256
/-- Stage 4 (R111). -/
def stage4 (i : PipelineInputs) : Nat := min (stage3 i) (powerBound i.kFan i.budget)
/-- Stage 5 (R113). -/
def stage5 (i : PipelineInputs) : Nat := min (stage4 i) i.cap

/-- Whether stage 6 flushes a figure to 0 (R114). -/
def belowMinimum (i : PipelineInputs) : Bool := decide (0 < stage5 i) && decide (stage5 i < i.sMin)

/-- One run of the pipeline, with what it reports (R108 to R115). -/
def pipeline (i : PipelineInputs) : Computed where
  target := if belowMinimum i then 0 else stage5 i
  boostOver := boosts i && decide (1250 < i.base + boostAddition i)
  thermalInvalid := !i.motorT.isValid
  powerLimited := decide (powerBound i.kFan i.budget < stage3 i)
  floored := belowMinimum i

end Sys2Proof.Machine
end

