-- ==== Sys2Proof/Machine/Watch.lean ====
section
/-! DEFINITION. The watch unit: band comparison, traps, gates, hits (R69 to R76, R82). -/

namespace Sys2Proof.Machine

/-- A value in steps of 2 to the power r, rounded down (R70). -/
def quantise (r : Nat) (v : Int) : Int := v / 2 ^ r

/-- Whether a value lies in a record's band at its resolution (R70). -/
def inBand (w : WatchRecord) (v : Int) : Bool :=
  decide (quantise w.resolution w.low ≤ quantise w.resolution v) &&
    decide (quantise w.resolution v ≤ quantise w.resolution w.high)

/-- Whether a sample matches: at least one VALID member in the band (R71). A plain sample is a list of
one. -/
def sampleMatches (w : WatchRecord) (sample : List Reading) : Bool :=
  sample.any fun r =>
    match r with
    | .valid v => inBand w v
    | .noReading => false

/-- What the watch unit tells after a comparison (R75, R76, R82). -/
inductive Telling where
  | raised (unit : Idx4) (cap : Nat)
  | stands (unit : Idx4) (cap : Nat)
  | cleared (unit : Idx4)
  /-- a hit of a claimed unit, told to the pack manager alone -/
  | claimedHit (unit : Idx4)
  deriving DecidableEq, Repr

/-- W2 and W3 are claimed while the claim mark is set (R80). -/
def Wcu.isClaimed (w : Wcu) (u : Idx4) : Bool :=
  w.claim.isSome && (decide (u = .i2) || decide (u = .i3))

/-- A hit of an unclaimed unit: the hit set and, with the report enable on, the WATCH notice (R74). -/
def recordHit (u : Idx4) (s : State) : State :=
  let t := s.modWcu fun w => { w with hits := w.hits.set u true }
  if (s.wcu.entries.get u).report then askWatchNotice u t else t

def setComparison (u : Idx4) (c : Comparison) (s : State) : State :=
  s.modWcu fun w => { w with comparisons := w.comparisons.set u c }

/-- A matching sample of an unclaimed trap (R74, R75). -/
def trapHit (u : Idx4) (s : State) : State × List Telling :=
  let w := s.wcu.entries.get u
  let t := recordHit u s
  if w.action = .override then
    (setComparison u { raised := true, outside := 0 } t,
      [if (s.wcu.comparisons.get u).raised then .stands u w.cap else .raised u w.cap])
  else (t, [])

/-- A sample outside the band of an unclaimed trap (R76). -/
def trapMiss (u : Idx4) (s : State) : State × List Telling :=
  let c := s.wcu.comparisons.get u
  if c.raised then
    if 8 ≤ c.outside + 1 then (setComparison u Comparison.clear s, [.cleared u])
    else
      (setComparison u { c with outside := c.outside + 1 } s,
        [.stands u (s.wcu.entries.get u).cap])
  else (s, [])

/-- The comparison of one sample with one unit (R72, R82). -/
def compareUnit (channel : ChannelId) (sample : List Reading) (u : Idx4) (s : State) :
    State × List Telling :=
  let w := s.wcu.entries.get u
  if w.kind = .trap ∧ w.channel = channel then
    if s.wcu.isClaimed u then (s, if sampleMatches w sample then [.claimedHit u] else [])
    else if sampleMatches w sample then trapHit u s
    else trapMiss u s
  else (s, [])

/-- The comparison of a stored sample with every trap of its channel, at one event (R72). -/
def compareUnits (channel : ChannelId) (sample : List Reading) :
    List Idx4 → State → State × List Telling
  | [], s => (s, [])
  | u :: rest, s =>
      let here := compareUnit channel sample u s
      let there := compareUnits channel sample rest here.1
      (there.1, here.2 ++ there.2)

def compareSample (channel : ChannelId) (sample : List Reading) (s : State) : State × List Telling :=
  compareUnits channel sample allUnits s

/-- Whether some trap names a channel: then the watch unit is told of its stored samples (R44). -/
def Wcu.traps (w : Wcu) (channel : ChannelId) : Bool :=
  allUnits.any fun u =>
    decide ((w.entries.get u).kind = .trap) && decide ((w.entries.get u).channel = channel)

/-- Whether a proposed target matches a gate (R73). -/
def gateMatches (target : Nat) (w : WatchRecord) : Bool :=
  decide (w.kind = .gate) && inBand w target

/-- The answer of the gates to a proposed increase: HOLD when a matching gate has that action (R73). -/
def gatesHold (target : Nat) (w : Wcu) : Bool :=
  allUnits.any fun u =>
    gateMatches target (w.entries.get u) && decide ((w.entries.get u).action = .hold)

/-- Each gate that matches hits (R73, R74). -/
def recordGateHits (target : Nat) (s : State) : State :=
  allUnits.foldl
    (fun t u =>
      if gateMatches target (s.wcu.entries.get u) && !s.wcu.isClaimed u then recordHit u t else t)
    s

end Sys2Proof.Machine
end

