-- ==== Sys2Proof/Machine/Suction.lean ====
section
/-! DEFINITION. The suction controller: states and moves, adoption, evaluation, slew, the stall and
over-current tests, HALT (R86 to R102, R105).

An operation that can change the reported suction state takes `told`: what the dirt sensing unit and the
pack manager do when they are told of the change (R105). Entry 28 says how deep that goes. -/

namespace Sys2Proof.Machine

/-! ### States -/

/-- The state in which the drive stands, outside HALT (R86, R87). -/
def Suction.motion? : Suction → Option Motion
  | .moving m => some m
  | .held m _ => some m
  | .halt _ => none

/-- The reported state (R86, R87). -/
def Suction.reported : Suction → SuctionState
  | .moving .off => .off
  | .moving .spinUp => .spinUp
  | .moving .run => .run
  | .moving .brake => .brake
  | .held _ _ => .held
  | .halt _ => .halt

def Suction.isHalt : Suction → Bool
  | .halt _ => true
  | .moving _ | .held _ _ => false

def Suction.haltCause? : Suction → Option HaltCause
  | .halt c => some c
  | .moving _ | .held _ _ => none

/-- The same state, reported or held, with another motion. -/
def Suction.withMotion (m : Motion) : Suction → Suction
  | .moving _ => .moving m
  | .held _ p => .held m p
  | .halt c => .halt c

/-- The motor is running: SPINUP, RUN or HELD with an adopted target above 0 (R62, R105). -/
def Snc.isRunning (c : Snc) : Bool :=
  match c.suction.reported with
  | .spinUp | .run | .held => decide (0 < c.adopted)
  | .off | .brake | .halt => false

/-- What the drive does with the phase outputs (R86). -/
inductive Drive where
  | outputsOff
  | regulateTo (speed : Nat)
  | brakeTo (speed : Nat)
  deriving DecidableEq, Repr

def State.drive (s : State) : Drive :=
  match s.domain, s.snc.suction.motion? with
  | .awake, some .spinUp | .awake, some .run => .regulateTo s.snc.applied
  | .awake, some .brake => .brakeTo s.snc.applied
  | .awake, some .off | .awake, none | .sleep, _ | .held _, _ => .outputsOff

/-! ### Moves (R96) -/

/-- The motion after the adopted target changes to `target` (R96). -/
def nextMotion (target speed : Nat) : Motion → Motion
  | .off => if 0 < target then .spinUp else .off
  | .brake => if 0 < target then .spinUp else .brake
  | .spinUp => if 0 < target then .spinUp else if 50 ≤ speed then .brake else .off
  | .run => if 0 < target then .run else if 50 ≤ speed then .brake else .off

/-- The applied speed after that change (R96). -/
def nextApplied (target speed applied : Nat) : Motion → Nat
  | .off => if 0 < target then 0 else applied
  | .brake => if 0 < target then min speed target else applied
  | .spinUp | .run => if target = 0 ∧ speed < 50 then 0 else applied

/-- A change of motion starts the spin-up count at entry to SPINUP and the stall count at entry to and exit
from RUN (R96, R100). -/
def Snc.countsFor (old new : Motion) (c : Snc) : Snc :=
  { c with
    spinUpCount := if new = .spinUp ∧ old ≠ .spinUp then 0 else c.spinUpCount
    stallCount := if old = new then c.stallCount else 0 }

/-- Adopts a target, with the moves of R96; the motion is then as `nextMotion` gives. -/
def Snc.adopt (target speed : Nat) (m : Motion) (c : Snc) : Snc :=
  if target = c.adopted then c
  else
    { c.countsFor m (nextMotion target speed m) with
      adopted := target
      applied := nextApplied target speed c.applied m }

/-- The motion after an adoption that may leave the target as it was. -/
def motionAfter (target speed adopted : Nat) (m : Motion) : Motion :=
  if target = adopted then m else nextMotion target speed m

/-- Adopts a target and stands, reported, in the motion that results: an adoption outside HELD or one that
ends HELD (R93 to R96). -/
def Snc.adoptInto (target speed : Nat) (m : Motion) (c : Snc) : Snc :=
  { c.adopt target speed m with suction := .moving (motionAfter target speed c.adopted m) }

/-! ### What the suction controller hands on (R105) -/

/-- Sets or clears the run mark (R62). -/
def setRunMark (s : State) : State :=
  s.modTdu fun t => { t with runMark := s.snc.isRunning }

/-- A stored TARGET sample; it is told to no watch (R45). -/
def storeTarget (s : State) : State :=
  s.modChan fun c => { c with target := s.snc.adopted }

/-- Carries out a change of the suction controller: TARGET is stored when the adopted target changes, the
run mark follows, and a change of the reported state asks for the SUCTION notice and is told (R105, R106). -/
def commitSuction (told : State → State) (f : Snc → Snc) (s : State) : State :=
  let t := s.modSnc f
  let t := if t.snc.adopted = s.snc.adopted then t else storeTarget t
  let t := setRunMark t
  if t.snc.suction.reported = s.snc.suction.reported then t else told (askNotice .suction t)

/-! ### Adoption (R93, R94) -/

/-- Treats a computed target: adopts it, holds it, or replaces the pending target (R93, R94). -/
def takeTarget (told : State → State) (target : Nat) (s : State) : State :=
  let speed := s.chan.speed
  match s.snc.suction with
  | .halt _ => s
  | .held m _ =>
      if s.snc.adopted < target then commitSuction told (fun c => { c with suction := .held m target }) s
      else commitSuction told (Snc.adoptInto target speed m) s
  | .moving m =>
      if target ≤ s.snc.adopted then commitSuction told (Snc.adoptInto target speed m) s
      else
        let t := recordGateHits target s
        if gatesHold target s.wcu then
          commitSuction told (fun c => { c with suction := .held m target }) t
        else commitSuction told (Snc.adoptInto target speed m) t

/-! ### Evaluation (R91, R108, R115) -/

/-- The inputs of an evaluation as they stand (R108). -/
def pipelineInputs (s : State) : PipelineInputs where
  base := (s.ka.presets.get s.snc.preset).base
  step := (s.ka.presets.get s.snc.preset).step
  ceiling := (s.ka.presets.get s.snc.preset).ceiling
  level := s.dsu.boostLevel
  boostPermitted := s.snc.boostPermitted
  motorT := s.chan.motorT
  tKnee := s.ka.suction.tKnee
  tCut := s.ka.suction.tCut
  budget := s.snc.budget
  kFan := s.ka.suction.kFan
  cap := effectiveCap s.snc.stack
  sMin := s.ka.suction.sMin

/-- Reports the conditions that hold in an evaluation (R115). -/
def reportComputed (c : Computed) (s : State) : State :=
  reportIf c.floored .unf .floor <|
    reportIf c.powerLimited .lim .power <|
      reportIf c.thermalInvalid .inv .thermal <|
        reportIf c.boostOver .ovf .boost s

/-- An evaluation: none in HALT; else one run of the pipeline, its reports and its adoption (R91). -/
def evaluate (told : State → State) (s : State) : State :=
  if s.snc.suction.isHalt then s
  else
    let c := pipeline (pipelineInputs s)
    takeTarget told c.target (reportComputed c s)

/-! ### HALT (R102) -/

/-- The suction controller after entry to HALT (R102); a further cause changes nothing. -/
def Snc.halted (cause : HaltCause) (c : Snc) : Snc :=
  if c.suction.isHalt then c
  else
    { c with
      suction := .halt cause
      adopted := 0
      applied := 0
      spinUpCount := 0
      stallCount := 0
      overCount := 0 }

def enterHalt (told : State → State) (cause : HaltCause) (s : State) : State :=
  commitSuction told (Snc.halted cause) s

/-! ### Moves on the measured speed (R97), slew (R98), stall and over-current (R99 to R101) -/

/-- Moves the motion, reported or underlying. -/
def Snc.moveTo (old new : Motion) (c : Snc) : Snc :=
  { c.countsFor old new with suction := c.suction.withMotion new }

/-- The test of SPINUP to RUN (R97). -/
def Snc.spinUpDone (speed : Nat) (c : Snc) : Bool :=
  decide (c.suction.motion? = some .spinUp) && decide (c.applied = c.adopted) &&
    decide (9 * c.adopted ≤ speed * 10)

def Snc.testSpinUp (speed : Nat) (c : Snc) : Snc :=
  if c.spinUpDone speed then c.moveTo .spinUp .run else c

/-- The moves of R97 at a stored SPEED sample. -/
def Snc.speedMoves (speed : Nat) (c : Snc) : Snc :=
  match c.suction.motion? with
  | some .spinUp => c.testSpinUp speed
  | some .brake => if speed < 50 then { c.moveTo .brake .off with applied := 0 } else c
  | some .off => if 50 ≤ speed then c.moveTo .off .brake else c
  | some .run | none => c

/-- One slew step of the applied speed toward the adopted target (R98). -/
def slewed (up down adopted applied : Nat) : Nat :=
  if applied < adopted then min adopted (applied + up)
  else max adopted (applied - down)

/-- The slew step of a control period: in SPINUP, RUN and BRAKE, and applied speed 0 in OFF and HALT
(R92). -/
def Snc.slewStep (e : SuctionEntry) (c : Snc) : Snc :=
  match c.suction.motion? with
  | some .spinUp | some .run | some .brake =>
      { c with applied := slewed e.slewUp e.slewDown c.adopted c.applied }
  | some .off | none => { c with applied := 0 }

/-- The spin-up stall test is due at the hundredth period of a SPINUP (R99). -/
def Snc.spinUpStalls (speed : Nat) (c : Snc) : Bool :=
  decide (c.suction.motion? = some .spinUp) && decide (c.spinUpCount = 99) &&
    decide (speed * 5 < c.applied)

def Snc.countSpinUp (c : Snc) : Snc :=
  if c.suction.motion? = some .spinUp ∧ c.spinUpCount < 100 then
    { c with spinUpCount := c.spinUpCount + 1 }
  else c

/-- A SPEED sample in RUN: slow when twice the speed is below the applied speed (R100). -/
def Snc.countStall (speed : Nat) (c : Snc) : Snc :=
  match c.suction.motion? with
  | some .run => { c with stallCount := if speed * 2 < c.applied then c.stallCount + 1 else 0 }
  | some .off | some .spinUp | some .brake | none => c

/-- A MOTOR_I sample outside HALT (R101). -/
def Snc.countOver (current limit : Nat) (c : Snc) : Snc :=
  if c.suction.isHalt then c
  else { c with overCount := if limit < current then c.overCount + 1 else 0 }

/-- What a stored SPEED sample does in the suction controller (R97, R100). A sample that moves SPINUP to RUN
is not slow (R97), so the stall count is 0 after it. -/
def speedTold (told : State → State) (s : State) : State :=
  let speed := s.chan.speed
  if s.snc.suction.motion? = some .run then
    let t := s.modSnc (Snc.countStall speed)
    if 21 ≤ t.snc.stallCount then enterHalt told .stall t else t
  else commitSuction told (Snc.speedMoves speed) s

/-- What a stored MOTOR_I sample does (R101). -/
def motorITold (told : State → State) (s : State) : State :=
  let t := s.modSnc (Snc.countOver s.chan.motorI s.ka.suction.currentLimit)
  if 3 ≤ t.snc.overCount then enterHalt told .overcurrent t else t

/-- A control period: evaluation, slew step, test of SPINUP to RUN, spin-up stall test, in this order
(R92). -/
def controlPeriod (told : State → State) (s : State) : State :=
  let t := evaluate told s
  let t := t.modSnc (Snc.slewStep t.ka.suction)
  let t := commitSuction told (Snc.testSpinUp t.chan.speed) t
  if t.snc.spinUpStalls t.chan.speed then enterHalt told .stall (t.modSnc Snc.countSpinUp)
  else t.modSnc Snc.countSpinUp

end Sys2Proof.Machine
end

