-- ==== Sys2Proof/Machine/Overrides.lean ====
section
/-! DEFINITION. The override stack: push, reactivation, release, pop chain, the hard condition marks, the
full stack (R103, R122 to R130, R133, R137). The stack is held newest entry first. -/

namespace Sys2Proof.Machine

/-- The class of a source (R123). -/
def Source.isHard : Source → Bool
  | .binOpen | .packLow | .packHot | .motorHot | .docked => true
  | .watch _ | .lowCharge | .hostCap => false

/-- The hard condition mark of a source; a soft source has none. -/
def HardMarks.get (m : HardMarks) : Source → Bool
  | .binOpen => m.binOpen
  | .packLow => m.packLow
  | .packHot => m.packHot
  | .motorHot => m.motorHot
  | .docked => m.docked
  | .watch _ | .lowCharge | .hostCap => false

def HardMarks.set (m : HardMarks) (src : Source) (b : Bool) : HardMarks :=
  match src with
  | .binOpen => { m with binOpen := b }
  | .packLow => { m with packLow := b }
  | .packHot => { m with packHot := b }
  | .motorHot => { m with motorHot := b }
  | .docked => { m with docked := b }
  | .watch _ | .lowCharge | .hostCap => m

/-! ### The stack as data -/

def findEntry (src : Source) (stack : List OverrideEntry) : Option OverrideEntry :=
  stack.find? fun e => decide (e.source = src)

/-- Rewrites the entry of a source. -/
def mapEntry (src : Source) (f : OverrideEntry → OverrideEntry) (stack : List OverrideEntry) :
    List OverrideEntry :=
  stack.map fun e => if e.source = src then f e else e

/-- A push: the entry saves the active boost-permitted flag, which is then cleared (R125). -/
def Snc.push (src : Source) (cap : Nat) (c : Snc) : Snc :=
  { c with
    stack := { source := src, cap := cap, saved := c.boostPermitted, released := false } :: c.stack
    boostPermitted := false }

/-- A reactivation: the entry keeps its place and its saved flag (R126). -/
def Snc.reactivate (src : Source) (cap : Nat) (c : Snc) : Snc :=
  { c with stack := mapEntry src (fun e => { e with cap := cap, released := false }) c.stack }

/-- Whether an unreleased entry of the source stands in the stack. -/
def Snc.hasUnreleased (src : Source) (c : Snc) : Bool :=
  c.stack.any fun e => decide (e.source = src) && !e.released

/-- What a raise or stand does to the stack: a push, a reactivation, or nothing (R125, R126). -/
def Snc.raised? (src : Source) (cap : Nat) (c : Snc) : Option Snc :=
  match findEntry src c.stack with
  | some e => if e.released then some (c.reactivate src cap) else none
  | none => if c.stack.length < 4 then some (c.push src cap) else none

/-- Pops the released entries that a pop has brought to the top; the flag is the one the last pop put
back (R130). -/
def dropReleased : List OverrideEntry → Bool → List OverrideEntry × Bool
  | [], flag => ([], flag)
  | e :: rest, flag => if e.released then dropReleased rest e.saved else (e :: rest, flag)

/-- A pop chain (R130). -/
def Snc.popChain (c : Snc) : Snc :=
  match c.stack with
  | [] => c
  | e :: rest =>
      let left := dropReleased rest e.saved
      { c with stack := left.1, boostPermitted := left.2 }

/-- Sets the released mark of a source's entry (R129). -/
def Snc.markReleased (src : Source) (c : Snc) : Snc :=
  { c with stack := mapEntry src (fun e => { e with released := true }) c.stack }

/-- What a clear does to the stack: nothing, a pop chain, or a released mark (R129). -/
def Snc.cleared? (src : Source) (c : Snc) : Option Snc :=
  if c.hasUnreleased src then
    match c.stack with
    | e :: _ => if e.source = src then some c.popChain else some (c.markReleased src)
    | [] => none
  else none

/-! ### Stack changes (R137) -/

/-- A stack change: the OVERRIDE notice, then an evaluation outside HALT (R137). -/
def stackChange (told : State → State) (c : Snc) (s : State) : State :=
  evaluate told (askNotice .override (s.modSnc fun _ => c))

/-- A stack change where there is one. -/
def changeStack (told : State → State) (c : Option Snc) (s : State) : State :=
  match c with
  | some c => stackChange told c s
  | none => s

/-- A soft source is raised or stands (R124 to R127, R133). -/
def raiseSoft (told : State → State) (src : Source) (cap : Nat) (s : State) : State :=
  if s.snc.softOverrides then changeStack told (s.snc.raised? src cap) s else s

/-- A soft source is cleared (R129). -/
def clearSoft (told : State → State) (src : Source) (s : State) : State :=
  changeStack told (s.snc.cleared? src) s

def setMark (src : Source) (b : Bool) (s : State) : State :=
  s.modSnc fun c => { c with marks := c.marks.set src b }

/-- A hard source is raised: nothing when its mark is set; else the mark, and a push, a reactivation, or HALT
with STACK_FULL (R103, R125, R126, R128). -/
def raiseHard (told : State → State) (src : Source) (s : State) : State :=
  if s.snc.marks.get src then s
  else
    let t := setMark src true s
    if findEntry src t.snc.stack = none ∧ 4 ≤ t.snc.stack.length then enterHalt told .stackFull t
    else changeStack told (t.snc.raised? src 0) t

/-- A hard source is cleared: nothing when its mark is clear (R103, R129). -/
def clearHard (told : State → State) (src : Source) (s : State) : State :=
  if s.snc.marks.get src then
    let t := setMark src false s
    changeStack told (t.snc.cleared? src) t
  else s

/-! ### Tellings of the watch unit to the suction controller -/

/-- The suction controller takes a telling of the watch unit (R75, R76). A claimed hit is not for it. -/
def deliverOverride (told : State → State) (t : Telling) (s : State) : State :=
  match t with
  | .raised u cap | .stands u cap => raiseSoft told (.watch u) cap s
  | .cleared u => clearSoft told (.watch u) s
  | .claimedHit _ => s

/-- Whether a telling of the watch unit is for the suction controller, which acts on it at once (R124); a hit of
a claimed unit is for the pack manager (R82). -/
def Telling.isOverride : Telling → Bool
  | .raised _ _ | .stands _ _ | .cleared _ => true
  | .claimedHit _ => false

/-- The watch unit's event at a stored sample: every trap of the channel compares, and the suction controller acts
at once on what the raised and cleared conditions tell it, in a free order among the units (R72, R75, R76, R124).
The hits of claimed units are left to be told. -/
def watchEvent (deliver : Telling → State → State) (channel : ChannelId) (sample : List Reading) (s : State) :
    State × List Telling :=
  let compared := compareSample channel sample s
  (inAnyOrder ((compared.2.filter Telling.isOverride).map deliver) compared.1,
    compared.2.filter fun t => !t.isOverride)

/-- The reported state is OFF or HALT, on whose entry the dirt sensing unit acts (R105, R153). -/
def Snc.rests (c : Snc) : Bool :=
  match c.suction.reported with
  | .off | .halt => true
  | .spinUp | .run | .held | .brake => false

/-- Between two states the reported state has entered OFF or HALT (R105). -/
def entersRest (before after : State) : Bool :=
  decide (after.snc.suction.reported ≠ before.snc.suction.reported) && after.snc.rests

/-- Takes events in turn, and tells whether one of them entered OFF or HALT. -/
def takeNotingRest (events : List (State → State)) (s : State) : State × Bool :=
  events.foldl (fun t event => (event t.1, t.2 || entersRest t.1 (event t.1))) (s, false)

/-- The comparison of a stored sample at a place that the rule of its owner gives it (R145): the watch unit's event,
with whether something that it told entered OFF or HALT. No claimed unit names such a channel (R81), so no hit is left
to be told. -/
def compareNow (deliver : Telling → State → State) (channel : ChannelId) (sample : List Reading) (s : State) :
    State × Bool :=
  if s.wcu.traps channel then
    let compared := compareSample channel sample s
    let order := arrange compared.1.draws ((compared.2.filter Telling.isOverride).map deliver)
    takeNotingRest order.1 (compared.1.setDraws order.2)
  else (s, false)

/-- A stored sample is told to the watch unit, when a trap names its channel, and `others` are the events of
the other blocks that are told. The watch unit's event falls before or after them, and its claimed hits are taken
with what is left of them; each order is free (R44, R72, entry 26). -/
def compareAmong (deliver : Telling → State → State) (channel : ChannelId) (sample : List Reading)
    (others : List (State → State)) (s : State) : State :=
  if s.wcu.traps channel then
    let t := s.setDraws (s.draws + 1)
    if Config.place s.draws % 2 = 0 then
      let watched := watchEvent deliver channel sample t
      inAnyOrder (others ++ watched.2.map deliver) watched.1
    else
      let watched := watchEvent deliver channel sample (inAnyOrder others t)
      inAnyOrder (watched.2.map deliver) watched.1
  else inAnyOrder others s

/-- MOTOR_HOT at a stored MOTOR_T sample (R103). -/
def motorTTold (told : State → State) (s : State) : State :=
  match s.chan.motorT with
  | .noReading => s
  | .valid t =>
      if s.snc.marks.motorHot then
        if t ≤ s.ka.suction.tKnee then clearHard told .motorHot s else s
      else if s.ka.suction.tCut ≤ t then raiseHard told .motorHot s else s

/-- A detection of D1: the bin opens or closes; D1 is re-armed (R59, R103). -/
def binDetected (told : State → State) (level : Bool) (s : State) : State :=
  let t := armDetector .d1 (Polarity.leaving level) 8 s
  if level then raiseHard told .binOpen t else clearHard told .binOpen t

end Sys2Proof.Machine
end

