-- ==== Sys2Proof/Machine/Dirt.lean ====
section
/-! DEFINITION. The dirt sensing unit: impacts, windows, classification, floor, boost level, history
(R139 to R156). -/

namespace Sys2Proof.Machine

/-! ### Impacts (R140, R141) -/

/-- One impact on a counter of 0..4095 (R141). -/
def countImpact (n : Nat) : Nat := min 4095 (n + 1)

def impactCounted (p : Pulse) (s : State) : State :=
  match p with
  | .faint => s
  | .fine =>
      let n := countImpact s.dsu.fine
      reportIf (decide (n = 4095)) .ovf .dirt (s.modDsu fun d => { d with fine := n })
  | .coarse =>
      let n := countImpact s.dsu.coarse
      reportIf (decide (n = 4095)) .ovf .dirt (s.modDsu fun d => { d with coarse := n })

/-! ### The boost level (R149 to R153) -/

/-- Gives the boost level a value; a change asks for the DIRT notice (R152). -/
def takeBoostLevel (n : Nat) (s : State) : State :=
  if n = s.dsu.boostLevel then s
  else askNotice .dirt (s.modDsu fun d => { d with boostLevel := n })

/-- Sets the boost level; a change is told to the suction controller, which evaluates (R152). -/
def setBoostLevel (told : State → State) (n : Nat) (s : State) : State :=
  if n = s.dsu.boostLevel then s else evaluate told (takeBoostLevel n s)

/-- Entry of the suction controller to OFF or HALT (R153). -/
def dirtStop (told : State → State) (s : State) : State :=
  setBoostLevel told 0
    (stopTimer .i2 (s.modDsu fun d => { d with dirtLevel := 0, quiet := 0 }))

/-- The end of the boost hold: an expiry of T2 (R151). -/
def boostHoldEnd (told : State → State) (s : State) : State := setBoostLevel told s.dsu.dirtLevel s

/-! ### Windows (R142 to R148) -/

inductive Fate where
  | discarded | blanked | classified
  deriving DecidableEq, Repr

/-- The fate of a closing window (R143). -/
def windowFate (state : SuctionState) (applied opening blank : Nat) : Fate :=
  match state with
  | .off | .brake | .halt => .discarded
  | .spinUp => .blanked
  | .run | .held =>
      if blank < applied - opening ∨ blank < opening - applied then .blanked else .classified

/-- The threshold of a dirt level (R139). -/
def threshold (e : DirtEntry) : Nat → Nat
  | 0 => 0
  | 1 => e.t1
  | 2 => e.t2
  | _ => e.t3

/-- The highest threshold met (R146). -/
def highestMet (e : DirtEntry) (net : Nat) : Nat :=
  if e.t3 ≤ net then 3 else if e.t2 ≤ net then 2 else if e.t1 ≤ net then 1 else 0

/-- The dirt level after a classified window (R146): a net below T_k − H lowers it by one. -/
def nextDirtLevel (e : DirtEntry) (k net : Nat) : Nat :=
  if k < highestMet e net then highestMet e net
  else if 0 < k ∧ net + e.h < threshold e k then k - 1
  else k

/-- The score of a window (R145). -/
def windowScore (fine coarse : Nat) : Nat := fine + 4 * coarse

/-- The floor after an adaptation (R148). -/
def adaptedFloor (e : DirtEntry) (score : Nat) : Nat :=
  (clampInt 0 e.floorMax (e.floor + ((score : Int) - e.floor).tdiv 8)).toNat

/-- Appends a record as the newest of at most 16 (R155). -/
def appendRecord (r : WindowRecord) (ring : List WindowRecord) : List WindowRecord :=
  (if 16 ≤ ring.length then ring.drop 1 else ring) ++ [r]

/-- The floor adaptation: a part-made write of DIRT (R148, R32). -/
def adaptFloor (score : Nat) (s : State) : State :=
  breakReservation .dirt 0 1
    (s.modKa fun k => { k with dirt := { k.dirt with floor := adaptedFloor k.dirt score } })

/-- The quiet-run count, and the adaptation when it reaches 8 (R147). -/
def advanceQuiet (level score : Nat) (s : State) : State :=
  if level = 0 then
    if 8 ≤ s.dsu.quiet + 1 then adaptFloor score (s.modDsu fun d => { d with quiet := 0 })
    else s.modDsu fun d => { d with quiet := d.quiet + 1 }
  else s.modDsu fun d => { d with quiet := 0 }

/-- How a classified close moves the boost level and T2 (R149, R150); `before` is the dirt level before the
close. DEDUCED (entry 41): with boost hold turned off during a hold, a rise that stays below the boost level leaves
the boost level and T2, as R149 says of a rise, though R150 says that with hold off the two levels are equal from the
first change of the dirt level. -/
def moveBoost (before : Nat) (s : State) : State :=
  let level := s.dsu.dirtLevel
  if before < level then
    if s.dsu.boostLevel ≤ level then takeBoostLevel level (stopTimer .i2 s) else s
  else if level < before then
    if s.ka.dirt.hold then startTimer .i2 s else takeBoostLevel level (stopTimer .i2 s)
  else s

/-- The net of the window that closes (R145). -/
def windowNet (s : State) : Nat := windowScore s.dsu.fine s.dsu.coarse - s.ka.dirt.floor

/-- Stores the net of the window that closes into DIRT_NET (R145). -/
def storeNet (s : State) : State := s.modChan fun c => { c with dirtNet := windowNet s }

/-- What the close of a classified window does in the dirt sensing unit after the net is stored and compared, in the
order of R145: dirt level, record, quiet run with the floor, boost level. `applied` is the applied speed read at
the close (R142). -/
def classifyWindow (applied : Nat) (s : State) : State :=
  let score := windowScore s.dsu.fine s.dsu.coarse
  let before := s.dsu.dirtLevel
  let level := nextDirtLevel s.ka.dirt before (windowNet s)
  let record : WindowRecord :=
    { fine := s.dsu.fine
      coarse := s.dsu.coarse
      applied := applied
      classified := some { score := score, net := windowNet s, level := level } }
  let t := s.modDsu fun d => { d with dirtLevel := level, ring := appendRecord record d.ring }
  moveBoost before (advanceQuiet level score t)

/-- The close of a blanked window (R144). -/
def closeBlanked (s : State) : State :=
  s.modDsu fun d =>
    { d with
      ring := appendRecord
        { fine := d.fine, coarse := d.coarse, applied := s.snc.applied, classified := none } d.ring }

/-- The next window opens with both counters at 0 and the applied speed read at the close (R142). -/
def openWindow (applied : Nat) (s : State) : State :=
  s.modDsu fun d => { d with fine := 0, coarse := 0, opening := applied }

/-- The close of a classified window (R145): the net is stored and the watch unit compares it; what that tells the
suction controller is acted on at once, at the boost level before the close (R124). The dirt level and the boost level
move after it, and a changed boost level is told to the suction controller (R152). The close is one event of the dirt
sensing unit, so an entry to OFF that the comparison leads to, though a further telling of it leaves OFF again, reaches
the unit after the close, and the pack manager with it (R105, R153, entry 28). -/
def closeClassified (told : State → State) (s : State) : State :=
  let applied := s.snc.applied
  let stored := storeNet s
  let compared := compareNow (deliverOverride id) .dirtNet [.valid stored.chan.dirtNet] stored
  let closed := openWindow applied (classifyWindow applied compared.1)
  let t := if compared.2 then told (dirtStop id closed) else closed
  if closed.dsu.boostLevel = s.dsu.boostLevel then t else evaluate told t

/-- The close of the current window and the opening of the next: an expiry of T0 (R142, R143). -/
def windowClose (told : State → State) (s : State) : State :=
  let applied := s.snc.applied
  match windowFate s.snc.suction.reported applied s.dsu.opening s.ka.dirt.blank with
  | .discarded => openWindow applied s
  | .blanked => openWindow applied (closeBlanked s)
  | .classified => closeClassified told s

/-! ### The history ring (R156) -/

/-- The records a ReadDirtHistory of count n returns (R156). -/
def historyPage (n : Nat) (ring : List WindowRecord) : List WindowRecord :=
  let m := min n ring.length
  (ring.drop (ring.length - m)).take 5

end Sys2Proof.Machine
end

