-- ==== Sys2Proof/Machine/DockLine.lean ====
section
/-! DEFINITION. The dock line controller's side of the line: sending, session changes, the handing over of
an asked pair, the leave-charging order (R177 to R183). -/

namespace Sys2Proof.Machine

/-! ### Sending (R178) -/

/-- Starts an exchange with a frame. -/
def Dlc.send (f : DockFrame) (d : Dlc) : Dlc :=
  { d with exchange := some { frame := f, awaiting := false, newer := false, ordered := false } }

/-- OFFERED or ACTIVE: the states in which an ASK may be sent (R181). -/
def Session.asks : Session → Bool
  | .offered | .active => true
  | .absent | .probing | .lost => false

/-- PROBING or LOST: the states in which a PROBE may be sent (R180). -/
def Session.probes : Session → Bool
  | .probing | .lost => true
  | .absent | .offered | .active => false

/-- Starts the exchange that is due when the line is free: QUIT (R183), else ASK (R181), which takes the
place of a KEEP that is due with it (R178), else KEEP, else PROBE (R180). -/
def Dlc.serve (d : Dlc) : Dlc :=
  if d.exchange.isSome then d
  else if d.quitDue then { d.send .quit with quitDue := false }
  else if d.session.asks ∧ d.askDue ∧ d.retry = none then
    { d.send (.ask d.askVoltage d.askCurrent) with keepDue := false }
  else if d.session = .active ∧ d.keepDue then { d.send .keep with keepDue := false }
  else if d.session.probes ∧ d.probeDue then
    { d.send .probe with
      probeDue := false
      probes := if d.session = .probing then d.probes + 1 else d.probes }
  else d

def serveLine (s : State) : State := s.modDlc Dlc.serve

/-! ### Session changes (R177) -/

/-- A change of the session state: the counts return to 0, the dock current at an exit from ACTIVE; frames of
the old state are no longer due (R177, entry 23). -/
def Dlc.enter (new : Session) (d : Dlc) : Dlc :=
  { d with
    session := new
    probes := 0
    misses := 0
    declines := 0
    dockCurrent := if d.session = .active then 0 else d.dockCurrent
    retry := if new.asks then d.retry else none
    quitDue := false
    keepDue := false
    probeDue := false }

/-- Moves the session and asks for the DOCK notice; none to the state already held (R177). -/
def setSession (new : Session) (s : State) : State :=
  if s.dlc.session = new then s else askNotice .dock (s.modDlc (Dlc.enter new))

/-- Clears the asked pair and the ask-due mark (R179, R180). -/
def Dlc.clearAsk (d : Dlc) : Dlc := { d with askVoltage := 0, askCurrent := 0, askDue := false }

/-- Abandons the exchange and clears the stored offer and the asked pair (R179). -/
def Dlc.abandon (d : Dlc) : Dlc := { d.clearAsk with exchange := none, offer := none }

/-! ### What the pack manager hands over -/

/-- The pack manager hands over its asked pair (R181): the ask-due mark is set, and an exchange in progress
learns that the pair is newer. -/
def handOver (s : State) : State :=
  let voltage := s.pmg.askedVoltage
  let current := s.pmg.askedCurrent
  serveLine (s.modDlc fun d =>
    { d with
      askVoltage := voltage
      askCurrent := current
      askDue := true
      exchange := d.exchange.map fun x => { x with newer := true } })

def DockFrame.isAsk : DockFrame → Bool
  | .ask _ _ => true
  | .probe | .keep | .quit => false

/-- The leave-charging order (R183): the asked current is 0 and no ASK is due; in ACTIVE a QUIT is due, and
in OFFERED an ASK in progress is marked. -/
def leaveOrder (s : State) : State :=
  serveLine (s.modDlc fun d =>
    { d with
      askCurrent := 0
      askDue := false
      quitDue := d.quitDue || decide (d.session = .active)
      exchange := d.exchange.map fun x =>
        if d.session = .offered ∧ x.frame.isAsk then { x with ordered := true } else x })

end Sys2Proof.Machine
end

