-- ==== Sys2Proof/Machine/Pack.lean ====
section
/-! DEFINITION. The pack manager away from the charge: gauge, learning, run-time estimate, foldback, budget,
LOW_CHARGE, the marks and counts of protection, changes of the pack state (R158 to R175). -/

namespace Sys2Proof.Machine

/-! ### The gauge (R164 to R170) -/

/-- The state of charge in whole percent, 0 to 100 (R166). A figure above 100, which only a lost keep-alive record
gives, is held at the end of the range of SOC (R36), and where such a record holds Q_full 0, for which R166 states no
quotient, the figure is a free value of that range (entry 10). -/
def stateOfCharge (k : KeepAlive) : Nat :=
  min 100 (if k.gauge.qFull = 0 then Config.chargeWithoutFull k.qRem else k.qRem * 100 / k.gauge.qFull)

/-- The lower end of Q_full: 50 % of the design capacity, rounded up (R24, R164). -/
def qFullLow (design : Nat) : Nat := (design + 1) / 2

/-- The upper end of Q_full: 110 % of the design capacity, rounded down (R24, R164). -/
def qFullHigh (design : Nat) : Nat := design * 11 / 10

/-- The mean of a gauge second, truncated toward zero (R165). A second without a sample, which R48 excludes,
has a free mean within the range of R40 (entry 8). -/
def meanOf (sum : Int) (count draws : Nat) : Int :=
  if count = 0 then clampInt (-40000) 8000 (Config.emptyMean draws) else sum.tdiv count

/-- Q_rem after a second's mean, clamped to 0..Q_full (R165). -/
def integrated (mean : Int) (k : KeepAlive) : Nat :=
  (clampInt 0 k.gauge.qFull (k.qRem + mean)).toNat

/-- The clamp at 0 (R165). -/
def clampsLow (mean : Int) (k : KeepAlive) : Bool := decide ((k.qRem : Int) + mean < 0)
/-- The clamp at Q_full (R165). -/
def clampsHigh (mean : Int) (k : KeepAlive) : Bool := decide ((k.gauge.qFull : Int) < k.qRem + mean)

/-- The magnitude a mean adds to the discharge accumulator (R168). -/
def dischargeOf (mean : Int) : Nat := (-mean).toNat

/-- Whether the second's mean meets Q_full in the discharge accumulator (R168). DEDUCED (entry 43): an excess that
remains is counted at the later seconds with a negative mean alone, though R168 says "at the seconds that follow". -/
def countsCycle (mean : Int) (k : KeepAlive) : Bool :=
  decide (mean < 0) && decide (k.gauge.qFull ≤ k.discharged + dischargeOf mean)

/-- Step 2 of a gauge second: the discharge accumulator and the cycle count, a part-made write (R168). -/
def countDischarge (mean : Int) (s : State) : State :=
  let total := s.ka.discharged + dischargeOf mean
  if countsCycle mean s.ka then
    let t := s.modKa fun k => { k with discharged := total - k.gauge.qFull }
    if s.ka.gauge.cycles < 65535 then
      breakReservation .gauge 0 1
        (t.modKa fun k => { k with gauge := { k.gauge with cycles := k.gauge.cycles + 1 } })
    else t
  else s.modKa fun k => { k with discharged := total }

/-- The estimate of Q_rem from the lowest VALID cell (R167). -/
def estimateOf (qFull : Nat) (lowest : Option Int) : Nat :=
  match lowest with
  | none => 0
  | some v =>
      if v ≤ 3300 then 0
      else if 4150 ≤ v then qFull
      else ((qFull : Int) * (v - 3300) / 850).toNat

/-- Takes the estimate at the first CELL sample after a cold start (R167). -/
def takeEstimate (s : State) : State :=
  if s.ka.estimatePending then
    s.modKa fun k =>
      { k with
        qRem := estimateOf k.gauge.qFull (lowestCell s.chan.cell)
        estimatePending := false }
  else s

/-- Q_full after a learning run: a quarter of the way, within its range (R170). -/
def learnedQFull (run : Learning) (g : GaugeEntry) : Nat :=
  let new : Int := run.qStart + run.added
  (clampInt (qFullLow g.design) (qFullHigh g.design)
    (g.qFull + (new - g.qFull).tdiv 4)).toNat

/-- The first step of R170 at entry to DONE: a part-made write, and the run is cleared. -/
def learn (s : State) : State :=
  match s.pmg.learning with
  | none => s
  | some run =>
      (breakReservation .gauge 0 1
        (s.modKa fun k => { k with gauge := { k.gauge with qFull := learnedQFull run k.gauge } })).modPmg
        fun p => { p with learning := none }

/-- What entry to DONE does in the gauge (R170). -/
def doneGauge (s : State) : State :=
  (learn s).modKa fun k => { k with qRem := k.gauge.qFull, trust := .calibrated }

/-! ### The run-time estimate (R172) -/

/-- Keeps a mean among the last eight (R172). -/
def keepMean (mean : Int) (means : List Int) : List Int :=
  (if 8 ≤ means.length then means.drop 1 else means) ++ [mean]

/-- The run-time estimate in minutes; 65535 is none (R172). -/
def runTimeEstimate (s : State) : Nat :=
  let current := -(s.pmg.means.foldl (· + ·) 0).tdiv 8
  if (s.snc.suction.reported = .run ∨ s.snc.suction.reported = .held) ∧
      s.pmg.means.length = 8 ∧ 100 ≤ current then
    min 65534 (s.ka.qRem / (current.toNat * 60))
  else 65535

/-! ### Foldback and budget (R173, R174) -/

/-- The foldback after its update (R173). -/
def nextFoldback (running : Bool) (lowest : Option Int) (vSag f : Nat) : Nat :=
  match lowest with
  | none => f
  | some v =>
      if running ∧ v < vSag then f - 5
      else if (vSag : Int) + 100 ≤ v then min 100 (f + 1)
      else f

/-- A NO READING among the CELL members and PACK_T (R174). -/
def packBlind (c : Channels) : Bool := !allCellsValid c.cell || !c.packT.isValid

/-- The budget of DISCHARGE before halving (R174, steps 1 and 2). -/
def fullBudget (k : KeepAlive) (foldback : Nat) : Nat :=
  let soc := stateOfCharge k
  let wSoc :=
    if k.limits.socKnee ≤ soc then k.limits.wPackMax
    else k.limits.wPackMax * soc / k.limits.socKnee
  wSoc * foldback / 100

/-- The budget of DISCHARGE lies in 0 to 600 W (R174). A figure above 600, which only a lost keep-alive record gives,
is held at the end of the range of BUDGET (R36, entry 10). -/
def heldBudget (w : Nat) : Nat := min 600 w

/-- The budget (R174). -/
def budgetOf (s : State) : Nat :=
  if s.pmg.state = .discharge then
    let w := fullBudget s.ka s.pmg.foldback
    heldBudget (if packBlind s.chan then w / 2 else w)
  else 0

/-- The suction controller is told of a budget: its copy, and an evaluation (R91, R108). -/
def tellBudget (told : State → State) (w : Nat) (s : State) : State :=
  evaluate told (s.modSnc fun c => { c with budget := w })

/-- A computed budget is stored, and INV is reported where it was halved (R174). -/
def storeBudget (s : State) : State :=
  let w := budgetOf s
  ((reportIf (decide (s.pmg.state = .discharge) && packBlind s.chan) .inv .budget s).modChan fun c =>
    { c with budget := w }).modPmg fun p => { p with budget := w }

/-- Computes the budget and stores it; the suction controller is told of a change, or of the first after a
warm start (R174). That telling and the watch unit's comparison are separate events. -/
def computeBudget (told : State → State) (first : Bool) (s : State) : State :=
  let w := budgetOf s
  compareAmong (deliverOverride told) .budget [.valid w]
    (if first || decide (w ≠ s.pmg.budget) then [tellBudget told w] else []) (storeBudget s)

/-- The budget of a gauge second, and a further step of the pack manager that follows the telling of a
change (R166). The watch unit's comparison is a separate event from both. -/
def computeBudgetThen (told : State → State) (further : State → State) (s : State) : State :=
  let w := budgetOf s
  compareAmong (deliverOverride told) .budget [.valid w]
    [fun t => further (if w ≠ s.pmg.budget then tellBudget told w t else t)] (storeBudget s)

/-! ### Pack states (R158) -/

/-- CV and DONE, where the bleed set may name a cell (R196). -/
def PackState.bleeds : PackState → Bool
  | .charging .cv | .charging .done => true
  | .charging .precharge | .charging .cc | .discharge | .protect | .dockedWait | .paused _
  | .fault _ => false

/-- A charging state: PRECHARGE, CC, CV, DONE or PAUSED_TEMP (R158). -/
def PackState.isCharging : PackState → Bool
  | .charging _ | .paused _ => true
  | .discharge | .protect | .dockedWait | .fault _ => false

def PackState.faultKind? : PackState → Option ChargeFault
  | .fault k => some k
  | .discharge | .protect | .dockedWait | .charging _ | .paused _ => none

/-- Takes a pack state: the counts of protection and the taper count return to 0 (R160, R161, R190), and the
bleed set is emptied outside CV and DONE (R196). -/
def takePackState (new : PackState) (s : State) : State :=
  let t := s.modPmg fun p => { p with state := new, lowCount := 0, recoveryCount := 0, taper := 0 }
  if new.bleeds then t else setBleedSet (Six.all false) t

/-- What each change of the pack state hands on: the PACK notice and the budget (R158). -/
def announcePack (told : State → State) (s : State) : State :=
  computeBudget told false (askNotice .pack s)

def changePack (told : State → State) (new : PackState) (s : State) : State :=
  announcePack told (takePackState new s)

/-! ### Protection (R160, R161) -/

/-- A low sample: some VALID member below V_cut (R160). -/
def isLowSample (vCut : Nat) (cell : Six Reading) : Bool :=
  (validCells cell).any fun v => decide (v < vCut)

/-- A good sample (R161). -/
def isGoodSample (vCut : Nat) (cell : Six Reading) (packI : Int) : Bool :=
  allCellsValid cell && ((validCells cell).all fun v => decide ((vCut : Int) + 200 ≤ v)) &&
    decide (-200 < packI) && decide (packI < 200)

/-- Entry to PROTECT (R160): PACK_LOW is raised before the budget, which is 0, is computed (entry 40). -/
def enterProtect (told : State → State) (s : State) : State :=
  announcePack told
    (raiseHard told .packLow ((takePackState .protect s).modPmg fun p => { p with lowMark := true }))

/-- A CELL sample in DISCHARGE (R160). -/
def judgeLow (told : State → State) (s : State) : State :=
  if isLowSample s.ka.limits.vCut s.chan.cell then
    if 3 ≤ s.pmg.lowCount + 1 then enterProtect told s
    else s.modPmg fun p => { p with lowCount := p.lowCount + 1 }
  else s.modPmg fun p => { p with lowCount := 0 }

/-- The tenth good sample (R161). DESIGN CHOICE (entry 40): the suction controller takes the clear of PACK_LOW, with
its evaluation and what that reports, before the pack manager computes the budget and reports on it; R117 lets either
report come first. -/
def recover (told : State → State) (s : State) : State :=
  let t := clearHard told .packLow (s.modPmg fun p => { p with lowMark := false, recoveryCount := 0 })
  if s.pmg.state = .protect then changePack told .discharge t else t

/-- A CELL sample in PROTECT or DOCKED_WAIT with the low mark set (R161). -/
def judgeGood (told : State → State) (s : State) : State :=
  if isGoodSample s.ka.limits.vCut s.chan.cell s.chan.packI then
    if 10 ≤ s.pmg.recoveryCount + 1 then recover told s
    else s.modPmg fun p => { p with recoveryCount := p.recoveryCount + 1 }
  else s.modPmg fun p => { p with recoveryCount := 0 }

/-- PACK_HOT at a stored VALID PACK_T sample (R162). -/
def judgeHot (told : State → State) (t : Int) (s : State) : State :=
  if s.pmg.hotMark then
    if t ≤ (s.ka.limits.packHot : Int) - 5 then
      clearHard told .packHot (s.modPmg fun p => { p with hotMark := false })
    else s
  else if (s.pmg.state = .discharge ∨ s.pmg.state = .protect) ∧ (s.ka.limits.packHot : Int) ≤ t then
    raiseHard told .packHot (s.modPmg fun p => { p with hotMark := true })
  else s

/-! ### LOW_CHARGE (R175) -/

/-- The cap told with LOW_CHARGE. DEDUCED (entry 10): a low-charge cap above 1250, which only a lost keep-alive record
gives, is held at the end of the range of an entry's cap (R122). -/
def lowChargeCap (e : LimitsEntry) : Nat := min 1250 e.lowCap

def judgeLowCharge (told : State → State) (s : State) : State :=
  let soc := stateOfCharge s.ka
  let cap := lowChargeCap s.ka.limits
  if s.pmg.lowCharge then
    if s.ka.limits.lowThreshold + 3 ≤ soc then
      clearSoft told .lowCharge (s.modPmg fun p => { p with lowCharge := false })
    else raiseSoft told .lowCharge cap s
  else if soc ≤ s.ka.limits.lowThreshold then
    raiseSoft told .lowCharge cap (s.modPmg fun p => { p with lowCharge := true })
  else s

end Sys2Proof.Machine
end

