-- ==== Sys2Proof/Machine/Charge.lean ====
section
/-! DEFINITION. The charge: claim and release, asked values, charge entry, phases, pause, faults, stop,
balancing, and what the pack manager does with each telling (R80 to R84, R159, R184 to R196). -/

namespace Sys2Proof.Machine

/-! ### The claim of W2 and W3 (R80, R81, R84) -/

/-- The record loaded into W2 (R81). -/
def loadedW2 (c : ChargeEntry) : WatchRecord where
  kind := .trap
  channel := .cell
  low := (c.vCv : Int) + 50
  high := 5000
  resolution := 0
  action := .report
  cap := 0
  report := false

/-- The record loaded into W3 (R81). -/
def loadedW3 (c : ChargeEntry) : WatchRecord where
  kind := .trap
  channel := .packT
  low := c.windowHigh + 5
  high := 125
  resolution := 0
  action := .report
  cap := 0
  report := false

/-- Returns the comparison states of some units to their start (R77, R80, R84). -/
def clearComparisons (units : List Idx4) (s : State) : State :=
  s.modWcu fun w =>
    { w with comparisons := units.foldl (fun c u => c.set u Comparison.clear) w.comparisons }

/-- The clears told for the units of a list that were RAISED, in a free order (R77, R80, entry 33). -/
def tellCleared (told : State → State) (units : List Idx4) (before : Four Comparison) (s : State) :
    State :=
  inAnyOrder
    ((units.filter fun u => (before.get u).raised).map fun u => clearSoft told (.watch u)) s

/-- The claim (R80). -/
def claimWatches (told : State → State) (s : State) : State :=
  let shadows : Shadows := { w2 := s.wcu.entries.i2, w3 := s.wcu.entries.i3 }
  let t := tellCleared told [.i2, .i3] s.wcu.comparisons (clearComparisons [.i2, .i3] s)
  let charge := s.ka.charge
  breakReservation .watch 2 2
    (t.modWcu fun w =>
      { w with
        entries := { w.entries with i2 := loadedW2 charge, i3 := loadedW3 charge }
        claim := some shadows })

/-- The release (R84). -/
def releaseWatches (s : State) : State :=
  match s.wcu.claim with
  | none => s
  | some shadows =>
      breakReservation .watch 2 2
        ((clearComparisons [.i2, .i3] s).modWcu fun w =>
          { w with entries := { w.entries with i2 := shadows.w2, i3 := shadows.w3 }, claim := none })

/-! ### Asked values (R187) -/

/-- 6 × V_cv + 300 (R185, R186). -/
def fullVoltage (c : ChargeEntry) : Nat := 6 * c.vCv + 300

/-- The plan current of a phase before halving; DONE has none (R187). -/
def planCurrent (c : ChargeEntry) : Phase → Nat
  | .precharge => c.iPre
  | .cc | .cv => c.iCc
  | .done => 0

/-- Whether PACK_T halves the plan current (R187). -/
def isCool (c : ChargeEntry) (packT : Reading) : Bool :=
  match packT with
  | .valid t => decide (t < c.cool)
  | .noReading => false

/-- The asked current of a pack state (R187). -/
def askedCurrentOf (c : ChargeEntry) (packT : Reading) (offer : Option Offer) : PackState → Nat
  | .charging phase =>
      let plan := if isCool c packT then planCurrent c phase / 2 else planCurrent c phase
      match offer with
      | some o => min plan o.maxCurrent
      | none => 0
  | .discharge | .protect | .dockedWait | .paused _ | .fault _ => 0

def currentFor (s : State) : Nat :=
  askedCurrentOf s.ka.charge s.chan.packT s.dlc.offer s.pmg.state

/-- Computes the asked current and hands the pair over, changed or not (R186, R190, R191, entry 20). -/
def askAnew (s : State) : State :=
  handOver (s.modPmg fun p => { p with askedCurrent := currentFor s })

/-- Gives the asked pair new values and hands a changed pair over (R187). -/
def askChanged (voltage current : Nat) (s : State) : State :=
  if voltage = s.pmg.askedVoltage ∧ current = s.pmg.askedCurrent then s
  else handOver (s.modPmg fun p => { p with askedVoltage := voltage, askedCurrent := current })

/-- Computes the asked current anew; a change is handed over (R187). -/
def askCurrentAnew (s : State) : State := askChanged s.pmg.askedVoltage (currentFor s) s

/-! ### Faults and stops (R193, R195) -/

/-- What every departure from the charging states does besides its new state (R193, R195): the release, the
stop of T1, the end of the learning run. The precharge clock stops with the state. -/
def leaveCharging (s : State) : State :=
  (stopTimer .i1 (releaseWatches s)).modPmg fun p => { p with askedCurrent := 0, learning := none }

/-- A charge fault from a charging state (R193); elsewhere the cause changes nothing. -/
def chargeFault (told : State → State) (kind : ChargeFault) (s : State) : State :=
  if s.pmg.state.isCharging then
    announcePack told (leaveCharging (leaveOrder (takePackState (.fault kind) s)))
  else s

/-- A fault found at the test of charge entry: no charge was entered (R185). -/
def entryFault (told : State → State) (kind : ChargeFault) (s : State) : State :=
  announcePack told (leaveOrder (takePackState (.fault kind) s))

/-- The charge stops at a dock loss or a removal (R195). -/
def stopCharge (told : State → State) (new : PackState) (s : State) : State :=
  announcePack told (leaveCharging (takePackState new s))

/-! ### Charge entry (R185, R186) -/

/-- The charge window, both ends included (R185). -/
def inWindow (c : ChargeEntry) (packT : Reading) : Bool :=
  match packT with
  | .valid t => decide (c.windowLow ≤ t) && decide (t ≤ c.windowHigh)
  | .noReading => false

/-- The conditions of charge entry (R185). DOCKED_WAIT has no charge fault kind. -/
def mayCharge (s : State) : Bool :=
  decide (s.pmg.state = .dockedWait) && decide (s.dlc.session = .offered) &&
    decide (s.snc.suction.reported = .off) && s.snc.hasUnreleased .docked &&
    inWindow s.ka.charge s.chan.packT

/-- The learning test (R169). -/
def learningTest (s : State) : State :=
  s.modPmg fun p =>
    { p with
      learning :=
        if s.ka.trust = .calibrated ∧ stateOfCharge s.ka ≤ 10 then
          some { qStart := s.ka.qRem, added := 0 }
        else none }

/-- Charge entry clears the low mark and PACK_LOW (R161, R186). -/
def clearLowMark (told : State → State) (s : State) : State :=
  if s.pmg.lowMark then clearHard told .packLow (s.modPmg fun p => { p with lowMark := false }) else s

/-- The first phase: PRECHARGE when some member lies below 3000 mV (R186). -/
def firstPhase (cell : Six Reading) : Phase :=
  if (validCells cell).any fun v => decide (v < 3000) then .precharge else .cc

/-- What the dirt sensing unit does on a report of OFF or HALT (R153). -/
def dirtTold (s : State) : State :=
  match s.snc.suction.reported with
  | .off | .halt => dirtStop id s
  | .spinUp | .run | .held | .brake => s

/-- Charge entry, in the order of R186. While it goes on, a report of the suction state reaches the dirt
sensing unit alone: the pack manager would take it after this event, in a charging state, where it changes
nothing (R105, R185). -/
def chargeEntry (told : State → State) (s : State) : State :=
  let t := clearLowMark dirtTold (learningTest s)
  let t := startTimer .i1 (claimWatches dirtTold t)
  let t := takePackState (.charging (firstPhase t.chan.cell)) t
  let t := t.modPmg fun p => { p with precharge := 0, askedVoltage := fullVoltage t.ka.charge }
  announcePack told (askAnew t)

/-- The test of charge entry (R185). -/
def chargeEntryTest (told : State → State) (s : State) : State :=
  if mayCharge s then
    match s.dlc.offer with
    | none => s
    | some offer =>
        if offer.maxVoltage < fullVoltage s.ka.charge then entryFault told .unsuited s
        else if allCellsValid s.chan.cell then chargeEntry told s
        else entryFault told .sense s
  else s

/-- Entry to DOCKED_WAIT, with its test (R185). -/
def waitInDock (told : State → State) (s : State) : State :=
  chargeEntryTest told (changePack told .dockedWait s)

/-! ### What is told of a change of the suction state (R105) -/

/-- What the dirt sensing unit and the pack manager do on a report of OFF or HALT (R153, R185). -/
def suctionTold (told : State → State) (s : State) : State :=
  match s.snc.suction.reported with
  | .off => chargeEntryTest told (dirtStop told s)
  | .halt => dirtStop told s
  | .spinUp | .run | .held | .brake => s

/-- The telling of a change of the suction state. A change that the telling itself makes is not told again
(entry 28). -/
def tellSuction (s : State) : State := suctionTold id s

/-! ### Charge phases (R188 to R191) -/

/-- The move to CC or CV, or to CC at a recharge; the asked current is computed (R188, R190). -/
def changePhase (told : State → State) (phase : Phase) (s : State) : State :=
  announcePack told (askCurrentAnew (takePackState (.charging phase) s))

/-- A recharge: the full voltage is asked again (R190). -/
def recharge (told : State → State) (s : State) : State :=
  let t := takePackState (.charging .cc) s
  announcePack told (askAnew (t.modPmg fun p => { p with askedVoltage := fullVoltage s.ka.charge }))

/-- Entry to DONE (R170, R190). -/
def enterDone (told : State → State) (s : State) : State :=
  announcePack told (doneGauge (stopTimer .i1 (askAnew (takePackState (.charging .done) s))))

/-- A CELL sample in a charging phase (R188, R190). -/
def cellPhase (told : State → State) (phase : Phase) (s : State) : State :=
  let cell := s.chan.cell
  match phase with
  | .precharge =>
      if (validCells cell).all fun v => decide (3000 ≤ v) then changePhase told .cc s else s
  | .cc =>
      if (validCells cell).any fun v => decide ((s.ka.charge.vCv : Int) ≤ v) then
        changePhase told .cv s
      else s
  | .cv => s
  | .done =>
      if (validCells cell).all fun v => decide (v < (s.ka.charge.vCv : Int) - 150) then
        recharge told s
      else s

/-- The pack manager at a stored CELL sample (R160, R161, R167, R188, R190, R193). -/
def packCell (told : State → State) (s : State) : State :=
  let t := takeEstimate s
  match t.pmg.state with
  | .discharge => judgeLow told t
  | .protect | .dockedWait => if t.pmg.lowMark then judgeGood told t else t
  | .charging phase =>
      if allCellsValid t.chan.cell then cellPhase told phase t else chargeFault told .sense t
  | .paused _ => if allCellsValid t.chan.cell then t else chargeFault told .sense t
  | .fault _ => t

/-- The taper count of CV (R190). -/
def packCurrent (told : State → State) (s : State) : State :=
  if s.pmg.state = .charging .cv then
    if s.chan.packI < s.ka.charge.iTerm then
      if 6000 ≤ s.pmg.taper + 1 then enterDone told s
      else s.modPmg fun p => { p with taper := p.taper + 1 }
    else s.modPmg fun p => { p with taper := 0 }
  else s

/-- The temperature pause (R191). -/
def pauseCharge (told : State → State) (phase : Phase) (s : State) : State :=
  announcePack told (askAnew (takePackState (.paused phase) s))

/-- The return from the temperature pause (R191). -/
def resumeCharge (told : State → State) (phase : Phase) (s : State) : State :=
  announcePack told (askAnew (takePackState (.charging phase) s))

/-- A VALID PACK_T sample in the charging states (R187, R191). -/
def chargeTemperature (told : State → State) (t : Int) (s : State) : State :=
  let c := s.ka.charge
  match s.pmg.state with
  | .charging phase =>
      if t < c.windowLow ∨ c.windowHigh < t then pauseCharge told phase s else askCurrentAnew s
  | .paused phase =>
      if c.windowLow + 2 ≤ t ∧ t ≤ c.windowHigh - 2 then resumeCharge told phase s else s
  | .dockedWait => chargeEntryTest told s
  | .discharge | .protect | .fault _ => s

/-- The pack manager at a stored PACK_T sample (R162, R185, R187, R191, R193). -/
def packTemperature (told : State → State) (s : State) : State :=
  match s.chan.packT with
  | .valid t => chargeTemperature told t (judgeHot told t s)
  | .noReading => chargeFault told .sense s

/-! ### Tellings of the watch unit, of T1 and of the dock line controller -/

/-- A hit of a claimed unit (R193): W2 a cell over its limit, W3 a hot pack. -/
def claimedHit (told : State → State) (u : Idx4) (s : State) : State :=
  match u with
  | .i2 => chargeFault told .cellOver s
  | .i3 => chargeFault told .hot s
  | .i0 | .i1 => s

/-- A telling of the watch unit, to the suction controller or to the pack manager. -/
def deliverTelling (told : State → State) (t : Telling) (s : State) : State :=
  match t with
  | .claimedHit u => claimedHit told u s
  | .raised _ _ | .stands _ _ | .cleared _ => deliverOverride told t s

/-- An expiry of T1 (R192). -/
def safetyExpired (told : State → State) (s : State) : State :=
  match s.pmg.state with
  | .charging .precharge | .charging .cc | .charging .cv | .paused _ => chargeFault told .timeout s
  | .charging .done | .discharge | .protect | .dockedWait | .fault _ => s

/-- PROTECT or DISCHARGE, by the low mark (R159, R194). -/
def outOfDock (p : Pmg) : PackState := if p.lowMark then .protect else .discharge

/-- The pack manager at an insertion (R159, R194). -/
def packInserted (told : State → State) (s : State) : State :=
  match s.pmg.state with
  | .discharge | .protect => waitInDock told s
  | .dockedWait | .charging _ | .paused _ | .fault _ => s

/-- The pack manager at a removal (R159, R194, R195). -/
def packRemoved (told : State → State) (s : State) : State :=
  match s.pmg.state with
  | .dockedWait | .fault _ => changePack told (outOfDock s.pmg) s
  | .charging _ | .paused _ => stopCharge told .discharge s
  | .discharge | .protect => s

/-- The pack manager at a loss of the session (R195): its entry to DOCKED_WAIT makes the test of R185. -/
def packLost (told : State → State) (s : State) : State :=
  if s.pmg.state.isCharging then chargeEntryTest told (stopCharge told .dockedWait s) else s

/-! ### The charge steps of a gauge second (R188, R189, R196) -/

/-- Whether the precharge clock counts (R188). -/
def PackState.prechargeCounts : PackState → Bool
  | .charging .precharge | .paused .precharge => true
  | .charging .cc | .charging .cv | .charging .done | .paused .cc | .paused .cv | .paused .done
  | .discharge | .protect | .dockedWait | .fault _ => false

def prechargeStep (told : State → State) (s : State) : State :=
  if s.pmg.state.prechargeCounts then
    let t := s.modPmg fun p => { p with precharge := p.precharge + 1 }
    if 1800 ≤ t.pmg.precharge then chargeFault told .prechargeLimit t else t
  else s

/-- The asked voltage after a trim (R189). -/
def trimmedVoltage (c : ChargeEntry) (highest : Option Int) (voltage : Nat) : Nat :=
  match highest with
  | none => voltage
  | some v =>
      if (c.vCv : Int) < v then max 18000 (voltage - 20)
      else if v < (c.vCv : Int) - 10 ∧ voltage < fullVoltage c then min (fullVoltage c) (voltage + 20)
      else voltage

/-- The voltage trim, in CV alone (R189). -/
def trimStep (s : State) : State :=
  if s.pmg.state = .charging .cv then
    askChanged (trimmedVoltage s.ka.charge (highestCell s.chan.cell) s.pmg.askedVoltage)
      s.pmg.askedCurrent s
  else s

/-- Whether a cell is bled: above 3900 mV and more than 15 mV above the lowest (R196). -/
def isBled (lowest : Option Int) : Reading → Bool
  | .valid v =>
      match lowest with
      | some low => decide (3900 < v) && decide (low + 15 < v)
      | none => false
  | .noReading => false

/-- Balancing (R196). -/
def balanceStep (s : State) : State :=
  if s.pmg.state.bleeds then setBleedSet (Six.map (isBled (lowestCell s.chan.cell)) s.chan.cell) s else s

/-- The charge steps, in their order (R189). -/
def chargeSteps (told : State → State) (s : State) : State := balanceStep (trimStep (prechargeStep told s))

end Sys2Proof.Machine
end

