-- ==== Sys2Proof/Machine/Sections.lean ====
section
/-! DEFINITION. The ten sections as bytes: layouts (R17, R19), ranges (R24), codes (R25), relations (R26),
read-only fields (R27). -/

namespace Sys2Proof.Machine

/-- How many entries a section has (R19). -/
def SectionId.entryCount : SectionId → Nat
  | .preset => 8
  | .watch | .timer => 4
  | .suction | .dirt | .gauge | .charge | .limits | .service | .notice => 1

/-- Bytes per entry (R19). -/
def SectionId.entrySize : SectionId → Nat
  | .preset => 6
  | .suction => 10
  | .dirt => 15
  | .gauge => 15
  | .charge => 11
  | .limits => 11
  | .watch => 13
  | .timer => 6
  | .service => 7
  | .notice => 14

/-! ### Reading -/

def presetBytes (e : PresetEntry) : List Byte :=
  bytes2 e.base ++ [byteOf e.step] ++ bytes2 e.ceiling ++ [flagByte e.notify]

def suctionBytes (e : SuctionEntry) : List Byte :=
  bytes2 e.kFan ++ bytes2 e.sMin ++
    [byteOf e.slewUp, byteOf e.slewDown, byteOfInt e.tKnee, byteOfInt e.tCut] ++ bytes2 e.currentLimit

def dirtBytes (e : DirtEntry) : List Byte :=
  bytes2 e.t1 ++ bytes2 e.t2 ++ bytes2 e.t3 ++ bytes2 e.h ++ bytes2 e.floor ++ bytes2 e.floorMax ++
    bytes2 e.blank ++ [flagByte e.hold]

def gaugeBytes (k : KeepAlive) : List Byte :=
  bytes4 k.gauge.design ++ bytes4 k.gauge.qFull ++ bytes2 k.gauge.cycles ++ [trustCode k.trust] ++
    bytes4 k.qRem

def chargeBytes (e : ChargeEntry) : List Byte :=
  bytes2 e.iCc ++ bytes2 e.vCv ++ bytes2 e.iTerm ++ bytes2 e.iPre ++
    [byteOfInt e.windowLow, byteOfInt e.windowHigh, byteOfInt e.cool]

def limitsBytes (e : LimitsEntry) : List Byte :=
  bytes2 e.wPackMax ++ [byteOf e.socKnee] ++ bytes2 e.vSag ++ bytes2 e.vCut ++
    [byteOf e.packHot, byteOf e.lowThreshold] ++ bytes2 e.lowCap

def watchBytes (w : WatchRecord) : List Byte :=
  [watchKindCode w.kind, channelCode w.channel] ++ bytes3s w.low ++ bytes3s w.high ++
    [byteOf w.resolution, watchActionCode w.action] ++ bytes2 w.cap ++ [flagByte w.report]

def timerBytes (e : TimerEntry) (running : Bool) : List Byte :=
  [rateCode e.rate] ++ bytes2 e.preset ++ [modeCode e.mode, flagByte e.notice, flagByte running]

def serviceBytes (e : ServiceEntry) (due : Bool) : List Byte :=
  bytes2 e.hours ++ [flagByte e.anyHours, byteOf e.minutes, flagByte e.anyMinutes, flagByte e.enable,
    flagByte due]

def noticeBytes (m : NoticeMarks) (r : ReportEnables) : List Byte :=
  [flagByte m.suction, flagByte m.override, flagByte m.watch, flagByte m.condition, flagByte m.dirt,
    flagByte m.pack, flagByte m.dock, flagByte m.timer, flagByte m.service, flagByte m.detector,
    flagByte r.inv, flagByte r.ovf, flagByte r.unf, flagByte r.lim]

/-- The unit of an entry number of WATCH or TIMER. -/
def unitAt (n : Nat) : Idx4 := (unitOf? n).getD .i0

/-- The preset of an entry number of PRESET. -/
def presetAt (n : Nat) : PresetId := (presetOf? (byteOf n)).getD .p0

/-- An entry as ReadSection carries it (R17, R21). -/
def entryBytes (sectionId : SectionId) (n : Nat) (s : State) : List Byte :=
  match sectionId with
  | .preset => presetBytes (s.ka.presets.get (presetAt n))
  | .suction => suctionBytes s.ka.suction
  | .dirt => dirtBytes s.ka.dirt
  | .gauge => gaugeBytes s.ka
  | .charge => chargeBytes s.ka.charge
  | .limits => limitsBytes s.ka.limits
  | .watch => watchBytes (s.wcu.entries.get (unitAt n))
  | .timer => timerBytes (s.tdu.entries.get (unitAt n)) (s.tdu.timers.get (unitAt n)).running
  | .service => serviceBytes s.ka.service s.ka.serviceDue
  | .notice => noticeBytes s.link.enables s.link.reports

/-! ### Entries of a write -/

/-- A written entry, its numbers clamped. -/
inductive EntryValue where
  | preset (e : PresetEntry)
  | suction (e : SuctionEntry)
  | dirt (e : DirtEntry)
  | gauge (e : GaugeEntry)
  | charge (e : ChargeEntry)
  | limits (e : LimitsEntry)
  | watch (e : WatchRecord)
  | timer (e : TimerEntry)
  | service (e : ServiceEntry)
  | notice (enables : NoticeMarks) (reports : ReportEnables)
  deriving DecidableEq, Repr

/-- A written entry and whether a number of it was clamped (R24). -/
structure Parsed where
  value : EntryValue
  clamped : Bool
  deriving DecidableEq, Repr

/-- Whether a number lies outside its range (R24). -/
def outside (lo hi v : Nat) : Bool := decide (v < lo) || decide (hi < v)
def outsideInt (lo hi v : Int) : Bool := decide (v < lo) || decide (hi < v)

/-- A PRESET entry (R24). -/
def parsePreset (base step ceiling : Nat) (notify : Bool) : Option Parsed :=
  some
    { value := .preset
        { base := clampNat 0 1250 base
          step := clampNat 0 250 step
          ceiling := clampNat 0 500 ceiling
          notify := notify }
      clamped := outside 0 1250 base || outside 0 250 step || outside 0 500 ceiling }

/-- The relation of SUCTION (R26). -/
def suctionRelated (e : SuctionEntry) : Bool := decide (e.tKnee + 10 < e.tCut)

/-- The SUCTION entry (R24, R26). -/
def parseSuction (kFan sMin slewUp slewDown : Nat) (tKnee tCut : Int) (limit : Nat) : Option Parsed :=
  let e : SuctionEntry :=
    { kFan := clampNat 1 1000 kFan
      sMin := clampNat 100 600 sMin
      slewUp := clampNat 1 50 slewUp
      slewDown := clampNat 1 100 slewDown
      tKnee := clampInt 40 110 tKnee
      tCut := clampInt 50 125 tCut
      currentLimit := clampNat 10000 60000 limit }
  if suctionRelated e then
    some
      { value := .suction e
        clamped := outside 1 1000 kFan || outside 100 600 sMin || outside 1 50 slewUp ||
          outside 1 100 slewDown || outsideInt 40 110 tKnee || outsideInt 50 125 tCut ||
          outside 10000 60000 limit }
  else none

/-- The relations of DIRT (R26). -/
def dirtRelated (e : DirtEntry) : Bool :=
  decide (e.t1 < e.t2) && decide (e.t2 < e.t3) && decide (e.floor ≤ e.floorMax)

/-- The DIRT entry (R24, R26). -/
def parseDirt (t1 t2 t3 h floor floorMax blank : Nat) (hold : Bool) : Option Parsed :=
  let e : DirtEntry :=
    { t1 := clampNat 1 20000 t1
      t2 := clampNat 1 20000 t2
      t3 := clampNat 1 20000 t3
      h := clampNat 0 500 h
      floor := clampNat 0 5000 floor
      floorMax := clampNat 0 5000 floorMax
      blank := clampNat 10 400 blank
      hold := hold }
  if dirtRelated e then
    some
      { value := .dirt e
        clamped := outside 1 20000 t1 || outside 1 20000 t2 || outside 1 20000 t3 || outside 0 500 h ||
          outside 0 5000 floor || outside 0 5000 floorMax || outside 10 400 blank }
  else none

/-- The writable fields of GAUGE: the range of Q_full comes from the clamped design capacity (R24). -/
def parseGauge (design qFull cycles : Nat) : Option Parsed :=
  let d := clampNat 3600000 36000000 design
  some
    { value := .gauge
        { design := d, qFull := clampNat (qFullLow d) (qFullHigh d) qFull, cycles := cycles }
      clamped := outside 3600000 36000000 design || outside (qFullLow d) (qFullHigh d) qFull }

/-- The relation of CHARGE (R26). -/
def chargeRelated (e : ChargeEntry) : Bool := decide (e.windowLow < e.windowHigh)

/-- The CHARGE entry (R24, R26). -/
def parseCharge (iCc vCv iTerm iPre : Nat) (windowLow windowHigh cool : Int) : Option Parsed :=
  let e : ChargeEntry :=
    { iCc := clampNat 200 4000 iCc
      vCv := clampNat 4100 4250 vCv
      iTerm := clampNat 50 500 iTerm
      iPre := clampNat 50 500 iPre
      windowLow := clampInt (-10) 20 windowLow
      windowHigh := clampInt 30 55 windowHigh
      cool := clampInt (-10) 25 cool }
  if chargeRelated e then
    some
      { value := .charge e
        clamped := outside 200 4000 iCc || outside 4100 4250 vCv || outside 50 500 iTerm ||
          outside 50 500 iPre || outsideInt (-10) 20 windowLow || outsideInt 30 55 windowHigh ||
          outsideInt (-10) 25 cool }
  else none

/-- The LIMITS entry (R24). -/
def parseLimits (wPackMax socKnee vSag vCut packHot lowThreshold lowCap : Nat) : Option Parsed :=
  some
    { value := .limits
        { wPackMax := clampNat 50 600 wPackMax
          socKnee := clampNat 1 100 socKnee
          vSag := clampNat 3000 3700 vSag
          vCut := clampNat 2600 3300 vCut
          packHot := clampNat 45 75 packHot
          lowThreshold := clampNat 0 50 lowThreshold
          lowCap := clampNat 0 1250 lowCap }
      clamped := outside 50 600 wPackMax || outside 1 100 socKnee || outside 3000 3700 vSag ||
        outside 2600 3300 vCut || outside 45 75 packHot || outside 0 50 lowThreshold ||
        outside 0 1250 lowCap }

/-- The relations of WATCH (R26). -/
def watchRelated (w : WatchRecord) : Bool :=
  decide (w.low ≤ w.high) &&
    match w.kind with
    | .off => true
    | .gate => decide (w.channel = .target) && decide (w.action ≠ .override)
    | .trap => decide (w.channel ≠ .target) && decide (w.action ≠ .hold)

/-- A WATCH entry (R24 to R26). -/
def parseWatch (kind channel : Byte) (low high : Int) (resolution : Nat) (action : Byte) (cap : Nat)
    (report : Bool) : Option Parsed :=
  match watchKindOf? kind, channelOf? channel, watchActionOf? action with
  | some k, some c, some a =>
      let w : WatchRecord :=
        { kind := k
          channel := c
          low := low
          high := high
          resolution := clampNat 0 7 resolution
          action := a
          cap := clampNat 0 1250 cap
          report := report }
      if watchRelated w then
        some { value := .watch w, clamped := outside 0 7 resolution || outside 0 1250 cap }
      else none
  | _, _, _ => none

/-- A TIMER entry (R24, R25). -/
def parseTimer (rate : Byte) (preset : Nat) (mode : Byte) (notice : Bool) : Option Parsed :=
  match rateOf? rate, modeOf? mode with
  | some r, some m =>
      some
        { value := .timer { rate := r, preset := clampNat 1 4095 preset, mode := m, notice := notice }
          clamped := outside 1 4095 preset }
  | _, _ => none

/-- The SERVICE entry (R24). -/
def parseService (hours : Nat) (anyHours : Bool) (minutes : Nat) (anyMinutes enable : Bool) :
    Option Parsed :=
  some
    { value := .service
        { hours := hours
          anyHours := anyHours
          minutes := clampNat 0 59 minutes
          anyMinutes := anyMinutes
          enable := enable }
      clamped := outside 0 59 minutes }

/-- A whole entry from its bytes (R17): none where a code is unknown or a relation fails (R25, R26). -/
def parseEntry (sectionId : SectionId) (b : List Byte) : Option Parsed :=
  match sectionId, b with
  | .preset, [b0, b1, st, c0, c1, n] => parsePreset (nat2 b0 b1) st.toNat (nat2 c0 c1) (flagOf n)
  | .suction, [k0, k1, m0, m1, up, down, knee, cut, l0, l1] =>
      parseSuction (nat2 k0 k1) (nat2 m0 m1) up.toNat down.toNat (int1 knee) (int1 cut) (nat2 l0 l1)
  | .dirt, [a0, a1, b0, b1, c0, c1, h0, h1, f0, f1, m0, m1, t0, t1, hold] =>
      parseDirt (nat2 a0 a1) (nat2 b0 b1) (nat2 c0 c1) (nat2 h0 h1) (nat2 f0 f1) (nat2 m0 m1)
        (nat2 t0 t1) (flagOf hold)
  | .gauge, [d0, d1, d2, d3, q0, q1, q2, q3, c0, c1, _, _, _, _, _] =>
      parseGauge (nat4 d0 d1 d2 d3) (nat4 q0 q1 q2 q3) (nat2 c0 c1)
  | .charge, [i0, i1, v0, v1, t0, t1, p0, p1, lo, hi, cool] =>
      parseCharge (nat2 i0 i1) (nat2 v0 v1) (nat2 t0 t1) (nat2 p0 p1) (int1 lo) (int1 hi) (int1 cool)
  | .limits, [w0, w1, knee, s0, s1, c0, c1, hot, low, l0, l1] =>
      parseLimits (nat2 w0 w1) knee.toNat (nat2 s0 s1) (nat2 c0 c1) hot.toNat low.toNat (nat2 l0 l1)
  | .watch, [k, ch, l0, l1, l2, h0, h1, h2, r, a, c0, c1, rep] =>
      parseWatch k ch (int3 l0 l1 l2) (int3 h0 h1 h2) r.toNat a (nat2 c0 c1) (flagOf rep)
  | .timer, [rate, p0, p1, mode, notice, _] => parseTimer rate (nat2 p0 p1) mode (flagOf notice)
  | .service, [h0, h1, ah, m, am, en, _] =>
      parseService (nat2 h0 h1) (flagOf ah) m.toNat (flagOf am) (flagOf en)
  | .notice, [su, ov, wa, co, di, pa, dk, ti, se, de, i, o, u, l] =>
      some
        { value := .notice
            { suction := flagOf su, override := flagOf ov, watch := flagOf wa, condition := flagOf co,
              dirt := flagOf di, pack := flagOf pa, dock := flagOf dk, timer := flagOf ti,
              service := flagOf se, detector := flagOf de }
            { inv := flagOf i, ovf := flagOf o, unf := flagOf u, lim := flagOf l }
          clamped := false }
  | _, _ => none

/-- The bytes of a list in groups of one entry each. -/
def chunks (size : Nat) : Nat → List Byte → List (List Byte)
  | 0, _ => []
  | n + 1, b => b.take size :: chunks size n (b.drop size)

/-- Whether the read-only fields of an entry equal their current values (R27, entry 21). -/
def readOnlyKept (sectionId : SectionId) (n : Nat) (b : List Byte) (s : State) : Bool :=
  match sectionId with
  | .gauge => decide (b.drop 10 = (gaugeBytes s.ka).drop 10)
  | .timer => decide (b.drop 5 = (entryBytes .timer n s).drop 5)
  | .service => decide (b.drop 6 = (entryBytes .service n s).drop 6)
  | .preset | .suction | .dirt | .charge | .limits | .watch | .notice => true

/-- Every entry parsed, or none when one of them breaks a code or a relation. -/
def parseAll (sectionId : SectionId) : List (List Byte) → Option (List Parsed)
  | [] => some []
  | b :: rest =>
      match parseEntry sectionId b, parseAll sectionId rest with
      | some p, some ps => some (p :: ps)
      | _, _ => none

/-- Whether the read-only fields of every entry are kept. -/
def allReadOnlyKept (sectionId : SectionId) (s : State) : Nat → List (List Byte) → Bool
  | _, [] => true
  | n, b :: rest => readOnlyKept sectionId n b s && allReadOnlyKept sectionId s (n + 1) rest

/-- Stores one entry (R29). -/
def storeEntry (n : Nat) (v : EntryValue) (s : State) : State :=
  match v with
  | .preset e => s.modKa fun k => { k with presets := k.presets.set (presetAt n) e }
  | .suction e => s.modKa fun k => { k with suction := e }
  | .dirt e => s.modKa fun k => { k with dirt := e }
  | .gauge e => s.modKa fun k => { k with gauge := e }
  | .charge e => s.modKa fun k => { k with charge := e }
  | .limits e => s.modKa fun k => { k with limits := e }
  | .watch e => s.modWcu fun w => { w with entries := w.entries.set (unitAt n) e }
  | .timer e => s.modTdu fun t => { t with entries := t.entries.set (unitAt n) e }
  | .service e => s.modKa fun k => { k with service := e }
  | .notice m r => s.modLink fun l => { l with enables := m, reports := r }

/-- Stores the entries of a range from its first. -/
def storeEntries : Nat → List Parsed → State → State
  | _, [], s => s
  | n, p :: rest, s => storeEntries (n + 1) rest (storeEntry n p.value s)

end Sys2Proof.Machine
end

