-- ==== Sys2Proof/Machine/Store.lean ====
section
/-! DEFINITION. The settings store: ReadSection, WriteSection, the reservation, and what a write does in the
section's owner (R8, R21 to R31, R77, R89, R90, R171, R184). -/

namespace Sys2Proof.Machine

/-- What a request gives: the state after it, its status, and the payload after the status. -/
structure Answer where
  state : State
  status : Status
  body : List Byte

/-- A refusal changes nothing and carries nothing (R5). -/
def refuse (st : Status) (s : State) : Answer := { state := s, status := st, body := [] }

def answerOk (s : State) (body : List Byte) : Answer := { state := s, status := .ok, body := body }

/-- Whether a range names entries of the section (R21, R23). -/
def rangeExists (sectionId : SectionId) (first count : Byte) : Bool :=
  decide (0 < count.toNat) && decide (first.toNat + count.toNat ≤ sectionId.entryCount)

/-! ### Reading (R21, R22) -/

/-- The held byte: bit k for entry first+k when it is a record loaded by a claim (R17, R21). -/
def heldByte (sectionId : SectionId) (first count : Nat) (s : State) : Byte :=
  if sectionId = .watch then
    byteOf (((List.range count).map fun k =>
      if s.wcu.isClaimed (unitAt (first + k)) then 2 ^ k else 0).sum)
  else 0

/-- The entries of a range in ascending order. -/
def rangeBytes (sectionId : SectionId) (first count : Nat) (s : State) : List Byte :=
  ((List.range count).map fun k => entryBytes sectionId (first + k) s).flatten

def readSection (sectionNo first count reserve : Byte) (s : State) : Answer :=
  match sectionOf? sectionNo with
  | none => refuse .badSection s
  | some sec =>
      if rangeExists sec first count then
        let body := [sectionNo, first, count, heldByte sec first.toNat count.toNat s] ++
          rangeBytes sec first.toNat count.toNat s
        let reserved := some
          { sectionId := sec, first := first.toNat, count := count.toNat, broken := false }
        answerOk (if reserve = 0 then s else s.setReservation reserved) body
      else refuse .badIndex s

/-! ### What a write does in its owner -/

/-- Turns off the pending kinds whose enables a write has turned off (R8). -/
def dropDisabled (l : Link) : Link :=
  { l with
    notices :=
      { suction := l.notices.suction && l.enables.suction
        override := l.notices.override && l.enables.override
        watch := l.notices.watch && l.enables.watch
        condition := l.notices.condition && l.enables.condition
        dirt := l.notices.dirt && l.enables.dirt
        pack := l.notices.pack && l.enables.pack
        dock := l.notices.dock && l.enables.dock
        timer := l.notices.timer && l.enables.timer
        service := l.notices.service && l.enables.service
        detector := l.notices.detector && l.enables.detector }
    accWatch := if l.enables.watch then l.accWatch else Four.all false
    accTimer := if l.enables.timer then l.accTimer else Four.all false
    accDetector := if l.enables.detector then l.accDetector else { d0 := none, d1 := none, d2 := none } }

/-- The units of a range of WATCH entries. -/
def unitsOf (first count : Nat) : List Idx4 :=
  allUnits.filter fun u => decide (first ≤ unitNo u) && decide (unitNo u < first + count)

/-- What an applied write of CHARGE does in the pack manager (R184, R185, entry 19). -/
def chargeWritten (told : State → State) (s : State) : State :=
  if s.pmg.state.isCharging then
    askChanged (min s.pmg.askedVoltage (fullVoltage s.ka.charge)) (currentFor s) s
  else chargeEntryTest told s

/-- What an applied write does in the section's owner, at the event of the write. `before` is the state
before the write. -/
def sectionWritten (told : State → State) (sectionId : SectionId) (first count : Nat) (before : State)
    (s : State) : State :=
  match sectionId with
  | .preset =>
      if first ≤ presetNo s.snc.preset ∧ presetNo s.snc.preset < first + count then evaluate told s else s
  | .suction => evaluate told s
  | .gauge => s.modKa fun k => { k with qRem := min k.qRem k.gauge.qFull }
  | .charge => chargeWritten told s
  | .watch =>
      tellCleared told (unitsOf first count) before.wcu.comparisons
        (clearComparisons (unitsOf first count) s)
  | .notice => s.modLink dropDisabled
  | .dirt | .limits | .timer | .service => s

/-! ### Writing (R23 to R31) -/

/-- A conditional write finds an unbroken reservation of exactly its range (R31). -/
def reservationAllows (sectionId : SectionId) (first count : Nat) (r : Option Reservation) : Bool :=
  match r with
  | some r =>
      !r.broken && decide (r.sectionId = sectionId) && decide (r.first = first) &&
        decide (r.count = count)
  | none => false

/-- The range includes WATCH entry 2 or 3 (R28). -/
def touchesClaim (sectionId : SectionId) (first count : Nat) : Bool :=
  decide (sectionId = .watch) && decide (first ≤ 3) && decide (2 < first + count)

/-- The entries are stored, the reservation of the range broken, and the owner acts (R29, R30). -/
def applyWrite (told : State → State) (sectionId : SectionId) (first count : Nat) (entries : List Parsed)
    (s : State) : State :=
  sectionWritten told sectionId first count s
    (breakReservation sectionId first count (storeEntries first entries s))

/-- The tests 4 to 7 of R23 and the application of a write whose range and length are right; `r` is the
reservation that a conditional write found. -/
def writeRange (told : State → State) (sectionId : SectionId) (first count : Nat) (conditional : Bool)
    (r : Option Reservation) (entries : List Byte) (s : State) : Answer :=
  let parts := chunks sectionId.entrySize count entries
  if (sectionId = .preset ∧ first = 0) ∨ allReadOnlyKept sectionId s first parts = false then
    refuse .readOnly s
  else if touchesClaim sectionId first count && s.wcu.claim.isSome then
    refuse .held (s.modWcu fun w => { w with heldAccess := true })
  else
    match parseAll sectionId parts with
    | none => refuse .range s
    | some ps =>
        if conditional && !reservationAllows sectionId first count r then refuse .stale s
        else
          { state := applyWrite told sectionId first count ps s
            status := if ps.any Parsed.clamped then .clamped else .ok
            body := [] }

/-- WriteSection (R23, R29, R31): a conditional write consumes the reservation whatever its outcome. -/
def writeSection (told : State → State) (sectionNo first count conditional : Byte) (entries : List Byte)
    (s : State) : Answer :=
  let r := s.reservation
  let t := if conditional = 0 then s else s.setReservation none
  match sectionOf? sectionNo with
  | none => refuse .badSection t
  | some sec =>
      if rangeExists sec first count = false then refuse .badIndex t
      else if entries.length ≠ count.toNat * sec.entrySize then refuse .length t
      else writeRange told sec first.toNat count.toNat (decide (conditional ≠ 0)) r entries t

end Sys2Proof.Machine
end

