-- ==== Sys2Proof/Machine/DockSession.lean ====
section
/-! DEFINITION. The dock session: insertion and removal, the entries to OFFERED and LOST, the answers and the
misses (R178 to R183). -/

namespace Sys2Proof.Machine

/-! ### Insertion and removal (R179) -/

/-- The dock line controller at an insertion (R179). -/
def dockInserted (told : State → State) (s : State) : State :=
  let t := inAnyOrder [raiseHard told .docked, packInserted told] (armDetector .d0 .falling 8 s)
  let t := setSession .probing (t.modDlc Dlc.abandon)
  serveLine (t.modDlc fun d => { d with probeDue := true })

/-- The dock line controller at a removal (R179). -/
def dockRemoved (told : State → State) (s : State) : State :=
  let t := inAnyOrder [clearHard told .docked, packRemoved told] (armDetector .d0 .rising 8 s)
  setSession .absent (t.modDlc Dlc.abandon)

/-- A detection of D0 (R58, R179). -/
def dockDetected (told : State → State) (level : Bool) (s : State) : State :=
  if level then dockInserted told s else dockRemoved told s

/-! ### Entries to OFFERED and LOST (R180) -/

/-- Entry to OFFERED, told to the pack manager, which makes the test of charge entry (R180, R185). -/
def enterOffered (told : State → State) (s : State) : State :=
  chargeEntryTest told (setSession .offered s)

/-- Entry to LOST: the asked pair is cleared and the pack manager is told of the loss (R180, R181). -/
def enterLost (told : State → State) (s : State) : State :=
  packLost told ((setSession .lost s).modDlc Dlc.clearAsk)

/-! ### The end of an exchange (R178) -/

/-- The frame whose answer is awaited, with the marks of its exchange. -/
def Dlc.awaited? (d : Dlc) : Option Exchange :=
  match d.exchange with
  | some x => if x.awaiting then some x else none
  | none => none

def endExchange (s : State) : State := s.modDlc fun d => { d with exchange := none }

/-- A miss in OFFERED or ACTIVE below the limit: the count rises, and an ASK still due waits for its retry
(R181). -/
def Dlc.missed (f : DockFrame) (d : Dlc) : Dlc :=
  { d with
    misses := d.misses + 1
    retry := if f.isAsk ∧ d.askDue then some .afterMiss else d.retry }

/-- What a miss leads to in each session state (R180, R181). -/
def takeMiss (told : State → State) (f : DockFrame) (s : State) : State :=
  match s.dlc.session with
  | .probing => if 10 ≤ s.dlc.probes then enterLost told s else s
  | .offered | .active =>
      if 3 ≤ s.dlc.misses + 1 then enterLost told s else s.modDlc (Dlc.missed f)
  | .absent | .lost => s

/-- An exchange that ends in a miss; with no answer awaited nothing happens (R178). -/
def exchangeMissed (told : State → State) (s : State) : State :=
  match s.dlc.awaited? with
  | none => s
  | some x => serveLine (takeMiss told x.frame (endExchange s))

/-! ### Answers (R180 to R182) -/

/-- An OFFER (R180). -/
def takeOffer (told : State → State) (offer : Offer) (s : State) : State :=
  serveLine (enterOffered told ((endExchange s).modDlc fun d => { d with offer := some offer }))

/-- A GRANT that answers an ASK (R181, R183). DEDUCED (entry 44): where the leave-charging order fell in OFFERED during
the exchange and a newer pair was handed over after it, the QUIT of R183 goes first and the newer pair is asked after it,
though R181 has the newer pair asked next. -/
def takeGrant (x : Exchange) (s : State) : State :=
  let t := s.modDlc fun d =>
    { d with exchange := none, misses := 0, declines := 0, askDue := d.askDue && x.newer }
  serveLine
    (if t.dlc.session = .offered then
      if x.ordered then t.modDlc fun d => { d with quitDue := true } else setSession .active t
    else t)

/-- A DECLINE that answers an ASK (R182). -/
def takeDecline (told : State → State) (s : State) : State :=
  let t := s.modDlc fun d => { d with exchange := none, misses := 0 }
  serveLine
    (if t.dlc.askDue then
      if 2 ≤ t.dlc.declines + 1 then
        chargeFault told .declined (t.modDlc fun d => { d with askDue := false, declines := 0 })
      else t.modDlc fun d => { d with declines := d.declines + 1, retry := some .afterDecline }
    else t)

/-- A KEEPACK that answers a KEEP (R181). -/
def takeKeepack (current : Nat) (s : State) : State :=
  serveLine (s.modDlc fun d => { d with exchange := none, misses := 0, dockCurrent := current })

/-- An answer while its exchange waits: what the frame sent calls for ends the exchange, and any other kind and an
OFFER out of range are a miss (R178). The voltage and current of a GRANT and the reason of a DECLINE are not
otherwise used (R181, R182). -/
def takeAnswer (told : State → State) (x : Exchange) (a : DockAnswer) (s : State) : State :=
  match x.frame, a with
  | .probe, .offer dockKind voltage current =>
      if offerInRange voltage.toNat current.toNat then
        takeOffer told
          { dockKind := dockKind.toNat, maxVoltage := voltage.toNat, maxCurrent := current.toNat } s
      else exchangeMissed told s
  | .ask _ _, .grant _ _ => takeGrant x s
  | .ask _ _, .decline _ => takeDecline told s
  | .keep, .keepack current => takeKeepack current.toNat s
  | _, _ => exchangeMissed told s

/-- The bytes of a complete answer frame arrive: dropped where no exchange waits, a miss where they are no frame
of R18, and else the answer that they carry (R178). -/
def answerReceived (told : State → State) (bytes : List Byte) (s : State) : State :=
  match s.dlc.awaited? with
  | none => s
  | some x =>
      match dockAnswer? bytes with
      | none => exchangeMissed told s
      | some a => takeAnswer told x a s

/-! ### The last byte of a frame (R178, R183) -/

/-- A QUIT whose last byte has been sent: the session enters OFFERED (R183). -/
def quitSent (told : State → State) (s : State) : State :=
  let t := endExchange s
  serveLine (if t.dlc.session = .active then enterOffered told t else t)

def frameSent (told : State → State) (s : State) : State :=
  match s.dlc.exchange with
  | none => s
  | some x =>
      if x.awaiting then s
      else if x.frame = .quit then quitSent told s
      else s.modDlc fun d => { d with exchange := some { x with awaiting := true } }

end Sys2Proof.Machine
end

