-- ==== Sys2Proof/Machine/Timing.lean ====
section
/-! DEFINITION. The timer and detector unit at work: expiries, detections, run seconds, the tick of the 1 ms
rate clock (R50 to R65). -/

namespace Sys2Proof.Machine

/-! ### Expiries (R53, R55) -/

/-- T1 and T2 stop at an expiry whatever their mode (R55). -/
def repeatsAtExpiry (k : Idx4) (mode : TimerMode) : Bool :=
  match k with
  | .i0 | .i3 => decide (mode = .repeats)
  | .i1 | .i2 => false

/-- What an expiry does in the unit: the reload, the running mark, the TIMER notice (R53). -/
def expireTimer (k : Idx4) (s : State) : State :=
  let e := s.tdu.entries.get k
  let t := setTimerRunning k (repeatsAtExpiry k e.mode) s
  if e.notice then askTimerNotice k t else t

/-- What the owner does at its own event (R53). -/
def expiryTold (told : State → State) (k : Idx4) (s : State) : State :=
  match k with
  | .i0 => windowClose told s
  | .i1 => safetyExpired told s
  | .i2 => boostHoldEnd told s
  | .i3 => s

/-! ### Detections (R58) -/

/-- What a detection does in the unit: the detector is disarmed and the DETECTOR notice asked for (R58). -/
def detect (d : DetectorId) (level : Bool) (s : State) : State :=
  askDetectorNotice d level (disarmDetector d s)

def detectionTold (told : State → State) (d : DetectorId) (level : Bool) (s : State) : State :=
  match d with
  | .d0 => dockDetected told level s
  | .d1 => binDetected told level s
  | .d2 => s

def Pins.level (p : Pins) : DetectorId → Bool
  | .d0 => p.dockSense
  | .d1 => p.binLatch
  | .d2 => p.aux

def Pins.withLevel (p : Pins) (d : DetectorId) (b : Bool) : Pins :=
  match d with
  | .d0 => { p with dockSense := b }
  | .d1 => { p with binLatch := b }
  | .d2 => { p with aux := b }

/-! ### Run time (R62 to R65) -/

/-- Adds a run second; a saturated counter does not change (R63). -/
def RunTime.addSecond (r : RunTime) : RunTime :=
  if r.seconds < 59 then { r with seconds := r.seconds + 1 }
  else if r.minutes < 59 then { r with minutes := r.minutes + 1, seconds := 0 }
  else if r.hours < 65535 then { hours := r.hours + 1, minutes := 0, seconds := 0 }
  else r

/-- Whether a run second makes a run-minute rollover (R63). -/
def RunTime.rollsOver (r : RunTime) : Bool :=
  decide (59 ≤ r.seconds) && (decide (r.minutes < 59) || decide (r.hours < 65535))

/-- Whether the service match agrees with the filter counter (R65). -/
def serviceMatches (e : ServiceEntry) (filter : RunTime) : Bool :=
  e.enable && (e.anyHours || decide (e.hours = filter.hours)) &&
    (e.anyMinutes || decide (e.minutes = filter.minutes))

/-- One run second on both counters, and the service match at a rollover of the filter counter (R62, R65). -/
def addRunSecond (s : State) : State :=
  let rolled := s.ka.filter.rollsOver
  let t := s.modKa fun k =>
    { k with motorTotal := k.motorTotal.addSecond, filter := k.filter.addSecond }
  if rolled && serviceMatches t.ka.service t.ka.filter then
    askNotice .service (t.modKa fun k => { k with serviceDue := true })
  else t

/-! ### One tick of the 1 ms rate clock (R50, R57, R62; entry 3) -/

/-- Whether a rate clock ticks at a phase of the common count (R50). -/
def ticksAt (clock : Nat) : Rate → Bool
  | .ms1 => true
  | .ms16 => decide (clock % 16 = 0)
  | .ms250 => decide (clock % 250 = 0)
  | .s4 => decide (clock = 0)

/-- Whether a timer expires at a tick of the 1 ms clock (R53). -/
def Timer.expiresAt (clock : Nat) (t : Timer) : Bool :=
  t.running && ticksAt clock t.rate && decide (t.count ≤ 1)

/-- The down-count at a tick, short of an expiry (R53). -/
def Timer.counted (clock : Nat) (t : Timer) : Timer :=
  if t.running && ticksAt clock t.rate && decide (1 < t.count) then { t with count := t.count - 1 } else t

/-- The measurement of an armed detector after a sample of its input (R57). -/
def Detector.sampled (level : Bool) (d : Detector) : Detector :=
  if d.armed then
    if level = d.polarity.newLevel then
      { d with measurement := match d.measurement with | none => some 0 | some n => some (n + 1) }
    else { d with measurement := none }
  else d

/-- Whether the measurement has reached the debounce length, in units of 4 ms (R57). -/
def Detector.reached (d : Detector) : Bool :=
  d.armed &&
    match d.measurement with
    | none => false
    | some n => decide (4 * d.debounce ≤ n)

/-- Sampling and counting at a tick: the part that is no event of an owner. -/
def Tdu.ticked (pins : Pins) (t : Tdu) : Tdu :=
  let clock := (t.clock + 1) % 4000
  { t with
    clock := clock
    timers :=
      { i0 := t.timers.i0.counted clock
        i1 := t.timers.i1.counted clock
        i2 := t.timers.i2.counted clock
        i3 := t.timers.i3.counted clock }
    detectors :=
      { d0 := t.detectors.d0.sampled pins.dockSense
        d1 := t.detectors.d1.sampled pins.binLatch
        d2 := t.detectors.d2.sampled pins.aux }
    runMs := if t.runMark then (t.runMs + 1) % 1000 else t.runMs }

/-- A run second falls at a tick that takes the run-millisecond count from 999 (R62). -/
def Tdu.runSecondFalls (t : Tdu) : Bool := t.runMark && decide (t.runMs = 999)

def allDetectors : List DetectorId := [.d0, .d1, .d2]

/-- The owners' events of a tick: expiries, detections, a run second. -/
def tickEvents (told : State → State) (expired : List Idx4) (detected : List DetectorId)
    (runSecond : Bool) (levels : Pins) : List (State → State) :=
  expired.map (expiryTold told) ++
    (detected.map fun d => detectionTold told d (levels.level d)) ++
    (if runSecond then [addRunSecond] else [])

/-- The input lines at a tick: each keeps its level or has moved, freely, so that a sample can show either level
(R57, entry 39). -/
def Pins.atTick (draws : Nat) (p : Pins) : Pins :=
  { p with
    dockSense := p.dockSense ^^ Config.lineMoved .d0 draws
    binLatch := p.binLatch ^^ Config.lineMoved .d1 draws
    aux := p.aux ^^ Config.lineMoved .d2 draws }

/-- The input lines come to the levels that a tick samples. -/
def moveLines (s : State) : State := (s.modPins (Pins.atTick s.draws)).setDraws (s.draws + 1)

/-- What a tick does with the lines at the levels that State holds. The rate clocks that tick at the same count are one
event here: a timer that expires and reloads to another rate is not counted by the clock of that rate at this count
(R53). The unit's own part of every expiry and detection comes first; the owners' events follow in a free order, so a
timer that an owner starts is first counted at a later count (R52). DEDUCED, entry 38. -/
def tickAtLevels (told : State → State) (s : State) : State :=
  let t := s.modTdu (Tdu.ticked s.pins)
  let expired := allUnits.filter fun k => (s.tdu.timers.get k).expiresAt t.tdu.clock
  let detected := allDetectors.filter fun d => (t.tdu.detectors.get d).reached
  let t := expired.foldl (fun u k => expireTimer k u) t
  let t := detected.foldl (fun u d => detect d (s.pins.level d) u) t
  inAnyOrder (tickEvents told expired detected s.tdu.runSecondFalls s.pins) t

/-- A tick of the 1 ms rate clock, and of the others that fall with it: the detectors sample the lines at the levels
to which these have come (R57). -/
def tick (told : State → State) (s : State) : State := tickAtLevels told (moveLines s)

end Sys2Proof.Machine
end

