-- ==== Sys2Proof/Machine/Requests.lean ====
section
/-! DEFINITION. The requests of the message link as their owners carry them out (R12, R13, R15, R34, R47, R56,
R61, R64, R66, R78, R88, R95, R104, R120, R132 to R136, R156, R194). -/

namespace Sys2Proof.Machine

/-! ### The link controller's own (R12, R13, R15) -/

/-- Identify (R12): vendor code, part code, revision. -/
def identify (s : State) : Answer := answerOk s ([0x50] ++ bytes2 0x56C6 ++ [3])

/-- The body of a GetStatus reply (R12, R17). -/
def statusBody (s : State) : List Byte :=
  [linkFlagByte s.link, flagByte s.ka.keepAliveLost, suctionCode s.snc.suction.reported,
    haltCode s.snc.suction.haltCause?, byteOf (presetNo s.snc.preset), byteOf s.dsu.boostLevel,
    packCode s.pmg.state, faultCode s.pmg.state.faultKind?, sessionCode s.dlc.session,
    byteOf s.chan.soc] ++
    bytes2 s.chan.budget ++ bytes2 (runTimeEstimate s) ++ bytes2 s.dlc.dockCurrent ++
    [flagByte s.ka.serviceDue]

/-- GetStatus (R4, R12): a nonzero option byte clears the three link flags at the same event. -/
def getStatus (option : Option Byte) (s : State) : Answer :=
  let cleared := s.modLink fun l => { l with overrun := false, check := false, gap := false }
  answerOk (if option.getD 0 = 0 then s else cleared) (statusBody s)

/-- The three conditions of Sleep (R13). -/
def maySleep (s : State) : Bool :=
  decide (s.snc.suction.reported = .off) &&
    (decide (s.pmg.state = .discharge) || decide (s.pmg.state = .protect)) &&
    decide (s.dlc.session = .absent)

def closeLink (s : State) : State := s.modLink fun l => { l with closing := true }

/-- Sleep (R13). -/
def sleepRequest (s : State) : Answer :=
  if maySleep s then answerOk (closeLink s) [] else refuse .state s

/-- Restart (R15). -/
def restartRequest (s : State) : Answer := answerOk (closeLink s) []

/-! ### Settings and measurement -/

/-- AcknowledgeKeepAlive (R34). -/
def acknowledgeKeepAlive (s : State) : Answer :=
  answerOk (s.modKa fun k => { k with keepAliveLost := false }) []

def plainRecord (r : Reading) : List Byte :=
  (if r.isValid then 0 else 1) :: bytes3s r.shown

/-- The CELL record: a state byte with bit k set when member k+1 is NO READING, then six values (R17). -/
def cellRecord (cell : Six Reading) : List Byte :=
  let mark := fun (r : Reading) (n : Nat) => if r.isValid then 0 else n
  byteOf (mark cell.c1 1 + mark cell.c2 2 + mark cell.c3 4 + mark cell.c4 8 + mark cell.c5 16 +
    mark cell.c6 32) ::
    ((Six.toList cell).map fun r => bytes2 r.shown.toNat).flatten

/-- The record of a channel on the link (R17, R47). -/
def channelRecord (c : Channels) : ChannelId → List Byte
  | .cell => cellRecord c.cell
  | .packI => plainRecord (.valid c.packI)
  | .packT => plainRecord c.packT
  | .motorT => plainRecord c.motorT
  | .motorI => plainRecord (.valid c.motorI)
  | .speed => plainRecord (.valid c.speed)
  | .dockV => plainRecord (.valid c.dockV)
  | .target => plainRecord (.valid c.target)
  | .dirtNet => plainRecord (.valid c.dirtNet)
  | .soc => plainRecord (.valid c.soc)
  | .budget => plainRecord (.valid c.budget)

/-- ReadChannels (R47). -/
def readChannels (ids : List Byte) (s : State) : Answer :=
  if ids.any fun b => (channelOf? b).isNone then refuse .badIndex s
  else
    let body := ((ids.filterMap channelOf?).map (channelRecord s.chan)).flatten
    if 63 < body.length + 1 then refuse .length s else answerOk s body

/-! ### Timers, detectors, run time -/

/-- TimerControl (R56). -/
def timerControl (timer action : Byte) (s : State) : Answer :=
  match unitOf? timer.toNat with
  | none => refuse .badIndex s
  | some k =>
      if action ≠ 0 ∧ action ≠ 1 then refuse .range s
      else if k = .i1 ∨ k = .i2 then refuse .held s
      else answerOk (if action = 1 then startTimer k s else stopTimer k s) []

/-- ArmDetector (R61). -/
def armRequest (detector polarity debounce : Byte) (s : State) : Answer :=
  if 3 ≤ detector.toNat then refuse .badIndex s
  else if detector.toNat < 2 then refuse .held s
  else if 3 ≤ polarity.toNat then refuse .range s
  else if polarity = 2 then answerOk (disarmDetector .d2 s) []
  else
    { state := armDetector .d2 (if polarity = 1 then .rising else .falling) (min 15 debounce.toNat) s
      status := if 15 < debounce.toNat then .clamped else .ok
      body := [] }

def runTimeBytes (r : RunTime) : List Byte := bytes2 r.hours ++ [byteOf r.minutes, byteOf r.seconds]

/-- ReadRunTime (R64). -/
def readRunTime (s : State) : Answer :=
  answerOk s (runTimeBytes s.ka.motorTotal ++ runTimeBytes s.ka.filter)

/-- ResetFilterTime (R64). -/
def resetFilterTime (s : State) : Answer :=
  answerOk (s.modKa fun k => { k with filter := RunTime.zero }) []

/-- ClearServiceDue (R66). -/
def clearServiceDue (s : State) : Answer :=
  answerOk (s.modKa fun k => { k with serviceDue := false }) []

/-! ### Watches, suction, conditions -/

/-- ReadClearWatchHits (R78). -/
def readClearWatchHits (s : State) : Answer :=
  answerOk (s.modWcu fun w => { w with hits := Four.all false, heldAccess := false })
    [unitBits s.wcu.hits, flagByte s.wcu.heldAccess]

/-- SelectPreset (R88). -/
def selectPreset (preset : Byte) (s : State) : Answer :=
  match presetOf? preset with
  | none => refuse .badIndex s
  | some p =>
      if s.snc.suction.isHalt then refuse .state s
      else
        let t := s.modSnc fun c => { c with preset := p }
        let t := if (s.ka.presets.get p).notify then askNotice .suction t else t
        answerOk (evaluate tellSuction t) []

/-- Resume (R95). -/
def resume (s : State) : Answer :=
  match s.snc.suction with
  | .held m pending => answerOk (commitSuction tellSuction (Snc.adoptInto pending s.chan.speed m) s) []
  | .moving _ | .halt _ => refuse .state s

def hardSources : List Source := [.binOpen, .packLow, .packHot, .motorHot, .docked]

/-- The hard sources whose marks are set, in the order of R104. -/
def markedSources (c : Snc) : List Source := hardSources.filter c.marks.get

/-- Those of them that have no entry in the stack. -/
def waitingSources (c : Snc) : List Source :=
  (markedSources c).filter fun src => (findEntry src c.stack).isNone

/-- Pushes or reactivates the marked hard sources, each a stack change without an evaluation, since the state
is HALT (R104, R137). -/
def pushMarked (s : State) : State :=
  (markedSources s.snc).foldl (fun t src => changeStack tellSuction (t.snc.raised? src 0) t) s

/-- ClearHalt (R104). The state becomes OFF, which is told, and an evaluation follows (entry 34). -/
def clearHalt (s : State) : Answer :=
  if s.snc.suction.isHalt = false then refuse .state s
  else if 50 ≤ s.chan.speed then refuse .state s
  else if 4 - s.snc.stack.length < (waitingSources s.snc).length then refuse .state s
  else
    let t := commitSuction tellSuction (fun c => { c with suction := .moving .off, applied := 0 })
      (pushMarked s)
    answerOk (evaluate tellSuction t) []

def conditionPair (c : Option ConditionSource) : List Byte := [flagByte c.isSome, conditionCode c]

/-- The condition record on the link: INV, OVF, UNF, LIM (R17). -/
def conditionBytes (c : Conditions) : List Byte :=
  conditionPair c.inv ++ conditionPair c.ovf ++ conditionPair c.unf ++ conditionPair c.lim

/-- ReadClearConditions (R120). -/
def readClearConditions (s : State) : Answer :=
  answerOk (s.modSnc fun c => { c with conditions := Conditions.clear })
    (conditionBytes s.snc.conditions)

/-! ### Overrides -/

/-- Writes the saved boost flag of the bottom entry, the last of the list (R132). -/
def saveBottom (flag : Bool) : List OverrideEntry → List OverrideEntry
  | [] => []
  | [e] => [{ e with saved := flag }]
  | e :: f :: rest => e :: saveBottom flag (f :: rest)

/-- SetBoost (R132). -/
def setBoost (flag : Byte) (s : State) : Answer :=
  if flag ≠ 0 ∧ flag ≠ 1 then refuse .range s
  else if s.snc.stack.isEmpty then
    answerOk (evaluate tellSuction (s.modSnc fun c => { c with boostPermitted := flagOf flag })) [0]
  else
    answerOk (evaluate tellSuction
      (s.modSnc fun c => { c with stack := saveBottom (flagOf flag) c.stack })) [1]

/-- SetSoftOverrides (R133). -/
def setSoftOverrides (flag : Byte) (s : State) : Answer :=
  if flag ≠ 0 ∧ flag ≠ 1 then refuse .range s
  else answerOk (s.modSnc fun c => { c with softOverrides := flagOf flag }) []

/-- PushOverride (R134). -/
def pushOverride (cap : Nat) (s : State) : Answer :=
  let held := min 1250 cap
  let st := if 1250 < cap then Status.clamped else .ok
  if s.snc.softOverrides = false then refuse .state s
  else if s.snc.hasUnreleased .hostCap then answerOk s []
  else
    match s.snc.raised? .hostCap held with
    | none => refuse .state s
    | some c => { state := stackChange tellSuction c s, status := st, body := [] }

/-- ReleaseOverride (R135). -/
def releaseOverride (s : State) : Answer :=
  if s.snc.hasUnreleased .hostCap then answerOk (clearSoft tellSuction .hostCap s) []
  else refuse .state s

def overrideBytes (e : OverrideEntry) : List Byte :=
  [sourceCode e.source, if e.source.isHard then 0 else 1] ++ bytes2 e.cap ++
    [flagByte e.saved, flagByte e.released]

/-- ReadOverrides: depth, flags, and the entries from bottom to top (R136). -/
def readOverrides (s : State) : Answer :=
  answerOk s
    ([byteOf s.snc.stack.length, flagByte s.snc.boostPermitted, flagByte s.snc.softOverrides] ++
      (s.snc.stack.reverse.map overrideBytes).flatten)

/-! ### Dirt and charge -/

def historyBytes (r : WindowRecord) : List Byte :=
  bytes2 r.fine ++ bytes2 r.coarse ++ bytes2 r.applied ++
    match r.classified with
    | none => [1] ++ bytes2 0 ++ bytes2 0 ++ [0]
    | some c => [0] ++ bytes2 c.score ++ bytes2 c.net ++ [byteOf c.level]

/-- ReadDirtHistory (R156). -/
def readDirtHistory (count : Byte) (s : State) : Answer :=
  if count = 0 ∨ 16 < count.toNat then refuse .badIndex s
  else
    let page := historyPage count.toNat s.dsu.ring
    answerOk s (byteOf page.length :: (page.map historyBytes).flatten)

/-- ClearChargeFault (R194). -/
def clearChargeFault (s : State) : Answer :=
  match s.pmg.state with
  | .fault _ => answerOk (waitInDock tellSuction s) []
  | .discharge | .protect | .dockedWait | .charging _ | .paused _ => refuse .state s

end Sys2Proof.Machine
end

