-- ==== Sys2Proof/Machine/Link.lean ====
section
/-! DEFINITION. The link controller: the receiver, the request queue, handing, replies, notices, the
transmitter (R1 to R11). -/

namespace Sys2Proof.Machine

/-! ### Handing a request (R5) -/

/-- The payload lengths of the table of kind numbers (R17). -/
def lengthAllowed (kind n : Nat) : Bool :=
  match kind with
  | 0x02 => decide (n ≤ 1)
  | 0x03 => decide (1 ≤ n) && decide (n ≤ 11)
  | 0x04 => decide (n = 4)
  | 0x05 => decide (4 ≤ n)
  | 0x06 | 0x07 | 0x0D | 0x10 => decide (n = 1)
  | 0x0A | 0x11 => decide (n = 2)
  | 0x12 => decide (n = 3)
  | _ => decide (n = 0)

/-- A known kind: 0x01 to 0x19 (R5). -/
def knownKind (kind : Nat) : Bool := decide (1 ≤ kind) && decide (kind ≤ 0x19)

/-- The owner carries out a request of a known kind and of a listed length (R5). -/
def carryOut (r : Request) (s : State) : Answer :=
  match r.kind.toNat, r.payload with
  | 0x01, _ => identify s
  | 0x02, p => getStatus p.head? s
  | 0x03, ids => readChannels ids s
  | 0x04, [sec, first, count, reserve] => readSection sec first count reserve s
  | 0x05, sec :: first :: count :: conditional :: entries =>
      writeSection tellSuction sec first count conditional entries s
  | 0x06, [preset] => selectPreset preset s
  | 0x07, [flag] => setBoost flag s
  | 0x08, _ => resume s
  | 0x09, _ => clearHalt s
  | 0x0A, [lo, hi] => pushOverride (nat2 lo hi) s
  | 0x0B, _ => releaseOverride s
  | 0x0C, _ => readOverrides s
  | 0x0D, [flag] => setSoftOverrides flag s
  | 0x0E, _ => readClearConditions s
  | 0x0F, _ => readClearWatchHits s
  | 0x10, [count] => readDirtHistory count s
  | 0x11, [timer, action] => timerControl timer action s
  | 0x12, [detector, polarity, debounce] => armRequest detector polarity debounce s
  | 0x13, _ => readRunTime s
  | 0x14, _ => resetFilterTime s
  | 0x15, _ => clearServiceDue s
  | 0x16, _ => clearChargeFault s
  | 0x17, _ => acknowledgeKeepAlive s
  | 0x18, _ => sleepRequest s
  | 0x19, _ => restartRequest s
  | _, _ => refuse .length s

/-- What follows a reply's last byte: an accepted Sleep or Restart has its own ending (R13, R15). -/
def endingOf (kind : Nat) (st : Status) : Ending :=
  match kind, st with
  | 0x18, .ok => .sleep
  | 0x19, .ok => .restart
  | _, _ => .plain

/-- The state and the reply of a request that is handed (R5). -/
def handle (r : Request) (s : State) : State × Frame :=
  if knownKind r.kind.toNat then
    let a := if lengthAllowed r.kind.toNat r.payload.length then carryOut r s else refuse .length s
    (a.state,
      { kind := r.kind + 0x40
        payload := statusByte a.status :: a.body
        ending := endingOf r.kind.toNat a.status })
  else (s, { kind := 0x7F, payload := [statusByte .unknown, r.kind], ending := .plain })

/-- Hands the oldest request when the slot is empty and the closing mark clear (R5). -/
def handNext (s : State) : State :=
  match s.link.queue with
  | [] => s
  | r :: rest =>
      if s.link.slot.isNone && !s.link.closing then
        let h := handle r (s.modLink fun l => { l with queue := rest })
        h.1.modLink fun l => { l with slot := some h.2 }
      else s

/-! ### The receiver (R1 to R3) -/

/-- A request at the queue: appended, or lost with OVERRUN (R3). -/
def acceptRequest (r : Request) (s : State) : State :=
  if s.link.queue.length < 2 then s.modLink fun l => { l with queue := l.queue ++ [r] }
  else setOverrun s

/-- Judges a frame at its check byte; the length is that of the buffer (R3). -/
def judgeFrame (buffer : List Byte) (check : Byte) (s : State) : State :=
  if (byteOf buffer.length :: buffer ++ [check]).foldl (· + ·) 0 = (0 : Byte) then
    match buffer with
    | kind :: payload => acceptRequest { kind := kind, payload := payload } s
    | [] => s
  else setCheck s

def setReceiver (r : Receiver) (s : State) : State := s.modLink fun l => { l with receiver := r }

/-- A byte with a sound stop bit (R1). -/
def byteReceived (b : Byte) (s : State) : State :=
  match s.link.receiver with
  | .hunt => if b = 0xB4 then setReceiver .length s else s
  | .length =>
      if 1 ≤ b.toNat ∧ b.toNat ≤ 64 then setReceiver (.body b.toNat []) s
      else setCheck (setReceiver .hunt s)
  | .body expected buffer =>
      setReceiver
        (if expected ≤ 1 then .check (buffer ++ [b]) else .body (expected - 1) (buffer ++ [b])) s
  | .check buffer => judgeFrame buffer b (setReceiver .hunt s)

/-- A byte with a stop-bit error (R1). -/
def brokenByte (s : State) : State :=
  match s.link.receiver with
  | .hunt => s
  | .length | .body _ _ | .check _ => setCheck (setReceiver .hunt s)

/-- The gap measurement runs inside a frame (R2). -/
def gapExpired (s : State) : State :=
  match s.link.receiver with
  | .hunt => s
  | .length | .body _ _ | .check _ => setGap (setReceiver .hunt s)

/-! ### The transmitter (R9, R10) -/

/-- The pending kind of the lowest number (R9). -/
def lowestPending (m : NoticeMarks) : Option NoticeKind :=
  [NoticeKind.suction, .override, .watch, .condition, .dirt, .pack, .dock, .timer, .service, .detector].find?
    m.get

/-- The detectors of the accumulation set: bit k for Dk (R17). -/
def detectorBits (a : Three (Option Bool)) : Byte :=
  byteOf ((if a.d0.isSome then 1 else 0) + (if a.d1.isSome then 2 else 0) + (if a.d2.isSome then 4 else 0))

/-- The level byte of a detector: its level at detection, or a free one for a detector that is not in the
set (R17, entry 9). -/
def levelByte (draws : Nat) (level : Option Bool) : Byte :=
  flagByte (level.getD (Config.absentLevel draws))

/-- The payload of a notice, from the state of its owner (R10, R17). -/
def noticePayload (k : NoticeKind) (s : State) : List Byte :=
  match k with
  | .suction =>
      [suctionCode s.snc.suction.reported, haltCode s.snc.suction.haltCause?,
        byteOf (presetNo s.snc.preset)]
  | .override =>
      [byteOf s.snc.stack.length,
        match s.snc.stack with
        | [] => 0
        | e :: _ => sourceCode e.source]
  | .watch => [unitBits s.link.accWatch]
  | .condition => conditionBytes s.snc.conditions
  | .dirt => [byteOf s.dsu.boostLevel, byteOf s.dsu.dirtLevel]
  | .pack => [packCode s.pmg.state, faultCode s.pmg.state.faultKind?, byteOf (stateOfCharge s.ka)]
  | .dock => [sessionCode s.dlc.session]
  | .timer => [unitBits s.link.accTimer]
  | .service => bytes2 s.ka.filter.hours ++ [byteOf s.ka.filter.minutes]
  | .detector =>
      [detectorBits s.link.accDetector, levelByte s.draws s.link.accDetector.d0,
        levelByte (s.draws + 1) s.link.accDetector.d1, levelByte (s.draws + 2) s.link.accDetector.d2]

/-- A started notice leaves the pending set, and its accumulation set is emptied (R9, R10). -/
def Link.noticeStarted (k : NoticeKind) (f : Frame) (l : Link) : Link :=
  { l with
    notices := l.notices.set k false
    accWatch := if k = .watch then Four.all false else l.accWatch
    accTimer := if k = .timer then Four.all false else l.accTimer
    accDetector := if k = .detector then { d0 := none, d1 := none, d2 := none } else l.accDetector
    tx := some f }

def startNotice (k : NoticeKind) (s : State) : State :=
  let f : Frame := { kind := noticeCode k, payload := noticePayload k s, ending := .plain }
  (s.modLink (Link.noticeStarted k f)).setDraws (if k = .detector then s.draws + 3 else s.draws)

/-- The transmitter, when free, starts the reply in the slot, else, with the closing mark clear, the lowest
pending notice (R9). -/
def startFrame (s : State) : State :=
  if s.link.tx.isSome then s
  else
    match s.link.slot with
    | some f => s.modLink fun l => { l with tx := some f, slot := none }
    | none =>
        if s.link.closing then s
        else
          match lowestPending s.link.notices with
          | some k => startNotice k s
          | none => s

/-- What the link controller does at the end of each step of the main domain: it hands a request, starts a
frame, and hands the next if the slot has emptied (R5, R9, entry 7). -/
def settle (s : State) : State := handNext (startFrame (handNext s))

/-- A byte among those of a whole frame. Where it is the check byte of the frame that the receiver is inside, the
link controller takes its turn before the next byte: a request that arrives at an empty queue with an empty slot
reaches its owner when it arrives (R5, entry 25). -/
def frameByte (s : State) (b : Byte) : State :=
  match s.link.receiver with
  | .check _ => settle (byteReceived b s)
  | .hunt | .length | .body _ _ => byteReceived b s

/-- The bytes of a whole frame, one after the other (R1, R5, R17). -/
def frameReceived (bytes : List Byte) (s : State) : State := bytes.foldl frameByte s

/-- A step of the main domain: nothing happens in SLEEP or during a hold (entry 2). -/
def whileAwake (f : State → State) (s : State) : State :=
  if s.domain = .awake then settle (f s) else s

end Sys2Proof.Machine
end

