-- ==== Sys2Proof/Machine/Measure.lean ====
section
/-! DEFINITION. The measurement unit: a stored sample and whom it is told to (R37 to R48), and the gauge
second (R165 to R175). -/

namespace Sys2Proof.Machine

/-! ### Stored samples (R44) -/

/-- A stored sample of a converted channel is told to its owner and to the watch unit (R44). -/
def sampleTold (told : State → State) (channel : ChannelId) (sample : List Reading)
    (owner : State → State) (s : State) : State :=
  compareAmong (deliverTelling told) channel sample [owner] s

/-- Adds a PACK_I sample to the accumulator (R48). -/
def accumulate (milliamps : Int) (s : State) : State :=
  s.modKa fun k => { k with accSum := k.accSum + milliamps, accCount := k.accCount + 1 }

/-- A CELL sample: bleeding is suspended, the six members are stored together and told, and the outputs are
driven again from the bleed set (R38, R39, R44, entry 17). -/
def cellSampled (told : State → State) (cell : Six Reading) (s : State) : State :=
  let t := (s.setBleedOut (Six.all false)).modChan fun c => { c with cell := cell }
  driveBleed (sampleTold told .cell (Six.toList cell) (packCell told) t)

/-- A sample of a plain converted channel (R40 to R44). -/
def channelSampled (told : State → State) (conversion : Conversion) (s : State) : State :=
  match conversion with
  | .packI v =>
      let t := accumulate (packIOf v) (s.modChan fun c => { c with packI := packIOf v })
      sampleTold told .packI [.valid (packIOf v)] (packCurrent told) t
  | .packT v =>
      sampleTold told .packT [temperatureOf v] (packTemperature told)
        (s.modChan fun c => { c with packT := temperatureOf v })
  | .motorT v =>
      sampleTold told .motorT [temperatureOf v] (motorTTold told)
        (s.modChan fun c => { c with motorT := temperatureOf v })
  | .motorI v =>
      sampleTold told .motorI [.valid (motorIOf v)] (motorITold told)
        (s.modChan fun c => { c with motorI := motorIOf v })
  | .speed v =>
      sampleTold told .speed [.valid (speedOf v)] (speedTold told)
        (s.modChan fun c => { c with speed := speedOf v })
  | .dockV v =>
      sampleTold told .dockV [.valid (dockVOf v)] id
        (s.modChan fun c => { c with dockV := dockVOf v })

/-! ### The gauge second (R165 to R175) -/

/-- Step 1, and its reports while the main domain runs (R165). -/
def integrate (mean : Int) (s : State) : State :=
  let t := s.modKa fun k => { k with qRem := integrated mean k }
  if s.domain = .awake then
    reportIf (clampsHigh mean s.ka && !s.pmg.state.bleeds) .ovf .gauge
      (reportIf (clampsLow mean s.ka) .unf .gauge t)
  else t

/-- Whether the charge put in counts toward ΔQ (R169). -/
def PackState.learns : PackState → Bool
  | .charging .precharge | .charging .cc | .charging .cv | .paused _ => true
  | .charging .done | .discharge | .protect | .dockedWait | .fault _ => false

/-- Step 3 (R169). -/
def learnStep (mean : Int) (s : State) : State :=
  if s.pmg.state.learns then
    s.modPmg fun p =>
      { p with learning := p.learning.map fun l => { l with added := l.added + mean.toNat } }
  else s

/-- Steps 1 to 3, which are not made before the estimate (R166, R167). -/
def gaugeCount (mean : Int) (s : State) : State :=
  if s.ka.estimatePending then s
  else
    let t := countDischarge mean (integrate mean s)
    if s.domain = .awake then learnStep mean t else t

/-- Step 4: the state of charge is computed and stored (R166). -/
def storeSoc (s : State) : State := s.modChan fun c => { c with soc := stateOfCharge s.ka }

/-- Steps 5 and 6 (R172, R173). DEDUCED (entry 42): V_sag is read as it stands at the gauge update, beside the CELL
record as it stands, though R163 also says that a new V_sag acts from the next sample of the channel that it is
compared with. -/
def foldbackStep (mean : Int) (s : State) : State :=
  s.modPmg fun p =>
    { p with
      means := keepMean mean p.means
      foldback :=
        nextFoldback s.snc.isRunning (lowestCell s.chan.cell) s.ka.limits.vSag p.foldback }

/-- Steps 7 and 8 and the charge steps (R166, R189). -/
def restOfSecond (told : State → State) (s : State) : State :=
  chargeSteps told (computeBudgetThen told (judgeLowCharge told) s)

/-- The end of a gauge second (R166): the accumulator is handed over and emptied; steps 4 to 8 and the charge
steps (R189) follow while the main domain runs. The watch unit's event on the stored SOC falls before or after
what follows step 6 (entry 26). -/
def gaugeSecond (told : State → State) (s : State) : State :=
  let mean := meanOf s.ka.accSum s.ka.accCount s.draws
  let t := s.setDraws (if s.ka.accCount = 0 then s.draws + 1 else s.draws)
  let t := gaugeCount mean (t.modKa fun k => { k with accSum := 0, accCount := 0 })
  if s.domain = .awake then
    let t := foldbackStep mean (storeSoc t)
    compareAmong (deliverOverride told) .soc [.valid t.chan.soc] [restOfSecond told] t
  else t

end Sys2Proof.Machine
end

