-- ==== Sys2Proof/Machine/Starts.lean ====
section
/-! DEFINITION. Starts and supplies: the warm start, SLEEP, the RESET hold, the supply dip, the cold start,
the end of a transmission (R9, R11, R13 to R16, R33, R35, R49, R60, R67). -/

namespace Sys2Proof.Machine

/-! ### The warm start (R16, R35, R49, R67, R85, R107, R121, R138, R157, R176, R197) -/

/-- Every block of the main domain takes its warm-start values, and STARTED is in transmission (R11). -/
def warmBlocks (cause : StartCause) (dockSense binLatch : Bool) (s : State) : State :=
  { s with
    link := Link.warm cause s.ka.keepAliveLost
    reservation := none
    chan := Channels.warm
    tdu := Tdu.warm
    wcu := Wcu.warm
    snc := Snc.warm
    dsu := Dsu.warm
    pmg := Pmg.warm
    dlc := Dlc.warm
    domain := .awake
    pins := { s.pins with dockSense := dockSense, binLatch := binLatch }
    bleedOut := Six.all false }

/-- The first evaluation of a detector that finds its input high: a detection without debounce (R60). -/
def firstDetection (d : DetectorId) (s : State) : State :=
  detectionTold tellSuction d true (detect d true s)

/-- The completion of a warm start: the pack manager takes DISCHARGE, a move whose PACK notice and budget follow
(R158, R159, R174, entry 14), and D0 and D1 make their first evaluations (R60, entry 32). -/
def completeWarmStart (cause : StartCause) (dockSense binLatch : Bool) (s : State) : State :=
  inAnyOrder
    ((if dockSense then [firstDetection .d0] else []) ++
      (if binLatch then [firstDetection .d1] else []))
    (computeBudget tellSuction true (askNotice .pack (warmBlocks cause dockSense binLatch s)))

/-! ### SLEEP and holds (R13 to R15) -/

/-- The main domain stops: the transmitter and the dock line fall silent and the bleed outputs go off; what
else it held cannot be seen until the warm start replaces it (R14, R15, R39, entry 15). -/
def stopMain (d : Domain) (s : State) : State :=
  ((s.modLink fun l => { l with tx := none, receiver := .hunt }).modDlc fun c =>
    { c with exchange := none }).setBleedOut (Six.all false) |>.setDomain d

/-- A line that holds the main domain is still low. -/
def Pins.holds (p : Pins) : Bool := p.resetLow || p.supplyLow

/-- The cause of a hold that a second line joins: COLD stays, since a cold start and the warm start that follows
it report COLD (R11); else either of the two (entry 11). -/
def joinCauses (a b : StartCause) (s : State) : State :=
  if a = b ∨ a = .cold then s.setDomain (.held a)
  else (s.setDomain (.held (if Config.secondCause s.draws then b else a))).setDraws (s.draws + 1)

/-- A line goes low: the main domain is held at the start of a warm start (R15). -/
def holdMain (cause : StartCause) (s : State) : State :=
  match s.domain with
  | .awake => stopMain (.held cause) s
  | .sleep => s.setDomain (.held cause)
  | .held other => joinCauses other cause s

/-- A held start completes when no line is low (R15). -/
def releaseHold (dockSense binLatch : Bool) (s : State) : State :=
  match s.domain with
  | .held cause =>
      if s.pins.holds then s else completeWarmStart cause dockSense binLatch s
  | .awake | .sleep => s

/-- A warm start at once, or held while a line is low (entry 11). -/
def beginStart (cause : StartCause) (dockSense binLatch : Bool) (s : State) : State :=
  if s.pins.holds then stopMain (.held cause) s else completeWarmStart cause dockSense binLatch s

/-! ### The end of a transmission (R9, R13, R15) -/

/-- The Sleep reply has ended: SLEEP, or the Sleep is abandoned: the closing mark is cleared, the transmitter
chooses its next frame, and then handing resumes (R13). -/
def endOfSleepReply (s : State) : State :=
  if maySleep s then stopMain .sleep s
  else settle (startFrame (s.modLink fun l => { l with closing := false }))

def transmitEnd (dockSense binLatch : Bool) (s : State) : State :=
  match s.link.tx with
  | none => s
  | some f =>
      let t := s.modLink fun l => { l with tx := none }
      match f.ending with
      | .plain => settle t
      | .sleep => endOfSleepReply t
      | .restart => completeWarmStart .restart dockSense binLatch t

/-! ### The cold start (R33, R35) -/

/-- The keep-alive domain powers up with its marker lost: cold defaults, and the warm start (R33). -/
def coldStart (dockSense binLatch : Bool) (s : State) : State :=
  if s.ka.marker then s
  else beginStart .cold dockSense binLatch (s.modKa fun _ => KeepAlive.cold)

/-- The keep-alive supply falls below its retention level (R20, R33, entry 10). -/
def loseKeepAlive (s : State) : State :=
  (s.modKa fun _ => { Config.lostKeepAlive s.draws with marker := false }).setDraws (s.draws + 1)

end Sys2Proof.Machine
end

