-- ==== Sys2Proof/Machine/LinkCommands.lean ====
section
/-! DEFINITION. Meanings: bytes and frames of the message link, link requests. -/

namespace Sys2Proof.Machine

/-- The outcome of a command: every command of the SC6 has a next state. -/
abbrev CommandOutcome := Host.Outcome State Fault Refusal

/-- A step of the main domain as an outcome. -/
def mainStep (f : State → State) (s : State) : CommandOutcome := .next (whileAwake f s)

/-- A request of a kind with a payload arrives whole at the request queue (R3, R5, entry 1). -/
def requestStep (kind : Byte) (payload : List Byte) (s : State) : CommandOutcome :=
  mainStep (acceptRequest { kind := kind, payload := payload }) s

/-- BYTE_ARRIVAL (R1). -/
def execByteArrival (byte : Byte) (stopError : Bool) (s : State) : CommandOutcome :=
  mainStep (if stopError then brokenByte else byteReceived byte) s

/-- FRAME_RECEIVED: the start byte, the length, the kind, the payload and the check byte arrive one after the
other (R1, R3). -/
def execFrameReceived (length kind : Byte) (payload : List Byte) (check : Byte) (s : State) :
    CommandOutcome :=
  mainStep (frameReceived (0xB4 :: length :: kind :: payload ++ [check])) s

/-- GAP_TIMEOUT (R2). -/
def execGapTimeout (s : State) : CommandOutcome := mainStep gapExpired s

/-- UNKNOWN_REQUEST (R5). -/
def execUnknownRequest (kind : Byte) (payload : List Byte) (s : State) : CommandOutcome :=
  requestStep kind payload s

/-- TRANSMIT_END (R9, R13, R15): the reply in the slot, else the lowest pending notice, is started; or SLEEP
or the restart follows. -/
def execTransmitEnd (dockSense binLatch : Bool) (s : State) : CommandOutcome :=
  .next (if s.domain = .awake then transmitEnd dockSense binLatch s else s)

/-- IDENTIFY (R12). -/
def execIdentify (s : State) : CommandOutcome := requestStep 0x01 [] s

/-- GET_STATUS (R4, R12). -/
def execGetStatus (option : Option Byte) (s : State) : CommandOutcome :=
  requestStep 0x02 option.toList s

/-- SLEEP (R13). -/
def execSleep (s : State) : CommandOutcome := requestStep 0x18 [] s

/-- RESTART (R15). -/
def execRestart (s : State) : CommandOutcome := requestStep 0x19 [] s

end Sys2Proof.Machine
end

