-- ==== Sys2Proof/Machine/ControlCommands.lean ====
section
/-! DEFINITION. Meanings: watches, suction control, the condition record, overrides, dirt (R78, R88 to R104,
R120, R132 to R136, R140, R156). -/

namespace Sys2Proof.Machine

/-- READ_CLEAR_WATCH_HITS (R78). -/
def execReadClearWatchHits (s : State) : CommandOutcome := requestStep 0x0F [] s

/-- CONTROL_PERIOD (R92). -/
def execControlPeriod (s : State) : CommandOutcome := mainStep (controlPeriod tellSuction) s

/-- SELECT_PRESET (R88). -/
def execSelectPreset (preset : Byte) (s : State) : CommandOutcome := requestStep 0x06 [preset] s

/-- RESUME (R95). -/
def execResume (s : State) : CommandOutcome := requestStep 0x08 [] s

/-- CLEAR_HALT (R104). -/
def execClearHalt (s : State) : CommandOutcome := requestStep 0x09 [] s

/-- READ_CLEAR_CONDITIONS (R120). -/
def execReadClearConditions (s : State) : CommandOutcome := requestStep 0x0E [] s

/-- SET_BOOST (R132). -/
def execSetBoost (flag : Byte) (s : State) : CommandOutcome := requestStep 0x07 [flag] s

/-- SET_SOFT_OVERRIDES (R133). -/
def execSetSoftOverrides (flag : Byte) (s : State) : CommandOutcome := requestStep 0x0D [flag] s

/-- PUSH_OVERRIDE (R134). -/
def execPushOverride (cap : Word16) (s : State) : CommandOutcome :=
  requestStep 0x0A (bytes2 cap.toNat) s

/-- RELEASE_OVERRIDE (R135). -/
def execReleaseOverride (s : State) : CommandOutcome := requestStep 0x0B [] s

/-- READ_OVERRIDES (R136). -/
def execReadOverrides (s : State) : CommandOutcome := requestStep 0x0C [] s

/-- IMPACT (R140, R141). -/
def execImpact (pulse : Pulse) (s : State) : CommandOutcome := mainStep (impactCounted pulse) s

/-- READ_DIRT_HISTORY (R156). -/
def execReadDirtHistory (count : Byte) (s : State) : CommandOutcome := requestStep 0x10 [count] s

end Sys2Proof.Machine
end

