-- ==== Sys2Proof/Machine/DockCommands.lean ====
section
/-! DEFINITION. Meanings: the charge fault and the dock line (R178 to R183, R194). -/

namespace Sys2Proof.Machine

/-- CLEAR_CHARGE_FAULT (R194). -/
def execClearChargeFault (s : State) : CommandOutcome := requestStep 0x16 [] s

/-- PROBE_DUE: the probe interval ends (R180). In PROBING ten PROBEs are sent. -/
def execProbeDue (s : State) : CommandOutcome :=
  mainStep
    (fun t =>
      if t.dlc.session.probes ∧ t.dlc.probes < 10 then
        serveLine (t.modDlc fun d => { d with probeDue := true })
      else t)
    s

/-- KEEP_DUE: 500 ms after the start of the previous exchange in ACTIVE (R181). -/
def execKeepDue (s : State) : CommandOutcome :=
  mainStep
    (fun t =>
      if t.dlc.session = .active then serveLine (t.modDlc fun d => { d with keepDue := true }) else t)
    s

/-- RETRY_WAIT_END: the wait ends, and an ASK that is due is sent (R181, R182). -/
def execRetryWaitEnd (s : State) : CommandOutcome :=
  mainStep
    (fun t =>
      if t.dlc.retry.isSome then serveLine (t.modDlc fun d => { d with retry := none }) else t)
    s

/-- DOCK_FRAME_SENT: the last byte of a dock-line frame is sent (R178, R183). -/
def execDockFrameSent (s : State) : CommandOutcome := mainStep (frameSent tellSuction) s

/-- A complete answer frame arrives on the dock line (R18, R178). -/
def answerStep (bytes : List Byte) (s : State) : CommandOutcome :=
  mainStep (answerReceived tellSuction bytes) s

/-- OFFER_RECEIVED (R178, R180): an OFFER that answers no PROBE, or out of range, is a miss. -/
def execOfferReceived (dockKind : Byte) (maxVoltage maxCurrent : Word16) (s : State) : CommandOutcome :=
  answerStep (dockAnswerBytes (.offer dockKind maxVoltage maxCurrent)) s

/-- GRANT_RECEIVED (R181). -/
def execGrantReceived (voltage current : Word16) (s : State) : CommandOutcome :=
  answerStep (dockAnswerBytes (.grant voltage current)) s

/-- DECLINE_RECEIVED (R182), whatever its reason. -/
def execDeclineReceived (reason : Byte) (s : State) : CommandOutcome :=
  answerStep (dockAnswerBytes (.decline reason)) s

/-- KEEPACK_RECEIVED (R181). -/
def execKeepackReceived (current : Word16) (s : State) : CommandOutcome :=
  answerStep (dockAnswerBytes (.keepack current)) s

/-- DOCK_ANSWER_TIMEOUT (R178). -/
def execDockAnswerTimeout (s : State) : CommandOutcome := mainStep (exchangeMissed tellSuction) s

/-- INVALID_DOCK_ANSWER: a complete frame arrives that the exchange does not take, and the exchange ends as a miss
(R178). It is what `answerStep` does with the bytes of such a frame (`answerStep_of_misses`). -/
def execInvalidDockAnswer (s : State) : CommandOutcome := mainStep (exchangeMissed tellSuction) s

end Sys2Proof.Machine
end

