-- ==== Sys2Proof/Machine/MeasureCommands.lean ====
section
/-! DEFINITION. Meanings: samples, the gauge second, ReadChannels (R37 to R48, R166). -/

namespace Sys2Proof.Machine

/-- CELL_SAMPLE (R38, R39). -/
def execCellSample (tapOpen : Six Bool) (millivolts : Six Int) (s : State) : CommandOutcome :=
  mainStep (cellSampled tellSuction (cellsOf tapOpen millivolts)) s

/-- CHANNEL_SAMPLE (R37, R40 to R44). -/
def execChannelSample (conversion : Conversion) (s : State) : CommandOutcome :=
  mainStep (channelSampled tellSuction conversion) s

/-- KEEPALIVE_SHUNT_SAMPLE: only while the main domain is off or held (R48). -/
def execKeepaliveShuntSample (microamps : Int) (s : State) : CommandOutcome :=
  .next (if s.domain = .awake then s else accumulate (packIOf microamps) s)

/-- READ_CHANNELS (R47). -/
def execReadChannels (ids : List Byte) (s : State) : CommandOutcome := requestStep 0x03 ids s

/-- GAUGE_SECOND (R166): the one-second clock runs in the keep-alive domain. -/
def execGaugeSecond (s : State) : CommandOutcome :=
  .next
    (if s.domain = .awake then settle (gaugeSecond tellSuction s) else gaugeSecond tellSuction s)

end Sys2Proof.Machine
end

