-- ==== Sys2Proof/Machine/SettingsCommands.lean ====
section
/-! DEFINITION. Meanings: requests to the settings store (R21 to R34). WRITE_SECTION carries any section
number; the other write rows are the write of one section. -/

namespace Sys2Proof.Machine

/-- A WriteSection arrives (R23). -/
def writeStep (sectionNo first count conditional : Byte) (entries : List Byte) (s : State) :
    CommandOutcome :=
  requestStep 0x05 (sectionNo :: first :: count :: conditional :: entries) s

/-- ACKNOWLEDGE_KEEP_ALIVE (R34). -/
def execAcknowledgeKeepAlive (s : State) : CommandOutcome := requestStep 0x17 [] s

/-- READ_SECTION (R21, R22). -/
def execReadSection (sectionNo first count reserve : Byte) (s : State) : CommandOutcome :=
  requestStep 0x04 [sectionNo, first, count, reserve] s

/-- WRITE_SECTION (R23 to R31). -/
def execWriteSection (sectionNo first count conditional : Byte) (entries : List Byte) (s : State) :
    CommandOutcome :=
  writeStep sectionNo first count conditional entries s

/-- WRITE_PRESET (R89). -/
def execWritePreset (first count conditional : Byte) (entries : List Byte) (s : State) : CommandOutcome :=
  writeStep (sectionCode .preset) first count conditional entries s

/-- WRITE_SUCTION (R90). -/
def execWriteSuction (first count conditional : Byte) (entries : List Byte) (s : State) : CommandOutcome :=
  writeStep (sectionCode .suction) first count conditional entries s

/-- WRITE_DIRT (R139). -/
def execWriteDirt (first count conditional : Byte) (entries : List Byte) (s : State) : CommandOutcome :=
  writeStep (sectionCode .dirt) first count conditional entries s

/-- WRITE_GAUGE (R29, R171). -/
def execWriteGauge (first count conditional : Byte) (entries : List Byte) (s : State) : CommandOutcome :=
  writeStep (sectionCode .gauge) first count conditional entries s

/-- WRITE_CHARGE (R184). -/
def execWriteCharge (first count conditional : Byte) (entries : List Byte) (s : State) : CommandOutcome :=
  writeStep (sectionCode .charge) first count conditional entries s

/-- WRITE_LIMITS (R163). -/
def execWriteLimits (first count conditional : Byte) (entries : List Byte) (s : State) : CommandOutcome :=
  writeStep (sectionCode .limits) first count conditional entries s

/-- WRITE_WATCH (R77). -/
def execWriteWatch (first count conditional : Byte) (entries : List Byte) (s : State) : CommandOutcome :=
  writeStep (sectionCode .watch) first count conditional entries s

/-- WRITE_TIMER (R51). -/
def execWriteTimer (first count conditional : Byte) (entries : List Byte) (s : State) : CommandOutcome :=
  writeStep (sectionCode .timer) first count conditional entries s

/-- WRITE_SERVICE (R65). -/
def execWriteService (first count conditional : Byte) (entries : List Byte) (s : State) : CommandOutcome :=
  writeStep (sectionCode .service) first count conditional entries s

/-- WRITE_NOTICE (R8). -/
def execWriteNotice (first count conditional : Byte) (entries : List Byte) (s : State) : CommandOutcome :=
  writeStep (sectionCode .notice) first count conditional entries s

end Sys2Proof.Machine
end

