-- ==== Sys2Proof/Machine/StartCommands.lean ====
section
/-! DEFINITION. Meanings: starts and supplies (R14, R15, R20, R33). -/

namespace Sys2Proof.Machine

/-- WAKE driven low: it ends SLEEP; awake it has no effect (R14). -/
def execWake (dockSense binLatch : Bool) (s : State) : CommandOutcome :=
  .next (if s.domain = .sleep then beginStart .wake dockSense binLatch s else s)

/-- DOCK_WAKE: DOCK_SENSE rises; it ends SLEEP, and awake the edge is D0's matter (R14, entry 35). -/
def execDockWake (binLatch : Bool) (s : State) : CommandOutcome :=
  .next
    (if s.domain = .sleep then beginStart .dock true binLatch s
    else s.modPins fun p => { p with dockSense := true })

/-- RESET_ASSERT: the RESET line is driven low (R15); in SLEEP it ends SLEEP (R14). -/
def execResetAssert (s : State) : CommandOutcome :=
  .next
    (if s.pins.resetLow then s
    else holdMain .reset (s.modPins fun p => { p with resetLow := true }))

/-- RESET_RELEASE: the line returns high and the warm start completes (R15). -/
def execResetRelease (dockSense binLatch : Bool) (s : State) : CommandOutcome :=
  .next
    (if s.pins.resetLow then
      releaseHold dockSense binLatch (s.modPins fun p => { p with resetLow := false })
    else s)

/-- SUPPLY_DIP: the main supply falls below its operating level (R15); in SLEEP the main domain is off
already (entry 11). -/
def execSupplyDip (s : State) : CommandOutcome :=
  .next
    (if s.pins.supplyLow then s
    else if s.domain = .sleep then s.modPins fun p => { p with supplyLow := true }
    else holdMain .supply (s.modPins fun p => { p with supplyLow := true }))

/-- SUPPLY_RETURN: the supply returns and the warm start completes (R15). -/
def execSupplyReturn (dockSense binLatch : Bool) (s : State) : CommandOutcome :=
  .next
    (if s.pins.supplyLow then
      releaseHold dockSense binLatch (s.modPins fun p => { p with supplyLow := false })
    else s)

/-- KEEPALIVE_LOSS (R20, R33). -/
def execKeepaliveLoss (s : State) : CommandOutcome := .next (loseKeepAlive s)

/-- COLD_START (R33, R35). -/
def execColdStart (dockSense binLatch : Bool) (s : State) : CommandOutcome :=
  .next (coldStart dockSense binLatch s)

end Sys2Proof.Machine
end

