-- ==== Sys2Proof/Machine/TimerCommands.lean ====
section
/-! DEFINITION. Meanings: timers, detectors, run time (R53 to R66). -/

namespace Sys2Proof.Machine

/-- TIMER_EXPIRY: a running timer's count goes from 1 to 0 (R53, entry 24). -/
def execTimerExpiry (timer : Idx4) (s : State) : CommandOutcome :=
  mainStep
    (fun t =>
      if (t.tdu.timers.get timer).running then expiryTold tellSuction timer (expireTimer timer t) else t)
    s

/-- TIMER_CONTROL (R56). -/
def execTimerControl (timer action : Byte) (s : State) : CommandOutcome :=
  requestStep 0x11 [timer, action] s

/-- DETECTION: an armed detector's measurement completes, so its input stands at the new level (R58,
entry 24). -/
def execDetection (detector : DetectorId) (s : State) : CommandOutcome :=
  mainStep
    (fun t =>
      let d := t.tdu.detectors.get detector
      let level := d.polarity.newLevel
      if d.armed then
        detectionTold tellSuction detector level
          (detect detector level (t.modPins fun p => p.withLevel detector level))
      else t)
    s

/-- ARM_DETECTOR (R61). -/
def execArmDetector (detector polarity debounce : Byte) (s : State) : CommandOutcome :=
  requestStep 0x12 [detector, polarity, debounce] s

/-- RUN_SECOND: the run-millisecond count wraps while the run mark is set (R62, entry 24). -/
def execRunSecond (s : State) : CommandOutcome :=
  mainStep
    (fun t =>
      if t.tdu.runMark then addRunSecond (t.modTdu fun u => { u with runMs := 0 }) else t)
    s

/-- READ_RUN_TIME (R64). -/
def execReadRunTime (s : State) : CommandOutcome := requestStep 0x13 [] s

/-- RESET_FILTER_TIME (R64). -/
def execResetFilterTime (s : State) : CommandOutcome := requestStep 0x14 [] s

/-- CLEAR_SERVICE_DUE (R66). -/
def execClearServiceDue (s : State) : CommandOutcome := requestStep 0x15 [] s

end Sys2Proof.Machine
end

