-- ==== Sys2Proof/Machine/Dispatch.lean ====
section
/-! DEFINITION. One arm for each command: a direct call of its meaning. -/

namespace Sys2Proof.Machine

def exec (i : Instr) (s : State) : Host.Outcome State Fault Refusal :=
  match i with
  | .byteArrival byte stopError => Sys2Proof.Machine.execByteArrival byte stopError s
  | .frameReceived length kind payload check => Sys2Proof.Machine.execFrameReceived length kind payload check s
  | .gapTimeout => Sys2Proof.Machine.execGapTimeout s
  | .unknownRequest kind payload => Sys2Proof.Machine.execUnknownRequest kind payload s
  | .transmitEnd dockSense binLatch => Sys2Proof.Machine.execTransmitEnd dockSense binLatch s
  | .identify => Sys2Proof.Machine.execIdentify s
  | .getStatus option => Sys2Proof.Machine.execGetStatus option s
  | .sleep => Sys2Proof.Machine.execSleep s
  | .restart => Sys2Proof.Machine.execRestart s
  | .wake dockSense binLatch => Sys2Proof.Machine.execWake dockSense binLatch s
  | .dockWake binLatch => Sys2Proof.Machine.execDockWake binLatch s
  | .resetAssert => Sys2Proof.Machine.execResetAssert s
  | .resetRelease dockSense binLatch => Sys2Proof.Machine.execResetRelease dockSense binLatch s
  | .supplyDip => Sys2Proof.Machine.execSupplyDip s
  | .supplyReturn dockSense binLatch => Sys2Proof.Machine.execSupplyReturn dockSense binLatch s
  | .keepaliveLoss => Sys2Proof.Machine.execKeepaliveLoss s
  | .coldStart dockSense binLatch => Sys2Proof.Machine.execColdStart dockSense binLatch s
  | .acknowledgeKeepAlive => Sys2Proof.Machine.execAcknowledgeKeepAlive s
  | .readSection sectionNo first count reserve => Sys2Proof.Machine.execReadSection sectionNo first count reserve s
  | .writeSection sectionNo first count conditional entries => Sys2Proof.Machine.execWriteSection sectionNo first count conditional entries s
  | .writePreset first count conditional entries => Sys2Proof.Machine.execWritePreset first count conditional entries s
  | .writeSuction first count conditional entries => Sys2Proof.Machine.execWriteSuction first count conditional entries s
  | .writeDirt first count conditional entries => Sys2Proof.Machine.execWriteDirt first count conditional entries s
  | .writeGauge first count conditional entries => Sys2Proof.Machine.execWriteGauge first count conditional entries s
  | .writeCharge first count conditional entries => Sys2Proof.Machine.execWriteCharge first count conditional entries s
  | .writeLimits first count conditional entries => Sys2Proof.Machine.execWriteLimits first count conditional entries s
  | .writeWatch first count conditional entries => Sys2Proof.Machine.execWriteWatch first count conditional entries s
  | .writeTimer first count conditional entries => Sys2Proof.Machine.execWriteTimer first count conditional entries s
  | .writeService first count conditional entries => Sys2Proof.Machine.execWriteService first count conditional entries s
  | .writeNotice first count conditional entries => Sys2Proof.Machine.execWriteNotice first count conditional entries s
  | .cellSample tapOpen millivolts => Sys2Proof.Machine.execCellSample tapOpen millivolts s
  | .channelSample conversion => Sys2Proof.Machine.execChannelSample conversion s
  | .keepaliveShuntSample microamps => Sys2Proof.Machine.execKeepaliveShuntSample microamps s
  | .readChannels ids => Sys2Proof.Machine.execReadChannels ids s
  | .gaugeSecond => Sys2Proof.Machine.execGaugeSecond s
  | .timerExpiry timer => Sys2Proof.Machine.execTimerExpiry timer s
  | .timerControl timer action => Sys2Proof.Machine.execTimerControl timer action s
  | .detection detector => Sys2Proof.Machine.execDetection detector s
  | .armDetector detector polarity debounce => Sys2Proof.Machine.execArmDetector detector polarity debounce s
  | .runSecond => Sys2Proof.Machine.execRunSecond s
  | .readRunTime => Sys2Proof.Machine.execReadRunTime s
  | .resetFilterTime => Sys2Proof.Machine.execResetFilterTime s
  | .clearServiceDue => Sys2Proof.Machine.execClearServiceDue s
  | .readClearWatchHits => Sys2Proof.Machine.execReadClearWatchHits s
  | .controlPeriod => Sys2Proof.Machine.execControlPeriod s
  | .selectPreset preset => Sys2Proof.Machine.execSelectPreset preset s
  | .resume => Sys2Proof.Machine.execResume s
  | .clearHalt => Sys2Proof.Machine.execClearHalt s
  | .readClearConditions => Sys2Proof.Machine.execReadClearConditions s
  | .setBoost flag => Sys2Proof.Machine.execSetBoost flag s
  | .setSoftOverrides flag => Sys2Proof.Machine.execSetSoftOverrides flag s
  | .pushOverride cap => Sys2Proof.Machine.execPushOverride cap s
  | .releaseOverride => Sys2Proof.Machine.execReleaseOverride s
  | .readOverrides => Sys2Proof.Machine.execReadOverrides s
  | .impact pulse => Sys2Proof.Machine.execImpact pulse s
  | .readDirtHistory count => Sys2Proof.Machine.execReadDirtHistory count s
  | .clearChargeFault => Sys2Proof.Machine.execClearChargeFault s
  | .probeDue => Sys2Proof.Machine.execProbeDue s
  | .keepDue => Sys2Proof.Machine.execKeepDue s
  | .retryWaitEnd => Sys2Proof.Machine.execRetryWaitEnd s
  | .dockFrameSent => Sys2Proof.Machine.execDockFrameSent s
  | .offerReceived dockKind maxVoltage maxCurrent => Sys2Proof.Machine.execOfferReceived dockKind maxVoltage maxCurrent s
  | .grantReceived voltage current => Sys2Proof.Machine.execGrantReceived voltage current s
  | .declineReceived reason => Sys2Proof.Machine.execDeclineReceived reason s
  | .keepackReceived current => Sys2Proof.Machine.execKeepackReceived current s
  | .dockAnswerTimeout => Sys2Proof.Machine.execDockAnswerTimeout s
  | .invalidDockAnswer => Sys2Proof.Machine.execInvalidDockAnswer s

end Sys2Proof.Machine
end

