-- ==== Sys2Proof/Machine/Step.lean ====
section
/-! DEFINITION. The step: the command at the front of the queue; on an empty queue, one tick of the 1 ms rate
clock. -/

namespace Sys2Proof.Machine

/-- A step on an empty queue: awake, one tick of the 1 ms rate clock and of the clocks that tick with it;
in SLEEP and during a hold the rate clocks are stopped and the block idles (R50, entry 3). -/
def idleStep (s : State) : State := whileAwake (tick tellSuction) s

/-- Takes the command at the front of the queue and carries it out with the queue's rest. -/
def step (s : State) : Host.Outcome State Fault Refusal :=
  match s.pending with
  | [] => .next (idleStep s)
  | c :: rest => exec c (s.setPending rest)

/-- The command that a word spells, put at the front of the queue. No row of the table gives bits, so no word
spells one. -/
def State.withFetchWord (s : State) (nbits w : Nat) : State :=
  match decodeTableWord nbits w with
  | some c => s.setPending (c :: s.pending)
  | none => s

end Sys2Proof.Machine
end

