-- ==== Sys2Proof/Safety.lean ====
section
/-! DEFINITION. What counts as a sound state: the statements that the manual makes of every moment, each as a
predicate on State that every step keeps. -/

namespace Sys2Proof.Machine

/-! ### The link at rest -/

/-- The main domain runs, the transmitter is sending, and no request can be handed: a command of the main
domain then has its own effect alone, and the link controller starts nothing after it (R5, R9). -/
structure Quiet (s : State) : Prop where
  awake : s.domain = .awake
  busy : s.link.tx ≠ none
  still : s.link.queue = [] ∨ s.link.slot ≠ none ∨ s.link.closing = true

/-- The main domain runs, and the queue, the slot and the closing mark are clear: a request that arrives is
handed at once (R5). -/
structure Ready (s : State) : Prop where
  awake : s.domain = .awake
  queue : s.link.queue = []
  slot : s.link.slot = none
  closing : s.link.closing = false

/-- The reply frame of a request of a known kind (R5): the request kind plus 0x40, status and body. -/
def replyFrame (kind : Byte) (st : Status) (body : List Byte) : Frame where
  kind := kind + 0x40
  payload := statusByte st :: body
  ending := endingOf kind.toNat st

/-- A state in which a reply has been formed: a free transmitter has started it, and else it waits in the
slot (R5, R9). -/
def State.withReply (s : State) (f : Frame) : State :=
  s.modLink fun l => if l.tx = none then { l with tx := some f } else { l with slot := some f }

/-! ### Which commands are the main domain's -/

/-- The commands that the main domain takes: all but the events of the starts, of the supplies and of the
keep-alive domain (R14, R15, R33, R48, R166). -/
def needsMain : Instr → Bool
  | .wake _ _ | .dockWake _ | .resetAssert | .resetRelease _ _ | .supplyDip | .supplyReturn _ _
  | .keepaliveLoss | .coldStart _ _ | .keepaliveShuntSample _ | .gaugeSecond => false
  | _ => true

/-- Samples, clocks, control periods, impacts and the dock line: the commands that are neither an event of the
message link, nor a request, nor a start, nor an edge of an input line. -/
def isUnitEvent : Instr → Bool
  | .cellSample _ _ | .channelSample _ | .gaugeSecond | .timerExpiry _ | .runSecond | .controlPeriod
  | .impact _ | .probeDue | .keepDue | .retryWaitEnd | .dockFrameSent | .offerReceived _ _ _
  | .grantReceived _ _ | .declineReceived _ | .keepackReceived _ | .dockAnswerTimeout
  | .invalidDockAnswer => true
  | _ => false

/-- The unit events that can write the keep-alive domain: the estimate and the end of a charge at samples, the
gauge second, the floor adaptation at T0, run time (R148, R165, R167, R170, R63). -/
def touchesKeepAlive : Instr → Bool
  | .cellSample _ _ | .channelSample _ | .gaugeSecond | .timerExpiry _ | .runSecond => true
  | _ => false

/-- The unit events that store a converted channel (R37). -/
def storesConverted : Instr → Bool
  | .cellSample _ _ | .channelSample _ => true
  | _ => false

/-! ### Frames -/

/-- The line is as it was: frames in transmission, slot, queue, receiver, closing mark, link flags, enables,
and beside it the keep-alive domain, the pins and the power state. -/
structure LineKept (s t : State) : Prop where
  tx : t.link.tx = s.link.tx
  slot : t.link.slot = s.link.slot
  queue : t.link.queue = s.link.queue
  receiver : t.link.receiver = s.link.receiver
  closing : t.link.closing = s.link.closing
  overrun : t.link.overrun = s.link.overrun
  check : t.link.check = s.link.check
  gap : t.link.gap = s.link.gap
  enables : t.link.enables = s.link.enables
  reports : t.link.reports = s.link.reports
  domain : t.domain = s.domain
  pins : t.pins = s.pins
  pending : t.pending = s.pending

/-- The host's settings in the keep-alive domain are as they were. The part itself writes only the floor of
DIRT, Q_full and the cycle count of GAUGE (R32, R148, R168, R170). -/
structure SettingsKept (a b : KeepAlive) : Prop where
  presets : b.presets = a.presets
  suction : b.suction = a.suction
  dirt : { b.dirt with floor := a.dirt.floor } = a.dirt
  design : b.gauge.design = a.gauge.design
  charge : b.charge = a.charge
  limits : b.limits = a.limits
  service : b.service = a.service

/-- The converted channels are as they were; the four derived ones may have been stored (R36, R45). -/
def ConvertedKept (a b : Channels) : Prop :=
  { b with target := a.target, dirtNet := a.dirtNet, soc := a.soc, budget := a.budget } = a

/-! ### Starts -/

/-- A state right after a warm start with both switch inputs low: every block at its warm-start values, the
budget computed and told, STARTED in transmission and the PACK notice pending (R11, R16, R49, R67, R85, R107,
R121, R138, R157, R159, R176, R197; entries 14 and 32). -/
def State.warmStarted (cause : StartCause) (s : State) : State :=
  { s with
    link := Link.started cause s.ka.keepAliveLost
    reservation := none
    chan := { Channels.warm with budget := heldBudget (fullBudget s.ka 100) }
    tdu := Tdu.warm
    wcu := Wcu.warm
    snc := { Snc.warm with budget := heldBudget (fullBudget s.ka 100) }
    dsu := Dsu.warm
    pmg := { Pmg.warm with budget := heldBudget (fullBudget s.ka 100) }
    dlc := Dlc.warm
    domain := .awake
    pins := { s.pins with dockSense := false, binLatch := false }
    bleedOut := Six.all false }

/-! ### Entries within their ranges (R24) -/

def PresetEntry.inRange (e : PresetEntry) : Prop := e.base ≤ 1250 ∧ e.step ≤ 250 ∧ e.ceiling ≤ 500

def SuctionEntry.inRange (e : SuctionEntry) : Prop :=
  (1 ≤ e.kFan ∧ e.kFan ≤ 1000) ∧ (100 ≤ e.sMin ∧ e.sMin ≤ 600) ∧ (1 ≤ e.slewUp ∧ e.slewUp ≤ 50) ∧
    (1 ≤ e.slewDown ∧ e.slewDown ≤ 100) ∧ (40 ≤ e.tKnee ∧ e.tKnee ≤ 110) ∧
    (50 ≤ e.tCut ∧ e.tCut ≤ 125) ∧ (10000 ≤ e.currentLimit ∧ e.currentLimit ≤ 60000)

def DirtEntry.inRange (e : DirtEntry) : Prop :=
  (1 ≤ e.t1 ∧ e.t1 ≤ 20000) ∧ (1 ≤ e.t2 ∧ e.t2 ≤ 20000) ∧ (1 ≤ e.t3 ∧ e.t3 ≤ 20000) ∧ e.h ≤ 500 ∧
    e.floor ≤ 5000 ∧ e.floorMax ≤ 5000 ∧ (10 ≤ e.blank ∧ e.blank ≤ 400)

def GaugeEntry.inRange (e : GaugeEntry) : Prop :=
  (3600000 ≤ e.design ∧ e.design ≤ 36000000) ∧
    (qFullLow e.design ≤ e.qFull ∧ e.qFull ≤ qFullHigh e.design) ∧ e.cycles ≤ 65535

def ChargeEntry.inRange (e : ChargeEntry) : Prop :=
  (200 ≤ e.iCc ∧ e.iCc ≤ 4000) ∧ (4100 ≤ e.vCv ∧ e.vCv ≤ 4250) ∧ (50 ≤ e.iTerm ∧ e.iTerm ≤ 500) ∧
    (50 ≤ e.iPre ∧ e.iPre ≤ 500) ∧ (-10 ≤ e.windowLow ∧ e.windowLow ≤ 20) ∧
    (30 ≤ e.windowHigh ∧ e.windowHigh ≤ 55) ∧ (-10 ≤ e.cool ∧ e.cool ≤ 25)

def LimitsEntry.inRange (e : LimitsEntry) : Prop :=
  (50 ≤ e.wPackMax ∧ e.wPackMax ≤ 600) ∧ (1 ≤ e.socKnee ∧ e.socKnee ≤ 100) ∧
    (3000 ≤ e.vSag ∧ e.vSag ≤ 3700) ∧ (2600 ≤ e.vCut ∧ e.vCut ≤ 3300) ∧
    (45 ≤ e.packHot ∧ e.packHot ≤ 75) ∧ e.lowThreshold ≤ 50 ∧ e.lowCap ≤ 1250

/-- Low and high have the width of three signed bytes (R17). -/
def WatchRecord.inRange (w : WatchRecord) : Prop :=
  (-8388608 ≤ w.low ∧ w.low ≤ 8388607) ∧ (-8388608 ≤ w.high ∧ w.high ≤ 8388607) ∧ w.resolution ≤ 7 ∧
    w.cap ≤ 1250

def TimerEntry.inRange (e : TimerEntry) : Prop := 1 ≤ e.preset ∧ e.preset ≤ 4095

def ServiceEntry.inRange (e : ServiceEntry) : Prop := e.hours ≤ 65535 ∧ e.minutes ≤ 59

/-! ### Quantities that statements speak of -/

/-- The length of a tick of a rate clock in milliseconds (R50). -/
def Rate.milliseconds : Rate → Nat
  | .ms1 => 1
  | .ms16 => 16
  | .ms250 => 250
  | .s4 => 4000

/-- The whole number nearest to a count of thousandths, a half rounded away from zero (R41). -/
def NearestWhole (thousandths whole : Int) : Prop :=
  2 * (thousandths - 1000 * whole).natAbs < 1000 ∨
    (2 * (thousandths - 1000 * whole).natAbs = 1000 ∧ thousandths.natAbs < (1000 * whole).natAbs)

/-- What a gauge second with a sample makes of the keep-alive domain: the integration with its clamps, the
discharge accumulator and the cycle count, and an empty accumulator (R48, R165, R168; a mean of 0 or above counts no
excess: entry 43). -/
def GaugeCounted (a b : KeepAlive) : Prop :=
  let mean := a.accSum.tdiv a.accCount
  let sum : Int := a.qRem + mean
  let total := a.discharged + (-mean).toNat
  (b.qRem : Int) = (if sum < 0 then 0 else if (a.gauge.qFull : Int) < sum then (a.gauge.qFull : Int) else sum) ∧
    (if mean < 0 ∧ a.gauge.qFull ≤ total then
      b.discharged = total - a.gauge.qFull ∧ b.gauge.cycles = min 65535 (a.gauge.cycles + 1)
    else b.discharged = total ∧ b.gauge.cycles = a.gauge.cycles) ∧
    b = { a with
      qRem := b.qRem
      discharged := b.discharged
      gauge := { a.gauge with cycles := b.gauge.cycles }
      accSum := 0
      accCount := 0 }

/-- A record that a release restores takes no part in a sample stored at the event of the release: it is no trap of a
channel that is stored when a charge ends. -/
def WatchRecord.waits (w : WatchRecord) : Prop :=
  w.kind = .trap → w.channel ≠ .cell ∧ w.channel ≠ .packT ∧ w.channel ≠ .soc ∧ w.channel ≠ .budget

/-- What the release makes of the watch unit and of a reservation of WATCH (R84, R30): WATCH entries 2 and 3 hold the
shadow records again, the others stay, the claim is gone, W2 and W3 start from CLEAR with count 0, and a reservation
that covers either entry breaks. -/
structure Released (s t : State) : Prop where
  claim : t.wcu.claim = none
  entries : ∀ c, s.wcu.claim = some c → t.wcu.entries = { s.wcu.entries with i2 := c.w2, i3 := c.w3 }
  w2 : ∀ c, s.wcu.claim = some c → c.w2.waits → t.wcu.comparisons.i2 = { raised := false, outside := 0 }
  w3 : ∀ c, s.wcu.claim = some c → c.w3.waits → t.wcu.comparisons.i3 = { raised := false, outside := 0 }
  reservation : s.wcu.claim ≠ none → ∀ r, s.reservation = some r → r.sectionId = .watch →
    t.reservation = some { r with broken := r.broken || decide (r.first < 4 ∧ 2 < r.first + r.count) }

/-- Hours, minutes and seconds as seconds (R63). -/
def RunTime.total (r : RunTime) : Nat := r.hours * 3600 + r.minutes * 60 + r.seconds

/-! ### Sound states -/

/-- The cap half of the bound on the adopted target (R93), with the pending target of HELD (R95). -/
structure CapBounded (c : Snc) : Prop where
  adopted : c.adopted ≤ effectiveCap c.stack
  held : ∀ m p, c.suction = .held m p → p ≤ effectiveCap c.stack
  halt : c.suction.isHalt = true → c.adopted = 0

/-- The power half (R93, R111): while the main domain runs and the keep-alive domain holds what it should,
the adopted and the pending target have a modelled power within the budget. -/
structure PowerBounded (s : State) : Prop where
  adopted : s.domain = .awake → s.ka.marker = true →
    withinPower s.ka.suction.kFan s.snc.budget s.snc.adopted = true
  held : s.domain = .awake → s.ka.marker = true → ∀ m p, s.snc.suction = .held m p →
    withinPower s.ka.suction.kFan s.snc.budget p = true

/-- The bound on the adopted target (R93). -/
structure TargetBounded (s : State) : Prop where
  cap : CapBounded s.snc
  power : PowerBounded s

/-- The override stack (R122, R125): at most four entries, no source twice, the active boost-permitted flag
off while an entry stands, and a saved flag that is on in the bottom entry alone. The stack is held newest
first, so the bottom entry is the last. -/
structure StackSound (c : Snc) : Prop where
  size : c.stack.length ≤ 4
  sources : (c.stack.map OverrideEntry.source).Nodup
  boost : c.stack ≠ [] → c.boostPermitted = false
  saved : ∀ e ∈ c.stack.dropLast, e.saved = false

/-- Every hard entry has cap 0 (R123). -/
def HardCapsZero (c : Snc) : Prop := ∀ e ∈ c.stack, e.source.isHard = true → e.cap = 0

/-- The claim stands exactly in the charging states (R186). -/
def ClaimedWhileCharging (s : State) : Prop := s.wcu.claim.isSome = s.pmg.state.isCharging

/-- In the charging states the stack holds an unreleased DOCKED entry (R186). -/
def DockedWhileCharging (s : State) : Prop :=
  s.pmg.state.isCharging = true → s.snc.hasUnreleased .docked = true

/-- The gauge stays in its ranges while the keep-alive domain holds what it should (R164). -/
def GaugeBounded (k : KeepAlive) : Prop :=
  k.marker = true →
    k.qRem ≤ k.gauge.qFull ∧ qFullLow k.gauge.design ≤ k.gauge.qFull ∧
      k.gauge.qFull ≤ qFullHigh k.gauge.design

/-- The motor is asked for a speed exactly while the drive regulates: in OFF and BRAKE, reported or underlying,
and in HALT the adopted target is 0, and in SPINUP and RUN it is above 0 (R96, R102). -/
def RestsAtZero (c : Snc) : Prop :=
  match c.suction.motion? with
  | some .off | some .brake | none => c.adopted = 0
  | some .spinUp | some .run => 0 < c.adopted

/-- The run mark shows whether the motor is running, and TARGET the adopted target (R62, R105). -/
structure HandedOn (s : State) : Prop where
  runMark : s.tdu.runMark = s.snc.isRunning
  target : s.chan.target = s.snc.adopted

/-- PRESET entry 0, Stop, is fixed (R27), while the keep-alive domain holds what it should. -/
def StopPresetFixed (k : KeepAlive) : Prop :=
  k.marker = true → k.presets.p0 = { base := 0, step := 0, ceiling := 0, notify := false }

/-- The request queue holds at most two (R3). -/
def QueueBounded (s : State) : Prop := s.link.queue.length ≤ 2

/-- The bleed set is empty outside CV and DONE (R196). -/
def BleedBounded (s : State) : Prop :=
  s.pmg.state.bleeds = false → s.pmg.bleedSet = Six.all false

end Sys2Proof.Machine
end

