-- ==== Sys2Proof/Certificates/Slice0/Obligations.lean ====
section
/-! DEFINITION. The statements for the provers, in the order of the manual's chapters.

A request is stated at a ready link (`Ready`): its reply is then formed at once, and is in transmission or in
the slot (`State.withReply`). A command of the units is stated at a quiet link (`Quiet`): its next state is
then its own effect. `MainRowsLeaveTheLine` says what both are at any other link. -/

open Sys2Proof Sys2Proof.Machine

/-! ### Steps -/

/-- A step takes the command at the front of the queue and is that command's `exec` with the queue's rest.
The queue is the model's (entry 31). -/
def Obligations.StepTakesTheFrontCommand : Prop :=
  ∀ (c : Instr) (rest : List Instr) (s : State),
    step (s.setPending (c :: rest)) = exec c (s.setPending rest)

/-- On an empty queue an awake SC6 makes one tick of the 1 ms rate clock: the rate clocks whose periods end with it
tick, running timers of those rates count down and expire from 1 (R50, R52, R53), armed detectors sample their inputs
and detect at the debounce length (R57), and the run-millisecond count wraps at 1000 (R62). A tick at which one event
falls is that event's command. A sample may show either level: the lines may have moved since the last one, freely,
and one that shows the other level abandons the measurement (R57). In SLEEP and during a hold the rate clocks stand
still (R50), and the main domain takes nothing: no byte, no request, no sample of its channels (R14, R15). That the
step of an empty queue is that tick is the model's choice (entry 3), and so are that the lines move at ticks alone
(entry 39), that the rate clocks which tick at one count are one event, so that a timer which expires is not counted
again by the clock of its new rate (entry 38), the order of several owners' events at one tick, of which nothing is
said here (entry 38), and what an event does that cannot fall while the main domain is off (entry 2). -/
def Obligations.IdleStepsAndStoppedDomain : Prop :=
  (∀ s : State,
    (s.pending = [] → s.domain = .awake → step s = .next (settle (tick tellSuction s))) ∧
    (s.pending = [] → s.domain ≠ .awake → step s = .next s) ∧
    (∀ c, needsMain c = true → s.domain ≠ .awake → exec c s = .next s)) ∧
  (∀ s : State, s.pending = [] → s.domain = .awake →
    let clock := (s.tdu.clock + 1) % 4000
    let lines := Pins.atTick s.draws s.pins
    let counts := fun (x : Timer) => x.running = true ∧ clock % x.rate.milliseconds = 0
    let counted := fun (x : Timer) => if counts x ∧ 1 < x.count then { x with count := x.count - 1 } else x
    let shows := fun (d : DetectorId) =>
      lines.level d = decide ((s.tdu.detectors.get d).polarity = .rising)
    let measured := fun (d : DetectorId) => (((s.tdu.detectors.get d).measurement.map (· + 1)).getD 0 : Nat)
    let sampled := fun (d : DetectorId) =>
      let x := s.tdu.detectors.get d
      if x.armed = true then { x with measurement := if shows d then some (measured d) else none } else x
    let detects := fun (d : DetectorId) =>
      (s.tdu.detectors.get d).armed = true ∧ shows d ∧ 4 * (s.tdu.detectors.get d).debounce ≤ measured d
    let second := s.tdu.runMark = true ∧ s.tdu.runMs = 999
    let u := ((s.modPins fun _ => lines).setDraws (s.draws + 1)).modTdu fun x =>
      { x with
        clock := clock
        timers := ⟨counted x.timers.i0, counted x.timers.i1, counted x.timers.i2, counted x.timers.i3⟩
        detectors := ⟨sampled .d0, sampled .d1, sampled .d2⟩
        runMs := if x.runMark = true then (x.runMs + 1) % 1000 else x.runMs }
    let noExpiry := ∀ k, counts (s.tdu.timers.get k) → 1 < (s.tdu.timers.get k).count
    (∀ d, lines.level d = (s.pins.level d ^^ Config.lineMoved d s.draws)) ∧
    (noExpiry → (∀ d, ¬detects d) → ¬second → step s = .next (settle u)) ∧
    (∀ k, counts (s.tdu.timers.get k) → (s.tdu.timers.get k).count = 1 →
      (∀ j, j ≠ k → counts (s.tdu.timers.get j) → 1 < (s.tdu.timers.get j).count) →
      (∀ d, ¬detects d) → ¬second → step s = exec (.timerExpiry k) u) ∧
    (∀ d, detects d → (∀ e, e ≠ d → ¬detects e) → noExpiry → ¬second → step s = exec (.detection d) u) ∧
    (second → noExpiry → (∀ d, ¬detects d) → step s = exec .runSecond u) ∧
    (Quiet s → ∃ t, step s = .next t ∧ t.pins = lines ∧ t.tdu.clock = clock ∧
      t.tdu.entries = s.tdu.entries ∧ t.tdu.runMs = u.tdu.runMs ∧
      (∀ k, k = .i0 ∨ k = .i3 →
        let x := s.tdu.timers.get k
        let e := s.tdu.entries.get k
        (counts x → x.count = 1 →
          t.tdu.timers.get k =
            { rate := e.rate, count := e.preset, running := decide (e.mode = .repeats) }) ∧
        (¬counts x ∨ 1 < x.count → t.tdu.timers.get k = counted x)) ∧
      (∀ d, ¬detects d → t.tdu.detectors.get d = sampled d) ∧
      (∀ d, detects d → d ≠ .d2 →
        t.tdu.detectors.get d = Detector.armedFor (if lines.level d then .falling else .rising)) ∧
      (detects .d2 →
        t.tdu.detectors.d2 = { s.tdu.detectors.d2 with armed := false, measurement := none })))

/-- A command of the units leaves the line, the pins and the host's settings as they are, whatever the state;
only some write the keep-alive domain at all, and only a sample stores a converted channel. The link controller
then takes its turn, which at a quiet link changes nothing. -/
def Obligations.MainRowsLeaveTheLine : Prop :=
  ∀ (c : Instr) (s : State), isUnitEvent c = true → s.domain = .awake →
    ∃ u, exec c s = .next (settle u) ∧ LineKept s u ∧ SettingsKept s.ka u.ka ∧
      (touchesKeepAlive c = false → u.ka = s.ka) ∧
      (storesConverted c = false → ConvertedKept s.chan u.chan) ∧
      (Quiet s → exec c s = .next u)

/-! ### The message link (chapter 1) -/

/-- The receiver by state and byte, and the gap expiry (R1, R2). -/
def Obligations.ByteMovesTheReceiver : Prop :=
  ∀ (s : State) (b : Byte), s.domain = .awake →
    (s.link.receiver = .hunt →
      (b = 0xB4 → exec (.byteArrival b false) s = .next (settle (setReceiver .length s))) ∧
      (b ≠ 0xB4 → exec (.byteArrival b false) s = .next (settle s)) ∧
      exec (.byteArrival b true) s = .next (settle s) ∧
      exec .gapTimeout s = .next (settle s)) ∧
    (s.link.receiver = .length →
      (1 ≤ b.toNat ∧ b.toNat ≤ 64 →
        exec (.byteArrival b false) s = .next (settle (setReceiver (.body b.toNat []) s))) ∧
      (b.toNat = 0 ∨ 65 ≤ b.toNat →
        exec (.byteArrival b false) s = .next (settle (setCheck (setReceiver .hunt s))))) ∧
    (∀ n buffer, s.link.receiver = .body (n + 2) buffer →
      exec (.byteArrival b false) s =
        .next (settle (setReceiver (.body (n + 1) (buffer ++ [b])) s))) ∧
    (∀ buffer, s.link.receiver = .body 1 buffer →
      exec (.byteArrival b false) s = .next (settle (setReceiver (.check (buffer ++ [b])) s))) ∧
    (s.link.receiver ≠ .hunt →
      exec (.byteArrival b true) s = .next (settle (setCheck (setReceiver .hunt s))) ∧
      exec .gapTimeout s = .next (settle (setGap (setReceiver .hunt s))))

/-- The judgement of a frame at its check byte (R3). -/
def Obligations.FrameIsJudged : Prop :=
  ∀ (s : State) (kind : Byte) (payload : List Byte) (check : Byte), s.domain = .awake →
    s.link.receiver = .check (kind :: payload) →
    let sum := (byteOf (payload.length + 1) :: kind :: payload ++ [check]).foldl (· + ·) (0 : Byte)
    let t := setReceiver .hunt s
    (sum ≠ 0 → exec (.byteArrival check false) s = .next (settle (setCheck t))) ∧
    (sum = 0 → s.link.queue.length < 2 →
      exec (.byteArrival check false) s =
        .next (settle (t.modLink fun l =>
          { l with queue := l.queue ++ [{ kind := kind, payload := payload }] }))) ∧
    (sum = 0 → 2 ≤ s.link.queue.length →
      exec (.byteArrival check false) s = .next (settle (setOverrun t)))

/-- A whole frame at a receiver in HUNT: with a sum of zero it is a request at the queue, else it sets
CHECK (R1, R3, R17). -/
def Obligations.WholeFrameIsTaken : Prop :=
  ∀ (s : State) (length kind : Byte) (payload : List Byte) (check : Byte), s.domain = .awake →
    s.link.receiver = .hunt → length.toNat = payload.length + 1 → payload.length ≤ 63 →
    let sum := (length :: kind :: payload ++ [check]).foldl (· + ·) (0 : Byte)
    (sum = 0 → exec (.frameReceived length kind payload check) s =
      .next (settle (acceptRequest { kind := kind, payload := payload } s))) ∧
    (sum ≠ 0 → exec (.frameReceived length kind payload check) s = .next (settle (setCheck s)))

/-- What the link controller refuses itself: an unknown kind with UNKNOWN and the kind, a known kind of an
unlisted length with LENGTH (R5). -/
def Obligations.LinkRefusals : Prop :=
  ∀ (s : State) (kind : Byte) (payload : List Byte), Ready s →
    (kind.toNat = 0 ∨ 26 ≤ kind.toNat →
      exec (.unknownRequest kind payload) s =
        .next (s.withReply { kind := 0x7F, payload := [0x10, kind], ending := .plain })) ∧
    (1 ≤ kind.toNat ∧ kind.toNat ≤ 25 → lengthAllowed kind.toNat payload.length = false →
      exec (.unknownRequest kind payload) s =
        .next (s.withReply { kind := kind + 0x40, payload := [0x11], ending := .plain }))

/-- What the transmitter starts when a plain frame ends (R9, R10): the reply, else the lowest pending notice
with contents of that event, else nothing. A request for a notice kind is granted when the kind is enabled and
dropped otherwise, and a unit is named in the accumulation set of its kind (R7). With a request queued, the start of
the reply empties the slot, and the next request is handed at that moment (R5). -/
def Obligations.NoticesAndTransmitter : Prop :=
  (∀ (s : State) (g : Frame) (dockSense binLatch : Bool), s.domain = .awake →
    s.link.tx = some g → g.ending = .plain → s.link.queue = [] →
    (∀ f, s.link.slot = some f →
      exec (.transmitEnd dockSense binLatch) s =
        .next (s.modLink fun l => { l with tx := some f, slot := none })) ∧
    (s.link.slot = none → s.link.closing = true ∨ lowestPending s.link.notices = none →
      exec (.transmitEnd dockSense binLatch) s = .next (s.modLink fun l => { l with tx := none })) ∧
    (∀ k, s.link.slot = none → s.link.closing = false → lowestPending s.link.notices = some k →
      ∃ t, exec (.transmitEnd dockSense binLatch) s = .next t ∧
        t.link.tx =
          some { kind := noticeCode k, payload := noticePayload k s, ending := .plain } ∧
        t.link.notices = s.link.notices.set k false ∧
        t.link.accWatch = (if k = .watch then Four.all false else s.link.accWatch) ∧
        t.link.accTimer = (if k = .timer then Four.all false else s.link.accTimer) ∧
        (k ≠ .detector → t.link.accDetector = s.link.accDetector) ∧
        (k = .detector → t.link.accDetector = { d0 := none, d1 := none, d2 := none }))) ∧
  (∀ (s : State) (g f : Frame) (r : Request) (rest : List Request) (dockSense binLatch : Bool),
    s.domain = .awake → s.link.tx = some g → g.ending = .plain → s.link.slot = some f →
    s.link.queue = r :: rest →
    (s.link.closing = false →
      let t := s.modLink fun l => { l with tx := some f, slot := none, queue := rest }
      exec (.transmitEnd dockSense binLatch) s =
        .next ((handle r t).1.modLink fun l => { l with slot := some (handle r t).2 })) ∧
    (s.link.closing = true →
      exec (.transmitEnd dockSense binLatch) s =
        .next (s.modLink fun l => { l with tx := some f, slot := none }))) ∧
  (∀ (m : NoticeMarks) (k : NoticeKind), lowestPending m = some k →
    m.get k = true ∧ ∀ j, m.get j = true → (noticeCode k).toNat ≤ (noticeCode j).toNat) ∧
  (∀ s : State,
      (∀ k, s.link.enables.get k = true →
        askNotice k s = s.modLink fun l => { l with notices := l.notices.set k true }) ∧
      (∀ k, s.link.enables.get k = false → askNotice k s = s) ∧
      (∀ u, s.link.enables.watch = true →
        (askWatchNotice u s).link.notices = s.link.notices.set .watch true ∧
          (askWatchNotice u s).link.accWatch = s.link.accWatch.set u true) ∧
      (∀ u, s.link.enables.watch = false → askWatchNotice u s = s) ∧
      (∀ k, s.link.enables.timer = true →
        (askTimerNotice k s).link.notices = s.link.notices.set .timer true ∧
          (askTimerNotice k s).link.accTimer = s.link.accTimer.set k true) ∧
      (∀ k, s.link.enables.timer = false → askTimerNotice k s = s) ∧
      (∀ d level, s.link.enables.detector = true →
        (askDetectorNotice d level s).link.notices = s.link.notices.set .detector true ∧
          (askDetectorNotice d level s).link.accDetector = s.link.accDetector.set d (some level)) ∧
      (∀ d level, s.link.enables.detector = false → askDetectorNotice d level s = s))

/-- Sleep is accepted on its three conditions and refused STATE otherwise; Restart is always accepted; both
set the closing mark. At the end of the Sleep reply the conditions are tested again (R13, R15). An abandoned Sleep
clears the closing mark, the transmitter chooses its next frame, and handing resumes with the oldest queued request.
That the transmitter has chosen before a request is handed is read from the order of R13's sentence, and what the
link controller does after that is `settle`; both are the model's (entry 7). -/
def Obligations.SleepAndRestart : Prop :=
  ∀ s : State,
    let still := s.snc.suction = .moving .off ∧
      (s.pmg.state = .discharge ∨ s.pmg.state = .protect) ∧ s.dlc.session = .absent
    (Ready s →
      (still → exec .sleep s =
        .next ((s.modLink fun l => { l with closing := true }).withReply
          { kind := 0x58, payload := [0x00], ending := .sleep })) ∧
      (¬still → exec .sleep s =
        .next (s.withReply { kind := 0x58, payload := [0x17], ending := .plain })) ∧
      exec .restart s =
        .next ((s.modLink fun l => { l with closing := true }).withReply
          { kind := 0x59, payload := [0x00], ending := .restart })) ∧
    (∀ (f : Frame) (dockSense binLatch : Bool), s.domain = .awake → s.link.tx = some f →
      f.ending = .sleep →
      (still → ∃ t, exec (.transmitEnd dockSense binLatch) s = .next t ∧ t.domain = .sleep ∧
        t.ka = s.ka ∧ t.pins = s.pins ∧ t.link.tx = none ∧ t.drive = .outputsOff ∧
        t.bleedOut = Six.all false) ∧
      (¬still → exec (.transmitEnd dockSense binLatch) s =
        .next (settle (startFrame (s.modLink fun l => { l with tx := none, closing := false })))) ∧
      (¬still → s.link.slot = none → ∀ r rest k, s.link.queue = r :: rest →
        lowestPending s.link.notices = some k →
        ∃ t, exec (.transmitEnd dockSense binLatch) s = .next t ∧
          t.link.tx = some { kind := noticeCode k, payload := noticePayload k s, ending := .plain } ∧
          t.link.queue = rest ∧ t.link.slot ≠ none))

/-! ### Starts (R11, R14 to R16, R33, R35, R49, R60) -/

/-- The values after a warm start with both switch inputs low, by each of the five commands that complete
one. PRESET entry 0 is Stop (R27); `StopPresetFixed` says that it stays so, and a cold start makes it so. That the
PACK notice of the move to DISCHARGE (R159) is pending behind STARTED, where R16 lists STARTED alone, is the model's
(entry 14), and so is that the budget of that move (R174, R176) is computed before D0 and D1 look at their inputs
(entry 32). The budget is held at 600 where a lost record gives more (R36, entry 10). -/
def Obligations.WarmStartValues : Prop :=
  (∀ s : State, s.ka.presets.p0.base = 0 →
    (∀ f, s.domain = .awake → s.link.tx = some f → f.ending = .restart →
      exec (.transmitEnd false false) s = .next (s.warmStarted .restart)) ∧
    (s.domain = .sleep → s.pins.resetLow = false → s.pins.supplyLow = false →
      exec (.wake false false) s = .next (s.warmStarted .wake)) ∧
    (∀ cause, s.domain = .held cause → s.pins.resetLow = true → s.pins.supplyLow = false →
      exec (.resetRelease false false) s =
        .next ((s.modPins fun p => { p with resetLow := false }).warmStarted cause)) ∧
    (∀ cause, s.domain = .held cause → s.pins.supplyLow = true → s.pins.resetLow = false →
      exec (.supplyReturn false false) s =
        .next ((s.modPins fun p => { p with supplyLow := false }).warmStarted cause))) ∧
  (∀ s : State, s.ka.marker = false → s.pins.resetLow = false → s.pins.supplyLow = false →
    exec (.coldStart false false) s =
      .next ((s.modKa fun _ => KeepAlive.cold).warmStarted .cold))

/-- A start that finds DOCK_SENSE or BIN_LATCH high: D0 and D1 detect without debounce (R14, R60, R103,
R179). -/
def Obligations.InputsHighAtStart : Prop :=
  ∀ s : State, s.ka.presets.p0.base = 0 → s.domain = .sleep → s.pins.resetLow = false →
    s.pins.supplyLow = false →
    (∃ t, exec (.dockWake false) s = .next t ∧ t.domain = .awake ∧
      t.link.tx = some (startedFrame .dock s.ka.keepAliveLost) ∧ t.pins.dockSense = true ∧
      t.dlc.session = .probing ∧ t.pmg.state = .dockedWait ∧
      t.snc.hasUnreleased .docked = true ∧ t.tdu.detectors.d0 = Detector.armedFor .falling) ∧
    (∃ t, exec (.wake false true) s = .next t ∧ t.domain = .awake ∧
      t.link.tx = some (startedFrame .wake s.ka.keepAliveLost) ∧ t.pins.binLatch = true ∧
      t.snc.marks.binOpen = true ∧ t.snc.hasUnreleased .binOpen = true ∧
      t.tdu.detectors.d1 = Detector.armedFor .falling)

/-- RESET low and a supply dip hold the main domain, and the keep-alive domain keeps its values (R14, R15). WAKE low
while the SC6 is awake has no effect (R14). A loss of the keep-alive supply takes the marker (R20), and a cold start
gives the cold defaults (R33, R35). These are the model's choices: that an edge to the level which a line already has, and
a cold start with the marker intact, change nothing (entry 2); that a hold lasts until both lines have returned, that a
cold start is held while a line is low, and that a held cold start keeps the cause COLD when a line goes low, which R11
says of its report (entry 11); that the keep-alive domain holds a free record after the loss of its supply, which
changes nothing of the main domain (entry 10). -/
def Obligations.LinesAndSupplies : Prop :=
  ∀ (s : State) (dockSense binLatch : Bool),
    (s.domain = .awake → s.pins.resetLow = false →
      ∃ t, exec .resetAssert s = .next t ∧ t.domain = .held .reset ∧
        t.pins = { s.pins with resetLow := true } ∧ t.ka = s.ka ∧ t.link.tx = none ∧
        t.dlc.exchange = none ∧ t.drive = .outputsOff ∧ t.bleedOut = Six.all false) ∧
    (s.domain = .sleep → s.pins.resetLow = false →
      exec .resetAssert s =
        .next ((s.modPins fun p => { p with resetLow := true }).setDomain (.held .reset))) ∧
    (s.domain = .awake → s.pins.supplyLow = false →
      ∃ t, exec .supplyDip s = .next t ∧ t.domain = .held .supply ∧
        t.pins = { s.pins with supplyLow := true } ∧ t.ka = s.ka ∧ t.link.tx = none ∧
        t.dlc.exchange = none ∧ t.drive = .outputsOff ∧ t.bleedOut = Six.all false) ∧
    (s.pins.resetLow = true → exec .resetAssert s = .next s) ∧
    (s.pins.supplyLow = true → exec .supplyDip s = .next s) ∧
    (s.pins.resetLow = true → s.pins.supplyLow = true →
      exec (.resetRelease dockSense binLatch) s =
        .next (s.modPins fun p => { p with resetLow := false })) ∧
    (s.domain = .held .cold →
      (s.pins.resetLow = false → exec .resetAssert s =
        .next (s.modPins fun p => { p with resetLow := true })) ∧
      (s.pins.supplyLow = false → exec .supplyDip s =
        .next (s.modPins fun p => { p with supplyLow := true }))) ∧
    (s.ka.marker = false → s.pins.resetLow = true ∨ s.pins.supplyLow = true →
      ∃ t, exec (.coldStart dockSense binLatch) s = .next t ∧ t.domain = .held .cold ∧
        t.ka = KeepAlive.cold ∧ t.pins = s.pins ∧ t.link.tx = none) ∧
    (s.domain = .awake → exec (.wake dockSense binLatch) s = .next s) ∧
    (∃ t, exec .keepaliveLoss s = .next t ∧ t.ka.marker = false ∧
      { t with ka := s.ka, draws := s.draws } = s) ∧
    (s.ka.marker = true → exec (.coldStart dockSense binLatch) s = .next s) ∧
    (s.ka.marker = false → s.pins.resetLow = false → s.pins.supplyLow = false →
      ∃ t, exec (.coldStart dockSense binLatch) s = .next t ∧ t.domain = .awake ∧
        t.ka = KeepAlive.cold ∧ t.ka.keepAliveLost = true ∧ t.ka.marker = true ∧
        t.link.tx = some (startedFrame .cold true))

/-! ### Sections and the settings store (chapter 2) -/

/-- ReadSection: its refusals, its entries, and the reservation that a nonzero reserve flag records
(R21, R22). In the held byte bit k marks entry first + k as a record of a claim: WATCH entries 2 and 3, exactly
during a claim (R17, R21, R83). -/
def Obligations.SectionIsRead : Prop :=
  ∀ (s : State) (first count reserve : Byte), Ready s →
    (∀ sectionNo : Byte, 10 ≤ sectionNo.toNat →
      exec (.readSection sectionNo first count reserve) s =
        .next (s.withReply { kind := 0x44, payload := [0x12], ending := .plain })) ∧
    (∀ sec : SectionId, count.toNat = 0 ∨ sec.entryCount < first.toNat + count.toNat →
      exec (.readSection (sectionCode sec) first count reserve) s =
        .next (s.withReply { kind := 0x44, payload := [0x13], ending := .plain })) ∧
    (∀ sec : SectionId, 1 ≤ count.toNat → first.toNat + count.toNat ≤ sec.entryCount →
      exec (.readSection (sectionCode sec) first count reserve) s =
        .next ((if reserve = 0 then s
          else s.setReservation (some
            { sectionId := sec, first := first.toNat, count := count.toNat, broken := false })).withReply
          { kind := 0x44
            payload := [0x00, sectionCode sec, first, count,
              heldByte sec first.toNat count.toNat s] ++ rangeBytes sec first.toNat count.toNat s
            ending := .plain })) ∧
    (∀ (sec : SectionId) (k : Nat), first.toNat + count.toNat ≤ sec.entryCount →
      ((heldByte sec first.toNat count.toNat s).getLsbD k = true ↔
        sec = .watch ∧ s.wcu.claim ≠ none ∧ k < count.toNat ∧ 2 ≤ first.toNat + k))

/-- WriteSection by the order of its tests; a conditional write consumes the reservation whatever its outcome
(R23, R31). -/
def Obligations.WriteTestsInOrder : Prop :=
  ∀ (s : State) (first count conditional : Byte) (entries : List Byte), Ready s →
    let t := if conditional = 0 then s else s.setReservation none
    (∀ no : Byte, 10 ≤ no.toNat → exec (.writeSection no first count conditional entries) s =
      .next (t.withReply (replyFrame 0x05 .badSection []))) ∧
    (∀ sec : SectionId,
      let parts := chunks sec.entrySize count.toNat entries
      let stopped := (sec = .preset ∧ first = 0) ∨ allReadOnlyKept sec t first.toNat parts = false
      let held := touchesClaim sec first.toNat count.toNat = true ∧ s.wcu.claim.isSome = true
      let stale := conditional ≠ 0 ∧
        s.reservation ≠ some
          { sectionId := sec, first := first.toNat, count := count.toNat, broken := false }
      let outcome := exec (.writeSection (sectionCode sec) first count conditional entries) s
      (count.toNat = 0 ∨ sec.entryCount < first.toNat + count.toNat →
        outcome = .next (t.withReply (replyFrame 0x05 .badIndex []))) ∧
      (1 ≤ count.toNat → first.toNat + count.toNat ≤ sec.entryCount →
        (entries.length ≠ count.toNat * sec.entrySize →
          outcome = .next (t.withReply (replyFrame 0x05 .length []))) ∧
        (entries.length = count.toNat * sec.entrySize →
          (stopped → outcome = .next (t.withReply (replyFrame 0x05 .readOnly []))) ∧
          (¬stopped → held → outcome =
            .next ((t.modWcu fun w => { w with heldAccess := true }).withReply
              (replyFrame 0x05 .held []))) ∧
          (¬stopped → ¬held → parseAll sec parts = none →
            outcome = .next (t.withReply (replyFrame 0x05 .range []))) ∧
          (¬stopped → ¬held → ∀ ps, parseAll sec parts = some ps →
            (stale → outcome = .next (t.withReply (replyFrame 0x05 .stale []))) ∧
            (¬stale → outcome =
              .next ((applyWrite tellSuction sec first.toNat count.toNat ps t).withReply
                (replyFrame 0x05 (if ps.any Parsed.clamped then .clamped else .ok) [])))))))

/-- Reading back what was written: an entry of any section within its ranges and relations, laid out on the
link as R17 says, is parsed to itself without clamping (R17, R24 to R26). -/
def Obligations.EntriesDecodeAsEncoded : Prop :=
  (∀ e : PresetEntry, e.inRange →
    parseEntry .preset (presetBytes e) = some { value := .preset e, clamped := false }) ∧
  (∀ e : SuctionEntry, e.inRange → e.tKnee + 10 < e.tCut →
    parseEntry .suction (suctionBytes e) = some { value := .suction e, clamped := false }) ∧
  (∀ e : DirtEntry, e.inRange → e.t1 < e.t2 → e.t2 < e.t3 → e.floor ≤ e.floorMax →
    parseEntry .dirt (dirtBytes e) = some { value := .dirt e, clamped := false }) ∧
  (∀ k : KeepAlive, k.gauge.inRange →
    parseEntry .gauge (gaugeBytes k) = some { value := .gauge k.gauge, clamped := false }) ∧
  (∀ e : ChargeEntry, e.inRange →
    parseEntry .charge (chargeBytes e) = some { value := .charge e, clamped := false }) ∧
  (∀ e : LimitsEntry, e.inRange →
    parseEntry .limits (limitsBytes e) = some { value := .limits e, clamped := false }) ∧
  (∀ w : WatchRecord, w.inRange → watchRelated w = true →
    parseEntry .watch (watchBytes w) = some { value := .watch w, clamped := false }) ∧
  (∀ (e : TimerEntry) (running : Bool), e.inRange →
    parseEntry .timer (timerBytes e running) = some { value := .timer e, clamped := false }) ∧
  (∀ (e : ServiceEntry) (due : Bool), e.inRange →
    parseEntry .service (serviceBytes e due) = some { value := .service e, clamped := false }) ∧
  (∀ (m : NoticeMarks) (r : ReportEnables),
    parseEntry .notice (noticeBytes m r) = some { value := .notice m r, clamped := false })

/-- A write of one sound entry of DIRT, LIMITS, SERVICE, TIMER, GAUGE or NOTICE: the entry is held, nothing
else moves but what R8 and R29 name (R8, R27, R29, R30). -/
def Obligations.SettingsAreStored : Prop :=
  ∀ s : State, Ready s →
    let ok := replyFrame 0x05 .ok []
    (∀ e : DirtEntry, e.inRange → e.t1 < e.t2 → e.t2 < e.t3 → e.floor ≤ e.floorMax →
      exec (.writeDirt 0 1 0 (dirtBytes e)) s =
        .next ((breakReservation .dirt 0 1 (s.modKa fun k => { k with dirt := e })).withReply ok)) ∧
    (∀ e : LimitsEntry, e.inRange →
      exec (.writeLimits 0 1 0 (limitsBytes e)) s =
        .next ((breakReservation .limits 0 1 (s.modKa fun k => { k with limits := e })).withReply
          ok)) ∧
    (∀ e : ServiceEntry, e.inRange →
      exec (.writeService 0 1 0 (serviceBytes e s.ka.serviceDue)) s =
        .next ((breakReservation .service 0 1 (s.modKa fun k => { k with service := e })).withReply
          ok)) ∧
    (∀ (u : Idx4) (e : TimerEntry), e.inRange →
      exec (.writeTimer (byteOf (unitNo u)) 1 0 (timerBytes e (s.tdu.timers.get u).running)) s =
        .next ((breakReservation .timer (unitNo u) 1
          (s.modTdu fun t => { t with entries := t.entries.set u e })).withReply ok)) ∧
    (∀ e : GaugeEntry, e.inRange →
      exec (.writeGauge 0 1 0 (gaugeBytes { s.ka with gauge := e })) s =
        .next ((breakReservation .gauge 0 1
          (s.modKa fun k => { k with gauge := e, qRem := min k.qRem e.qFull })).withReply ok)) ∧
    (∀ (m : NoticeMarks) (r : ReportEnables),
      exec (.writeNotice 0 1 0 (noticeBytes m r)) s =
        .next ((breakReservation .notice 0 1
          (s.modLink fun l => dropDisabled { l with enables := m, reports := r })).withReply ok))

/-- A write of one sound entry of PRESET, SUCTION, CHARGE or WATCH, and what its owner does at the event of
the write: an evaluation (R89, R90), the asked pair or the test of charge entry (R184, R185; entry 19), the
comparison state and the clear of a RAISED unit (R77). -/
def Obligations.SettingsAreActedOn : Prop :=
  ∀ s : State, Ready s →
    let ok := replyFrame 0x05 .ok []
    (∀ (p : PresetId) (e : PresetEntry), p ≠ .p0 → e.inRange →
      let t := breakReservation .preset (presetNo p) 1
        (s.modKa fun k => { k with presets := k.presets.set p e })
      exec (.writePreset (byteOf (presetNo p)) 1 0 (presetBytes e)) s =
        .next ((if s.snc.preset = p then evaluate tellSuction t else t).withReply ok)) ∧
    (∀ e : SuctionEntry, e.inRange → e.tKnee + 10 < e.tCut →
      exec (.writeSuction 0 1 0 (suctionBytes e)) s =
        .next ((evaluate tellSuction (breakReservation .suction 0 1
          (s.modKa fun k => { k with suction := e }))).withReply ok)) ∧
    (∀ e : ChargeEntry, e.inRange →
      let t := breakReservation .charge 0 1 (s.modKa fun k => { k with charge := e })
      exec (.writeCharge 0 1 0 (chargeBytes e)) s =
        .next ((if s.pmg.state.isCharging then
            askChanged (min s.pmg.askedVoltage (6 * e.vCv + 300)) (currentFor t) t
          else chargeEntryTest tellSuction t).withReply ok)) ∧
    (∀ (u : Idx4) (w : WatchRecord), w.inRange → watchRelated w = true →
      s.wcu.claim = none ∨ u = .i0 ∨ u = .i1 →
      let t := (breakReservation .watch (unitNo u) 1
        (s.modWcu fun v => { v with entries := v.entries.set u w })).modWcu fun v =>
          { v with comparisons := v.comparisons.set u Comparison.clear }
      exec (.writeWatch (byteOf (unitNo u)) 1 0 (watchBytes w)) s =
        .next ((if (s.wcu.comparisons.get u).raised then clearSoft tellSuction (.watch u) t
          else t).withReply ok))

/-- Numbers outside their ranges are held at the nearer end, and the write goes on as that of the held entry with the
reply CLAMPED, in every section that has numbers with ranges; the range of Q_full is that of the clamped design
capacity (R24). A relation that fails after clamping is refused RANGE and writes nothing (R26). -/
def Obligations.WritesAreClampedOrRefused : Prop :=
  ∀ s : State, Ready s →
    (∀ e : LimitsEntry, e.wPackMax < 65536 → e.socKnee < 256 → e.vSag < 65536 → e.vCut < 65536 →
      e.packHot < 256 → e.lowThreshold < 256 → e.lowCap < 65536 →
      let held : LimitsEntry :=
        { wPackMax := max 50 (min 600 e.wPackMax)
          socKnee := max 1 (min 100 e.socKnee)
          vSag := max 3000 (min 3700 e.vSag)
          vCut := max 2600 (min 3300 e.vCut)
          packHot := max 45 (min 75 e.packHot)
          lowThreshold := min 50 e.lowThreshold
          lowCap := min 1250 e.lowCap }
      exec (.writeLimits 0 1 0 (limitsBytes e)) s =
        .next ((breakReservation .limits 0 1 (s.modKa fun k => { k with limits := held })).withReply
          (replyFrame 0x05 (if held = e then .ok else .clamped) []))) ∧
    (let goesOnAs := fun (sent held : Instr) (same : Bool) =>
      ∃ u : State, exec held s = .next (u.withReply (replyFrame 0x05 .ok [])) ∧
        exec sent s = .next (u.withReply (replyFrame 0x05 (if same then .ok else .clamped) []))
    let refused := fun (sent : Instr) => exec sent s = .next (s.withReply (replyFrame 0x05 .range []))
    (∀ (p : PresetId) (e : PresetEntry), p ≠ .p0 → e.base < 65536 → e.step < 256 → e.ceiling < 65536 →
      let held : PresetEntry :=
        { e with base := min 1250 e.base, step := min 250 e.step, ceiling := min 500 e.ceiling }
      let write := fun (x : PresetEntry) => Instr.writePreset (byteOf (presetNo p)) 1 0 (presetBytes x)
      goesOnAs (write e) (write held) (decide (held = e))) ∧
    (∀ e : SuctionEntry, e.kFan < 65536 → e.sMin < 65536 → e.slewUp < 256 → e.slewDown < 256 →
      -128 ≤ e.tKnee → e.tKnee ≤ 127 → -128 ≤ e.tCut → e.tCut ≤ 127 → e.currentLimit < 65536 →
      let held : SuctionEntry :=
        { kFan := max 1 (min 1000 e.kFan)
          sMin := max 100 (min 600 e.sMin)
          slewUp := max 1 (min 50 e.slewUp)
          slewDown := max 1 (min 100 e.slewDown)
          tKnee := max 40 (min 110 e.tKnee)
          tCut := max 50 (min 125 e.tCut)
          currentLimit := max 10000 (min 60000 e.currentLimit) }
      let write := fun (x : SuctionEntry) => Instr.writeSuction 0 1 0 (suctionBytes x)
      (held.tKnee + 10 < held.tCut → goesOnAs (write e) (write held) (decide (held = e))) ∧
      (held.tCut ≤ held.tKnee + 10 → refused (write e))) ∧
    (∀ e : DirtEntry, e.t1 < 65536 → e.t2 < 65536 → e.t3 < 65536 → e.h < 65536 → e.floor < 65536 →
      e.floorMax < 65536 → e.blank < 65536 →
      let held : DirtEntry :=
        { t1 := max 1 (min 20000 e.t1)
          t2 := max 1 (min 20000 e.t2)
          t3 := max 1 (min 20000 e.t3)
          h := min 500 e.h
          floor := min 5000 e.floor
          floorMax := min 5000 e.floorMax
          blank := max 10 (min 400 e.blank)
          hold := e.hold }
      let write := fun (x : DirtEntry) => Instr.writeDirt 0 1 0 (dirtBytes x)
      (held.t1 < held.t2 → held.t2 < held.t3 → held.floor ≤ held.floorMax →
        goesOnAs (write e) (write held) (decide (held = e))) ∧
      (held.t2 ≤ held.t1 ∨ held.t3 ≤ held.t2 ∨ held.floorMax < held.floor → refused (write e))) ∧
    (∀ e : GaugeEntry, e.design < 4294967296 → e.qFull < 4294967296 → e.cycles < 65536 →
      let design := max 3600000 (min 36000000 e.design)
      let held : GaugeEntry :=
        { design := design
          qFull := max ((design + 1) / 2) (min (design * 11 / 10) e.qFull)
          cycles := e.cycles }
      let write := fun (x : GaugeEntry) => Instr.writeGauge 0 1 0 (gaugeBytes { s.ka with gauge := x })
      goesOnAs (write e) (write held) (decide (held = e))) ∧
    (∀ e : ChargeEntry, e.iCc < 65536 → e.vCv < 65536 → e.iTerm < 65536 → e.iPre < 65536 →
      -128 ≤ e.windowLow → e.windowLow ≤ 127 → -128 ≤ e.windowHigh → e.windowHigh ≤ 127 →
      -128 ≤ e.cool → e.cool ≤ 127 →
      let held : ChargeEntry :=
        { iCc := max 200 (min 4000 e.iCc)
          vCv := max 4100 (min 4250 e.vCv)
          iTerm := max 50 (min 500 e.iTerm)
          iPre := max 50 (min 500 e.iPre)
          windowLow := max (-10) (min 20 e.windowLow)
          windowHigh := max 30 (min 55 e.windowHigh)
          cool := max (-10) (min 25 e.cool) }
      let write := fun (x : ChargeEntry) => Instr.writeCharge 0 1 0 (chargeBytes x)
      goesOnAs (write e) (write held) (decide (held = e))) ∧
    (∀ (u : Idx4) (w : WatchRecord), -8388608 ≤ w.low → w.low ≤ 8388607 → -8388608 ≤ w.high →
      w.high ≤ 8388607 → w.resolution < 256 → w.cap < 65536 → s.wcu.claim = none ∨ u = .i0 ∨ u = .i1 →
      let held : WatchRecord := { w with resolution := min 7 w.resolution, cap := min 1250 w.cap }
      let write := fun (x : WatchRecord) => Instr.writeWatch (byteOf (unitNo u)) 1 0 (watchBytes x)
      let broken := w.high < w.low ∨ (w.kind = .gate ∧ (w.channel ≠ .target ∨ w.action = .override)) ∨
        (w.kind = .trap ∧ (w.channel = .target ∨ w.action = .hold))
      (¬broken → goesOnAs (write w) (write held) (decide (held = w))) ∧ (broken → refused (write w))) ∧
    (∀ (u : Idx4) (e : TimerEntry), e.preset < 65536 →
      let held : TimerEntry := { e with preset := max 1 (min 4095 e.preset) }
      let write := fun (x : TimerEntry) =>
        Instr.writeTimer (byteOf (unitNo u)) 1 0 (timerBytes x (s.tdu.timers.get u).running)
      goesOnAs (write e) (write held) (decide (held = e))) ∧
    (∀ e : ServiceEntry, e.hours < 65536 → e.minutes < 256 →
      let held : ServiceEntry := { e with minutes := min 59 e.minutes }
      let write := fun (x : ServiceEntry) => Instr.writeService 0 1 0 (serviceBytes x s.ka.serviceDue)
      goesOnAs (write e) (write held) (decide (held = e)))) ∧
    (∀ e : SuctionEntry, e.inRange → e.tCut ≤ e.tKnee + 10 →
      exec (.writeSuction 0 1 0 (suctionBytes e)) s =
        .next (s.withReply (replyFrame 0x05 .range []))) ∧
    (∀ e : DirtEntry, e.inRange → e.t2 ≤ e.t1 ∨ e.t3 ≤ e.t2 ∨ e.floorMax < e.floor →
      exec (.writeDirt 0 1 0 (dirtBytes e)) s = .next (s.withReply (replyFrame 0x05 .range []))) ∧
    (∀ (u : Idx4) (w : WatchRecord), w.inRange → s.wcu.claim = none ∨ u = .i0 ∨ u = .i1 →
      w.high < w.low ∨ (w.kind = .gate ∧ (w.channel ≠ .target ∨ w.action = .override)) ∨
        (w.kind = .trap ∧ (w.channel = .target ∨ w.action = .hold)) →
      exec (.writeWatch (byteOf (unitNo u)) 1 0 (watchBytes w)) s =
        .next (s.withReply (replyFrame 0x05 .range [])))

/-- What may not be written: PRESET entry 0 and a changed read-only field are refused READ_ONLY, WATCH
entries 2 and 3 HELD during a claim, which sets the held-access flag (R27, R28). -/
def Obligations.ReadOnlyAndHeld : Prop :=
  ∀ s : State, Ready s →
    (∀ (count : Byte) (entries : List Byte), 1 ≤ count.toNat → count.toNat ≤ 8 →
      entries.length = count.toNat * 6 →
      exec (.writePreset 0 count 0 entries) s =
        .next (s.withReply (replyFrame 0x05 .readOnly []))) ∧
    (∀ k : KeepAlive, [trustCode k.trust] ++ bytes4 k.qRem ≠ [trustCode s.ka.trust] ++ bytes4 s.ka.qRem →
      exec (.writeGauge 0 1 0 (gaugeBytes k)) s =
        .next (s.withReply (replyFrame 0x05 .readOnly []))) ∧
    (∀ (e : ServiceEntry), exec (.writeService 0 1 0 (serviceBytes e (!s.ka.serviceDue))) s =
      .next (s.withReply (replyFrame 0x05 .readOnly []))) ∧
    (∀ (u : Idx4) (e : TimerEntry),
      exec (.writeTimer (byteOf (unitNo u)) 1 0 (timerBytes e (!(s.tdu.timers.get u).running))) s =
        .next (s.withReply (replyFrame 0x05 .readOnly []))) ∧
    (∀ (u : Idx4) (entries : List Byte), s.wcu.claim ≠ none → u = .i2 ∨ u = .i3 →
      entries.length = 13 →
      exec (.writeWatch (byteOf (unitNo u)) 1 0 entries) s =
        .next ((s.modWcu fun w => { w with heldAccess := true }).withReply
          (replyFrame 0x05 .held [])))

/-- Identify and GetStatus, whose nonzero option byte clears the three link flags (R4, R12), and the requests
that read and clear: each answers OK, and nothing but the named value changes (R34, R64, R66, R78, R120). The
GetStatus reply is given by its offsets (R17), with the codes of the table of codes and the run-time estimate of
R172. -/
def Obligations.StatusAndClearingRequests : Prop :=
  ∀ s : State, Ready s →
    exec .identify s = .next (s.withReply
      { kind := 0x41, payload := [0x00, 0x50, 0xC6, 0x56, 0x03], ending := .plain }) ∧
    (∀ option : Option Byte, option.getD 0 = 0 →
      exec (.getStatus option) s = .next (s.withReply
        { kind := 0x42, payload := 0x00 :: statusBody s, ending := .plain })) ∧
    (∀ b : Byte, b ≠ 0 →
      exec (.getStatus (some b)) s =
        .next ((s.modLink fun l => { l with overrun := false, check := false, gap := false }).withReply
          { kind := 0x42, payload := 0x00 :: statusBody s, ending := .plain })) ∧
    (let p := fun (i : Nat) => ((0x00 :: statusBody s)[i]?).map BitVec.toNat
    let two := fun (i n : Nat) => p i = some (n % 256) ∧ p (i + 1) = some (n / 256 % 256)
    let current := -(s.pmg.means.foldl (· + ·) 0).tdiv 8
    let estimated := (s.snc.suction.reported = .run ∨ s.snc.suction.reported = .held) ∧
      s.pmg.means.length = 8 ∧ 100 ≤ current
    (statusBody s).length = 17 ∧ p 0 = some 0 ∧
    p 1 = some ((if s.link.overrun then 1 else 0) + (if s.link.check then 2 else 0) +
      (if s.link.gap then 4 else 0)) ∧
    p 2 = some (if s.ka.keepAliveLost then 1 else 0) ∧
    p 3 = some (match s.snc.suction with
      | .moving .off => 0 | .moving .spinUp => 1 | .moving .run => 2 | .held _ _ => 3
      | .moving .brake => 4 | .halt _ => 5) ∧
    p 4 = some (match s.snc.suction with
      | .halt .stall => 1 | .halt .overcurrent => 2 | .halt .stackFull => 3
      | .moving _ | .held _ _ => 0) ∧
    p 5 = some (presetNo s.snc.preset) ∧ p 6 = some (s.dsu.boostLevel % 256) ∧
    p 7 = some (match s.pmg.state with
      | .discharge => 0 | .protect => 1 | .dockedWait => 2 | .charging .precharge => 3
      | .charging .cc => 4 | .charging .cv => 5 | .charging .done => 6 | .paused _ => 7 | .fault _ => 8) ∧
    p 8 = some (match s.pmg.state with
      | .fault .timeout => 1 | .fault .prechargeLimit => 2 | .fault .cellOver => 3 | .fault .hot => 4
      | .fault .sense => 5 | .fault .declined => 6 | .fault .unsuited => 7
      | .discharge | .protect | .dockedWait | .charging _ | .paused _ => 0) ∧
    p 9 = some (match s.dlc.session with
      | .absent => 0 | .probing => 1 | .offered => 2 | .active => 3 | .lost => 4) ∧
    p 10 = some (s.chan.soc % 256) ∧ two 11 s.chan.budget ∧
    (estimated → two 13 (min 65534 (s.ka.qRem / (current.toNat * 60)))) ∧
    (¬estimated → two 13 65535) ∧
    two 15 s.dlc.dockCurrent ∧ p 17 = some (if s.ka.serviceDue then 1 else 0)) ∧
    exec .acknowledgeKeepAlive s =
      .next ((s.modKa fun k => { k with keepAliveLost := false }).withReply
        (replyFrame 0x17 .ok [])) ∧
    exec .resetFilterTime s =
      .next ((s.modKa fun k => { k with filter := { hours := 0, minutes := 0, seconds := 0 } }).withReply
        (replyFrame 0x14 .ok [])) ∧
    exec .clearServiceDue s =
      .next ((s.modKa fun k => { k with serviceDue := false }).withReply (replyFrame 0x15 .ok [])) ∧
    exec .readClearWatchHits s =
      .next ((s.modWcu fun w => { w with hits := Four.all false, heldAccess := false }).withReply
        (replyFrame 0x0F .ok [unitBits s.wcu.hits, flagByte s.wcu.heldAccess])) ∧
    exec .readClearConditions s =
      .next ((s.modSnc fun c =>
          { c with conditions := { inv := none, ovf := none, unf := none, lim := none } }).withReply
        (replyFrame 0x0E .ok (conditionBytes s.snc.conditions)))

/-- The requests that only read (R47, R64, R136, R156). -/
def Obligations.RequestsThatRead : Prop :=
  ∀ s : State, Ready s →
    exec .readRunTime s = .next (s.withReply (replyFrame 0x13 .ok
      (bytes2 s.ka.motorTotal.hours ++
        [byteOf s.ka.motorTotal.minutes, byteOf s.ka.motorTotal.seconds] ++
        bytes2 s.ka.filter.hours ++ [byteOf s.ka.filter.minutes, byteOf s.ka.filter.seconds]))) ∧
    exec .readOverrides s = .next (s.withReply (replyFrame 0x0C .ok
      ([byteOf s.snc.stack.length, flagByte s.snc.boostPermitted, flagByte s.snc.softOverrides] ++
        (s.snc.stack.reverse.map overrideBytes).flatten))) ∧
    (∀ count : Byte, count.toNat = 0 ∨ 17 ≤ count.toNat →
      exec (.readDirtHistory count) s = .next (s.withReply (replyFrame 0x10 .badIndex []))) ∧
    (∀ count : Byte, 1 ≤ count.toNat → count.toNat ≤ 16 →
      let page := (s.dsu.ring.drop (s.dsu.ring.length - count.toNat)).take 5
      exec (.readDirtHistory count) s = .next (s.withReply (replyFrame 0x10 .ok
        (byteOf page.length :: (page.map historyBytes).flatten)))) ∧
    (∀ ids : List Byte, ids.length = 0 ∨ 12 ≤ ids.length →
      exec (.readChannels ids) s = .next (s.withReply (replyFrame 0x03 .length []))) ∧
    (∀ ids : List Byte, 1 ≤ ids.length → ids.length ≤ 11 → (∃ b ∈ ids, 11 ≤ b.toNat) →
      exec (.readChannels ids) s = .next (s.withReply (replyFrame 0x03 .badIndex []))) ∧
    (∀ ids : List ChannelId, 1 ≤ ids.length → ids.length ≤ 11 →
      let body := (ids.map (channelRecord s.chan)).flatten
      exec (.readChannels (ids.map channelCode)) s =
        .next (s.withReply (if body.length ≤ 62 then replyFrame 0x03 .ok body
          else replyFrame 0x03 .length [])))

/-! ### Measurement and the gauge second (chapters 3 and 10) -/

/-- Each plain converted channel stores its rounded value within its range, and no other converted channel
moves (R36, R40 to R43); a PACK_I sample enters the accumulator (R48). Where no trap watches the channel, a MOTOR_T
sample raises MOTOR_HOT at T_cut and clears it at T_knee (R103), and a PACK_T sample raises PACK_HOT in DISCHARGE
and PROTECT at pack hot and clears it in any pack state 5 °C below; every other PACK_T sample, one without a reading
too, leaves both marks in every pack state (R162). -/
def Obligations.ConvertedChannels : Prop :=
  ∀ s : State, Quiet s →
    (∀ v : Int, ∃ t, exec (.channelSample (.packI v)) s = .next t ∧
      t.chan.packI = max (-40000) (min 8000 (v.tdiv 1000)) ∧
      t.ka.accSum = s.ka.accSum + t.chan.packI ∧ t.ka.accCount = s.ka.accCount + 1 ∧
      { t.chan with packI := s.chan.packI, target := s.chan.target, budget := s.chan.budget } =
        s.chan) ∧
    (∀ v r : Int, NearestWhole v r → ∃ t, exec (.channelSample (.packT v)) s = .next t ∧
      t.chan.packT = (if -40 ≤ r ∧ r ≤ 125 then .valid r else .noReading) ∧
      { t.chan with packT := s.chan.packT, target := s.chan.target, budget := s.chan.budget } =
        s.chan) ∧
    (∀ v r : Int, NearestWhole v r → ∃ t, exec (.channelSample (.motorT v)) s = .next t ∧
      t.chan.motorT = (if -40 ≤ r ∧ r ≤ 125 then .valid r else .noReading) ∧
      { t.chan with motorT := s.chan.motorT, target := s.chan.target, budget := s.chan.budget } =
        s.chan) ∧
    (∀ v : Int, ∃ t, exec (.channelSample (.motorI v)) s = .next t ∧
      t.chan.motorI = min 60000 (v.natAbs / 1000) ∧
      { t.chan with motorI := s.chan.motorI, target := s.chan.target, budget := s.chan.budget } =
        s.chan) ∧
    (∀ v : Nat, ∃ t, exec (.channelSample (.speed v)) s = .next t ∧
      t.chan.speed = (if v < 30 then 0 else if 1250 < v then 1250 else v) ∧
      { t.chan with speed := s.chan.speed, target := s.chan.target, budget := s.chan.budget } =
        s.chan) ∧
    (∀ v : Int, 0 ≤ v → ∃ t, exec (.channelSample (.dockV v)) s = .next t ∧
      (t.chan.dockV : Int) = (if 32000 < v / 1000 then 32000 else v / 1000) ∧
      { t.chan with dockV := s.chan.dockV, target := s.chan.target, budget := s.chan.budget } =
        s.chan) ∧
    (∀ v r : Int, NearestWhole v r → s.wcu.traps .motorT = false →
      let stored := s.modChan fun c => { c with motorT := if -40 ≤ r ∧ r ≤ 125 then .valid r else .noReading }
      let hot := s.snc.marks.motorHot = true
      ∃ t, exec (.channelSample (.motorT v)) s = .next t ∧
        (r < -40 ∨ 125 < r → t = stored) ∧
        (-40 ≤ r → r ≤ 125 →
          (¬hot → s.ka.suction.tCut ≤ r → t.snc.marks.motorHot = true ∧
            (s.snc.stack.length < 4 → t.snc.hasUnreleased .motorHot = true)) ∧
          (hot → r ≤ s.ka.suction.tKnee → t.snc.marks.motorHot = false ∧
            (StackSound s.snc → t.snc.hasUnreleased .motorHot = false)) ∧
          ((¬hot ∧ r < s.ka.suction.tCut) ∨ (hot ∧ s.ka.suction.tKnee < r) → t = stored))) ∧
    (∀ v r : Int, NearestWhole v r → s.wcu.traps .packT = false →
      let stored := s.modChan fun c => { c with packT := if -40 ≤ r ∧ r ≤ 125 then .valid r else .noReading }
      let hot := s.pmg.hotMark = true
      let feeding := s.pmg.state = .discharge ∨ s.pmg.state = .protect
      ∃ t, exec (.channelSample (.packT v)) s = .next t ∧
        (r < -40 ∨ 125 < r → t.pmg.hotMark = s.pmg.hotMark ∧ t.snc.marks.packHot = s.snc.marks.packHot ∧
          (s.pmg.state.isCharging = false → t = stored)) ∧
        (-40 ≤ r → r ≤ 125 →
          (¬hot → feeding → (s.ka.limits.packHot : Int) ≤ r →
            t.pmg = { s.pmg with hotMark := true } ∧ t.snc.marks.packHot = true ∧
            (s.snc.marks.packHot = false → s.snc.stack.length < 4 →
              t.snc.hasUnreleased .packHot = true)) ∧
          (hot → r ≤ (s.ka.limits.packHot : Int) - 5 →
            t.pmg.hotMark = false ∧ t.snc.marks.packHot = false ∧
            (feeding → t.pmg = { s.pmg with hotMark := false })) ∧
          (feeding → (¬hot ∧ r < (s.ka.limits.packHot : Int)) ∨
            (hot ∧ (s.ka.limits.packHot : Int) - 5 < r) → t = stored) ∧
          ((¬hot ∧ (¬feeding ∨ r < (s.ka.limits.packHot : Int))) ∨
            (hot ∧ (s.ka.limits.packHot : Int) - 5 < r) →
            t.pmg.hotMark = s.pmg.hotMark ∧ t.snc.marks.packHot = s.snc.marks.packHot)))

/-- A CELL sample: a member with an open tap at either end, or outside 0 to 5000 mV, is NO READING, and the
bleed outputs are driven again from the bleed set after the sample (R38, R39). -/
def Obligations.CellSampleIsStored : Prop :=
  ∀ (s : State) (tapOpen : Six Bool) (mv : Six Int), Quiet s →
    ∃ t, exec (.cellSample tapOpen mv) s = .next t ∧ t.bleedOut = t.pmg.bleedSet ∧
      { t.chan with cell := s.chan.cell, target := s.chan.target, budget := s.chan.budget } =
        s.chan ∧
      (let member := fun (below above : Bool) (v : Int) (r : Reading) =>
        r = if below = false ∧ above = false ∧ 0 ≤ v ∧ v ≤ 5000 then .valid v else .noReading
      member false tapOpen.c1 mv.c1 t.chan.cell.c1 ∧
        member tapOpen.c1 tapOpen.c2 mv.c2 t.chan.cell.c2 ∧
        member tapOpen.c2 tapOpen.c3 mv.c3 t.chan.cell.c3 ∧
        member tapOpen.c3 tapOpen.c4 mv.c4 t.chan.cell.c4 ∧
        member tapOpen.c4 tapOpen.c5 mv.c5 t.chan.cell.c5 ∧
        member tapOpen.c5 tapOpen.c6 mv.c6 t.chan.cell.c6)

/-- The gauge second in SLEEP and in a hold, and the samples that feed it there (R48, R165, R168): only the
keep-alive domain moves, and of the reservation only one that covers the GAUGE entry breaks, at a counted cycle
(R30). Before the estimate is taken a second is dropped (R167). That a sample of the keep-alive shunt while the main
domain runs, which R48 excludes, changes nothing is the model's choice (entry 2), and so is that a mean of 0 or above
counts no excess of the discharge accumulator (entry 43). -/
def Obligations.GaugeSecondAsleep : Prop :=
  (∀ (s : State) (v : Int),
    exec (.keepaliveShuntSample v) s =
      .next (if s.domain = .awake then s else s.modKa fun k =>
        { k with
          accSum := k.accSum + max (-40000) (min 8000 (v.tdiv 1000))
          accCount := k.accCount + 1 })) ∧
  (∀ s : State, s.domain ≠ .awake → s.ka.accCount ≠ 0 → s.ka.estimatePending = true →
    exec .gaugeSecond s = .next (s.modKa fun k => { k with accSum := 0, accCount := 0 })) ∧
  (∀ s : State, s.ka.gauge.cycles ≤ 65535 → s.domain ≠ .awake → s.ka.accCount ≠ 0 →
    s.ka.estimatePending = false →
    ∃ t, exec .gaugeSecond s = .next t ∧ GaugeCounted s.ka t.ka ∧
      { t with ka := s.ka, reservation := s.reservation } = s ∧
      (t.ka.gauge.cycles = s.ka.gauge.cycles → t.reservation = s.reservation) ∧
      (s.reservation = none → t.reservation = none) ∧
      (∀ r, s.reservation = some r →
        (r.sectionId ≠ .gauge → t.reservation = some r) ∧
        (t.ka.gauge.cycles ≠ s.ka.gauge.cycles → r.sectionId = .gauge → r.first = 0 → 1 ≤ r.count →
          t.reservation = some { r with broken := true })))

/-- The gauge second while the main domain runs: the same counts, the state of charge, the kept means and the
foldback (R166, R172, R173), the clamps' conditions (R165), the charge put in of a learning run, which counts the
mean before the clamping (R169), the budget with its INV report (R174), LOW_CHARGE (R175),
and the charge steps: the precharge clock, the voltage trim and the balancing (R188, R189, R196). SOC is held at 100
and the budget at 600, the ends of their ranges (R36, R174), and the cap of LOW_CHARGE at 1250 (R122); a record that
could give more is a lost one (entry 10), and one whose Q_full is 0 gives a free state of charge (entry 10). These are the model's choices: a mean of 0 or above counts no excess of the
discharge accumulator (entry 43); the foldback compares the CELL record with V_sag as both stand at the gauge update,
where R163 also speaks of the next sample of the channel (entry 42); trim and balancing read the VALID members alone
(entry 27). -/
def Obligations.GaugeSecondAwake : Prop :=
  ∀ s : State, Quiet s → s.ka.gauge.cycles ≤ 65535 → s.ka.accCount ≠ 0 →
    s.ka.estimatePending = false →
    let mean := s.ka.accSum.tdiv s.ka.accCount
    let sum : Int := s.ka.qRem + mean
    ∃ t, exec .gaugeSecond s = .next t ∧ GaugeCounted s.ka t.ka ∧
      (t.ka.gauge.qFull ≠ 0 → t.chan.soc = min 100 (t.ka.qRem * 100 / t.ka.gauge.qFull)) ∧ t.chan.soc ≤ 100 ∧
      t.pmg.means = (if 8 ≤ s.pmg.means.length then s.pmg.means.drop 1 else s.pmg.means) ++ [mean] ∧
      (∀ low, lowestCell s.chan.cell = some low →
        (s.snc.isRunning = true → low < s.ka.limits.vSag →
          t.pmg.foldback = s.pmg.foldback - 5) ∧
        (¬(s.snc.isRunning = true ∧ low < s.ka.limits.vSag) → (s.ka.limits.vSag : Int) + 100 ≤ low →
          t.pmg.foldback = min 100 (s.pmg.foldback + 1)) ∧
        (¬(s.snc.isRunning = true ∧ low < s.ka.limits.vSag) → low < (s.ka.limits.vSag : Int) + 100 →
          t.pmg.foldback = s.pmg.foldback)) ∧
      (lowestCell s.chan.cell = none → t.pmg.foldback = s.pmg.foldback) ∧
      (sum < 0 → s.snc.conditions.unf = none → t.snc.conditions.unf = some .gauge) ∧
      ((s.ka.gauge.qFull : Int) < sum → s.pmg.state.bleeds = false → s.snc.conditions.ovf = none →
        t.snc.conditions.ovf = some .gauge) ∧
      (let learns := (∃ left, s.pmg.state = .paused left) ∨
          ∃ phase, s.pmg.state = .charging phase ∧ phase ≠ .done
      let limit := (s.pmg.state = .charging .precharge ∨ s.pmg.state = .paused .precharge) ∧
        1799 ≤ s.pmg.precharge
      (limit → t.pmg.learning = none) ∧
      (¬limit → s.pmg.state ≠ .dockedWait →
        (s.pmg.learning = none ∨ ¬learns → t.pmg.learning = s.pmg.learning) ∧
        (learns → ∀ run, s.pmg.learning = some run →
          t.pmg.learning = some { run with added := run.added + mean.toNat }))) ∧
      (let soc := t.chan.soc
      let full := (if s.ka.limits.socKnee ≤ soc then s.ka.limits.wPackMax
        else s.ka.limits.wPackMax * soc / s.ka.limits.socKnee) * t.pmg.foldback / 100
      let blind := allCellsValid s.chan.cell = false ∨ s.chan.packT = .noReading
      let discharging := s.pmg.state = .discharge
      t.chan.budget = t.pmg.budget ∧
      (discharging → ¬blind → t.pmg.budget = min 600 full) ∧
      (discharging → blind → t.pmg.budget = min 600 (full / 2) ∧ t.snc.conditions.inv ≠ none ∧
        (s.chan.motorT ≠ .noReading → s.snc.conditions.inv = none →
          t.snc.conditions.inv = some .budget)) ∧
      (¬discharging → t.pmg.budget = 0) ∧
      (t.pmg.budget ≠ s.pmg.budget → t.snc.budget = t.pmg.budget) ∧
      (t.pmg.budget = s.pmg.budget → t.snc.budget = s.snc.budget)) ∧
      (let soc := t.chan.soc
      let low := s.ka.limits.lowThreshold
      let told := t.pmg.lowCharge = true ∧ s.snc.softOverrides = true
      (s.pmg.lowCharge = false → (t.pmg.lowCharge = true ↔ soc ≤ low)) ∧
      (s.pmg.lowCharge = true → (t.pmg.lowCharge = true ↔ soc < low + 3)) ∧
      (s.wcu.traps .soc = false → s.wcu.traps .budget = false → s.pmg.state ≠ .dockedWait →
        (told → findEntry .lowCharge s.snc.stack = none → s.snc.stack.length < 4 →
          t.snc.stack =
            { source := .lowCharge, cap := min 1250 s.ka.limits.lowCap, saved := s.snc.boostPermitted,
              released := false } :: s.snc.stack ∧ t.snc.boostPermitted = false) ∧
        (told → findEntry .lowCharge s.snc.stack = none → 4 ≤ s.snc.stack.length →
          t.snc.stack = s.snc.stack) ∧
        (told → ∀ e, findEntry .lowCharge s.snc.stack = some e →
          (e.released = false → t.snc.stack = s.snc.stack) ∧
          (e.released = true → findEntry .lowCharge t.snc.stack =
            some { e with cap := min 1250 s.ka.limits.lowCap, released := false })) ∧
        (t.pmg.lowCharge = true → s.snc.softOverrides = false → t.snc.stack = s.snc.stack) ∧
        (s.pmg.lowCharge = true → t.pmg.lowCharge = false → StackSound s.snc →
          t.snc.hasUnreleased .lowCharge = false))) ∧
      (let clocked := s.pmg.state = .charging .precharge ∨ s.pmg.state = .paused .precharge
      (clocked → s.pmg.precharge < 1799 →
        t.pmg.precharge = s.pmg.precharge + 1 ∧ t.pmg.state = s.pmg.state) ∧
      (clocked → 1799 ≤ s.pmg.precharge → t.pmg.state = .fault .prechargeLimit ∧
        t.pmg.askedCurrent = 0 ∧ Released s t ∧ (t.tdu.timers.get .i1).running = false) ∧
      (¬clocked → s.pmg.state ≠ .dockedWait →
        t.pmg.precharge = s.pmg.precharge ∧ t.pmg.state = s.pmg.state)) ∧
      (s.pmg.state = .charging .cv → ∀ high, highestCell s.chan.cell = some high →
        let vCv : Int := s.ka.charge.vCv
        let top := 6 * s.ka.charge.vCv + 300
        let trimmed := if vCv < high then max 18000 (s.pmg.askedVoltage - 20)
          else if high < vCv - 10 ∧ s.pmg.askedVoltage < top then min top (s.pmg.askedVoltage + 20)
          else s.pmg.askedVoltage
        t.pmg.askedVoltage = trimmed ∧ t.pmg.askedCurrent = s.pmg.askedCurrent ∧
        (trimmed ≠ s.pmg.askedVoltage → t.dlc.askDue = true ∧ t.dlc.askVoltage = trimmed ∧
          t.dlc.askCurrent = s.pmg.askedCurrent) ∧
        (trimmed = s.pmg.askedVoltage → t.dlc = s.dlc)) ∧
      (s.pmg.state = .charging .cv ∨ s.pmg.state = .charging .done →
        ∀ low, lowestCell s.chan.cell = some low →
        let bled := fun (r : Reading) => match r with
          | .valid v => decide (3900 < v ∧ low + 15 < v)
          | .noReading => false
        t.pmg.bleedSet = Six.map bled s.chan.cell ∧ t.bleedOut = t.pmg.bleedSet)

/-- PRESET entry 0 stays Stop (R27), and the gauge's values stay within their ranges (R164), through every
step. -/
def Obligations.KeepAliveStaysSound : Prop :=
  ∀ s t : State, step s = .next t →
    (StopPresetFixed s.ka → StopPresetFixed t.ka) ∧ (GaugeBounded s.ka → GaugeBounded t.ka)

/-! ### Timers, line detectors and run time (chapter 4) -/

/-- An expiry reloads the timer from its entry, keeps T0 and T3 running in REPEAT alone, stops T1 and T2, and
asks for the TIMER notice; a stopped timer ignores it (R53, R55). The owners' acts follow: the close of a dirt window
at T0 and the opening of the next (R142), with its fate by state and speed change, discarded, blanked (R143, R144) or
classified (`WindowIsClassified`), where the watch unit compares the stored net, and the suction controller acts on
what it tells, before the dirt level and the boost level move (R124, R145). An entry to OFF that this leads to, left
again at the same comparison or not, is told (R105, R153); that it is told after the close is the model's (entry 28).
Then the charge fault TIMEOUT at T1 (R192); the end of the boost hold at T2, with the
DIRT notice and the evaluation of a changed boost level (R151, R152); none at T3. -/
def Obligations.TimerExpires : Prop :=
  ∀ (s : State) (k : Idx4), Quiet s →
    ((s.tdu.timers.get k).running = false → exec (.timerExpiry k) s = .next s) ∧
    ((s.tdu.timers.get k).running = true →
      ∃ t, exec (.timerExpiry k) s = .next t ∧
        t.tdu.timers.get k =
          { rate := (s.tdu.entries.get k).rate
            count := (s.tdu.entries.get k).preset
            running := decide ((k = .i0 ∨ k = .i3) ∧ (s.tdu.entries.get k).mode = .repeats) } ∧
        t.tdu.entries = s.tdu.entries ∧
        ((s.tdu.entries.get k).notice = true → s.link.enables.timer = true →
          t.link.notices.timer = true ∧ t.link.accTimer = s.link.accTimer.set k true) ∧
        ((s.tdu.entries.get k).notice = false → t.link.accTimer = s.link.accTimer)) ∧
    ((s.tdu.timers.get k).running = true →
      let e := s.tdu.entries.get k
      let reloaded := s.modTdu fun x =>
        { x with
          timers := x.timers.set k
            { rate := e.rate
              count := e.preset
              running := decide ((k = .i0 ∨ k = .i3) ∧ e.mode = .repeats) } }
      let fired := if e.notice = true then askTimerNotice k reloaded else reloaded
      let outcome := exec (.timerExpiry k) s
      (k = .i0 →
        let applied := s.snc.applied
        let state := s.snc.suction.reported
        let change := ((applied : Int) - s.dsu.opening).natAbs
        let opened := fun (w : State) =>
          w.modDsu fun d => { d with fine := 0, coarse := 0, opening := applied }
        let appended := fun (r : WindowRecord) =>
          (if 16 ≤ s.dsu.ring.length then s.dsu.ring.drop 1 else s.dsu.ring) ++ [r]
        let stored := fired.modChan fun x =>
          { x with dirtNet := s.dsu.fine + 4 * s.dsu.coarse - s.ka.dirt.floor }
        let compared := if s.wcu.traps .dirtNet then
            (watchEvent (deliverOverride id) .dirtNet [.valid stored.chan.dirtNet] stored).1
          else stored
        let w := opened (classifyWindow applied compared)
        let moved := w.dsu.boostLevel ≠ s.dsu.boostLevel
        let hit := compareSample .dirtNet [.valid stored.chan.dirtNet] stored
        let order := arrange hit.1.draws ((hit.2.filter Telling.isOverride).map (deliverOverride id))
        let stops := s.wcu.traps .dirtNet = true ∧ ∃ before event after, order.1 = before ++ event :: after ∧
          (let x := before.foldl (fun y e => e y) (hit.1.setDraws order.2)
          (event x).snc.suction.reported ≠ x.snc.suction.reported ∧
            ((event x).snc.suction.reported = .off ∨ (event x).snc.suction.reported = .halt))
        let stopped := tellSuction (dirtStop id w)
        (state = .off ∨ state = .brake ∨ state = .halt → outcome = .next (opened fired)) ∧
        (state = .spinUp ∨ ((state = .run ∨ state = .held) ∧ s.ka.dirt.blank < change) →
          outcome = .next (opened (fired.modDsu fun d =>
            { d with
              ring := appended
                { fine := d.fine, coarse := d.coarse, applied := applied, classified := none } }))) ∧
        (state = .run ∨ state = .held → change ≤ s.ka.dirt.blank →
          (∃ t, outcome = .next t ∧ t.dsu.fine = 0 ∧ t.dsu.coarse = 0 ∧ t.dsu.opening = applied ∧
            t.chan.dirtNet = w.chan.dirtNet ∧ t.dsu.ring = w.dsu.ring) ∧
          (¬stops → ¬moved → outcome = .next w) ∧
          (¬stops → moved → outcome = .next (evaluate tellSuction w)) ∧
          (stops → ¬moved → outcome = .next stopped) ∧
          (stops → moved → outcome = .next (evaluate tellSuction stopped)) ∧
          (stops → ∃ t, outcome = .next t ∧ t.dsu.dirtLevel = 0 ∧ t.dsu.boostLevel = 0 ∧ t.dsu.quiet = 0 ∧
            t.tdu.timers.i2.running = false) ∧
          (compared.snc.suction.reported = .off ∨ compared.snc.suction.reported = .halt → stops) ∧
          (s.wcu.traps .dirtNet = false →
            (w.dsu.boostLevel = s.dsu.boostLevel → outcome = .next w) ∧
            (w.dsu.boostLevel ≠ s.dsu.boostLevel → outcome = .next (evaluate tellSuction w))))) ∧
      (k = .i1 →
        ((∃ left, s.pmg.state = .paused left) ∨
            (∃ phase, s.pmg.state = .charging phase ∧ phase ≠ .done) →
          ∃ t, outcome = .next t ∧ t.pmg.state = .fault .timeout ∧ t.pmg.askedCurrent = 0 ∧
            t.pmg.learning = none ∧ t.pmg.budget = 0 ∧ Released s t ∧ t.dlc.askDue = false ∧
            (s.link.enables.pack = true → t.link.notices.pack = true)) ∧
        (s.pmg.state = .charging .done ∨ s.pmg.state.isCharging = false → outcome = .next fired)) ∧
      (k = .i2 →
        (s.dsu.boostLevel = s.dsu.dirtLevel → outcome = .next fired) ∧
        (s.dsu.boostLevel ≠ s.dsu.dirtLevel → outcome = .next (evaluate tellSuction
          (askNotice .dirt (fired.modDsu fun d => { d with boostLevel := d.dirtLevel }))))) ∧
      (k = .i3 → outcome = .next fired))

/-- TimerControl (R56) and ArmDetector (R61), by their tests. -/
def Obligations.TimerControlAndArmDetector : Prop :=
  ∀ s : State, Ready s →
    (∀ timer action : Byte,
      (4 ≤ timer.toNat → exec (.timerControl timer action) s =
        .next (s.withReply (replyFrame 0x11 .badIndex []))) ∧
      (timer.toNat < 4 → 2 ≤ action.toNat → exec (.timerControl timer action) s =
        .next (s.withReply (replyFrame 0x11 .range []))) ∧
      (timer = 1 ∨ timer = 2 → action.toNat < 2 → exec (.timerControl timer action) s =
        .next (s.withReply (replyFrame 0x11 .held []))) ∧
      (∀ k : Idx4, k = .i0 ∨ k = .i3 → action.toNat < 2 →
        exec (.timerControl (byteOf (unitNo k)) action) s =
          .next ((s.modTdu fun t =>
            let e := t.entries.get k
            { t with timers := t.timers.set k ⟨e.rate, e.preset, decide (action = 1)⟩ }).withReply (replyFrame 0x11 .ok [])))) ∧
    (∀ detector polarity debounce : Byte,
      (3 ≤ detector.toNat → exec (.armDetector detector polarity debounce) s =
        .next (s.withReply (replyFrame 0x12 .badIndex []))) ∧
      (detector.toNat < 2 → exec (.armDetector detector polarity debounce) s =
        .next (s.withReply (replyFrame 0x12 .held []))) ∧
      (detector = 2 → 3 ≤ polarity.toNat → exec (.armDetector detector polarity debounce) s =
        .next (s.withReply (replyFrame 0x12 .range []))) ∧
      (detector = 2 → polarity = 2 → exec (.armDetector detector polarity debounce) s =
        .next ((s.modTdu fun t =>
          { t with detectors := { t.detectors with
              d2 := { t.detectors.d2 with armed := false, measurement := none } } }).withReply
          (replyFrame 0x12 .ok []))) ∧
      (detector = 2 → polarity.toNat < 2 → exec (.armDetector detector polarity debounce) s =
        .next ((s.modTdu fun t =>
          { t with detectors := { t.detectors with
              d2 := { armed := true, polarity := if polarity = 1 then .rising else .falling,
                      debounce := min 15 debounce.toNat, measurement := none } } }).withReply
          (replyFrame 0x12 (if 15 < debounce.toNat then .clamped else .ok) []))))

/-- A detection of D2 and of D1, and of a disarmed detector (R58, R59, R103): the BIN_OPEN entry that a rise pushes
or reactivates (R125, R126) and a fall releases or pops (R129, R130), and the HALT of a rise that finds the stack
full (R128). That the input stands at its new level is the model's (entry 24). -/
def Obligations.Detections : Prop :=
  ∀ s : State, Quiet s →
    (∀ d, (s.tdu.detectors.get d).armed = false → exec (.detection d) s = .next s) ∧
    (s.tdu.detectors.d2.armed = true →
      let level := decide (s.tdu.detectors.d2.polarity = .rising)
      exec (.detection .d2) s =
        .next (askDetectorNotice .d2 level ((s.modPins fun p => { p with aux := level }).modTdu
          fun t => { t with detectors := { t.detectors with
            d2 := { t.detectors.d2 with armed := false, measurement := none } } }))) ∧
    (s.tdu.detectors.d1.armed = true → s.tdu.detectors.d1.polarity = .rising →
      ∃ t, exec (.detection .d1) s = .next t ∧ t.pins = { s.pins with binLatch := true } ∧
        t.snc.marks.binOpen = true ∧ t.tdu.detectors.d1 = Detector.armedFor .falling ∧
        (s.snc.marks.binOpen = false → s.snc.stack.length < 4 → t.snc.hasUnreleased .binOpen = true) ∧
        (s.snc.marks.binOpen = false → findEntry .binOpen s.snc.stack ≠ none →
          t.snc.hasUnreleased .binOpen = true) ∧
        (s.snc.marks.binOpen = false → findEntry .binOpen s.snc.stack = none → 4 ≤ s.snc.stack.length →
          t.snc.stack = s.snc.stack ∧ t.snc.boostPermitted = s.snc.boostPermitted ∧
          t.link.notices.override = s.link.notices.override ∧
          (s.snc.suction.isHalt = false → t.snc.suction = .halt .stackFull ∧ t.snc.adopted = 0 ∧
            t.snc.applied = 0 ∧ (s.link.enables.suction = true → t.link.notices.suction = true)) ∧
          (s.snc.suction.isHalt = true → t.snc.suction = s.snc.suction)) ∧
        (s.snc.marks.binOpen = true → t.snc = s.snc) ∧
        (s.link.enables.detector = true →
          t.link.notices.detector = true ∧ t.link.accDetector.d1 = some true)) ∧
    (s.tdu.detectors.d1.armed = true → s.tdu.detectors.d1.polarity = .falling →
      ∃ t, exec (.detection .d1) s = .next t ∧ t.pins = { s.pins with binLatch := false } ∧
        t.snc.marks.binOpen = false ∧ t.tdu.detectors.d1 = Detector.armedFor .rising ∧
        (s.snc.marks.binOpen = false → t.snc = s.snc) ∧
        (s.snc.marks.binOpen = true → StackSound s.snc → t.snc.hasUnreleased .binOpen = false) ∧
        (s.snc.marks.binOpen = true → ∀ e upper lower, e.source = .binOpen → e.released = false →
          s.snc.stack = upper ++ e :: lower → s.pmg.state ≠ .dockedWait → StackSound s.snc →
          (upper ≠ [] → t.snc.stack = upper ++ { e with released := true } :: lower) ∧
          (upper = [] → t.snc.stack = lower.dropWhile OverrideEntry.released)) ∧
        (s.link.enables.detector = true →
          t.link.notices.detector = true ∧ t.link.accDetector.d1 = some false))

/-- A detection of D0: the insertion sends the first PROBE, the removal ends the session and the charge
(R159, R179, R195). The DOCKED entry is in force after an insertion that finds room or an entry (R125), at a budget
that no trap watches, an insertion that finds the stack full leads to HALT (R128), and no entry is in force after a
removal (R129); the pack manager goes to DOCKED_WAIT, and back to PROTECT or DISCHARGE by its low mark. A removal from a
charge releases W2 and W3 (R84). That the DOCK_SENSE pin stands at the detected level is the model's choice
(entry 24). -/
def Obligations.DockInsertionAndRemoval : Prop :=
  ∀ s : State, Quiet s → s.tdu.detectors.d0.armed = true →
    (s.tdu.detectors.d0.polarity = .rising → s.dlc.session = .absent →
      ∃ t, exec (.detection .d0) s = .next t ∧ t.pins.dockSense = true ∧
        t.tdu.detectors.d0 = Detector.armedFor .falling ∧ t.dlc.session = .probing ∧
        t.dlc.probes = 1 ∧ t.dlc.offer = none ∧
        t.dlc.exchange = some { frame := .probe, awaiting := false, newer := false, ordered := false } ∧
        t.snc.marks.docked = true ∧
        (s.pmg.state = .discharge ∨ s.pmg.state = .protect → t.pmg.state = .dockedWait ∧
          t.pmg.budget = 0 ∧ (s.link.enables.pack = true → t.link.notices.pack = true)) ∧
        (s.pmg.state ≠ .discharge → s.pmg.state ≠ .protect → t.pmg.state = s.pmg.state) ∧
        t.pmg.lowMark = s.pmg.lowMark ∧
        (s.snc.marks.docked = false → s.wcu.traps .budget = false →
          (s.snc.stack.length < 4 ∨ findEntry .docked s.snc.stack ≠ none →
            t.snc.hasUnreleased .docked = true) ∧
          (findEntry .docked s.snc.stack = none → 4 ≤ s.snc.stack.length →
            t.snc.stack = s.snc.stack ∧
            (s.snc.suction.isHalt = false → t.snc.suction = .halt .stackFull)))) ∧
    (s.tdu.detectors.d0.polarity = .falling →
      ∃ t, exec (.detection .d0) s = .next t ∧ t.pins.dockSense = false ∧
        t.tdu.detectors.d0 = Detector.armedFor .rising ∧ t.dlc.session = .absent ∧
        t.dlc.exchange = none ∧ t.dlc.offer = none ∧ t.dlc.askDue = false ∧
        t.snc.marks.docked = false ∧
        (t.pmg.state = .discharge ∨ t.pmg.state = .protect) ∧
        (s.snc.marks.docked = true → StackSound s.snc → t.snc.hasUnreleased .docked = false) ∧
        (s.pmg.state.isCharging = true → t.pmg.state = .discharge ∧ t.pmg.askedCurrent = 0 ∧
          t.pmg.learning = none ∧ t.pmg.bleedSet = Six.all false ∧ Released s t ∧
          (t.tdu.timers.get .i1).running = false ∧ (s.link.enables.pack = true → t.link.notices.pack = true)) ∧
        (s.pmg.state = .dockedWait ∨ (∃ kind, s.pmg.state = .fault kind) → StackSound s.snc →
          t.pmg.state = (if s.pmg.lowMark then .protect else .discharge) ∧
          (s.link.enables.pack = true → t.link.notices.pack = true)) ∧
        (s.pmg.state = .discharge ∨ s.pmg.state = .protect → t.pmg = s.pmg))

/-- A run second on both counters, with the saturation, the rollover and the service match (R62, R63, R65);
with the run mark clear it does not fall. -/
def Obligations.RunSecondCounts : Prop :=
  ∀ s : State, Quiet s →
    (s.tdu.runMark = false → exec .runSecond s = .next s) ∧
    (s.tdu.runMark = true →
      s.ka.motorTotal.hours ≤ 65535 ∧ s.ka.motorTotal.minutes ≤ 59 ∧ s.ka.motorTotal.seconds ≤ 59 →
      s.ka.filter.hours ≤ 65535 ∧ s.ka.filter.minutes ≤ 59 ∧ s.ka.filter.seconds ≤ 59 →
      ∃ t, exec .runSecond s = .next t ∧ t.tdu = { s.tdu with runMs := 0 } ∧
        t.ka.motorTotal.total =
          min 235929599 (s.ka.motorTotal.total + 1) ∧
        (t.ka.motorTotal.minutes ≤ 59 ∧ t.ka.motorTotal.seconds ≤ 59) ∧
        t.ka.filter.total = min 235929599 (s.ka.filter.total + 1) ∧
        (t.ka.filter.minutes ≤ 59 ∧ t.ka.filter.seconds ≤ 59) ∧
        (let e := s.ka.service
        let agrees := e.enable = true ∧ (e.anyHours = true ∨ e.hours = t.ka.filter.hours) ∧
          (e.anyMinutes = true ∨ e.minutes = t.ka.filter.minutes)
        let rolled := s.ka.filter.seconds = 59 ∧ t.ka.filter ≠ s.ka.filter
        (rolled ∧ agrees →
          t.ka.serviceDue = true ∧ (s.link.enables.service = true → t.link.notices.service = true)) ∧
        (¬(rolled ∧ agrees) → t.ka.serviceDue = s.ka.serviceDue ∧ t.link = s.link)) ∧
        { t.ka with motorTotal := s.ka.motorTotal, filter := s.ka.filter,
                    serviceDue := s.ka.serviceDue } = s.ka)

/-! ### Watches (chapter 5) -/

/-- The band comparison (R70). -/
def Obligations.BandComparison : Prop :=
  ∀ (w : WatchRecord) (v : Int),
    let r := w.resolution
    quantise r v = v >>> r ∧
    (∀ q : Int, q = quantise r v ↔ q * 2 ^ r ≤ v ∧ v < (q + 1) * 2 ^ r) ∧
    (inBand w v = true ↔
      quantise r w.low * 2 ^ r ≤ v ∧ v ≤ (quantise r w.high + 1) * 2 ^ r - 1) ∧
    (r = 0 → (inBand w v = true ↔ w.low ≤ v ∧ v ≤ w.high))

/-- An unclaimed OVERRIDE trap at a stored sample of its channel, here DOCK_V: a hit raises the condition and
clears the outside count, each outside sample of a RAISED unit counts, and the eighth clears it (R74 to R76,
R125, R129). -/
def Obligations.TrapOverride : Prop :=
  ∀ (s : State) (u : Idx4) (v : Int), Quiet s →
    let w := s.wcu.entries.get u
    let c := s.wcu.comparisons.get u
    let sample : Int := dockVOf v
    w.kind = .trap → w.channel = .dockV → w.action = .override → s.wcu.claim = none →
    s.pmg.state ≠ .dockedWait →
    ∃ t, exec (.channelSample (.dockV v)) s = .next t ∧ t.wcu.entries = s.wcu.entries ∧
      (inBand w sample = true →
        t.wcu.comparisons.get u = { raised := true, outside := 0 } ∧ t.wcu.hits.get u = true ∧
        (w.report = true → s.link.enables.watch = true →
          t.link.notices.watch = true ∧ t.link.accWatch.get u = true) ∧
        (s.snc.softOverrides = true →
          (∀ k, k ≠ u → ¬((s.wcu.entries.get k).kind = .trap ∧
            (s.wcu.entries.get k).channel = .dockV)) →
          findEntry (.watch u) s.snc.stack = none → s.snc.stack.length < 4 →
          t.snc.stack =
            { source := .watch u, cap := w.cap, saved := s.snc.boostPermitted, released := false } ::
              s.snc.stack ∧ t.snc.boostPermitted = false)) ∧
      (inBand w sample = false → c.raised = true → c.outside < 7 →
        t.wcu.comparisons.get u = { raised := true, outside := c.outside + 1 }) ∧
      (inBand w sample = false → c.raised = true → 7 ≤ c.outside →
        t.wcu.comparisons.get u = { raised := false, outside := 0 } ∧
          (StackSound s.snc → t.snc.hasUnreleased (.watch u) = false)) ∧
      (inBand w sample = false → c.raised = false → t.wcu.comparisons.get u = c) ∧
      (inBand w sample = false → t.wcu.hits.get u = s.wcu.hits.get u)

/-! ### Suction control and the setpoint pipeline (chapters 6 and 7) -/

/-- How an evaluation treats its computed target: a reduction is adopted at once, an increase is asked of the
gates, and HELD keeps the latest increase pending (R91, R93, R94). -/
def Obligations.TargetIsTaken : Prop :=
  ∀ s : State, HardCapsZero s.snc → RestsAtZero s.snc →
    let c := (pipeline (pipelineInputs s)).target
    let t := evaluate tellSuction s
    let asked := s.link.enables.suction = true → t.link.notices.suction = true
    (∀ h, s.snc.suction = .halt h → t = s) ∧
    (∀ m, s.snc.suction = .moving m →
      (c ≤ s.snc.adopted → t.snc.adopted = c) ∧
      (s.snc.adopted < c → gatesHold c s.wcu = false → t.snc.adopted = c) ∧
      (s.snc.adopted < c → gatesHold c s.wcu = true →
        t.snc.adopted = s.snc.adopted ∧ t.snc.suction = .held m c ∧ asked)) ∧
    (∀ m p, s.snc.suction = .held m p →
      (s.snc.adopted < c →
        t.snc.adopted = s.snc.adopted ∧ t.snc.suction = .held m c ∧ t.wcu = s.wcu) ∧
      (c ≤ s.snc.adopted → t.snc.adopted = c ∧ (∃ n, t.snc.suction = .moving n) ∧ asked))

/-- The moves of an adoption that changes the adopted target, from the reported or the underlying motion
(R96). -/
def Obligations.AdoptionMoves : Prop :=
  ∀ (s : State) (m : Motion), HardCapsZero s.snc → s.snc.suction.motion? = some m →
    let c := (pipeline (pipelineInputs s)).target
    let t := (evaluate tellSuction s).snc
    (t.suction.reported ≠ s.snc.suction.reported → s.link.enables.suction = true →
      (evaluate tellSuction s).link.notices.suction = true) ∧
    (c < s.snc.adopted ∨
      (s.snc.adopted < c ∧ s.snc.suction = .moving m ∧ gatesHold c s.wcu = false) →
    (m = .off → 0 < c → t.suction = .moving .spinUp ∧ t.applied = 0 ∧ t.spinUpCount = 0) ∧
    (m = .brake → 0 < c →
      t.suction = .moving .spinUp ∧ t.applied = min s.chan.speed c ∧ t.spinUpCount = 0) ∧
    (m = .spinUp ∨ m = .run → c = 0 → 50 ≤ s.chan.speed →
      t.suction = .moving .brake ∧ t.applied = s.snc.applied) ∧
    (m = .spinUp ∨ m = .run → c = 0 → s.chan.speed < 50 →
      t.suction = .moving .off ∧ t.applied = 0) ∧
    (m = .spinUp ∨ m = .run → 0 < c →
      t.suction = .moving m ∧ t.applied = s.snc.applied ∧ t.spinUpCount = s.snc.spinUpCount))

/-- A control period: the evaluation, then with the target that it leaves the slew step, the test of SPINUP to RUN
and the spin-up stall test, in this order and in every suction state; HELD acts as its underlying state (R87, R92,
R97 to R99). What the evaluation itself does is `TargetIsTaken` and `AdoptionMoves`. -/
def Obligations.ControlPeriodActs : Prop :=
  ∀ s : State, Quiet s →
    (let e := s.ka.suction
    let slewed := if s.snc.applied < s.snc.adopted then min s.snc.adopted (s.snc.applied + e.slewUp)
      else max s.snc.adopted (s.snc.applied - e.slewDown)
    let same := (pipeline (pipelineInputs s)).target = s.snc.adopted
    (∀ h, HandedOn s → s.snc.suction = .halt h →
      exec .controlPeriod s = .next (s.modSnc fun c => { c with applied := 0 })) ∧
    (s.snc.suction = .moving .run → same →
      ∃ t, exec .controlPeriod s = .next t ∧ t.snc.suction = .moving .run ∧
        t.snc.adopted = s.snc.adopted ∧ t.snc.applied = slewed) ∧
    (s.snc.suction = .moving .spinUp → same →
      ∃ t, exec .controlPeriod s = .next t ∧
        let up := slewed = s.snc.adopted ∧ 9 * s.snc.adopted ≤ s.chan.speed * 10
        (up → t.snc.suction = .moving .run ∧ t.snc.applied = slewed) ∧
        (¬up → s.snc.spinUpCount = 99 → s.chan.speed * 5 < slewed →
          t.snc.suction = .halt .stall ∧ t.snc.adopted = 0 ∧ t.snc.applied = 0) ∧
        (¬up → s.snc.spinUpCount ≤ 100 → ¬(s.snc.spinUpCount = 99 ∧ s.chan.speed * 5 < slewed) →
          t.snc.suction = .moving .spinUp ∧ t.snc.applied = slewed ∧
            t.snc.spinUpCount = min 100 (s.snc.spinUpCount + 1)))) ∧
    (let u := evaluate tellSuction s
    let c := u.snc
    let e := u.ka.suction
    let slewed := if c.applied < c.adopted then min c.adopted (c.applied + e.slewUp)
      else max c.adopted (c.applied - e.slewDown)
    let up := slewed = c.adopted ∧ 9 * c.adopted ≤ u.chan.speed * 10
    let stalls := c.spinUpCount = 99 ∧ u.chan.speed * 5 < slewed
    let outcome := exec .controlPeriod s
    let becomes := fun (d : Snc) => (u.modSnc fun _ => d).modTdu fun x => { x with runMark := d.isRunning }
    (c.suction.motion? = none ∨ c.suction.motion? = some .off →
      outcome = .next (becomes { c with applied := 0 })) ∧
    (c.suction.motion? = some .run ∨ c.suction.motion? = some .brake →
      outcome = .next (becomes { c with applied := slewed })) ∧
    (c.suction = .moving .spinUp → up → outcome = .next (askNotice .suction
      (becomes { c with suction := .moving .run, applied := slewed, stallCount := 0 }))) ∧
    (∀ p, c.suction = .held .spinUp p → up → outcome = .next
      (becomes { c with suction := .held .run p, applied := slewed, stallCount := 0 })) ∧
    (c.suction.motion? = some .spinUp → ¬up → ¬stalls → outcome = .next
      (becomes { c with
        applied := slewed
        spinUpCount := if c.spinUpCount < 100 then c.spinUpCount + 1 else c.spinUpCount })) ∧
    (c.suction.motion? = some .spinUp → ¬up → stalls →
      ∃ t, outcome = .next t ∧ t.snc.suction = .halt .stall ∧ t.snc.adopted = 0 ∧ t.snc.applied = 0 ∧
        (u.link.enables.suction = true → t.link.notices.suction = true)))

/-- The stall test of RUN, the moves on the measured speed, reported and underlying, and the over-current test, at
samples that no trap watches (R87, R97, R100 to R102); each move of the reported state asks for the SUCTION notice
(R106). -/
def Obligations.StallAndOverCurrent : Prop :=
  ∀ s : State, Quiet s →
    (∀ v : Nat, s.wcu.traps .speed = false →
      ∃ t, exec (.channelSample (.speed v)) s = .next t ∧
        let slow := speedOf v * 2 < s.snc.applied
        (s.snc.suction.motion? = some .run → slow → 20 ≤ s.snc.stallCount →
          t.snc.suction = .halt .stall ∧ t.snc.adopted = 0 ∧ t.snc.applied = 0 ∧
            (s.link.enables.suction = true → t.link.notices.suction = true)) ∧
        (s.snc.suction.motion? = some .run → slow → s.snc.stallCount < 20 →
          t.snc = { s.snc with stallCount := s.snc.stallCount + 1 }) ∧
        (s.snc.suction.motion? = some .run → ¬slow → t.snc = { s.snc with stallCount := 0 }) ∧
        (s.snc.suction = .moving .off → 50 ≤ speedOf v → t.snc.suction = .moving .brake ∧
          (s.link.enables.suction = true → t.link.notices.suction = true)) ∧
        (s.snc.suction = .moving .brake → 50 ≤ speedOf v → t.snc = s.snc)) ∧
    (∀ v : Nat, s.wcu.traps .speed = false →
      let c := s.snc
      let stored := s.modChan fun x => { x with speed := speedOf v }
      let becomes := fun (d : Snc) =>
        (stored.modSnc fun _ => d).modTdu fun x => { x with runMark := d.isRunning }
      let up := c.applied = c.adopted ∧ 9 * c.adopted ≤ speedOf v * 10
      let outcome := exec (.channelSample (.speed v)) s
      let atRest := { c with suction := .moving .off, applied := 0, stallCount := 0 }
      (c.suction = .moving .spinUp → up → outcome = .next (askNotice .suction
        (becomes { c with suction := .moving .run, stallCount := 0 }))) ∧
      (∀ p, c.suction = .held .spinUp p → up →
        outcome = .next (becomes { c with suction := .held .run p, stallCount := 0 })) ∧
      (c.suction.motion? = some .spinUp → ¬up → outcome = .next (becomes c)) ∧
      (c.suction = .moving .brake → speedOf v < 50 →
        outcome = .next (tellSuction (askNotice .suction (becomes atRest))) ∧
        (s.dsu.boostLevel = 0 → s.pmg.state ≠ .dockedWait →
          ∃ t, outcome = .next t ∧ t.snc = atRest ∧
            (s.link.enables.suction = true → t.link.notices.suction = true))) ∧
      (∀ p, c.suction = .held .brake p → speedOf v < 50 → outcome = .next
        (becomes { c with suction := .held .off p, applied := 0, stallCount := 0 })) ∧
      (∀ p, c.suction = .held .off p → 50 ≤ speedOf v → outcome = .next
        (becomes { c with suction := .held .brake p, stallCount := 0 }))) ∧
    (∀ v : Int, s.wcu.traps .motorI = false →
      ∃ t, exec (.channelSample (.motorI v)) s = .next t ∧
        let above := s.ka.suction.currentLimit < motorIOf v
        (s.snc.suction.isHalt = false → above → 2 ≤ s.snc.overCount →
          t.snc.suction = .halt .overcurrent ∧ t.snc.adopted = 0 ∧ t.snc.applied = 0 ∧
            t.snc.overCount = 0 ∧ (s.link.enables.suction = true → t.link.notices.suction = true)) ∧
        (s.snc.suction.isHalt = false → above → s.snc.overCount < 2 →
          t.snc = { s.snc with overCount := s.snc.overCount + 1 }) ∧
        (s.snc.suction.isHalt = false → ¬above → t.snc = { s.snc with overCount := 0 }))

/-- SelectPreset (R88). -/
def Obligations.PresetIsSelected : Prop :=
  ∀ (s : State) (preset : Byte), Ready s →
    (8 ≤ preset.toNat → exec (.selectPreset preset) s =
      .next (s.withReply (replyFrame 0x06 .badIndex []))) ∧
    (preset.toNat < 8 → s.snc.suction.isHalt = true → exec (.selectPreset preset) s =
      .next (s.withReply (replyFrame 0x06 .state []))) ∧
    (∀ p : PresetId, s.snc.suction.isHalt = false →
      let t := s.modSnc fun c => { c with preset := p }
      exec (.selectPreset (byteOf (presetNo p))) s =
        .next ((evaluate tellSuction
          (if (s.ka.presets.get p).notify then askNotice .suction t else t)).withReply
          (replyFrame 0x06 .ok [])))

/-- Resume adopts the pending target without asking a gate and ends HELD; outside HELD it is refused
(R95). -/
def Obligations.ResumeAdoptsThePending : Prop :=
  ∀ s : State, Ready s →
    (∀ m p, s.snc.suction = .held m p → s.snc.adopted < p →
      ∃ u : State, exec .resume s = .next (u.withReply (replyFrame 0x08 .ok [])) ∧
        u.snc.adopted = p ∧ u.chan.target = p ∧
        u.snc.suction = .moving (if m = .run then .run else .spinUp) ∧
        u.wcu = s.wcu ∧ (s.link.enables.suction = true → u.link.notices.suction = true)) ∧
    ((∀ m p, s.snc.suction ≠ .held m p) →
      exec .resume s = .next (s.withReply (replyFrame 0x08 .state [])))

/-- ClearHalt: its three refusals, and the machine that leaves HALT with an unreleased entry for each hard
condition that stands (R104). -/
def Obligations.HaltIsCleared : Prop :=
  ∀ s : State, Ready s →
    let waiting := (hardSources.filter fun src =>
      s.snc.marks.get src && (findEntry src s.snc.stack).isNone).length
    (s.snc.suction.isHalt = false ∨ 50 ≤ s.chan.speed ∨ 4 < waiting + min 4 s.snc.stack.length →
      exec .clearHalt s = .next (s.withReply (replyFrame 0x09 .state []))) ∧
    (s.snc.suction.isHalt = true → s.chan.speed < 50 → waiting + s.snc.stack.length ≤ 4 →
      ∃ u : State, exec .clearHalt s = .next (u.withReply (replyFrame 0x09 .ok [])) ∧
        u.snc.suction.isHalt = false ∧ u.snc.adopted ≤ effectiveCap u.snc.stack ∧
        (∀ src, u.snc.marks.get src = true → u.snc.hasUnreleased src = true) ∧
        (s.link.enables.suction = true → u.link.notices.suction = true))

/-- The power bound s_max and stage 4 (R111). -/
def Obligations.PowerBoundIsLargest : Prop :=
  ∀ i : PipelineInputs,
    let sMax := powerBound i.kFan i.budget
    (sMax ≤ 1250 ∧ i.kFan * sMax ^ 3 ≤ i.budget * 10 ^ 9 ∧
      ∀ v ≤ 1250, i.kFan * v ^ 3 ≤ i.budget * 10 ^ 9 → v ≤ sMax) ∧
    stage4 i = min (stage3 i) sMax ∧
    ((pipeline i).powerLimited = true ↔ sMax < stage3 i) ∧
    (1 ≤ i.kFan → i.budget = 0 → sMax = 0)

/-- The stages of the pipeline: boost, derate, cap, minimum (R109, R110, R113, R114). The computed target lies
at or below every bound, and at 0 or at or above S_min. -/
def Obligations.PipelineStages : Prop :=
  (∀ i : PipelineInputs,
      let boosted := i.boostPermitted = true ∧ 0 < i.level
      let sum := i.base + min (i.level * i.step) i.ceiling
      let c := pipeline i
      (boosted → stage2 i = if 1250 < sum then 1250 else sum) ∧ (¬boosted → stage2 i = i.base) ∧
      (c.boostOver = true ↔ boosted ∧ 1250 < sum) ∧
      stage5 i = min (stage4 i) i.cap ∧
      c.target = (if 0 < stage5 i ∧ stage5 i < i.sMin then 0 else stage5 i) ∧
      (c.floored = true ↔ 0 < stage5 i ∧ stage5 i < i.sMin) ∧
      (c.thermalInvalid = true ↔ i.motorT = .noReading) ∧
      c.target ≤ i.cap ∧ c.target ≤ powerBound i.kFan i.budget ∧ c.target ≤ 1250 ∧
      (c.target = 0 ∨ i.sMin ≤ c.target)) ∧
  (∀ (tKnee tCut : Int), tKnee < tCut →
      (∀ t : Int, t ≤ tKnee → derateFactor (.valid t) tKnee tCut = 256) ∧
      (∀ t : Int, tCut ≤ t → derateFactor (.valid t) tKnee tCut = 0) ∧
      (∀ t : Int, tKnee < t → t < tCut → ∀ d : Nat,
        derateFactor (.valid t) tKnee tCut = d ↔
          (d : Int) * (tCut - tKnee) ≤ 256 * (tCut - t) ∧ 256 * (tCut - t) < (d + 1) * (tCut - tKnee)) ∧
      derateFactor .noReading tKnee tCut = 128 ∧
      (∀ i : PipelineInputs, stage3 i = stage2 i * derateFactor i.motorT i.tKnee i.tCut / 256) ∧
      (∀ i : PipelineInputs, i.tKnee < i.tCut → stage3 i ≤ stage2 i))

/-- The adopted target never passes the smallest cap in force or the power the budget allows (R93). -/
def Obligations.TargetStaysBounded : Prop :=
  ∀ s t : State, TargetBounded s → step s = .next t → TargetBounded t

/-- Through every step the run mark and the TARGET channel follow the suction controller (R62, R105), the
adopted target is 0 exactly where the drive does not regulate (R96, R102), and the request queue holds at most
two (R3). -/
def Obligations.HandingOnStaysSound : Prop :=
  ∀ s t : State, step s = .next t →
    (HandedOn s → HandedOn t) ∧ (RestsAtZero s.snc → RestsAtZero t.snc) ∧
      (QueueBounded s → QueueBounded t)

/-! ### Overrides (chapter 8) -/

/-- The override stack stays sound: four entries, no source twice, boost off under an entry, and hard entries
at cap 0 (R122, R123, R125). -/
def Obligations.StackStaysSound : Prop :=
  ∀ s t : State, StackSound s.snc → HardCapsZero s.snc → step s = .next t →
    StackSound t.snc ∧ HardCapsZero t.snc

/-- A push and the clear that undoes it, a clear below the top, and the pop chain (R125, R129, R130). -/
def Obligations.PushAndClear : Prop :=
  ∀ (c : Snc) (src : Source) (cap : Nat), findEntry src c.stack = none →
    ((c.stack.head?.any OverrideEntry.released) = false → (c.push src cap).cleared? src = some c) ∧
    (∀ (other : Source) (under : Snc), src ≠ other → under = c.push src cap →
      (under.push other 0).cleared? src =
        some { under.push other 0 with
          stack :=
            { source := other, cap := 0, saved := false, released := false } ::
              { source := src, cap := cap, saved := c.boostPermitted, released := true } ::
                c.stack }) ∧
    (∀ d, (c.push src cap).cleared? src = some d →
      (d.stack.head?.any OverrideEntry.released) = false ∧ d.stack <:+ c.stack ∧
        (d.stack = [] → d.boostPermitted =
          ((c.stack.getLast?.map OverrideEntry.saved).getD c.boostPermitted)))

/-- SetBoost and SetSoftOverrides (R132, R133). -/
def Obligations.BoostAndSwitch : Prop :=
  ∀ (s : State) (flag : Byte), Ready s →
    (2 ≤ flag.toNat →
      exec (.setBoost flag) s = .next (s.withReply (replyFrame 0x07 .range [])) ∧
      exec (.setSoftOverrides flag) s = .next (s.withReply (replyFrame 0x0D .range []))) ∧
    (flag.toNat < 2 →
      (s.snc.stack = [] → exec (.setBoost flag) s =
        .next ((evaluate tellSuction (s.modSnc fun c =>
          { c with boostPermitted := decide (flag = 1) })).withReply (replyFrame 0x07 .ok [0x00]))) ∧
      (∀ upper e, s.snc.stack = upper ++ [e] → exec (.setBoost flag) s =
        .next ((evaluate tellSuction (s.modSnc fun c =>
          { c with stack := upper ++ [{ e with saved := decide (flag = 1) }] })).withReply
          (replyFrame 0x07 .ok [0x01]))) ∧
      exec (.setSoftOverrides flag) s =
        .next ((s.modSnc fun c => { c with softOverrides := decide (flag = 1) }).withReply
          (replyFrame 0x0D .ok [])))

/-- PushOverride and ReleaseOverride by their tests (R134, R135). -/
def Obligations.HostCap : Prop :=
  ∀ (s : State) (cap : Word16), Ready s →
    let held := min 1250 cap.toNat
    let st := if 1250 < cap.toNat then Status.clamped else .ok
    let outcome := exec (.pushOverride cap) s
    (s.snc.softOverrides = false → outcome = .next (s.withReply (replyFrame 0x0A .state []))) ∧
    (s.snc.softOverrides = true →
      (s.snc.hasUnreleased .hostCap = true →
        outcome = .next (s.withReply (replyFrame 0x0A .ok []))) ∧
      (s.snc.hasUnreleased .hostCap = false →
        (∀ e, findEntry .hostCap s.snc.stack = some e →
          outcome = .next ((stackChange tellSuction (s.snc.reactivate .hostCap held) s).withReply
            (replyFrame 0x0A st []))) ∧
        (findEntry .hostCap s.snc.stack = none → 4 ≤ s.snc.stack.length →
          outcome = .next (s.withReply (replyFrame 0x0A .state []))) ∧
        (findEntry .hostCap s.snc.stack = none → s.snc.stack.length < 4 →
          outcome = .next ((stackChange tellSuction (s.snc.push .hostCap held) s).withReply
            (replyFrame 0x0A st []))))) ∧
    (s.snc.hasUnreleased .hostCap = false →
      exec .releaseOverride s = .next (s.withReply (replyFrame 0x0B .state []))) ∧
    (s.snc.hasUnreleased .hostCap = true → ∀ d, s.snc.cleared? .hostCap = some d →
      exec .releaseOverride s =
        .next ((stackChange tellSuction d s).withReply (replyFrame 0x0B .ok [])))

/-! ### Dirt sensing (chapter 9) and the condition record -/

/-- An impact on its window counter, and OVF with source DIRT at saturation (R140, R141); the first source
of a flag stays (R117). -/
def Obligations.ImpactIsCounted : Prop :=
  ∀ s : State, Quiet s → s.dsu.fine ≤ 4095 → s.dsu.coarse ≤ 4095 →
    let reported := fun (t : State) =>
      t.snc = { s.snc with conditions :=
        { s.snc.conditions with ovf := some (s.snc.conditions.ovf.getD .dirt) } } ∧
      (s.snc.conditions.ovf = none → s.link.reports.ovf = true → s.link.enables.condition = true →
        t.link.notices.condition = true) ∧
      (s.snc.conditions.ovf ≠ none ∨ s.link.reports.ovf = false → t.link = s.link)
    exec (.impact .faint) s = .next s ∧
    (s.dsu.fine < 4094 → exec (.impact .fine) s =
      .next (s.modDsu fun d => { d with fine := d.fine + 1 })) ∧
    (4094 ≤ s.dsu.fine → ∃ t, exec (.impact .fine) s = .next t ∧
      t.dsu = { s.dsu with fine := 4095 } ∧ reported t) ∧
    (s.dsu.coarse < 4094 → exec (.impact .coarse) s =
      .next (s.modDsu fun d => { d with coarse := d.coarse + 1 })) ∧
    (4094 ≤ s.dsu.coarse → ∃ t, exec (.impact .coarse) s = .next t ∧
      t.dsu = { s.dsu with coarse := 4095 } ∧ reported t)

/-- The dirt level after a classified window (R146). -/
def Obligations.DirtLevelMoves : Prop :=
  ∀ (e : DirtEntry) (k net : Nat), k ≤ 3 →
    let met := if e.t3 ≤ net then 3 else if e.t2 ≤ net then 2 else if e.t1 ≤ net then 1 else 0
    let own := if k = 1 then e.t1 else if k = 2 then e.t2 else e.t3
    let next := nextDirtLevel e k net
    (k < met → next = met) ∧
    (met ≤ k → 0 < k → (net : Int) < (own : Int) - e.h → next = k - 1) ∧
    (met ≤ k → ¬(0 < k ∧ (net : Int) < (own : Int) - e.h) → next = k) ∧
    next ≤ 3 ∧ k ≤ next + 1

/-- The close of a classified window in the dirt sensing unit: score, net, DIRT_NET, level, record, quiet run
and floor (R145, R147, R148, R155), a reservation of DIRT broken by the adaptation (R30), and the boost level
with T2 (R149, R150), whose change asks for the DIRT notice (R152). A rise that stays below the boost level leaves it
with boost hold off too: there R149 and R150 differ, and the choice is the model's (entry 41). At the telling of OFF
or HALT the levels and the quiet run return to 0 and T2 stops (R153). -/
def Obligations.WindowIsClassified : Prop :=
  (∀ s : State, s.dsu.ring.length ≤ 16 → s.dsu.quiet ≤ 7 → s.ka.dirt.floor ≤ s.ka.dirt.floorMax →
      let score := s.dsu.fine + 4 * s.dsu.coarse
      let net := score - s.ka.dirt.floor
      let level := nextDirtLevel s.ka.dirt s.dsu.dirtLevel net
      let adapts := level = 0 ∧ s.dsu.quiet = 7
      let t := classifyWindow s.snc.applied (storeNet s)
      t.chan = { s.chan with dirtNet := net } ∧ t.dsu.dirtLevel = level ∧
      t.dsu.ring.length = min 16 (s.dsu.ring.length + 1) ∧
      t.dsu.ring.getLast? = some
        { fine := s.dsu.fine, coarse := s.dsu.coarse, applied := s.snc.applied,
          classified := some { score := score, net := net, level := level } } ∧
      t.dsu.quiet = (if level = 0 ∧ s.dsu.quiet ≠ 7 then s.dsu.quiet + 1 else 0) ∧
      (¬adapts → t.ka = s.ka ∧ t.reservation = s.reservation) ∧
      (adapts → t.ka = { s.ka with dirt := { s.ka.dirt with floor := t.ka.dirt.floor } } ∧
        t.ka.dirt.floor ≤ s.ka.dirt.floorMax ∧
        (t.ka.dirt.floor : Int) =
          max 0 (min (s.ka.dirt.floorMax : Int)
            (s.ka.dirt.floor + ((score : Int) - s.ka.dirt.floor).tdiv 8)) ∧
        (s.reservation = some { sectionId := .dirt, first := 0, count := 1, broken := false } →
          t.reservation = some { sectionId := .dirt, first := 0, count := 1, broken := true }))) ∧
  (∀ (before : Nat) (s : State),
      let k := s.dsu.dirtLevel
      let t := moveBoost before s
      (before < k → s.dsu.boostLevel ≤ k →
        t.dsu.boostLevel = k ∧ (t.tdu.timers.get .i2).running = false) ∧
      (before < k → k < s.dsu.boostLevel → t = s) ∧
      (k < before → s.ka.dirt.hold = true → t.dsu = s.dsu ∧
        t.tdu.timers.get .i2 =
          { rate := s.tdu.entries.i2.rate, count := s.tdu.entries.i2.preset, running := true }) ∧
      (k < before → s.ka.dirt.hold = false →
        t.dsu.boostLevel = k ∧ (t.tdu.timers.get .i2).running = false) ∧
      (before = k → t = s) ∧
      (t.dsu.boostLevel ≠ s.dsu.boostLevel → s.link.enables.dirt = true → t.link.notices.dirt = true) ∧
      (t.dsu.boostLevel = s.dsu.boostLevel → t.link = s.link)) ∧
  (∀ s : State,
      let state := s.snc.suction.reported
      let t := tellSuction s
      (state = .off ∨ state = .halt →
        t.dsu = { s.dsu with dirtLevel := 0, boostLevel := 0, quiet := 0 } ∧
        t.tdu.timers.i2 =
          { rate := s.tdu.entries.i2.rate, count := s.tdu.entries.i2.preset, running := false } ∧
        (s.dsu.boostLevel ≠ 0 → s.link.enables.dirt = true → t.link.notices.dirt = true)) ∧
      (state = .spinUp ∨ state = .run ∨ state = .held ∨ state = .brake → t = s))

/-! ### Pack supervision and charging (chapters 10 and 11) -/

/-- The low count and PROTECT (R160); the recovery in PROTECT and DOCKED_WAIT, at samples that no trap watches
(R161), with the budget that DISCHARGE then has (R174); and the estimate of the first sample after a cold start
(R167), which is all that a CELL sample writes in the keep-alive domain. The budget is held at 600 where a lost record
gives more, and is free where its Q_full is 0 (R36, entry 10). -/
def Obligations.LowPackIsProtected : Prop :=
  (∀ (s : State) (tapOpen : Six Bool) (mv : Six Int), Quiet s → s.pmg.state = .discharge →
    s.ka.estimatePending = false →
    let cells := validCells (cellsOf tapOpen mv)
    let low := ∃ v ∈ cells, v < s.ka.limits.vCut
    ∃ t, exec (.cellSample tapOpen mv) s = .next t ∧
      (low → 2 ≤ s.pmg.lowCount →
        t.pmg.state = .protect ∧ t.pmg.lowMark = true ∧ t.pmg.lowCount = 0 ∧ t.pmg.budget = 0 ∧
          t.chan.budget = 0 ∧ t.snc.marks.packLow = true ∧
          (s.link.enables.pack = true → t.link.notices.pack = true)) ∧
      (low → s.pmg.lowCount < 2 →
        t.pmg = { s.pmg with lowCount := s.pmg.lowCount + 1 }) ∧
      (¬low → t.pmg = { s.pmg with lowCount := 0 })) ∧
  (∀ (s : State) (tapOpen : Six Bool) (mv : Six Int), Quiet s → s.pmg.lowMark = true →
    s.pmg.state = .protect ∨ s.pmg.state = .dockedWait → s.ka.estimatePending = false →
    s.wcu.traps .cell = false →
    let cell := cellsOf tapOpen mv
    let good := allCellsValid cell = true ∧
      (∀ v ∈ validCells cell, (s.ka.limits.vCut : Int) + 200 ≤ v) ∧
      -200 < s.chan.packI ∧ s.chan.packI < 200
    let soc := min 100 (s.ka.qRem * 100 / s.ka.gauge.qFull)
    let full := (if s.ka.limits.socKnee ≤ soc then s.ka.limits.wPackMax
      else s.ka.limits.wPackMax * soc / s.ka.limits.socKnee) * s.pmg.foldback / 100
    ∃ t, exec (.cellSample tapOpen mv) s = .next t ∧
      (¬good → t.pmg = { s.pmg with recoveryCount := 0 }) ∧
      (good → s.pmg.recoveryCount < 9 →
        t.pmg = { s.pmg with recoveryCount := s.pmg.recoveryCount + 1 }) ∧
      (good → 9 ≤ s.pmg.recoveryCount →
        t.pmg.lowMark = false ∧ t.snc.marks.packLow = false ∧
        (StackSound s.snc → s.snc.marks.packLow = true → t.snc.hasUnreleased .packLow = false) ∧
        (s.pmg.state = .protect → t.pmg.state = .discharge ∧ t.pmg.recoveryCount = 0 ∧
          (s.ka.gauge.qFull ≠ 0 →
            t.pmg.budget = min 600 (if s.chan.packT = .noReading then full / 2 else full)) ∧
          t.chan.budget = t.pmg.budget ∧ (s.link.enables.pack = true → t.link.notices.pack = true)) ∧
        (s.pmg.state = .dockedWait → s.snc.suction = .moving .off → s.snc.adopted = 0 →
          s.snc.hasUnreleased .docked = true → HardCapsZero s.snc →
          t.pmg = { s.pmg with lowMark := false, recoveryCount := 0 }))) ∧
  (∀ (s : State) (tapOpen : Six Bool) (mv : Six Int), Quiet s →
    ∃ t, exec (.cellSample tapOpen mv) s = .next t ∧
      (s.ka.estimatePending = false → t.ka = s.ka) ∧
      (s.ka.estimatePending = true →
        t.ka = { s.ka with qRem := t.ka.qRem, estimatePending := false } ∧
        (lowestCell (cellsOf tapOpen mv) = none → t.ka.qRem = 0) ∧
        ∀ v, lowestCell (cellsOf tapOpen mv) = some v →
          (v ≤ 3300 → t.ka.qRem = 0) ∧ (4150 ≤ v → t.ka.qRem = s.ka.gauge.qFull) ∧
          (3300 < v → v < 4150 →
            (t.ka.qRem : Int) = (s.ka.gauge.qFull : Int) * (v - 3300) / 850)))

/-- The charge soundness of every step: the claim stands exactly in the charging states, DOCKED is in force
there, and the bleed set is empty outside CV and DONE (R158, R186, R196). -/
def Obligations.ChargingStaysSound : Prop :=
  ∀ s t : State, ClaimedWhileCharging s → DockedWhileCharging s → BleedBounded s →
    step s = .next t → ClaimedWhileCharging t ∧ DockedWhileCharging t ∧ BleedBounded t

/-- Charge entry at an OFFER that the test accepts, and an UNSUITED offer (R80, R81, R180, R185 to R187); the learning
run that the entry sets (R169). -/
def Obligations.ChargeIsEntered : Prop :=
  ∀ (s : State) (dockKind : Byte) (voltage current : Word16) (x : Exchange) (temperature : Int),
    Quiet s → s.dlc.exchange = some x → x.awaiting = true → x.frame = .probe →
    s.dlc.session = .probing → s.dlc.retry = none → 500 ≤ current.toNat → current.toNat ≤ 4000 →
    12000 ≤ voltage.toNat → voltage.toNat ≤ 30000 →
    s.pmg.state = .dockedWait → s.snc.suction = .moving .off → s.snc.adopted = 0 →
    s.snc.hasUnreleased .docked = true →
    HardCapsZero s.snc →
    s.chan.packT = .valid temperature → s.ka.charge.windowLow ≤ temperature →
    temperature ≤ s.ka.charge.windowHigh → allCellsValid s.chan.cell = true →
    let full := 6 * s.ka.charge.vCv + 300
    let phase := if ∃ v ∈ validCells s.chan.cell, v < 3000 then Phase.precharge else .cc
    let plan := if phase = .precharge then s.ka.charge.iPre else s.ka.charge.iCc
    let asked := min (if temperature < s.ka.charge.cool then plan / 2 else plan) current.toNat
    ∃ t, exec (.offerReceived dockKind voltage current) s = .next t ∧
      t.dlc.session = .offered ∧
      t.dlc.offer = some ⟨dockKind.toNat, voltage.toNat, current.toNat⟩ ∧
      (full ≤ voltage.toNat → t.pmg.state = .charging phase ∧ t.pmg.askedVoltage = full ∧
        t.pmg.askedCurrent = asked ∧ t.dlc.askDue = true ∧
        t.dlc.exchange = some
          { frame := .ask full asked, awaiting := false, newer := false, ordered := false } ∧
        t.wcu.claim = some { w2 := s.wcu.entries.i2, w3 := s.wcu.entries.i3 } ∧
        t.wcu.entries.i2 = loadedW2 s.ka.charge ∧ t.wcu.entries.i3 = loadedW3 s.ka.charge ∧
        (t.tdu.timers.get .i1).running = true ∧ t.snc.adopted = 0 ∧ t.pmg.lowMark = false ∧
        (s.ka.gauge.qFull ≠ 0 →
          t.pmg.learning = (if s.ka.trust = .calibrated ∧ s.ka.qRem * 100 / s.ka.gauge.qFull ≤ 10 then
            some { qStart := s.ka.qRem, added := 0 } else none)) ∧
        (s.link.enables.pack = true → t.link.notices.pack = true)) ∧
      (voltage.toNat < full → t.pmg.state = .fault .unsuited ∧ t.dlc.askDue = false ∧
        t.wcu.claim = s.wcu.claim ∧ t.pmg.learning = s.pmg.learning ∧ t.pmg.lowMark = s.pmg.lowMark)

/-- The phases of a charge at a CELL sample that no trap answers: PRECHARGE to CC, CC to CV, a recharge, and a
member without a reading (R188, R190, R193). That PRECHARGE goes to CC, and no further at that sample, with a cell at
or above V_cv too is the model's choice (entry 18). Then the asked current and the temperature pause at a PACK_T
sample that no trap answers (R187, R191), the taper count to DONE with what the gauge learns there (R190, R170), and
the faults that a hit of a claimed unit and a missing reading make in every charging state (R82, R193). These too are
the model's choices: the precharge clock stays at a return from a pause to PRECHARGE, which is taken not to be an entry
to it (entry 37), and the pair is handed over at entry to DONE, at a pause and at a return from one though it did not
change, as at a pause in DONE (entry 20). Each fault releases W2 and W3, whose records are the host's again (R84). -/
def Obligations.ChargePhases : Prop :=
  (∀ (s : State) (tapOpen : Six Bool) (mv : Six Int) (phase : Phase), Quiet s →
    s.pmg.state = .charging phase → s.ka.estimatePending = false →
    let cell := cellsOf tapOpen mv
    (∀ u, (s.wcu.entries.get u).kind = .trap → (s.wcu.entries.get u).channel = .cell →
      (∀ v ∈ validCells cell, inBand (s.wcu.entries.get u) v = false) ∧
        (s.wcu.comparisons.get u).raised = false) →
    let vCv : Int := s.ka.charge.vCv
    ∃ t, exec (.cellSample tapOpen mv) s = .next t ∧
      (allCellsValid cell = false → t.pmg.state = .fault .sense ∧ t.pmg.askedCurrent = 0 ∧
        Released s t ∧ t.pmg.learning = none) ∧
      (allCellsValid cell = true →
        (phase = .precharge → (∀ v ∈ validCells cell, 3000 ≤ v) → t.pmg.state = .charging .cc) ∧
        (phase = .cc → (∃ v ∈ validCells cell, vCv ≤ v) → t.pmg.state = .charging .cv) ∧
        (phase = .done → (∀ v ∈ validCells cell, v < vCv - 150) → t.pmg.state = .charging .cc ∧
          t.pmg.askedVoltage = 6 * s.ka.charge.vCv + 300) ∧
        (phase = .done → (∃ v ∈ validCells cell, vCv - 150 ≤ v) → t.pmg = s.pmg) ∧
        (phase = .cv → t.pmg = s.pmg) ∧
        (phase = .precharge → (∃ v ∈ validCells cell, v < 3000) → t.pmg = s.pmg) ∧
        (phase = .cc → (∀ v ∈ validCells cell, v < vCv) → t.pmg = s.pmg))) ∧
  (∀ (s : State) (v r : Int) (phase : Phase), Quiet s → NearestWhole v r → -40 ≤ r → r ≤ 125 →
    (∀ u, (s.wcu.entries.get u).kind = .trap → (s.wcu.entries.get u).channel = .packT →
      inBand (s.wcu.entries.get u) r = false ∧ (s.wcu.comparisons.get u).raised = false) →
    let e := s.ka.charge
    let plan := match phase with | .precharge => e.iPre | .cc | .cv => e.iCc | .done => 0
    let asked := fun (o : Offer) => min (if r < e.cool then plan / 2 else plan) o.maxCurrent
    ∃ t, exec (.channelSample (.packT v)) s = .next t ∧
      (s.pmg.state = .charging phase ∨ s.pmg.state = .paused phase →
        t.wcu.claim = s.wcu.claim ∧ t.tdu.timers.i1 = s.tdu.timers.i1 ∧
          t.pmg.learning = s.pmg.learning ∧ t.pmg.precharge = s.pmg.precharge) ∧
      (s.pmg.state = .charging phase → r < e.windowLow ∨ e.windowHigh < r →
        t.pmg.state = .paused phase ∧ t.pmg.askedCurrent = 0 ∧ t.dlc.askDue = true ∧
          t.dlc.askCurrent = 0 ∧ (s.link.enables.pack = true → t.link.notices.pack = true)) ∧
      (s.pmg.state = .charging phase → e.windowLow ≤ r → r ≤ e.windowHigh →
        ∀ o, s.dlc.offer = some o → t.pmg.state = .charging phase ∧ t.pmg.askedCurrent = asked o ∧
          (asked o ≠ s.pmg.askedCurrent → t.dlc.askDue = true ∧ t.dlc.askCurrent = asked o) ∧
          (asked o = s.pmg.askedCurrent → t.dlc = s.dlc)) ∧
      (s.pmg.state = .paused phase → e.windowLow + 2 ≤ r → r ≤ e.windowHigh - 2 →
        ∀ o, s.dlc.offer = some o → t.pmg.state = .charging phase ∧ t.pmg.askedCurrent = asked o ∧
          t.dlc.askDue = true ∧ t.dlc.askCurrent = asked o ∧
          (s.link.enables.pack = true → t.link.notices.pack = true)) ∧
      (s.pmg.state = .paused phase → r < e.windowLow + 2 ∨ e.windowHigh - 2 < r →
        { t.pmg with hotMark := s.pmg.hotMark } = s.pmg ∧ t.dlc = s.dlc)) ∧
  (∀ (s : State) (v : Int), Quiet s → s.pmg.state = .charging .cv → s.wcu.traps .packI = false →
    let below := max (-40000) (min 8000 (v.tdiv 1000)) < (s.ka.charge.iTerm : Int)
    ∃ t, exec (.channelSample (.packI v)) s = .next t ∧
      (¬below → t.pmg = { s.pmg with taper := 0 }) ∧
      (below → s.pmg.taper < 5999 → t.pmg = { s.pmg with taper := s.pmg.taper + 1 }) ∧
      (below → 5999 ≤ s.pmg.taper →
        t.pmg.state = .charging .done ∧ t.pmg.askedCurrent = 0 ∧ t.pmg.learning = none ∧
        t.dlc.askCurrent = 0 ∧ t.dlc.askDue = true ∧ (t.tdu.timers.get .i1).running = false ∧
        t.wcu.claim = s.wcu.claim ∧ (s.link.enables.pack = true → t.link.notices.pack = true) ∧
        t.ka.trust = .calibrated ∧ t.ka.qRem = t.ka.gauge.qFull ∧
        t.ka.gauge = { s.ka.gauge with qFull := t.ka.gauge.qFull } ∧
        (s.pmg.learning = none → t.ka.gauge = s.ka.gauge ∧ t.reservation = s.reservation) ∧
        ∀ run, s.pmg.learning = some run →
          (t.ka.gauge.qFull : Int) =
            max (((s.ka.gauge.design + 1) / 2 : Nat) : Int)
              (min ((s.ka.gauge.design * 11 / 10 : Nat) : Int)
                ((s.ka.gauge.qFull : Int) +
                  ((run.qStart : Int) + run.added - s.ka.gauge.qFull).tdiv 4)) ∧
          (s.reservation = some { sectionId := .gauge, first := 0, count := 1, broken := false } →
            t.reservation = some { sectionId := .gauge, first := 0, count := 1, broken := true }))) ∧
  (∀ s : State, Quiet s → s.pmg.state.isCharging = true → s.wcu.claim ≠ none →
    let w2 := s.wcu.entries.i2
    let w3 := s.wcu.entries.i3
    let faulted := fun (kind : ChargeFault) (t : State) =>
      t.pmg.state = .fault kind ∧ t.pmg.askedCurrent = 0 ∧ t.pmg.learning = none ∧ Released s t ∧
        t.dlc.askDue = false ∧ (t.tdu.timers.get .i1).running = false ∧ t.pmg.bleedSet = Six.all false ∧
        (s.link.enables.pack = true → t.link.notices.pack = true)
    (w2.kind = .trap → w2.channel = .cell → w3.channel = .packT → ∀ (tapOpen : Six Bool) (mv : Six Int),
      let cell := cellsOf tapOpen mv
      (allCellsValid cell = true → (∃ v ∈ validCells cell, inBand w2 v = true) →
        ∃ t, exec (.cellSample tapOpen mv) s = .next t ∧ faulted .cellOver t) ∧
      (allCellsValid cell = false → (∀ v ∈ validCells cell, inBand w2 v = false) →
        ∃ t, exec (.cellSample tapOpen mv) s = .next t ∧ faulted .sense t)) ∧
    (w3.kind = .trap → w3.channel = .packT → w2.channel = .cell → ∀ v r : Int, NearestWhole v r →
      (-40 ≤ r → r ≤ 125 → inBand w3 r = true →
        ∃ t, exec (.channelSample (.packT v)) s = .next t ∧ faulted .hot t) ∧
      (r < -40 ∨ 125 < r →
        ∃ t, exec (.channelSample (.packT v)) s = .next t ∧ faulted .sense t)))

/-- ClearChargeFault: refused outside CHARGE_FAULT; else DOCKED_WAIT with the test of charge entry (R194), whose
outcome follows from R185: DOCKED_WAIT where one of its conditions fails, UNSUITED and SENSE with nothing claimed, and
charge entry (R186). -/
def Obligations.ChargeFaultIsCleared : Prop :=
  ∀ s : State, Ready s →
    ((∀ kind, s.pmg.state ≠ .fault kind) →
      exec .clearChargeFault s = .next (s.withReply (replyFrame 0x16 .state []))) ∧
    (∀ kind, s.pmg.state = .fault kind →
      ∃ u : State, exec .clearChargeFault s = .next (u.withReply (replyFrame 0x16 .ok [])) ∧
        (s.link.enables.pack = true → u.link.notices.pack = true) ∧ u.pmg.budget = 0 ∧
        (s.dlc.session ≠ .offered → u.pmg.state = .dockedWait) ∧
        (u.pmg.state = .dockedWait ∨ (∃ phase, u.pmg.state = .charging phase) ∨
          u.pmg.state = .fault .unsuited ∨ u.pmg.state = .fault .sense) ∧
        (let e := s.ka.charge
        let warm := ∃ v, s.chan.packT = .valid v ∧ e.windowLow ≤ v ∧ v ≤ e.windowHigh
        let full := 6 * e.vCv + 300
        (s.snc.hasUnreleased .docked = false ∨ ¬warm → u.pmg.state = .dockedWait) ∧
        (s.snc.suction.reported ≠ .off → s.pmg.budget = 0 → s.wcu.traps .budget = false →
          u.pmg.state = .dockedWait) ∧
        (s.dlc.session = .offered → s.snc.suction = .moving .off → s.snc.adopted = 0 →
          s.snc.hasUnreleased .docked = true → HardCapsZero s.snc → ∀ o v, s.dlc.offer = some o →
          s.chan.packT = .valid v → e.windowLow ≤ v → v ≤ e.windowHigh →
          let phase := if ∃ c ∈ validCells s.chan.cell, c < 3000 then Phase.precharge else .cc
          let plan := if phase = .precharge then e.iPre else e.iCc
          let asked := min (if v < e.cool then plan / 2 else plan) o.maxCurrent
          let found := fun (k : ChargeFault) => u.pmg.state = .fault k ∧ u.wcu.claim = s.wcu.claim ∧
            u.tdu.timers.i1 = s.tdu.timers.i1 ∧ u.pmg.lowMark = s.pmg.lowMark ∧
            u.pmg.learning = s.pmg.learning ∧ u.dlc.askDue = false ∧
            (s.dlc.quitDue = false → u.dlc.quitDue = false)
          (o.maxVoltage < full → found .unsuited) ∧
          (full ≤ o.maxVoltage → allCellsValid s.chan.cell = false → found .sense) ∧
          (full ≤ o.maxVoltage → allCellsValid s.chan.cell = true →
            u.pmg.state = .charging phase ∧ u.pmg.askedVoltage = full ∧ u.pmg.askedCurrent = asked ∧
            u.dlc.askDue = true ∧ u.dlc.askVoltage = full ∧ u.dlc.askCurrent = asked ∧
            u.wcu.claim = some { w2 := s.wcu.entries.i2, w3 := s.wcu.entries.i3 } ∧
            u.wcu.entries.i2 = loadedW2 e ∧ u.wcu.entries.i3 = loadedW3 e ∧
            (u.tdu.timers.get .i1).running = true ∧ u.snc.adopted = 0 ∧ u.pmg.lowMark = false ∧
            u.pmg.precharge = 0 ∧
            (s.ka.gauge.qFull ≠ 0 →
              u.pmg.learning = (if s.ka.trust = .calibrated ∧ s.ka.qRem * 100 / s.ka.gauge.qFull ≤ 10 then
                some { qStart := s.ka.qRem, added := 0 } else none))))))

/-- The frames that fall due on a free dock line, the end of a frame, and a QUIT that has been sent (R178,
R180, R181, R183). That a PROBE falls due in PROBING and LOST alone and a KEEP in ACTIVE alone is R177's table; that
the event of either in another session state, the end of a retry wait that does not run and the end of a frame that
nobody sends, none of which can fall, change nothing is the model's choice (entry 2). -/
def Obligations.DockFramesAreSent : Prop :=
  ∀ s : State, Quiet s →
    let sending := fun (f : DockFrame) =>
      some { frame := f, awaiting := false, newer := false, ordered := false : Exchange }
    (s.dlc.session = .probing → s.dlc.probes < 10 → s.dlc.exchange = none → s.dlc.quitDue = false →
      exec .probeDue s = .next (s.modDlc fun d =>
        { d with probeDue := false, probes := d.probes + 1, exchange := sending .probe })) ∧
    (s.dlc.session = .lost → s.dlc.probes = 0 → s.dlc.exchange = none → s.dlc.quitDue = false →
      exec .probeDue s = .next (s.modDlc fun d =>
        { d with probeDue := false, exchange := sending .probe })) ∧
    (s.dlc.session ≠ .probing → s.dlc.session ≠ .lost → exec .probeDue s = .next s) ∧
    (s.dlc.session = .active → s.dlc.exchange = none → s.dlc.quitDue = false →
      (s.dlc.askDue = false ∨ s.dlc.retry ≠ none → exec .keepDue s = .next (s.modDlc fun d =>
        { d with keepDue := false, exchange := sending .keep })) ∧
      (s.dlc.askDue = true → s.dlc.retry = none → exec .keepDue s = .next (s.modDlc fun d =>
        { d with keepDue := false, exchange := sending (.ask d.askVoltage d.askCurrent) }))) ∧
    (s.dlc.session ≠ .active → exec .keepDue s = .next s) ∧
    (s.dlc.retry = none → exec .retryWaitEnd s = .next s) ∧
    (s.dlc.retry ≠ none → s.dlc.askDue = true → s.dlc.session = .offered ∨ s.dlc.session = .active →
      s.dlc.exchange = none → s.dlc.quitDue = false →
      exec .retryWaitEnd s = .next (s.modDlc fun d =>
        { d with
          retry := none
          keepDue := false
          exchange := sending (.ask d.askVoltage d.askCurrent) })) ∧
    (∀ x, s.dlc.exchange = some x → x.awaiting = false → x.frame ≠ .quit →
      exec .dockFrameSent s =
        .next (s.modDlc fun d => { d with exchange := some { x with awaiting := true } })) ∧
    (∀ x, s.dlc.exchange = some x → x.awaiting = false → x.frame = .quit →
      s.dlc.session = .active →
      ∃ t, exec .dockFrameSent s = .next t ∧ t.dlc.session = .offered ∧ t.dlc.offer = s.dlc.offer ∧
        t.dlc.dockCurrent = 0) ∧
    (s.dlc.exchange = none → exec .dockFrameSent s = .next s)

/-- OFFER, GRANT, DECLINE and KEEPACK as the answers that their frames call for; any other answer is a miss, and an
answer that no exchange awaits is dropped (R178, R180 to R182). The frames are those of R18: each answer stands in
its bytes, which sum to zero, and is read back from them. That a GRANT to an ASK which the leave-charging order marked
is followed by the QUIT (R183) though a newer pair was handed over (R181) is the model's choice (entry 44), and so is
that an ASK still being sent is marked like one that waits (entry 22). -/
def Obligations.DockAnswers : Prop :=
  (∀ (kind reason : Byte) (voltage current : Word16),
    let two := fun (w : Word16) => [BitVec.ofNat 8 w.toNat, BitVec.ofNat 8 (w.toNat / 256)]
    let carries := fun (a : DockAnswer) (kind : Byte) (payload : List Byte) =>
      let frame := dockAnswerBytes a
      frame.dropLast = kind :: BitVec.ofNat 8 payload.length :: payload ∧
        frame.foldl (· + ·) (0 : Byte) = 0 ∧ dockAnswer? frame = some a
    carries (.offer kind voltage current) 0x21 (kind :: two voltage ++ two current) ∧
    carries (.grant voltage current) 0x22 (two voltage ++ two current) ∧
    carries (.decline reason) 0x23 [reason] ∧ carries (.keepack current) 0x24 (two current) ∧
    ∀ s : State,
      exec (.offerReceived kind voltage current) s =
        answerStep (dockAnswerBytes (.offer kind voltage current)) s ∧
      exec (.grantReceived voltage current) s = answerStep (dockAnswerBytes (.grant voltage current)) s ∧
      exec (.declineReceived reason) s = answerStep (dockAnswerBytes (.decline reason)) s ∧
      exec (.keepackReceived current) s = answerStep (dockAnswerBytes (.keepack current)) s) ∧
  ∀ (s : State) (x : Exchange) (voltage current : Word16) (reason : Byte), Quiet s →
    (s.dlc.awaited? = none →
      exec (.grantReceived voltage current) s = .next s ∧
      exec (.declineReceived reason) s = .next s ∧
      exec (.keepackReceived current) s = .next s ∧
      exec (.offerReceived reason voltage current) s = .next s) ∧
    (s.dlc.exchange = some x → x.awaiting = true →
      (x.frame.isAsk = true →
        (s.dlc.session = .offered → x.ordered = false →
          ∃ t, exec (.grantReceived voltage current) s = .next t ∧ t.dlc.session = .active ∧
            t.dlc.misses = 0 ∧ t.dlc.declines = 0 ∧ t.dlc.askDue = (s.dlc.askDue && x.newer) ∧
            (s.link.enables.dock = true → t.link.notices.dock = true)) ∧
        (s.dlc.session = .offered → x.ordered = true →
          ∃ t, exec (.grantReceived voltage current) s = .next t ∧ t.dlc.session = .offered ∧
            t.dlc.exchange =
              some { frame := .quit, awaiting := false, newer := false, ordered := false }) ∧
        (s.dlc.session = .active →
          ∃ t, exec (.grantReceived voltage current) s = .next t ∧ t.dlc.session = .active ∧
            t.dlc.misses = 0 ∧ t.dlc.declines = 0 ∧ t.dlc.askDue = (s.dlc.askDue && x.newer)) ∧
        (∃ t, exec (.declineReceived reason) s = .next t ∧ t.dlc.session = s.dlc.session ∧
          t.dlc.misses = 0 ∧
          (s.dlc.askDue = true → s.dlc.declines = 0 → t.dlc.declines = 1 ∧ t.dlc.askDue = true ∧
            t.dlc.retry = some .afterDecline ∧ t.pmg = s.pmg) ∧
          (s.dlc.askDue = true → 1 ≤ s.dlc.declines → t.dlc.declines = 0 ∧ t.dlc.askDue = false ∧
            (s.pmg.state.isCharging = true → t.pmg.state = .fault .declined)) ∧
          (s.dlc.askDue = false → t.dlc.declines = s.dlc.declines ∧ t.dlc.retry = s.dlc.retry)) ∧
        exec (.keepackReceived current) s = exec .invalidDockAnswer s) ∧
      (x.frame.isAsk = false →
        exec (.grantReceived voltage current) s = exec .invalidDockAnswer s ∧
        exec (.declineReceived reason) s = exec .invalidDockAnswer s) ∧
      (x.frame = .keep → ∃ t, exec (.keepackReceived current) s = .next t ∧
        t.dlc.dockCurrent = current.toNat ∧ t.dlc.misses = 0 ∧ t.dlc.session = s.dlc.session) ∧
      (x.frame = .probe → offerInRange voltage.toNat current.toNat = true →
        s.dlc.session = .probing ∨ s.dlc.session = .lost →
        ∃ t, exec (.offerReceived reason voltage current) s = .next t ∧ t.dlc.session = .offered ∧
          t.dlc.offer = some ⟨reason.toNat, voltage.toNat, current.toNat⟩ ∧ t.dlc.misses = 0 ∧
          (s.link.enables.dock = true → t.link.notices.dock = true)) ∧
      (x.frame ≠ .probe ∨ offerInRange voltage.toNat current.toNat = false →
        exec (.offerReceived reason voltage current) s = exec .invalidDockAnswer s))

/-- A missed exchange: the tenth PROBE of PROBING and the third miss of OFFERED and ACTIVE lose the session;
a missed ASK that is still due waits for its retry (R178, R180, R181, R195). Bytes whose sum is not zero, and bytes
that are no frame of the dock, are such a miss when they arrive (R18, R178). -/
def Obligations.MissedExchange : Prop :=
  (∀ (bytes : List Byte) (s : State),
    (bytes.foldl (· + ·) (0 : Byte) ≠ 0 → answerStep bytes s = exec .invalidDockAnswer s) ∧
    ((∀ kind ∈ bytes.head?, kind.toNat < 0x21 ∨ 0x24 < kind.toNat) →
      answerStep bytes s = exec .invalidDockAnswer s) ∧
    (alwaysMisses bytes = true → answerStep bytes s = exec .invalidDockAnswer s)) ∧
  ∀ s : State, Quiet s →
    exec .invalidDockAnswer s = exec .dockAnswerTimeout s ∧
    (s.dlc.awaited? = none → exec .dockAnswerTimeout s = .next s) ∧
    (∀ x, s.dlc.exchange = some x → x.awaiting = true →
      ∃ t, exec .dockAnswerTimeout s = .next t ∧
        (s.dlc.session = .probing → s.dlc.probes < 10 → t.dlc.session = .probing ∧
          t.pmg = s.pmg) ∧
        (s.dlc.session = .probing → 10 ≤ s.dlc.probes → t.dlc.session = .lost) ∧
        (s.dlc.session = .lost → t.dlc.session = .lost ∧ t.dlc.probes = s.dlc.probes ∧
          t.pmg = s.pmg) ∧
        (s.dlc.session = .offered ∨ s.dlc.session = .active → s.dlc.misses < 2 →
          t.dlc.session = s.dlc.session ∧ t.dlc.misses = s.dlc.misses + 1 ∧ t.pmg = s.pmg ∧
            (x.frame.isAsk = true → s.dlc.askDue = true → t.dlc.retry = some .afterMiss)) ∧
        (s.dlc.session = .offered ∨ s.dlc.session = .active → 2 ≤ s.dlc.misses →
          t.dlc.session = .lost ∧ t.dlc.askDue = false ∧ t.dlc.askVoltage = 0 ∧
            t.dlc.askCurrent = 0 ∧ t.pmg.state.isCharging = false ∧
            (s.pmg.state.isCharging = true → t.pmg.state = .dockedWait ∧ Released s t)))

/-! ### Reset -/

/-- The state right after reset meets every invariant stated here, and runs: its link is ready as soon as
STARTED has ended. -/
def Obligations.ResetIsSound : Prop :=
  TargetBounded State.reset ∧ StackSound State.reset.snc ∧ HardCapsZero State.reset.snc ∧
    ClaimedWhileCharging State.reset ∧ DockedWhileCharging State.reset ∧
    BleedBounded State.reset ∧ GaugeBounded State.reset.ka ∧ HandedOn State.reset ∧
    RestsAtZero State.reset.snc ∧
    StopPresetFixed State.reset.ka ∧ QueueBounded State.reset ∧ Ready State.reset ∧
    Quiet State.reset ∧ State.reset.ka = KeepAlive.cold ∧
    State.reset.link.tx = some (startedFrame .cold true)
end

