-- ==== Sys2Proof/Laws/State.lean ====
section
/-! SUPPORT. One lemma for each field of each update of State. -/

namespace Sys2Proof.Machine

variable (s : State)

@[simp] theorem State.modKa_ka (f : KeepAlive → KeepAlive) : (s.modKa f).ka = f s.ka := rfl
@[simp] theorem State.modKa_link (f : KeepAlive → KeepAlive) : (s.modKa f).link = s.link := rfl
@[simp] theorem State.modKa_reservation (f : KeepAlive → KeepAlive) : (s.modKa f).reservation = s.reservation := rfl
@[simp] theorem State.modKa_chan (f : KeepAlive → KeepAlive) : (s.modKa f).chan = s.chan := rfl
@[simp] theorem State.modKa_tdu (f : KeepAlive → KeepAlive) : (s.modKa f).tdu = s.tdu := rfl
@[simp] theorem State.modKa_wcu (f : KeepAlive → KeepAlive) : (s.modKa f).wcu = s.wcu := rfl
@[simp] theorem State.modKa_snc (f : KeepAlive → KeepAlive) : (s.modKa f).snc = s.snc := rfl
@[simp] theorem State.modKa_dsu (f : KeepAlive → KeepAlive) : (s.modKa f).dsu = s.dsu := rfl
@[simp] theorem State.modKa_pmg (f : KeepAlive → KeepAlive) : (s.modKa f).pmg = s.pmg := rfl
@[simp] theorem State.modKa_dlc (f : KeepAlive → KeepAlive) : (s.modKa f).dlc = s.dlc := rfl
@[simp] theorem State.modKa_domain (f : KeepAlive → KeepAlive) : (s.modKa f).domain = s.domain := rfl
@[simp] theorem State.modKa_pins (f : KeepAlive → KeepAlive) : (s.modKa f).pins = s.pins := rfl
@[simp] theorem State.modKa_bleedOut (f : KeepAlive → KeepAlive) : (s.modKa f).bleedOut = s.bleedOut := rfl
@[simp] theorem State.modKa_pending (f : KeepAlive → KeepAlive) : (s.modKa f).pending = s.pending := rfl
@[simp] theorem State.modKa_draws (f : KeepAlive → KeepAlive) : (s.modKa f).draws = s.draws := rfl

@[simp] theorem State.modLink_ka (f : Link → Link) : (s.modLink f).ka = s.ka := rfl
@[simp] theorem State.modLink_link (f : Link → Link) : (s.modLink f).link = f s.link := rfl
@[simp] theorem State.modLink_reservation (f : Link → Link) : (s.modLink f).reservation = s.reservation := rfl
@[simp] theorem State.modLink_chan (f : Link → Link) : (s.modLink f).chan = s.chan := rfl
@[simp] theorem State.modLink_tdu (f : Link → Link) : (s.modLink f).tdu = s.tdu := rfl
@[simp] theorem State.modLink_wcu (f : Link → Link) : (s.modLink f).wcu = s.wcu := rfl
@[simp] theorem State.modLink_snc (f : Link → Link) : (s.modLink f).snc = s.snc := rfl
@[simp] theorem State.modLink_dsu (f : Link → Link) : (s.modLink f).dsu = s.dsu := rfl
@[simp] theorem State.modLink_pmg (f : Link → Link) : (s.modLink f).pmg = s.pmg := rfl
@[simp] theorem State.modLink_dlc (f : Link → Link) : (s.modLink f).dlc = s.dlc := rfl
@[simp] theorem State.modLink_domain (f : Link → Link) : (s.modLink f).domain = s.domain := rfl
@[simp] theorem State.modLink_pins (f : Link → Link) : (s.modLink f).pins = s.pins := rfl
@[simp] theorem State.modLink_bleedOut (f : Link → Link) : (s.modLink f).bleedOut = s.bleedOut := rfl
@[simp] theorem State.modLink_pending (f : Link → Link) : (s.modLink f).pending = s.pending := rfl
@[simp] theorem State.modLink_draws (f : Link → Link) : (s.modLink f).draws = s.draws := rfl

@[simp] theorem State.setReservation_ka (r : Option Reservation) : (s.setReservation r).ka = s.ka := rfl
@[simp] theorem State.setReservation_link (r : Option Reservation) : (s.setReservation r).link = s.link := rfl
@[simp] theorem State.setReservation_reservation (r : Option Reservation) : (s.setReservation r).reservation = r := rfl
@[simp] theorem State.setReservation_chan (r : Option Reservation) : (s.setReservation r).chan = s.chan := rfl
@[simp] theorem State.setReservation_tdu (r : Option Reservation) : (s.setReservation r).tdu = s.tdu := rfl
@[simp] theorem State.setReservation_wcu (r : Option Reservation) : (s.setReservation r).wcu = s.wcu := rfl
@[simp] theorem State.setReservation_snc (r : Option Reservation) : (s.setReservation r).snc = s.snc := rfl
@[simp] theorem State.setReservation_dsu (r : Option Reservation) : (s.setReservation r).dsu = s.dsu := rfl
@[simp] theorem State.setReservation_pmg (r : Option Reservation) : (s.setReservation r).pmg = s.pmg := rfl
@[simp] theorem State.setReservation_dlc (r : Option Reservation) : (s.setReservation r).dlc = s.dlc := rfl
@[simp] theorem State.setReservation_domain (r : Option Reservation) : (s.setReservation r).domain = s.domain := rfl
@[simp] theorem State.setReservation_pins (r : Option Reservation) : (s.setReservation r).pins = s.pins := rfl
@[simp] theorem State.setReservation_bleedOut (r : Option Reservation) : (s.setReservation r).bleedOut = s.bleedOut := rfl
@[simp] theorem State.setReservation_pending (r : Option Reservation) : (s.setReservation r).pending = s.pending := rfl
@[simp] theorem State.setReservation_draws (r : Option Reservation) : (s.setReservation r).draws = s.draws := rfl

@[simp] theorem State.modChan_ka (f : Channels → Channels) : (s.modChan f).ka = s.ka := rfl
@[simp] theorem State.modChan_link (f : Channels → Channels) : (s.modChan f).link = s.link := rfl
@[simp] theorem State.modChan_reservation (f : Channels → Channels) : (s.modChan f).reservation = s.reservation := rfl
@[simp] theorem State.modChan_chan (f : Channels → Channels) : (s.modChan f).chan = f s.chan := rfl
@[simp] theorem State.modChan_tdu (f : Channels → Channels) : (s.modChan f).tdu = s.tdu := rfl
@[simp] theorem State.modChan_wcu (f : Channels → Channels) : (s.modChan f).wcu = s.wcu := rfl
@[simp] theorem State.modChan_snc (f : Channels → Channels) : (s.modChan f).snc = s.snc := rfl
@[simp] theorem State.modChan_dsu (f : Channels → Channels) : (s.modChan f).dsu = s.dsu := rfl
@[simp] theorem State.modChan_pmg (f : Channels → Channels) : (s.modChan f).pmg = s.pmg := rfl
@[simp] theorem State.modChan_dlc (f : Channels → Channels) : (s.modChan f).dlc = s.dlc := rfl
@[simp] theorem State.modChan_domain (f : Channels → Channels) : (s.modChan f).domain = s.domain := rfl
@[simp] theorem State.modChan_pins (f : Channels → Channels) : (s.modChan f).pins = s.pins := rfl
@[simp] theorem State.modChan_bleedOut (f : Channels → Channels) : (s.modChan f).bleedOut = s.bleedOut := rfl
@[simp] theorem State.modChan_pending (f : Channels → Channels) : (s.modChan f).pending = s.pending := rfl
@[simp] theorem State.modChan_draws (f : Channels → Channels) : (s.modChan f).draws = s.draws := rfl

@[simp] theorem State.modTdu_ka (f : Tdu → Tdu) : (s.modTdu f).ka = s.ka := rfl
@[simp] theorem State.modTdu_link (f : Tdu → Tdu) : (s.modTdu f).link = s.link := rfl
@[simp] theorem State.modTdu_reservation (f : Tdu → Tdu) : (s.modTdu f).reservation = s.reservation := rfl
@[simp] theorem State.modTdu_chan (f : Tdu → Tdu) : (s.modTdu f).chan = s.chan := rfl
@[simp] theorem State.modTdu_tdu (f : Tdu → Tdu) : (s.modTdu f).tdu = f s.tdu := rfl
@[simp] theorem State.modTdu_wcu (f : Tdu → Tdu) : (s.modTdu f).wcu = s.wcu := rfl
@[simp] theorem State.modTdu_snc (f : Tdu → Tdu) : (s.modTdu f).snc = s.snc := rfl
@[simp] theorem State.modTdu_dsu (f : Tdu → Tdu) : (s.modTdu f).dsu = s.dsu := rfl
@[simp] theorem State.modTdu_pmg (f : Tdu → Tdu) : (s.modTdu f).pmg = s.pmg := rfl
@[simp] theorem State.modTdu_dlc (f : Tdu → Tdu) : (s.modTdu f).dlc = s.dlc := rfl
@[simp] theorem State.modTdu_domain (f : Tdu → Tdu) : (s.modTdu f).domain = s.domain := rfl
@[simp] theorem State.modTdu_pins (f : Tdu → Tdu) : (s.modTdu f).pins = s.pins := rfl
@[simp] theorem State.modTdu_bleedOut (f : Tdu → Tdu) : (s.modTdu f).bleedOut = s.bleedOut := rfl
@[simp] theorem State.modTdu_pending (f : Tdu → Tdu) : (s.modTdu f).pending = s.pending := rfl
@[simp] theorem State.modTdu_draws (f : Tdu → Tdu) : (s.modTdu f).draws = s.draws := rfl

@[simp] theorem State.modWcu_ka (f : Wcu → Wcu) : (s.modWcu f).ka = s.ka := rfl
@[simp] theorem State.modWcu_link (f : Wcu → Wcu) : (s.modWcu f).link = s.link := rfl
@[simp] theorem State.modWcu_reservation (f : Wcu → Wcu) : (s.modWcu f).reservation = s.reservation := rfl
@[simp] theorem State.modWcu_chan (f : Wcu → Wcu) : (s.modWcu f).chan = s.chan := rfl
@[simp] theorem State.modWcu_tdu (f : Wcu → Wcu) : (s.modWcu f).tdu = s.tdu := rfl
@[simp] theorem State.modWcu_wcu (f : Wcu → Wcu) : (s.modWcu f).wcu = f s.wcu := rfl
@[simp] theorem State.modWcu_snc (f : Wcu → Wcu) : (s.modWcu f).snc = s.snc := rfl
@[simp] theorem State.modWcu_dsu (f : Wcu → Wcu) : (s.modWcu f).dsu = s.dsu := rfl
@[simp] theorem State.modWcu_pmg (f : Wcu → Wcu) : (s.modWcu f).pmg = s.pmg := rfl
@[simp] theorem State.modWcu_dlc (f : Wcu → Wcu) : (s.modWcu f).dlc = s.dlc := rfl
@[simp] theorem State.modWcu_domain (f : Wcu → Wcu) : (s.modWcu f).domain = s.domain := rfl
@[simp] theorem State.modWcu_pins (f : Wcu → Wcu) : (s.modWcu f).pins = s.pins := rfl
@[simp] theorem State.modWcu_bleedOut (f : Wcu → Wcu) : (s.modWcu f).bleedOut = s.bleedOut := rfl
@[simp] theorem State.modWcu_pending (f : Wcu → Wcu) : (s.modWcu f).pending = s.pending := rfl
@[simp] theorem State.modWcu_draws (f : Wcu → Wcu) : (s.modWcu f).draws = s.draws := rfl

@[simp] theorem State.modSnc_ka (f : Snc → Snc) : (s.modSnc f).ka = s.ka := rfl
@[simp] theorem State.modSnc_link (f : Snc → Snc) : (s.modSnc f).link = s.link := rfl
@[simp] theorem State.modSnc_reservation (f : Snc → Snc) : (s.modSnc f).reservation = s.reservation := rfl
@[simp] theorem State.modSnc_chan (f : Snc → Snc) : (s.modSnc f).chan = s.chan := rfl
@[simp] theorem State.modSnc_tdu (f : Snc → Snc) : (s.modSnc f).tdu = s.tdu := rfl
@[simp] theorem State.modSnc_wcu (f : Snc → Snc) : (s.modSnc f).wcu = s.wcu := rfl
@[simp] theorem State.modSnc_snc (f : Snc → Snc) : (s.modSnc f).snc = f s.snc := rfl
@[simp] theorem State.modSnc_dsu (f : Snc → Snc) : (s.modSnc f).dsu = s.dsu := rfl
@[simp] theorem State.modSnc_pmg (f : Snc → Snc) : (s.modSnc f).pmg = s.pmg := rfl
@[simp] theorem State.modSnc_dlc (f : Snc → Snc) : (s.modSnc f).dlc = s.dlc := rfl
@[simp] theorem State.modSnc_domain (f : Snc → Snc) : (s.modSnc f).domain = s.domain := rfl
@[simp] theorem State.modSnc_pins (f : Snc → Snc) : (s.modSnc f).pins = s.pins := rfl
@[simp] theorem State.modSnc_bleedOut (f : Snc → Snc) : (s.modSnc f).bleedOut = s.bleedOut := rfl
@[simp] theorem State.modSnc_pending (f : Snc → Snc) : (s.modSnc f).pending = s.pending := rfl
@[simp] theorem State.modSnc_draws (f : Snc → Snc) : (s.modSnc f).draws = s.draws := rfl

@[simp] theorem State.modDsu_ka (f : Dsu → Dsu) : (s.modDsu f).ka = s.ka := rfl
@[simp] theorem State.modDsu_link (f : Dsu → Dsu) : (s.modDsu f).link = s.link := rfl
@[simp] theorem State.modDsu_reservation (f : Dsu → Dsu) : (s.modDsu f).reservation = s.reservation := rfl
@[simp] theorem State.modDsu_chan (f : Dsu → Dsu) : (s.modDsu f).chan = s.chan := rfl
@[simp] theorem State.modDsu_tdu (f : Dsu → Dsu) : (s.modDsu f).tdu = s.tdu := rfl
@[simp] theorem State.modDsu_wcu (f : Dsu → Dsu) : (s.modDsu f).wcu = s.wcu := rfl
@[simp] theorem State.modDsu_snc (f : Dsu → Dsu) : (s.modDsu f).snc = s.snc := rfl
@[simp] theorem State.modDsu_dsu (f : Dsu → Dsu) : (s.modDsu f).dsu = f s.dsu := rfl
@[simp] theorem State.modDsu_pmg (f : Dsu → Dsu) : (s.modDsu f).pmg = s.pmg := rfl
@[simp] theorem State.modDsu_dlc (f : Dsu → Dsu) : (s.modDsu f).dlc = s.dlc := rfl
@[simp] theorem State.modDsu_domain (f : Dsu → Dsu) : (s.modDsu f).domain = s.domain := rfl
@[simp] theorem State.modDsu_pins (f : Dsu → Dsu) : (s.modDsu f).pins = s.pins := rfl
@[simp] theorem State.modDsu_bleedOut (f : Dsu → Dsu) : (s.modDsu f).bleedOut = s.bleedOut := rfl
@[simp] theorem State.modDsu_pending (f : Dsu → Dsu) : (s.modDsu f).pending = s.pending := rfl
@[simp] theorem State.modDsu_draws (f : Dsu → Dsu) : (s.modDsu f).draws = s.draws := rfl

@[simp] theorem State.modPmg_ka (f : Pmg → Pmg) : (s.modPmg f).ka = s.ka := rfl
@[simp] theorem State.modPmg_link (f : Pmg → Pmg) : (s.modPmg f).link = s.link := rfl
@[simp] theorem State.modPmg_reservation (f : Pmg → Pmg) : (s.modPmg f).reservation = s.reservation := rfl
@[simp] theorem State.modPmg_chan (f : Pmg → Pmg) : (s.modPmg f).chan = s.chan := rfl
@[simp] theorem State.modPmg_tdu (f : Pmg → Pmg) : (s.modPmg f).tdu = s.tdu := rfl
@[simp] theorem State.modPmg_wcu (f : Pmg → Pmg) : (s.modPmg f).wcu = s.wcu := rfl
@[simp] theorem State.modPmg_snc (f : Pmg → Pmg) : (s.modPmg f).snc = s.snc := rfl
@[simp] theorem State.modPmg_dsu (f : Pmg → Pmg) : (s.modPmg f).dsu = s.dsu := rfl
@[simp] theorem State.modPmg_pmg (f : Pmg → Pmg) : (s.modPmg f).pmg = f s.pmg := rfl
@[simp] theorem State.modPmg_dlc (f : Pmg → Pmg) : (s.modPmg f).dlc = s.dlc := rfl
@[simp] theorem State.modPmg_domain (f : Pmg → Pmg) : (s.modPmg f).domain = s.domain := rfl
@[simp] theorem State.modPmg_pins (f : Pmg → Pmg) : (s.modPmg f).pins = s.pins := rfl
@[simp] theorem State.modPmg_bleedOut (f : Pmg → Pmg) : (s.modPmg f).bleedOut = s.bleedOut := rfl
@[simp] theorem State.modPmg_pending (f : Pmg → Pmg) : (s.modPmg f).pending = s.pending := rfl
@[simp] theorem State.modPmg_draws (f : Pmg → Pmg) : (s.modPmg f).draws = s.draws := rfl

@[simp] theorem State.modDlc_ka (f : Dlc → Dlc) : (s.modDlc f).ka = s.ka := rfl
@[simp] theorem State.modDlc_link (f : Dlc → Dlc) : (s.modDlc f).link = s.link := rfl
@[simp] theorem State.modDlc_reservation (f : Dlc → Dlc) : (s.modDlc f).reservation = s.reservation := rfl
@[simp] theorem State.modDlc_chan (f : Dlc → Dlc) : (s.modDlc f).chan = s.chan := rfl
@[simp] theorem State.modDlc_tdu (f : Dlc → Dlc) : (s.modDlc f).tdu = s.tdu := rfl
@[simp] theorem State.modDlc_wcu (f : Dlc → Dlc) : (s.modDlc f).wcu = s.wcu := rfl
@[simp] theorem State.modDlc_snc (f : Dlc → Dlc) : (s.modDlc f).snc = s.snc := rfl
@[simp] theorem State.modDlc_dsu (f : Dlc → Dlc) : (s.modDlc f).dsu = s.dsu := rfl
@[simp] theorem State.modDlc_pmg (f : Dlc → Dlc) : (s.modDlc f).pmg = s.pmg := rfl
@[simp] theorem State.modDlc_dlc (f : Dlc → Dlc) : (s.modDlc f).dlc = f s.dlc := rfl
@[simp] theorem State.modDlc_domain (f : Dlc → Dlc) : (s.modDlc f).domain = s.domain := rfl
@[simp] theorem State.modDlc_pins (f : Dlc → Dlc) : (s.modDlc f).pins = s.pins := rfl
@[simp] theorem State.modDlc_bleedOut (f : Dlc → Dlc) : (s.modDlc f).bleedOut = s.bleedOut := rfl
@[simp] theorem State.modDlc_pending (f : Dlc → Dlc) : (s.modDlc f).pending = s.pending := rfl
@[simp] theorem State.modDlc_draws (f : Dlc → Dlc) : (s.modDlc f).draws = s.draws := rfl

@[simp] theorem State.setDomain_ka (d : Domain) : (s.setDomain d).ka = s.ka := rfl
@[simp] theorem State.setDomain_link (d : Domain) : (s.setDomain d).link = s.link := rfl
@[simp] theorem State.setDomain_reservation (d : Domain) : (s.setDomain d).reservation = s.reservation := rfl
@[simp] theorem State.setDomain_chan (d : Domain) : (s.setDomain d).chan = s.chan := rfl
@[simp] theorem State.setDomain_tdu (d : Domain) : (s.setDomain d).tdu = s.tdu := rfl
@[simp] theorem State.setDomain_wcu (d : Domain) : (s.setDomain d).wcu = s.wcu := rfl
@[simp] theorem State.setDomain_snc (d : Domain) : (s.setDomain d).snc = s.snc := rfl
@[simp] theorem State.setDomain_dsu (d : Domain) : (s.setDomain d).dsu = s.dsu := rfl
@[simp] theorem State.setDomain_pmg (d : Domain) : (s.setDomain d).pmg = s.pmg := rfl
@[simp] theorem State.setDomain_dlc (d : Domain) : (s.setDomain d).dlc = s.dlc := rfl
@[simp] theorem State.setDomain_domain (d : Domain) : (s.setDomain d).domain = d := rfl
@[simp] theorem State.setDomain_pins (d : Domain) : (s.setDomain d).pins = s.pins := rfl
@[simp] theorem State.setDomain_bleedOut (d : Domain) : (s.setDomain d).bleedOut = s.bleedOut := rfl
@[simp] theorem State.setDomain_pending (d : Domain) : (s.setDomain d).pending = s.pending := rfl
@[simp] theorem State.setDomain_draws (d : Domain) : (s.setDomain d).draws = s.draws := rfl

@[simp] theorem State.modPins_ka (f : Pins → Pins) : (s.modPins f).ka = s.ka := rfl
@[simp] theorem State.modPins_link (f : Pins → Pins) : (s.modPins f).link = s.link := rfl
@[simp] theorem State.modPins_reservation (f : Pins → Pins) : (s.modPins f).reservation = s.reservation := rfl
@[simp] theorem State.modPins_chan (f : Pins → Pins) : (s.modPins f).chan = s.chan := rfl
@[simp] theorem State.modPins_tdu (f : Pins → Pins) : (s.modPins f).tdu = s.tdu := rfl
@[simp] theorem State.modPins_wcu (f : Pins → Pins) : (s.modPins f).wcu = s.wcu := rfl
@[simp] theorem State.modPins_snc (f : Pins → Pins) : (s.modPins f).snc = s.snc := rfl
@[simp] theorem State.modPins_dsu (f : Pins → Pins) : (s.modPins f).dsu = s.dsu := rfl
@[simp] theorem State.modPins_pmg (f : Pins → Pins) : (s.modPins f).pmg = s.pmg := rfl
@[simp] theorem State.modPins_dlc (f : Pins → Pins) : (s.modPins f).dlc = s.dlc := rfl
@[simp] theorem State.modPins_domain (f : Pins → Pins) : (s.modPins f).domain = s.domain := rfl
@[simp] theorem State.modPins_pins (f : Pins → Pins) : (s.modPins f).pins = f s.pins := rfl
@[simp] theorem State.modPins_bleedOut (f : Pins → Pins) : (s.modPins f).bleedOut = s.bleedOut := rfl
@[simp] theorem State.modPins_pending (f : Pins → Pins) : (s.modPins f).pending = s.pending := rfl
@[simp] theorem State.modPins_draws (f : Pins → Pins) : (s.modPins f).draws = s.draws := rfl

@[simp] theorem State.setBleedOut_ka (b : Six Bool) : (s.setBleedOut b).ka = s.ka := rfl
@[simp] theorem State.setBleedOut_link (b : Six Bool) : (s.setBleedOut b).link = s.link := rfl
@[simp] theorem State.setBleedOut_reservation (b : Six Bool) : (s.setBleedOut b).reservation = s.reservation := rfl
@[simp] theorem State.setBleedOut_chan (b : Six Bool) : (s.setBleedOut b).chan = s.chan := rfl
@[simp] theorem State.setBleedOut_tdu (b : Six Bool) : (s.setBleedOut b).tdu = s.tdu := rfl
@[simp] theorem State.setBleedOut_wcu (b : Six Bool) : (s.setBleedOut b).wcu = s.wcu := rfl
@[simp] theorem State.setBleedOut_snc (b : Six Bool) : (s.setBleedOut b).snc = s.snc := rfl
@[simp] theorem State.setBleedOut_dsu (b : Six Bool) : (s.setBleedOut b).dsu = s.dsu := rfl
@[simp] theorem State.setBleedOut_pmg (b : Six Bool) : (s.setBleedOut b).pmg = s.pmg := rfl
@[simp] theorem State.setBleedOut_dlc (b : Six Bool) : (s.setBleedOut b).dlc = s.dlc := rfl
@[simp] theorem State.setBleedOut_domain (b : Six Bool) : (s.setBleedOut b).domain = s.domain := rfl
@[simp] theorem State.setBleedOut_pins (b : Six Bool) : (s.setBleedOut b).pins = s.pins := rfl
@[simp] theorem State.setBleedOut_bleedOut (b : Six Bool) : (s.setBleedOut b).bleedOut = b := rfl
@[simp] theorem State.setBleedOut_pending (b : Six Bool) : (s.setBleedOut b).pending = s.pending := rfl
@[simp] theorem State.setBleedOut_draws (b : Six Bool) : (s.setBleedOut b).draws = s.draws := rfl

@[simp] theorem State.setPending_ka (p : List Instr) : (s.setPending p).ka = s.ka := rfl
@[simp] theorem State.setPending_link (p : List Instr) : (s.setPending p).link = s.link := rfl
@[simp] theorem State.setPending_reservation (p : List Instr) : (s.setPending p).reservation = s.reservation := rfl
@[simp] theorem State.setPending_chan (p : List Instr) : (s.setPending p).chan = s.chan := rfl
@[simp] theorem State.setPending_tdu (p : List Instr) : (s.setPending p).tdu = s.tdu := rfl
@[simp] theorem State.setPending_wcu (p : List Instr) : (s.setPending p).wcu = s.wcu := rfl
@[simp] theorem State.setPending_snc (p : List Instr) : (s.setPending p).snc = s.snc := rfl
@[simp] theorem State.setPending_dsu (p : List Instr) : (s.setPending p).dsu = s.dsu := rfl
@[simp] theorem State.setPending_pmg (p : List Instr) : (s.setPending p).pmg = s.pmg := rfl
@[simp] theorem State.setPending_dlc (p : List Instr) : (s.setPending p).dlc = s.dlc := rfl
@[simp] theorem State.setPending_domain (p : List Instr) : (s.setPending p).domain = s.domain := rfl
@[simp] theorem State.setPending_pins (p : List Instr) : (s.setPending p).pins = s.pins := rfl
@[simp] theorem State.setPending_bleedOut (p : List Instr) : (s.setPending p).bleedOut = s.bleedOut := rfl
@[simp] theorem State.setPending_pending (p : List Instr) : (s.setPending p).pending = p := rfl
@[simp] theorem State.setPending_draws (p : List Instr) : (s.setPending p).draws = s.draws := rfl

@[simp] theorem State.setDraws_ka (n : Nat) : (s.setDraws n).ka = s.ka := rfl
@[simp] theorem State.setDraws_link (n : Nat) : (s.setDraws n).link = s.link := rfl
@[simp] theorem State.setDraws_reservation (n : Nat) : (s.setDraws n).reservation = s.reservation := rfl
@[simp] theorem State.setDraws_chan (n : Nat) : (s.setDraws n).chan = s.chan := rfl
@[simp] theorem State.setDraws_tdu (n : Nat) : (s.setDraws n).tdu = s.tdu := rfl
@[simp] theorem State.setDraws_wcu (n : Nat) : (s.setDraws n).wcu = s.wcu := rfl
@[simp] theorem State.setDraws_snc (n : Nat) : (s.setDraws n).snc = s.snc := rfl
@[simp] theorem State.setDraws_dsu (n : Nat) : (s.setDraws n).dsu = s.dsu := rfl
@[simp] theorem State.setDraws_pmg (n : Nat) : (s.setDraws n).pmg = s.pmg := rfl
@[simp] theorem State.setDraws_dlc (n : Nat) : (s.setDraws n).dlc = s.dlc := rfl
@[simp] theorem State.setDraws_domain (n : Nat) : (s.setDraws n).domain = s.domain := rfl
@[simp] theorem State.setDraws_pins (n : Nat) : (s.setDraws n).pins = s.pins := rfl
@[simp] theorem State.setDraws_bleedOut (n : Nat) : (s.setDraws n).bleedOut = s.bleedOut := rfl
@[simp] theorem State.setDraws_pending (n : Nat) : (s.setDraws n).pending = s.pending := rfl
@[simp] theorem State.setDraws_draws (n : Nat) : (s.setDraws n).draws = n := rfl

end Sys2Proof.Machine
end

