-- ==== Sys2Proof/Laws/Frames.lean ====
section
/-! SUPPORT. What the shared operations can touch, said once. A relation between the state before and the
state after that holds of each kind of update an operation makes holds of the operation: take `fun s t => p t
= p s` for a part of the state that stays, or `fun s t => I s → I t` for an invariant. -/

namespace Sys2Proof.Machine

/-- An operation that only relates a state to states it reaches. -/
abbrev Moves (R : State → State → Prop) (f : State → State) : Prop := ∀ s, R s (f s)

/-- A relation that an evaluation respects: it is closed under what an evaluation updates. -/
structure EvalClosed (R : State → State → Prop) : Prop where
  refl : ∀ s, R s s
  trans : ∀ s t u, R s t → R t u → R s u
  snc : ∀ f, Moves R (State.modSnc f)
  chan : ∀ f, Moves R (State.modChan f)
  tdu : ∀ f, Moves R (State.modTdu f)
  dsu : ∀ f, Moves R (State.modDsu f)
  draws : ∀ n, Moves R (State.setDraws n)
  notice : ∀ k, Moves R (askNotice k)
  hit : ∀ u, Moves R (recordHit u)

/-- A relation that every operation outside the keep-alive domain respects. -/
structure MainClosed (R : State → State → Prop) : Prop extends EvalClosed R where
  wcu : ∀ f, Moves R (State.modWcu f)
  pmg : ∀ f, Moves R (State.modPmg f)
  dlc : ∀ f, Moves R (State.modDlc f)
  reservation : ∀ r, Moves R (State.setReservation r)
  bleed : ∀ b, Moves R (State.setBleedOut b)
  timerNotice : ∀ k, Moves R (askTimerNotice k)
  detectorNotice : ∀ d b, Moves R (askDetectorNotice d b)

variable {R : State → State → Prop} {told : State → State}

theorem Moves.comp (h : EvalClosed R) {f g : State → State} (hf : Moves R f) (hg : Moves R g) :
    Moves R fun s => g (f s) := fun s => h.trans _ _ _ (hf s) (hg _)

/-! ### Free orders -/

theorem insertAt_perm {α : Type} (n : Nat) (a : α) (l : List α) : (insertAt n a l).Perm (a :: l) := by
  induction n generalizing l with
  | zero => exact .refl _
  | succ n ih =>
    cases l with
    | nil => exact .refl _
    | cons b l => exact ((ih l).cons b).trans (.swap a b l)

/-- A free order holds the same events. -/
theorem arrange_perm {α : Type} (n : Nat) (l : List α) : (arrange n l).1.Perm l := by
  induction l with
  | nil => exact .refl _
  | cons a l ih =>
    cases l with
    | nil => exact .refl _
    | cons b l => exact (insertAt_perm _ _ _).trans (ih.cons a)

theorem foldl_moves (h : EvalClosed R) (events : List (State → State))
    (he : ∀ e ∈ events, Moves R e) (s : State) : R s (events.foldl (fun t e => e t) s) := by
  induction events generalizing s with
  | nil => exact h.refl s
  | cons e l ih =>
    exact h.trans _ _ _ (he e (by simp) s) (ih (fun e' m => he e' (by simp [m])) _)

theorem inAnyOrder_moves (h : EvalClosed R) (events : List (State → State))
    (he : ∀ e ∈ events, Moves R e) : Moves R (inAnyOrder events) := fun s =>
  h.trans _ _ _ (h.draws _ s)
    (foldl_moves h _ (fun e m => he e ((arrange_perm _ _).mem_iff.mp m)) _)

/-- No event, no draw. -/
@[simp] theorem inAnyOrder_nil (s : State) : inAnyOrder [] s = s := rfl

/-- One event needs no order. -/
@[simp] theorem inAnyOrder_one (e : State → State) (s : State) : inAnyOrder [e] s = e s := rfl

/-! ### Evaluation -/

theorem reportCondition_moves (h : EvalClosed R) (f : ConditionFlag) (src : ConditionSource) :
    Moves R (reportCondition f src) := by
  intro s
  unfold reportCondition
  split
  · exact h.refl s
  · dsimp only
    split
    · exact h.trans _ _ _ (h.snc _ s) (h.notice _ _)
    · exact h.snc _ s

theorem reportIf_moves (h : EvalClosed R) (b : Bool) (f : ConditionFlag) (src : ConditionSource) :
    Moves R (reportIf b f src) := by
  intro s
  unfold reportIf
  split
  · exact reportCondition_moves h f src s
  · exact h.refl s

theorem commitSuction_moves (h : EvalClosed R) (ht : Moves R told) (f : Snc → Snc) :
    Moves R (commitSuction told f) := by
  intro s
  have h1 : R s (setRunMark (if (s.modSnc f).snc.adopted = s.snc.adopted then s.modSnc f
      else storeTarget (s.modSnc f))) := by
    refine h.trans _ _ _ ?_ (h.tdu _ _)
    split
    · exact h.snc f s
    · exact h.trans _ _ _ (h.snc f s) (h.chan _ _)
  unfold commitSuction
  dsimp only
  generalize setRunMark (if (s.modSnc f).snc.adopted = s.snc.adopted then s.modSnc f
      else storeTarget (s.modSnc f)) = t at h1 ⊢
  split
  · exact h1
  · exact h.trans _ _ _ (h.trans _ _ _ h1 (h.notice .suction _)) (ht _)

theorem recordGateHits_moves (h : EvalClosed R) (target : Nat) : Moves R (recordGateHits target) := by
  intro s
  unfold recordGateHits
  suffices ∀ (l : List Idx4) (t : State), R t (l.foldl (fun t u =>
      if gateMatches target (s.wcu.entries.get u) && !s.wcu.isClaimed u then recordHit u t else t) t)
    from this _ _
  intro l
  induction l with
  | nil => exact fun t => h.refl t
  | cons u l ih =>
    intro t
    refine h.trans _ _ _ ?_ (ih _)
    dsimp only
    split
    · exact h.hit u t
    · exact h.refl t

theorem takeTarget_moves (h : EvalClosed R) (ht : Moves R told) (n : Nat) :
    Moves R (takeTarget told n) := by
  intro s
  have hc := fun f => commitSuction_moves h ht f
  unfold takeTarget
  dsimp only
  split
  · exact h.refl s
  · split <;> exact hc _ s
  · split
    · exact hc _ s
    · split <;> exact h.trans _ _ _ (recordGateHits_moves h n s) (hc _ _)

theorem evaluate_moves (h : EvalClosed R) (ht : Moves R told) : Moves R (evaluate told) := by
  intro s
  unfold evaluate
  split
  · exact h.refl s
  · refine h.trans _ _ _ ?_ (takeTarget_moves h ht _ _)
    unfold reportComputed
    exact h.trans _ _ _ (h.trans _ _ _ (h.trans _ _ _ (reportIf_moves h _ _ _ _)
      (reportIf_moves h _ _ _ _)) (reportIf_moves h _ _ _ _)) (reportIf_moves h _ _ _ _)

theorem enterHalt_moves (h : EvalClosed R) (ht : Moves R told) (c : HaltCause) :
    Moves R (enterHalt told c) := commitSuction_moves h ht _

theorem controlPeriod_moves (h : EvalClosed R) (ht : Moves R told) : Moves R (controlPeriod told) := by
  intro s
  unfold controlPeriod
  dsimp only
  have h1 := h.trans _ _ _ (evaluate_moves h ht s)
    (h.trans _ _ _ (h.snc (Snc.slewStep (evaluate told s).ka.suction) _)
      (commitSuction_moves h ht (Snc.testSpinUp (evaluate told s).chan.speed) _))
  split
  · exact h.trans _ _ _ h1 (h.trans _ _ _ (h.snc _ _) (enterHalt_moves h ht _ _))
  · exact h.trans _ _ _ h1 (h.snc _ _)

/-! ### The override stack -/

theorem stackChange_moves (h : EvalClosed R) (ht : Moves R told) (c : Snc) :
    Moves R (stackChange told c) := fun s =>
  h.trans _ _ _ (h.trans _ _ _ (h.snc _ s) (h.notice _ _)) (evaluate_moves h ht _)

theorem changeStack_moves (h : EvalClosed R) (ht : Moves R told) (c : Option Snc) :
    Moves R (changeStack told c) := by
  cases c with
  | none => exact h.refl
  | some c => exact stackChange_moves h ht c

theorem raiseSoft_moves (h : EvalClosed R) (ht : Moves R told) (src : Source) (cap : Nat) :
    Moves R (raiseSoft told src cap) := by
  intro s
  unfold raiseSoft
  split
  · exact changeStack_moves h ht _ s
  · exact h.refl s

theorem clearSoft_moves (h : EvalClosed R) (ht : Moves R told) (src : Source) :
    Moves R (clearSoft told src) := fun s => changeStack_moves h ht _ s

theorem raiseHard_moves (h : EvalClosed R) (ht : Moves R told) (src : Source) :
    Moves R (raiseHard told src) := by
  intro s
  unfold raiseHard
  dsimp only
  split
  · exact h.refl s
  · split
    · exact h.trans _ _ _ (h.snc _ s) (enterHalt_moves h ht _ _)
    · exact h.trans _ _ _ (h.snc _ s) (changeStack_moves h ht _ _)

theorem clearHard_moves (h : EvalClosed R) (ht : Moves R told) (src : Source) :
    Moves R (clearHard told src) := by
  intro s
  unfold clearHard
  split
  · exact h.trans _ _ _ (h.snc _ s) (changeStack_moves h ht _ _)
  · exact h.refl s

theorem deliverOverride_moves (h : EvalClosed R) (ht : Moves R told) (t : Telling) :
    Moves R (deliverOverride told t) := by
  cases t with
  | raised u cap => exact raiseSoft_moves h ht _ _
  | stands u cap => exact raiseSoft_moves h ht _ _
  | cleared u => exact clearSoft_moves h ht _
  | claimedHit u => exact h.refl

/-! ### The watch unit's comparison -/

theorem setComparison_moves (h : MainClosed R) (u : Idx4) (c : Comparison) :
    Moves R (setComparison u c) := h.wcu _

theorem compareUnit_moves (h : MainClosed R) (ch : ChannelId) (l : List Reading) (u : Idx4) (s : State) :
    R s (compareUnit ch l u s).1 := by
  have h0 := h.toEvalClosed
  unfold compareUnit
  dsimp only
  split
  · split
    · exact h.refl s
    · split
      · unfold trapHit
        dsimp only
        split
        · exact h.trans _ _ _ (h.hit u s) (setComparison_moves h _ _ _)
        · exact h.hit u s
      · unfold trapMiss
        dsimp only
        split
        · split <;> exact setComparison_moves h _ _ s
        · exact h.refl s
  · exact h.refl s

theorem compareUnits_moves (h : MainClosed R) (ch : ChannelId) (l : List Reading) (us : List Idx4) :
    ∀ s, R s (compareUnits ch l us s).1 := by
  induction us with
  | nil => exact h.refl
  | cons u us ih => exact fun s => h.trans _ _ _ (compareUnit_moves h ch l u s) (ih _)

/-- The tellings of the watch unit, some of them, as events. -/
theorem tellings_move {deliver : Telling → State → State} (hd : ∀ t, Moves R (deliver t)) (ts : List Telling) :
    ∀ e ∈ ts.map deliver, Moves R e := by
  intro e m
  obtain ⟨t, -, rfl⟩ := List.mem_map.mp m
  exact hd t

theorem watchEvent_moves (h : MainClosed R) {deliver : Telling → State → State}
    (hd : ∀ t, Moves R (deliver t)) (ch : ChannelId) (l : List Reading) (s : State) :
    R s (watchEvent deliver ch l s).1 :=
  h.trans _ _ _ (compareUnits_moves h ch l _ s) (inAnyOrder_moves h.toEvalClosed _ (tellings_move hd _) _)

theorem takeNotingRest_foldl (events : List (State → State)) (s : State) (b : Bool) :
    (events.foldl (fun t event => (event t.1, t.2 || entersRest t.1 (event t.1))) (s, b)).1 =
      events.foldl (fun t event => event t) s := by
  induction events generalizing s b with
  | nil => rfl
  | cons e l ih => exact ih _ _

/-- Noting an entry to OFF or HALT changes nothing of what the events do. -/
theorem takeNotingRest_fst (events : List (State → State)) (s : State) :
    (takeNotingRest events s).1 = events.foldl (fun t event => event t) s := takeNotingRest_foldl events s false

/-- A comparison at its own place is the watch unit's event. -/
theorem compareNow_fst (deliver : Telling → State → State) (ch : ChannelId) (l : List Reading) (s : State) :
    (compareNow deliver ch l s).1 = if s.wcu.traps ch then (watchEvent deliver ch l s).1 else s := by
  unfold compareNow
  split
  · exact takeNotingRest_fst _ _
  · rfl

theorem takeNotingRest_noted_foldl (events : List (State → State)) (s : State) (b : Bool) :
    (events.foldl (fun t event => (event t.1, t.2 || entersRest t.1 (event t.1))) (s, b)).2 = true ↔
      b = true ∨ ∃ before event after, events = before ++ event :: after ∧
        entersRest (before.foldl (fun t e => e t) s) (event (before.foldl (fun t e => e t) s)) = true := by
  induction events generalizing s b with
  | nil => simp
  | cons e l ih =>
    rw [List.foldl_cons, ih, Bool.or_eq_true]
    constructor
    · rintro ((h | h) | ⟨x, y, z, rfl, h⟩)
      · exact .inl h
      · exact .inr ⟨[], e, l, rfl, h⟩
      · exact .inr ⟨e :: x, y, z, rfl, h⟩
    · rintro (h | ⟨_ | ⟨a, x⟩, y, z, k, h⟩)
      · exact .inl (.inl h)
      · obtain ⟨rfl, rfl⟩ := List.cons.inj k
        exact .inl (.inr h)
      · obtain ⟨rfl, rfl⟩ := List.cons.inj k
        exact .inr ⟨x, y, z, rfl, h⟩

/-- What is noted is that one of the events, taken after those before it, entered OFF or HALT. -/
theorem takeNotingRest_noted (events : List (State → State)) (s : State) :
    (takeNotingRest events s).2 = true ↔ ∃ before event after, events = before ++ event :: after ∧
      entersRest (before.foldl (fun t e => e t) s) (event (before.foldl (fun t e => e t) s)) = true :=
  (takeNotingRest_noted_foldl events s false).trans (by simp)

theorem takeNotingRest_rests_foldl (events : List (State → State)) (s : State) (b : Bool)
    (hs : s.snc.rests = true → b = true) :
    let t := events.foldl (fun t event => (event t.1, t.2 || entersRest t.1 (event t.1))) (s, b)
    t.1.snc.rests = true → t.2 = true := by
  induction events generalizing s b with
  | nil => exact hs
  | cons e l ih =>
    refine ih _ _ fun h => ?_
    by_cases k : (e s).snc.suction.reported = s.snc.suction.reported
    · have r : s.snc.rests = true := by
        rw [← h]
        unfold Snc.rests
        rw [k]
      simp [hs r]
    · simp [entersRest, k, h]

/-- Events that begin outside OFF and HALT and end in one of them are noted. -/
theorem takeNotingRest_rests (events : List (State → State)) (s : State) (hs : s.snc.rests = false)
    (h : (takeNotingRest events s).1.snc.rests = true) : (takeNotingRest events s).2 = true :=
  takeNotingRest_rests_foldl events s false (by simp [hs]) h

theorem compareNow_moves (h : MainClosed R) {deliver : Telling → State → State}
    (hd : ∀ t, Moves R (deliver t)) (ch : ChannelId) (l : List Reading) :
    Moves R fun s => (compareNow deliver ch l s).1 := by
  intro s
  simp only [compareNow_fst]
  split
  · exact watchEvent_moves h hd ch l s
  · exact h.refl s

theorem compareAmong_moves (h : MainClosed R) {deliver : Telling → State → State}
    (hd : ∀ t, Moves R (deliver t)) (ch : ChannelId) (l : List Reading) (others : List (State → State))
    (ho : ∀ e ∈ others, Moves R e) : Moves R (compareAmong deliver ch l others) := by
  intro s
  have h0 := h.toEvalClosed
  unfold compareAmong
  dsimp only
  split
  · refine h.trans _ _ _ (h.draws (s.draws + 1) s) ?_
    split
    · refine h.trans _ _ _ (watchEvent_moves h hd ch l _) (inAnyOrder_moves h0 _ ?_ _)
      intro e m
      rcases List.mem_append.mp m with m | m
      · exact ho e m
      · exact tellings_move hd _ e m
    · exact h.trans _ _ _ (inAnyOrder_moves h0 _ ho _)
        (h.trans _ _ _ (watchEvent_moves h hd ch l _) (inAnyOrder_moves h0 _ (tellings_move hd _) _))
  · exact inAnyOrder_moves h0 _ ho s

/-! ### Timers, reservation, dirt -/

theorem setTimerRunning_moves (h : EvalClosed R) (k : Idx4) (b : Bool) :
    Moves R (setTimerRunning k b) := h.tdu _
theorem stopTimer_moves (h : EvalClosed R) (k : Idx4) : Moves R (stopTimer k) :=
  setTimerRunning_moves h k false
theorem startTimer_moves (h : EvalClosed R) (k : Idx4) : Moves R (startTimer k) :=
  setTimerRunning_moves h k true

theorem setBoostLevel_moves (h : EvalClosed R) (ht : Moves R told) (n : Nat) :
    Moves R (setBoostLevel told n) := by
  intro s
  unfold setBoostLevel
  split
  · exact h.refl s
  · rename_i hn
    refine h.trans _ _ _ ?_ (evaluate_moves h ht _)
    unfold takeBoostLevel
    rw [if_neg hn]
    exact h.trans _ _ _ (h.dsu _ s) (h.notice _ _)

theorem dirtStop_moves (h : EvalClosed R) (ht : Moves R told) : Moves R (dirtStop told) := fun s =>
  h.trans _ _ _ (h.trans _ _ _ (h.dsu _ s) (stopTimer_moves h _ _)) (setBoostLevel_moves h ht _ _)

theorem dirtTold_moves (h : EvalClosed R) : Moves R dirtTold := by
  intro s
  unfold dirtTold
  split
  · exact dirtStop_moves h h.refl s
  · exact dirtStop_moves h h.refl s
  all_goals exact h.refl s

/-! ### The pack manager and the dock line -/

theorem setBleedSet_moves (h : MainClosed R) (b : Six Bool) : Moves R (setBleedSet b) := fun s =>
  h.trans _ _ _ (h.pmg _ s) (h.bleed _ _)

theorem takePackState_moves (h : MainClosed R) (p : PackState) : Moves R (takePackState p) := by
  intro s
  unfold takePackState
  dsimp only
  split
  · exact h.pmg _ s
  · exact h.trans _ _ _ (h.pmg _ s) (setBleedSet_moves h _ _)

theorem tellBudget_moves (h : EvalClosed R) (ht : Moves R told) (w : Nat) :
    Moves R (tellBudget told w) := fun s =>
  h.trans _ _ _ (h.snc _ s) (evaluate_moves h ht _)

theorem storeBudget_moves (h : MainClosed R) : Moves R storeBudget := fun s => by
  unfold storeBudget
  exact h.trans _ _ _ (reportIf_moves h.toEvalClosed _ _ _ s) (h.trans _ _ _ (h.chan _ _) (h.pmg _ _))

theorem computeBudget_moves (h : MainClosed R) (ht : Moves R told) (b : Bool) :
    Moves R (computeBudget told b) := by
  intro s
  have h0 := h.toEvalClosed
  refine h.trans _ _ _ (storeBudget_moves h s)
    (compareAmong_moves h (deliverOverride_moves h0 ht) _ _ _ ?_ _)
  intro e m
  split at m
  · rw [List.mem_singleton.mp m]
    exact tellBudget_moves h0 ht _
  · exact absurd m (by simp)

theorem computeBudgetThen_moves (h : MainClosed R) (ht : Moves R told) {further : State → State}
    (hf : Moves R further) : Moves R (computeBudgetThen told further) := by
  intro s
  have h0 := h.toEvalClosed
  refine h.trans _ _ _ (storeBudget_moves h s)
    (compareAmong_moves h (deliverOverride_moves h0 ht) _ _ _ ?_ _)
  intro e m
  rw [List.mem_singleton.mp m]
  refine Moves.comp h0 (fun t => ?_) hf
  split
  · exact tellBudget_moves h0 ht _ t
  · exact h.refl t

theorem announcePack_moves (h : MainClosed R) (ht : Moves R told) : Moves R (announcePack told) :=
  fun s => h.trans _ _ _ (h.notice _ s) (computeBudget_moves h ht _ _)

theorem changePack_moves (h : MainClosed R) (ht : Moves R told) (p : PackState) :
    Moves R (changePack told p) := fun s =>
  h.trans _ _ _ (takePackState_moves h p s) (announcePack_moves h ht _)

theorem handOver_moves (h : MainClosed R) : Moves R handOver := fun s =>
  h.trans _ _ _ (h.dlc _ s) (h.dlc _ _)

theorem leaveOrder_moves (h : MainClosed R) : Moves R leaveOrder := fun s =>
  h.trans _ _ _ (h.dlc _ s) (h.dlc _ _)

theorem setSession_moves (h : MainClosed R) (x : Session) : Moves R (setSession x) := by
  intro s
  unfold setSession
  split
  · exact h.refl s
  · exact h.trans _ _ _ (h.dlc _ s) (h.notice _ _)

theorem askAnew_moves (h : MainClosed R) : Moves R askAnew := fun s =>
  h.trans _ _ _ (h.pmg _ s) (handOver_moves h _)

theorem askChanged_moves (h : MainClosed R) (v i : Nat) : Moves R (askChanged v i) := by
  intro s
  unfold askChanged
  split
  · exact h.refl s
  · exact h.trans _ _ _ (h.pmg _ s) (handOver_moves h _)

theorem tellCleared_moves (h : EvalClosed R) (ht : Moves R told) (us : List Idx4) (c : Four Comparison) :
    Moves R (tellCleared told us c) := by
  refine inAnyOrder_moves h _ ?_
  intro e m
  obtain ⟨u, -, rfl⟩ := List.mem_map.mp m
  exact clearSoft_moves h ht _

theorem claimWatches_moves (h : MainClosed R) (ht : Moves R told) : Moves R (claimWatches told) := by
  intro s
  have h0 := h.toEvalClosed
  exact h.trans _ _ _ (h.wcu _ s) (h.trans _ _ _ (tellCleared_moves h0 ht _ _ _)
    (h.trans _ _ _ (h.wcu _ _) (h.reservation _ _)))

theorem releaseWatches_moves (h : MainClosed R) : Moves R releaseWatches := by
  intro s
  unfold releaseWatches
  split
  · exact h.refl s
  · exact h.trans _ _ _ (h.wcu _ s) (h.trans _ _ _ (h.wcu _ _) (h.reservation _ _))

theorem leaveCharging_moves (h : MainClosed R) : Moves R leaveCharging := fun s =>
  h.trans _ _ _ (releaseWatches_moves h s)
    (h.trans _ _ _ (stopTimer_moves h.toEvalClosed _ _) (h.pmg _ _))

theorem chargeFault_moves (h : MainClosed R) (ht : Moves R told) (k : ChargeFault) :
    Moves R (chargeFault told k) := by
  intro s
  unfold chargeFault
  split
  · exact h.trans _ _ _ (takePackState_moves h _ s) (h.trans _ _ _ (leaveOrder_moves h _)
      (h.trans _ _ _ (leaveCharging_moves h _) (announcePack_moves h ht _)))
  · exact h.refl s

theorem entryFault_moves (h : MainClosed R) (ht : Moves R told) (k : ChargeFault) :
    Moves R (entryFault told k) := fun s =>
  h.trans _ _ _ (takePackState_moves h _ s)
    (h.trans _ _ _ (leaveOrder_moves h _) (announcePack_moves h ht _))

theorem stopCharge_moves (h : MainClosed R) (ht : Moves R told) (p : PackState) :
    Moves R (stopCharge told p) := fun s =>
  h.trans _ _ _ (takePackState_moves h _ s)
    (h.trans _ _ _ (leaveCharging_moves h _) (announcePack_moves h ht _))

theorem clearLowMark_moves (h : MainClosed R) (ht : Moves R told) : Moves R (clearLowMark told) := by
  intro s
  unfold clearLowMark
  split
  · exact h.trans _ _ _ (h.pmg _ s) (clearHard_moves h.toEvalClosed ht _ _)
  · exact h.refl s

theorem chargeEntry_moves (h : MainClosed R) (ht : Moves R told) : Moves R (chargeEntry told) := by
  intro s
  have hd := dirtTold_moves h.toEvalClosed
  unfold chargeEntry
  dsimp only
  exact h.trans _ _ _ (h.pmg _ s) (h.trans _ _ _ (clearLowMark_moves h hd _)
    (h.trans _ _ _ (claimWatches_moves h hd _) (h.trans _ _ _ (startTimer_moves h.toEvalClosed _ _)
      (h.trans _ _ _ (takePackState_moves h _ _) (h.trans _ _ _ (h.pmg _ _)
        (h.trans _ _ _ (askAnew_moves h _) (announcePack_moves h ht _)))))))

theorem chargeEntryTest_moves (h : MainClosed R) (ht : Moves R told) :
    Moves R (chargeEntryTest told) := by
  intro s
  unfold chargeEntryTest
  split
  · split
    · exact h.refl s
    · split
      · exact entryFault_moves h ht _ s
      · split
        · exact chargeEntry_moves h ht s
        · exact entryFault_moves h ht _ s
  · exact h.refl s

/-- The telling of a change of the suction state touches what an evaluation and the charge entry touch. -/
theorem tellSuction_moves (h : MainClosed R) : Moves R tellSuction := by
  intro s
  have h0 := h.toEvalClosed
  unfold tellSuction suctionTold
  split
  · exact h.trans _ _ _ (dirtStop_moves h0 h.refl s) (chargeEntryTest_moves h h.refl _)
  · exact dirtStop_moves h0 h.refl s
  all_goals exact h.refl s

end Sys2Proof.Machine
end

