-- ==== Sys2Proof/Laws/Link.lean ====
section
/-! SUPPORT. The link controller around a command: what is handed and started at the end of a step, and the
reply of a request at a ready link. -/

namespace Sys2Proof.Machine

/-! ### What no operation of the main domain touches -/

theorem LineKept.refl (s : State) : LineKept s s := by constructor <;> rfl

theorem LineKept.trans {s t u : State} (a : LineKept s t) (b : LineKept t u) : LineKept s u := by
  constructor <;> simp only [a.tx, a.slot, a.queue, a.receiver, a.closing, a.overrun, a.check, a.gap,
    a.enables, a.reports, a.domain, a.pins, a.pending, b.tx, b.slot, b.queue, b.receiver, b.closing,
    b.overrun, b.check, b.gap, b.enables, b.reports, b.domain, b.pins, b.pending]

theorem LineKept.modKa (f : KeepAlive → KeepAlive) (s : State) : LineKept s (s.modKa f) := by
  constructor <;> rfl

theorem LineKept.askNotice (k : NoticeKind) (s : State) : LineKept s (askNotice k s) := by
  constructor <;> simp only [Machine.askNotice, State.modLink_link, State.modLink_domain,
    State.modLink_pins, State.modLink_pending] <;> split <;> rfl

theorem LineKept.askWatchNotice (u : Idx4) (s : State) : LineKept s (askWatchNotice u s) := by
  constructor <;> simp only [Machine.askWatchNotice, State.modLink_link, State.modLink_domain,
    State.modLink_pins, State.modLink_pending] <;> split <;> rfl

theorem LineKept.askTimerNotice (u : Idx4) (s : State) : LineKept s (askTimerNotice u s) := by
  constructor <;> simp only [Machine.askTimerNotice, State.modLink_link, State.modLink_domain,
    State.modLink_pins, State.modLink_pending] <;> split <;> rfl

theorem LineKept.askDetectorNotice (d : DetectorId) (b : Bool) (s : State) :
    LineKept s (askDetectorNotice d b s) := by
  constructor <;> simp only [Machine.askDetectorNotice, State.modLink_link, State.modLink_domain,
    State.modLink_pins, State.modLink_pending] <;> split <;> rfl

theorem LineKept.recordHit (u : Idx4) (s : State) : LineKept s (recordHit u s) := by
  unfold Machine.recordHit
  dsimp only
  split
  · exact LineKept.trans (t := s.modWcu _) (by constructor <;> rfl) (LineKept.askWatchNotice u _)
  · constructor <;> rfl

/-- Every operation of the main domain leaves the line as it was. -/
theorem lineKept_closed : MainClosed LineKept where
  refl := LineKept.refl
  trans _ _ _ := LineKept.trans
  snc _ _ := by constructor <;> rfl
  chan _ _ := by constructor <;> rfl
  tdu _ _ := by constructor <;> rfl
  dsu _ _ := by constructor <;> rfl
  draws _ _ := by constructor <;> rfl
  notice := LineKept.askNotice
  hit := LineKept.recordHit
  wcu _ _ := by constructor <;> rfl
  pmg _ _ := by constructor <;> rfl
  dlc _ _ := by constructor <;> rfl
  reservation _ _ := by constructor <;> rfl
  bleed _ _ := by constructor <;> rfl
  timerNotice := LineKept.askTimerNotice
  detectorNotice := LineKept.askDetectorNotice

/-! ### The end of a step -/

theorem handNext_of_quiet {s : State} (h : Quiet s) : handNext s = s := by
  unfold handNext
  split
  · rfl
  · rename_i r rest hq
    rcases h.still with h1 | h1 | h1
    · exact absurd (hq.symm.trans h1) (by simp)
    · have : s.link.slot.isNone = false := by
        cases hs : s.link.slot with
        | none => exact absurd hs h1
        | some _ => rfl
      simp [this]
    · simp [h1]

theorem startFrame_of_busy {s : State} (h : s.link.tx ≠ none) : startFrame s = s := by
  unfold startFrame
  rw [if_pos]
  cases hs : s.link.tx with
  | none => exact absurd hs h
  | some _ => rfl

theorem settle_of_quiet {s : State} (h : Quiet s) : settle s = s := by
  unfold settle
  rw [handNext_of_quiet h, startFrame_of_busy h.busy, handNext_of_quiet h]

theorem Quiet.of_kept {s t : State} (h : Quiet s) (k : LineKept s t) : Quiet t where
  awake := k.domain.trans h.awake
  busy := by rw [k.tx]; exact h.busy
  still := by rw [k.queue, k.slot, k.closing]; exact h.still

/-- At a quiet link a command of the main domain has its own effect alone. -/
theorem mainStep_of_quiet {s : State} (h : Quiet s) {f : State → State} (k : LineKept s (f s)) :
    mainStep f s = .next (f s) := by
  simp only [mainStep, whileAwake, h.awake, if_true, settle_of_quiet (h.of_kept k)]

/-- In SLEEP and during a hold a command of the main domain changes nothing (entry 2). -/
theorem mainStep_asleep {s : State} (h : s.domain ≠ .awake) (f : State → State) :
    mainStep f s = .next s := by
  simp only [mainStep, whileAwake, if_neg h]

/-! ### Requests -/

/-- The part of the line that carrying out a request leaves: Sleep and Restart set the closing mark, and a
write of NOTICE the enables. -/
structure SlotKept (s t : State) : Prop where
  tx : t.link.tx = s.link.tx
  slot : t.link.slot = s.link.slot
  queue : t.link.queue = s.link.queue
  receiver : t.link.receiver = s.link.receiver
  domain : t.domain = s.domain
  pins : t.pins = s.pins
  pending : t.pending = s.pending

theorem SlotKept.refl (s : State) : SlotKept s s := by constructor <;> rfl

theorem SlotKept.trans {s t u : State} (a : SlotKept s t) (b : SlotKept t u) : SlotKept s u := by
  constructor <;> simp only [a.tx, a.slot, a.queue, a.receiver, a.domain, a.pins, a.pending, b.tx, b.slot,
    b.queue, b.receiver, b.domain, b.pins, b.pending]

theorem LineKept.toSlotKept {s t : State} (h : LineKept s t) : SlotKept s t :=
  ⟨h.tx, h.slot, h.queue, h.receiver, h.domain, h.pins, h.pending⟩

theorem storeEntry_slot (n : Nat) (v : EntryValue) (s : State) : SlotKept s (storeEntry n v s) := by
  cases v <;> constructor <;> rfl

theorem storeEntries_slot (n : Nat) (ps : List Parsed) (s : State) :
    SlotKept s (storeEntries n ps s) := by
  induction ps generalizing n s with
  | nil => exact SlotKept.refl s
  | cons p ps ih => exact (storeEntry_slot n p.value s).trans (ih _ _)

theorem clearComparisons_line (us : List Idx4) (s : State) : LineKept s (clearComparisons us s) := by
  constructor <;> rfl

theorem evaluate_line (s : State) : LineKept s (evaluate tellSuction s) :=
  evaluate_moves lineKept_closed.toEvalClosed (tellSuction_moves lineKept_closed) s

theorem chargeWritten_line (s : State) : LineKept s (chargeWritten tellSuction s) := by
  unfold chargeWritten
  split
  · exact askChanged_moves lineKept_closed _ _ s
  · exact chargeEntryTest_moves lineKept_closed (tellSuction_moves lineKept_closed) s

theorem sectionWritten_slot (sec : SectionId) (a b : Nat) (before s : State) :
    SlotKept s (sectionWritten tellSuction sec a b before s) := by
  cases sec <;> dsimp only [sectionWritten]
  · split
    · exact (evaluate_line s).toSlotKept
    · exact SlotKept.refl s
  · exact (evaluate_line s).toSlotKept
  · exact SlotKept.refl s
  · constructor <;> rfl
  · exact (chargeWritten_line s).toSlotKept
  · exact SlotKept.refl s
  · exact ((clearComparisons_line _ s).trans (tellCleared_moves lineKept_closed.toEvalClosed
      (tellSuction_moves lineKept_closed) _ _ _)).toSlotKept
  · exact SlotKept.refl s
  · exact SlotKept.refl s
  · constructor <;> rfl

theorem writeSection_slot (a b c d : Byte) (l : List Byte) (s : State) :
    SlotKept s (writeSection tellSuction a b c d l s).state := by
  have h0 : SlotKept s (if d = 0 then s else s.setReservation none) := by
    split <;> constructor <;> rfl
  unfold writeSection
  dsimp only
  split
  · exact h0
  · split
    · exact h0
    · split
      · exact h0
      · refine h0.trans ?_
        generalize (if d = 0 then s else s.setReservation none) = t
        unfold writeRange
        dsimp only
        split
        · exact SlotKept.refl t
        · split
          · constructor <;> rfl
          · split
            · exact SlotKept.refl t
            · split
              · exact SlotKept.refl t
              · unfold applyWrite
                exact (storeEntries_slot _ _ t).trans
                  (SlotKept.trans (t := breakReservation _ _ _ (storeEntries _ _ t))
                    (by constructor <;> rfl) (sectionWritten_slot _ _ _ _ _))

theorem changePack_line (p : PackState) (s : State) : LineKept s (changePack tellSuction p s) :=
  changePack_moves lineKept_closed (tellSuction_moves lineKept_closed) p s

theorem pushMarked_line (s : State) : LineKept s (pushMarked s) := by
  unfold pushMarked
  generalize markedSources s.snc = l
  induction l generalizing s with
  | nil => exact LineKept.refl s
  | cons a l ih =>
    exact (changeStack_moves lineKept_closed.toEvalClosed (tellSuction_moves lineKept_closed) _ s).trans
      (ih _)

/-- Carrying out a request leaves the transmitter, the slot, the queue and the receiver. -/
theorem carryOut_slot (r : Request) (s : State) : SlotKept s (carryOut r s).state := by
  have he := lineKept_closed.toEvalClosed
  have ht := tellSuction_moves lineKept_closed
  unfold carryOut
  split
  case h_1 => exact SlotKept.refl s
  case h_2 =>
    dsimp only [getStatus, answerOk]
    split <;> constructor <;> rfl
  case h_3 =>
    unfold readChannels
    split
    · exact SlotKept.refl s
    · dsimp only
      split <;> exact SlotKept.refl s
  case h_4 =>
    unfold readSection
    split
    · exact SlotKept.refl s
    · split
      · dsimp only [answerOk]
        split <;> constructor <;> rfl
      · exact SlotKept.refl s
  case h_5 => exact writeSection_slot _ _ _ _ _ s
  case h_6 =>
    unfold selectPreset
    split
    · exact SlotKept.refl s
    · split
      · exact SlotKept.refl s
      · dsimp only [answerOk]
        refine (LineKept.trans ?_ (evaluate_line _)).toSlotKept
        split
        · exact LineKept.trans (t := s.modSnc _) (by constructor <;> rfl) (LineKept.askNotice _ _)
        · constructor <;> rfl
  case h_7 =>
    unfold setBoost
    split
    · exact SlotKept.refl s
    · split <;>
        exact (LineKept.trans (t := s.modSnc _) (by constructor <;> rfl) (evaluate_line _)).toSlotKept
  case h_8 =>
    unfold resume
    split
    · exact (commitSuction_moves he ht _ s).toSlotKept
    all_goals exact SlotKept.refl s
  case h_9 =>
    unfold clearHalt
    split
    · exact SlotKept.refl s
    · split
      · exact SlotKept.refl s
      · split
        · exact SlotKept.refl s
        · exact ((pushMarked_line s).trans ((commitSuction_moves he ht _ _).trans
            (evaluate_line _))).toSlotKept
  case h_10 =>
    unfold pushOverride
    dsimp only
    split
    · exact SlotKept.refl s
    · split
      · exact SlotKept.refl s
      · split
        · exact SlotKept.refl s
        · exact (stackChange_moves he ht _ s).toSlotKept
  case h_11 =>
    unfold releaseOverride
    split
    · exact (clearSoft_moves he ht _ s).toSlotKept
    · exact SlotKept.refl s
  case h_12 => exact SlotKept.refl s
  case h_13 =>
    unfold setSoftOverrides
    split
    · exact SlotKept.refl s
    · constructor <;> rfl
  case h_14 => constructor <;> rfl
  case h_15 => constructor <;> rfl
  case h_16 =>
    unfold readDirtHistory
    split <;> exact SlotKept.refl s
  case h_17 =>
    unfold timerControl
    split
    · exact SlotKept.refl s
    · split
      · exact SlotKept.refl s
      · split
        · exact SlotKept.refl s
        · dsimp only [answerOk]
          split <;> constructor <;> rfl
  case h_18 =>
    unfold armRequest
    split
    · exact SlotKept.refl s
    · split
      · exact SlotKept.refl s
      · split
        · exact SlotKept.refl s
        · split <;> constructor <;> rfl
  case h_19 => exact SlotKept.refl s
  case h_20 => constructor <;> rfl
  case h_21 => constructor <;> rfl
  case h_22 =>
    unfold clearChargeFault
    split
    · exact ((changePack_line _ s).trans (chargeEntryTest_moves lineKept_closed ht _)).toSlotKept
    all_goals exact SlotKept.refl s
  case h_23 => constructor <;> rfl
  case h_24 =>
    unfold sleepRequest
    split
    · constructor <;> rfl
    · exact SlotKept.refl s
  case h_25 => constructor <;> rfl
  case h_26 => exact SlotKept.refl s

theorem handle_slot (r : Request) (s : State) : SlotKept s (handle r s).1 := by
  unfold handle
  split
  · dsimp only
    split
    · exact carryOut_slot r s
    · exact SlotKept.refl s
  · exact SlotKept.refl s

/-- No request can be handed: the queue is empty, the slot full, or the closing mark set (R5). -/
def Unhandable (s : State) : Prop := s.link.queue = [] ∨ s.link.slot ≠ none ∨ s.link.closing = true

theorem handNext_of_unhandable {s : State} (h : Unhandable s) : handNext s = s := by
  unfold handNext
  split
  · rfl
  · rename_i r rest hq
    rcases h with h | h | h
    · exact absurd (hq.symm.trans h) (by simp)
    · cases hs : s.link.slot with
      | none => exact absurd hs h
      | some f => simp
    · simp [h]

theorem unhandable_handNext (s : State) : Unhandable (handNext s) := by
  unfold handNext
  split
  · exact Or.inl (by assumption)
  · split
    · exact Or.inr (Or.inl (by simp))
    · rename_i h
      simp only [Bool.and_eq_true, Option.isNone_iff_eq_none, Bool.not_eq_true', not_and_or,
        Bool.not_eq_false] at h
      exact Or.inr h

theorem handNext_tx (s : State) : (handNext s).link.tx = s.link.tx := by
  unfold handNext
  split
  · rfl
  · split
    · simp only [State.modLink_link]
      exact (handle_slot _ _).tx
    · rfl

/-- The transmitter that stays free had nothing to start (R9). -/
theorem startFrame_free {s : State} (h : (startFrame s).link.tx = none) : startFrame s = s := by
  revert h
  unfold startFrame
  split
  · exact fun _ => rfl
  · split
    · simp
    · split
      · exact fun _ => rfl
      · split
        · simp [startNotice, Link.noticeStarted]
        · exact fun _ => rfl

/-- After the link controller's turn nothing is left to hand or to start: a second turn changes nothing
(R5, R9). -/
theorem settle_settle (s : State) : settle (settle s) = settle s := by
  have hs : startFrame (settle s) = settle s := by
    cases htx : (startFrame (handNext s)).link.tx with
    | some f =>
      refine startFrame_of_busy ?_
      show (handNext (startFrame (handNext s))).link.tx ≠ none
      rw [handNext_tx, htx]
      simp
    | none =>
      have h1 := startFrame_free htx
      have h2 : settle s = handNext s := by
        unfold settle
        rw [h1, handNext_of_unhandable (unhandable_handNext s)]
      rw [h2, h1]
  have hh : handNext (settle s) = settle s := handNext_of_unhandable (unhandable_handNext _)
  show handNext (startFrame (handNext (settle s))) = settle s
  rw [hh, hs, hh]

/-- A request that is handed, at a ready link: its owner carries it out at once, and the reply is started or
waits in the slot (R5, R9). -/
theorem requestStep_of_handled {s : State} (h : Ready s) {r : Request} {t : State} {f : Frame}
    (hr : handle r s = (t, f)) (ht : SlotKept s t) :
    requestStep r.kind r.payload s = .next (t.withReply f) := by
  have hh : handNext (acceptRequest r s) = t.modLink fun l => { l with slot := some f } := by
    have hs : (acceptRequest r s).modLink (fun l => { l with queue := [] }) = s := by
      have hq := h.queue
      simp only [acceptRequest, hq, List.length_nil, Nat.ofNat_pos, if_true, List.nil_append,
        State.modLink]
      rw [← hq]
    have hq : (acceptRequest r s).link.queue = [r] := by
      simp [acceptRequest, h.queue]
    have hslot : (acceptRequest r s).link.slot = none := by
      simp [acceptRequest, h.queue, h.slot]
    have hcl : (acceptRequest r s).link.closing = false := by
      simp [acceptRequest, h.queue, h.closing]
    unfold handNext
    rw [hq]
    simp only [hslot, hcl, Option.isNone_none, Bool.not_false, Bool.and_self, if_true, hs, hr]
  have hq : t.link.queue = [] := ht.queue.trans h.queue
  have hslot : t.link.slot = none := ht.slot.trans h.slot
  have hend : ∀ u : State, u.link.queue = [] → handNext u = u := by
    intro u hu
    unfold handNext
    rw [hu]
  simp only [requestStep, mainStep, whileAwake, h.awake, if_true]
  unfold settle
  rw [hh]
  cases htx : t.link.tx with
  | some g =>
    rw [startFrame_of_busy (by show t.link.tx ≠ none; simp [htx]),
      hend (t.modLink fun l => { l with slot := some f }) hq]
    simp [State.withReply, State.modLink, htx]
  | none =>
    have : startFrame (t.modLink fun l => { l with slot := some f }) = t.withReply f := by
      simp only [startFrame, State.withReply, State.modLink, htx, Option.isSome_none,
        Bool.false_eq_true, if_false, if_true]
      rw [← hslot]
    rw [this, hend _ (by simp [State.withReply, State.modLink, htx, hq])]

/-- A request of a known kind and of a listed length, at a ready link (R5). -/
theorem requestStep_of_ready {s : State} (h : Ready s) (kind : Byte) (payload : List Byte)
    (hk : knownKind kind.toNat = true) (hl : lengthAllowed kind.toNat payload.length = true) :
    requestStep kind payload s =
      .next ((carryOut { kind := kind, payload := payload } s).state.withReply
        (replyFrame kind (carryOut { kind := kind, payload := payload } s).status
          (carryOut { kind := kind, payload := payload } s).body)) := by
  refine requestStep_of_handled h (r := { kind := kind, payload := payload }) ?_
    (carryOut_slot { kind := kind, payload := payload } s)
  simp only [handle, hk, hl, if_true]
  rfl

/-- A request that the link controller refuses itself: nothing but the reply (R5). -/
theorem requestStep_refused {s : State} (h : Ready s) (kind : Byte) (payload : List Byte) {f : Frame}
    (hf : handle { kind := kind, payload := payload } s = (s, f)) :
    requestStep kind payload s = .next (s.withReply f) :=
  requestStep_of_handled h (r := { kind := kind, payload := payload }) hf (SlotKept.refl s)

end Sys2Proof.Machine
end

