-- ==== Sys2Proof/Laws/DockLine.lean ====
section
/-! SUPPORT. The dock line's frames: a frame of the dock is read back as what it carries, and what an answer of
each kind, and a frame that carries none, does (R18, R178). -/

namespace Sys2Proof.Machine

/-! ### Frames and their bytes (R18) -/

theorem sum_append (l : List Byte) (a b : Byte) : (l ++ [b]).foldl (· + ·) a = l.foldl (· + ·) a + b := by
  simp

/-- The check byte makes the sum of a frame zero. -/
theorem dockLineBytes_sum (kind : Byte) (payload : List Byte) :
    (dockLineBytes kind payload).foldl (· + ·) 0 = (0 : Byte) := by
  simp only [dockLineBytes, sum_append, checkByte]
  simp [BitVec.sub_eq_add_neg, BitVec.add_comm]

theorem word16_bytes (w : Word16) : word16 (byteOf w.toNat) (byteOf (w.toNat / 256)) = w := by
  apply BitVec.eq_of_toNat_eq
  have := w.isLt
  simp only [word16, nat2, byteOf, BitVec.toNat_ofNat]
  omega

/-- A frame of the dock is read back as what it carries. -/
theorem dockAnswer?_bytes (a : DockAnswer) : dockAnswer? (dockAnswerBytes a) = some a := by
  have h := dockLineBytes_sum (dockAnswerKind a) (dockAnswerPayload a)
  unfold dockAnswer? dockAnswerBytes
  rw [if_pos h]
  cases a with
  | offer k v i =>
    exact congrArg₂ (fun a b => some (DockAnswer.offer k a b)) (word16_bytes v) (word16_bytes i)
  | grant v i => exact congrArg₂ (fun a b => some (DockAnswer.grant a b)) (word16_bytes v) (word16_bytes i)
  | decline r => rfl
  | keepack i => exact congrArg (fun a => some (DockAnswer.keepack a)) (word16_bytes i)

/-! ### What arrives while an exchange waits (R178) -/

/-- An answer of the dock, by the exchange that waits for it. -/
theorem answerReceived_bytes (told : State → State) (a : DockAnswer) (s : State) :
    answerReceived told (dockAnswerBytes a) s =
      match s.dlc.awaited? with
      | none => s
      | some x => takeAnswer told x a s := by
  unfold answerReceived
  cases s.dlc.awaited? with
  | none => rfl
  | some x => simp only [dockAnswer?_bytes]

/-- Bytes that are a miss whatever frame was sent end the exchange as one. -/
theorem answerReceived_misses (told : State → State) {bytes : List Byte} (h : alwaysMisses bytes = true)
    (s : State) : answerReceived told bytes s = exchangeMissed told s := by
  unfold answerReceived
  cases hx : s.dlc.awaited? with
  | none => simp only [exchangeMissed, hx]
  | some x =>
    unfold alwaysMisses at h
    cases ha : dockAnswer? bytes with
    | none => rfl
    | some a =>
      rw [ha] at h
      cases a with
      | offer k v i =>
        have hr : offerInRange v.toNat i.toNat = false := by simpa using h
        cases hf : x.frame <;> simp [takeAnswer, hf, hr]
      | grant v i => simp at h
      | decline r => simp at h
      | keepack i => simp at h

/-- INVALID_DOCK_ANSWER is the arrival of any such bytes. -/
theorem answerStep_of_misses {bytes : List Byte} (h : alwaysMisses bytes = true) (s : State) :
    answerStep bytes s = execInvalidDockAnswer s := by
  have : answerReceived tellSuction bytes = exchangeMissed tellSuction :=
    funext (answerReceived_misses tellSuction h)
  simp only [answerStep, execInvalidDockAnswer, this]

end Sys2Proof.Machine
end

