-- ==== Sys2Proof/WellFormed.lean ====
section
/-! DEFINITION. Which command terms stand for something the outside world can send. A meaning is total all
the same: this is a check on terms, not a guard of the machine. -/

namespace Sys2Proof

/-- The tap differences that six cells in series can show a converter, with room beyond the channel's
range at both ends (R38). -/
def inConverterRange (v : Int) : Bool := decide (-10000 ≤ v) && decide (v ≤ 10000)

/-- The payload of a WriteSection: four header bytes and the entries, at most 63 in all (R1, R23). -/
def fitsWritePayload (entries : List Byte) : Bool := decide (entries.length ≤ 59)

/-- A command term that an agent of R1 to R197 can send. -/
def Instr.wellFormed : Instr → Bool
  | .frameReceived length _ payload _ =>
      decide (length.toNat = payload.length + 1) && decide (length.toNat ≤ 64)
  | .unknownRequest kind payload =>
      (decide (kind.toNat = 0) || decide (25 < kind.toNat)) && decide (payload.length ≤ 63)
  | .writeSection _ _ _ _ entries => fitsWritePayload entries
  | .writePreset _ _ _ entries => fitsWritePayload entries
  | .writeSuction _ _ _ entries => fitsWritePayload entries
  | .writeDirt _ _ _ entries => fitsWritePayload entries
  | .writeGauge _ _ _ entries => fitsWritePayload entries
  | .writeCharge _ _ _ entries => fitsWritePayload entries
  | .writeLimits _ _ _ entries => fitsWritePayload entries
  | .writeWatch _ _ _ entries => fitsWritePayload entries
  | .writeTimer _ _ _ entries => fitsWritePayload entries
  | .writeService _ _ _ entries => fitsWritePayload entries
  | .writeNotice _ _ _ entries => fitsWritePayload entries
  | .cellSample _ mv =>
      inConverterRange mv.c1 && inConverterRange mv.c2 && inConverterRange mv.c3 &&
      inConverterRange mv.c4 && inConverterRange mv.c5 && inConverterRange mv.c6
  | .readChannels ids => decide (ids.length ≤ 63)
  | .declineReceived reason => decide (1 ≤ reason.toNat) && decide (reason.toNat ≤ 3)
  | .byteArrival _ _ | .gapTimeout | .transmitEnd _ _ | .identify | .getStatus _ | .sleep | .restart
  | .wake _ _ | .dockWake _ | .resetAssert | .resetRelease _ _ | .supplyDip | .supplyReturn _ _
  | .keepaliveLoss | .coldStart _ _ | .acknowledgeKeepAlive | .readSection _ _ _ _
  | .channelSample _ | .keepaliveShuntSample _ | .gaugeSecond | .timerExpiry _ | .timerControl _ _
  | .detection _ | .armDetector _ _ _ | .runSecond | .readRunTime | .resetFilterTime
  | .clearServiceDue | .readClearWatchHits | .controlPeriod | .selectPreset _ | .resume | .clearHalt
  | .readClearConditions | .setBoost _ | .setSoftOverrides _ | .pushOverride _ | .releaseOverride
  | .readOverrides | .impact _ | .readDirtHistory _ | .clearChargeFault | .probeDue | .keepDue
  | .retryWaitEnd | .dockFrameSent | .offerReceived _ _ _ | .grantReceived _ _ | .keepackReceived _
  | .dockAnswerTimeout | .invalidDockAnswer => true

end Sys2Proof
end

