-- ==== Sys2Proof/Laws/PerInstr.lean ====
section
/-! SUPPORT. A law of the commands as syntax, one lemma for each command: a well-formed command carries no more
payload than a frame of the message link holds (R1). -/

namespace Sys2Proof.Laws.PayloadFits

/-- How many bytes of variable payload a command carries, the four header bytes of a write and the section
number of WriteSection counted. -/
def carried : Instr → Nat
  | .frameReceived _ _ payload _ => payload.length
  | .unknownRequest _ payload => payload.length
  | .writeSection _ _ _ _ entries => 4 + entries.length
  | .writePreset _ _ _ entries => 4 + entries.length
  | .writeSuction _ _ _ entries => 4 + entries.length
  | .writeDirt _ _ _ entries => 4 + entries.length
  | .writeGauge _ _ _ entries => 4 + entries.length
  | .writeCharge _ _ _ entries => 4 + entries.length
  | .writeLimits _ _ _ entries => 4 + entries.length
  | .writeWatch _ _ _ entries => 4 + entries.length
  | .writeTimer _ _ _ entries => 4 + entries.length
  | .writeService _ _ _ entries => 4 + entries.length
  | .writeNotice _ _ _ entries => 4 + entries.length
  | .readChannels ids => ids.length
  | _ => 0

/-- A length byte counts the kind and the payload and is at most 64, so a payload has at most 63 bytes. -/
def Statement (i : Instr) : Prop := i.wellFormed = true → carried i ≤ 63

theorem write_fits {entries : List Byte} (h : fitsWritePayload entries = true) : 4 + entries.length ≤ 63 := by
  simp only [fitsWritePayload, decide_eq_true_eq] at h
  omega

theorem byteArrival : ∀ byte stopError, Statement (.byteArrival byte stopError) :=
  fun _ _ _ => Nat.zero_le _

theorem frameReceived : ∀ length kind payload check,
    Statement (.frameReceived length kind payload check) := by
  intro length kind payload check h
  simp only [Instr.wellFormed, Bool.and_eq_true, decide_eq_true_eq] at h
  simp only [carried]
  omega

theorem gapTimeout : Statement .gapTimeout := fun _ => Nat.zero_le _

theorem unknownRequest : ∀ kind payload, Statement (.unknownRequest kind payload) := by
  intro kind payload h
  simp only [Instr.wellFormed, Bool.and_eq_true, decide_eq_true_eq] at h
  exact h.2

theorem transmitEnd : ∀ dockSense binLatch, Statement (.transmitEnd dockSense binLatch) :=
  fun _ _ _ => Nat.zero_le _

theorem identify : Statement .identify := fun _ => Nat.zero_le _

theorem getStatus : ∀ option, Statement (.getStatus option) := fun _ _ => Nat.zero_le _

theorem sleep : Statement .sleep := fun _ => Nat.zero_le _

theorem restart : Statement .restart := fun _ => Nat.zero_le _

theorem wake : ∀ dockSense binLatch, Statement (.wake dockSense binLatch) := fun _ _ _ => Nat.zero_le _

theorem dockWake : ∀ binLatch, Statement (.dockWake binLatch) := fun _ _ => Nat.zero_le _

theorem resetAssert : Statement .resetAssert := fun _ => Nat.zero_le _

theorem resetRelease : ∀ dockSense binLatch, Statement (.resetRelease dockSense binLatch) :=
  fun _ _ _ => Nat.zero_le _

theorem supplyDip : Statement .supplyDip := fun _ => Nat.zero_le _

theorem supplyReturn : ∀ dockSense binLatch, Statement (.supplyReturn dockSense binLatch) :=
  fun _ _ _ => Nat.zero_le _

theorem keepaliveLoss : Statement .keepaliveLoss := fun _ => Nat.zero_le _

theorem coldStart : ∀ dockSense binLatch, Statement (.coldStart dockSense binLatch) :=
  fun _ _ _ => Nat.zero_le _

theorem acknowledgeKeepAlive : Statement .acknowledgeKeepAlive := fun _ => Nat.zero_le _

theorem readSection : ∀ sectionNo first count reserve,
    Statement (.readSection sectionNo first count reserve) :=
  fun _ _ _ _ _ => Nat.zero_le _

theorem writeSection : ∀ sectionNo first count conditional entries,
    Statement (.writeSection sectionNo first count conditional entries) :=
  fun _ _ _ _ _ => write_fits

theorem writePreset : ∀ first count conditional entries,
    Statement (.writePreset first count conditional entries) :=
  fun _ _ _ _ => write_fits

theorem writeSuction : ∀ first count conditional entries,
    Statement (.writeSuction first count conditional entries) :=
  fun _ _ _ _ => write_fits

theorem writeDirt : ∀ first count conditional entries,
    Statement (.writeDirt first count conditional entries) :=
  fun _ _ _ _ => write_fits

theorem writeGauge : ∀ first count conditional entries,
    Statement (.writeGauge first count conditional entries) :=
  fun _ _ _ _ => write_fits

theorem writeCharge : ∀ first count conditional entries,
    Statement (.writeCharge first count conditional entries) :=
  fun _ _ _ _ => write_fits

theorem writeLimits : ∀ first count conditional entries,
    Statement (.writeLimits first count conditional entries) :=
  fun _ _ _ _ => write_fits

theorem writeWatch : ∀ first count conditional entries,
    Statement (.writeWatch first count conditional entries) :=
  fun _ _ _ _ => write_fits

theorem writeTimer : ∀ first count conditional entries,
    Statement (.writeTimer first count conditional entries) :=
  fun _ _ _ _ => write_fits

theorem writeService : ∀ first count conditional entries,
    Statement (.writeService first count conditional entries) :=
  fun _ _ _ _ => write_fits

theorem writeNotice : ∀ first count conditional entries,
    Statement (.writeNotice first count conditional entries) :=
  fun _ _ _ _ => write_fits

theorem cellSample : ∀ tapOpen millivolts, Statement (.cellSample tapOpen millivolts) :=
  fun _ _ _ => Nat.zero_le _

theorem channelSample : ∀ conversion, Statement (.channelSample conversion) := fun _ _ => Nat.zero_le _

theorem keepaliveShuntSample : ∀ microamps, Statement (.keepaliveShuntSample microamps) :=
  fun _ _ => Nat.zero_le _

theorem readChannels : ∀ ids, Statement (.readChannels ids) := fun _ => of_decide_eq_true

theorem gaugeSecond : Statement .gaugeSecond := fun _ => Nat.zero_le _

theorem timerExpiry : ∀ timer, Statement (.timerExpiry timer) := fun _ _ => Nat.zero_le _

theorem timerControl : ∀ timer action, Statement (.timerControl timer action) :=
  fun _ _ _ => Nat.zero_le _

theorem detection : ∀ detector, Statement (.detection detector) := fun _ _ => Nat.zero_le _

theorem armDetector : ∀ detector polarity debounce,
    Statement (.armDetector detector polarity debounce) :=
  fun _ _ _ _ => Nat.zero_le _

theorem runSecond : Statement .runSecond := fun _ => Nat.zero_le _

theorem readRunTime : Statement .readRunTime := fun _ => Nat.zero_le _

theorem resetFilterTime : Statement .resetFilterTime := fun _ => Nat.zero_le _

theorem clearServiceDue : Statement .clearServiceDue := fun _ => Nat.zero_le _

theorem readClearWatchHits : Statement .readClearWatchHits := fun _ => Nat.zero_le _

theorem controlPeriod : Statement .controlPeriod := fun _ => Nat.zero_le _

theorem selectPreset : ∀ preset, Statement (.selectPreset preset) := fun _ _ => Nat.zero_le _

theorem resume : Statement .resume := fun _ => Nat.zero_le _

theorem clearHalt : Statement .clearHalt := fun _ => Nat.zero_le _

theorem readClearConditions : Statement .readClearConditions := fun _ => Nat.zero_le _

theorem setBoost : ∀ flag, Statement (.setBoost flag) := fun _ _ => Nat.zero_le _

theorem setSoftOverrides : ∀ flag, Statement (.setSoftOverrides flag) := fun _ _ => Nat.zero_le _

theorem pushOverride : ∀ cap, Statement (.pushOverride cap) := fun _ _ => Nat.zero_le _

theorem releaseOverride : Statement .releaseOverride := fun _ => Nat.zero_le _

theorem readOverrides : Statement .readOverrides := fun _ => Nat.zero_le _

theorem impact : ∀ pulse, Statement (.impact pulse) := fun _ _ => Nat.zero_le _

theorem readDirtHistory : ∀ count, Statement (.readDirtHistory count) := fun _ _ => Nat.zero_le _

theorem clearChargeFault : Statement .clearChargeFault := fun _ => Nat.zero_le _

theorem probeDue : Statement .probeDue := fun _ => Nat.zero_le _

theorem keepDue : Statement .keepDue := fun _ => Nat.zero_le _

theorem retryWaitEnd : Statement .retryWaitEnd := fun _ => Nat.zero_le _

theorem dockFrameSent : Statement .dockFrameSent := fun _ => Nat.zero_le _

theorem offerReceived : ∀ dockKind maxVoltage maxCurrent,
    Statement (.offerReceived dockKind maxVoltage maxCurrent) :=
  fun _ _ _ _ => Nat.zero_le _

theorem grantReceived : ∀ voltage current, Statement (.grantReceived voltage current) :=
  fun _ _ _ => Nat.zero_le _

theorem declineReceived : ∀ reason, Statement (.declineReceived reason) := fun _ _ => Nat.zero_le _

theorem keepackReceived : ∀ current, Statement (.keepackReceived current) := fun _ _ => Nat.zero_le _

theorem dockAnswerTimeout : Statement .dockAnswerTimeout := fun _ => Nat.zero_le _

theorem invalidDockAnswer : Statement .invalidDockAnswer := fun _ => Nat.zero_le _

end Sys2Proof.Laws.PayloadFits
end

