-- ==== Sys2Proof/Laws/Units.lean ====
section
/-! SUPPORT. What the events of the units can touch: the lemmas of Laws/Frames carried on to samples, expiries,
the gauge second, the dock line and the tick. -/

namespace Sys2Proof.Machine

/-- A relation that every event of the units respects: the keep-alive domain may be written too. -/
structure UnitClosed (R : State → State → Prop) : Prop extends MainClosed R where
  ka : ∀ f, Moves R (State.modKa f)

variable {R : State → State → Prop} {told : State → State}

theorem breakReservation_moves (h : MainClosed R) (sec : SectionId) (first count : Nat) :
    Moves R (breakReservation sec first count) := fun s => h.reservation _ s

/-- The release does what R84 and R30 say of it. -/
theorem releaseWatches_released (s : State) : Released s (releaseWatches s) := by
  unfold releaseWatches
  split
  · next h => exact ⟨h, by simp [h], by simp [h], by simp [h], fun k => absurd h k⟩
  · next c h =>
    refine ⟨rfl, fun c' k => ?_, fun _ _ _ => rfl, fun _ _ _ => rfl, fun _ r hr hw => ?_⟩
    · rw [h] at k
      cases k
      rfl
    · obtain ⟨_, first, count, broken⟩ := r
      obtain rfl : _ = SectionId.watch := hw
      simp only [breakReservation, State.setReservation, State.modWcu, clearComparisons, hr, Option.map_some,
        Reservation.touchedBy, decide_true, Bool.true_and, Nat.reduceAdd]
      by_cases p : 2 < first + count <;> by_cases q : first < 4 <;> simp [p, q]

/-! ### The derived channels that the pack manager stores lie in their ranges (R36) -/

theorem stateOfCharge_le (k : KeepAlive) : stateOfCharge k ≤ 100 := Nat.min_le_left ..

theorem budgetOf_le (s : State) : budgetOf s ≤ 600 := by
  unfold budgetOf
  split
  · exact Nat.min_le_left ..
  · exact Nat.zero_le _

/-- SOC is in its range whatever the keep-alive domain holds, a lost record included. -/
theorem storeSoc_inRange (s : State) : (storeSoc s).chan.soc ≤ 100 := stateOfCharge_le s.ka

/-- BUDGET is in its range whatever the keep-alive domain holds, and it is the budget that the pack manager keeps. -/
theorem storeBudget_inRange (s : State) :
    (storeBudget s).chan.budget ≤ 600 ∧ (storeBudget s).pmg.budget = (storeBudget s).chan.budget :=
  ⟨budgetOf_le s, rfl⟩

/-! ### Charge phases -/

theorem changePhase_moves (h : MainClosed R) (ht : Moves R told) (p : Phase) :
    Moves R (changePhase told p) := fun s =>
  h.trans _ _ _ (takePackState_moves h _ s)
    (h.trans _ _ _ (askChanged_moves h _ _ _) (announcePack_moves h ht _))

theorem recharge_moves (h : MainClosed R) (ht : Moves R told) : Moves R (recharge told) := by
  intro s
  unfold recharge
  dsimp only
  exact h.trans _ _ _ (takePackState_moves h _ s)
    (h.trans _ _ _ (h.pmg _ _) (h.trans _ _ _ (askAnew_moves h _) (announcePack_moves h ht _)))

theorem learn_moves (h : UnitClosed R) : Moves R learn := by
  intro s
  unfold learn
  split
  · exact h.refl s
  · exact h.trans _ _ _ (h.ka _ s) (h.trans _ _ _ (h.reservation _ _) (h.pmg _ _))

theorem doneGauge_moves (h : UnitClosed R) : Moves R doneGauge := fun s =>
  h.trans _ _ _ (learn_moves h s) (h.ka _ _)

theorem enterDone_moves (h : UnitClosed R) (ht : Moves R told) : Moves R (enterDone told) := fun s =>
  h.trans _ _ _ (takePackState_moves h.toMainClosed _ s)
    (h.trans _ _ _ (askAnew_moves h.toMainClosed _)
      (h.trans _ _ _ (stopTimer_moves h.toEvalClosed _ _)
        (h.trans _ _ _ (doneGauge_moves h _) (announcePack_moves h.toMainClosed ht _))))

theorem cellPhase_moves (h : MainClosed R) (ht : Moves R told) (p : Phase) :
    Moves R (cellPhase told p) := by
  intro s
  cases p <;> simp only [cellPhase]
  · split
    · exact changePhase_moves h ht _ s
    · exact h.refl s
  · split
    · exact changePhase_moves h ht _ s
    · exact h.refl s
  · exact h.refl s
  · split
    · exact recharge_moves h ht s
    · exact h.refl s

theorem pauseCharge_moves (h : MainClosed R) (ht : Moves R told) (p : Phase) :
    Moves R (pauseCharge told p) := fun s =>
  h.trans _ _ _ (takePackState_moves h _ s)
    (h.trans _ _ _ (askAnew_moves h _) (announcePack_moves h ht _))

theorem resumeCharge_moves (h : MainClosed R) (ht : Moves R told) (p : Phase) :
    Moves R (resumeCharge told p) := fun s =>
  h.trans _ _ _ (takePackState_moves h _ s)
    (h.trans _ _ _ (askAnew_moves h _) (announcePack_moves h ht _))

theorem chargeTemperature_moves (h : MainClosed R) (ht : Moves R told) (t : Int) :
    Moves R (chargeTemperature told t) := by
  intro s
  unfold chargeTemperature
  dsimp only
  split
  · split
    · exact pauseCharge_moves h ht _ s
    · exact askChanged_moves h _ _ s
  · split
    · exact resumeCharge_moves h ht _ s
    · exact h.refl s
  · exact chargeEntryTest_moves h ht s
  all_goals exact h.refl s

/-! ### Protection and LOW_CHARGE -/

theorem enterProtect_moves (h : MainClosed R) (ht : Moves R told) : Moves R (enterProtect told) :=
  fun s => h.trans _ _ _ (takePackState_moves h _ s) (h.trans _ _ _ (h.pmg _ _)
    (h.trans _ _ _ (raiseHard_moves h.toEvalClosed ht _ _) (announcePack_moves h ht _)))

theorem judgeLow_moves (h : MainClosed R) (ht : Moves R told) : Moves R (judgeLow told) := by
  intro s
  unfold judgeLow
  split
  · split
    · exact enterProtect_moves h ht s
    · exact h.pmg _ s
  · exact h.pmg _ s

theorem recover_moves (h : MainClosed R) (ht : Moves R told) : Moves R (recover told) := by
  intro s
  unfold recover
  dsimp only
  have h1 := h.trans _ _ _ (h.pmg (fun p => { p with lowMark := false, recoveryCount := 0 }) s)
    (clearHard_moves h.toEvalClosed ht .packLow _)
  split
  · exact h.trans _ _ _ h1 (changePack_moves h ht _ _)
  · exact h1

theorem judgeGood_moves (h : MainClosed R) (ht : Moves R told) : Moves R (judgeGood told) := by
  intro s
  unfold judgeGood
  split
  · split
    · exact recover_moves h ht s
    · exact h.pmg _ s
  · exact h.pmg _ s

theorem judgeHot_moves (h : MainClosed R) (ht : Moves R told) (t : Int) : Moves R (judgeHot told t) := by
  intro s
  unfold judgeHot
  split
  · split
    · exact h.trans _ _ _ (h.pmg _ s) (clearHard_moves h.toEvalClosed ht _ _)
    · exact h.refl s
  · split
    · exact h.trans _ _ _ (h.pmg _ s) (raiseHard_moves h.toEvalClosed ht _ _)
    · exact h.refl s

theorem judgeLowCharge_moves (h : MainClosed R) (ht : Moves R told) : Moves R (judgeLowCharge told) := by
  intro s
  unfold judgeLowCharge
  dsimp only
  split
  · split
    · exact h.trans _ _ _ (h.pmg _ s) (clearSoft_moves h.toEvalClosed ht _ _)
    · exact raiseSoft_moves h.toEvalClosed ht _ _ s
  · split
    · exact h.trans _ _ _ (h.pmg _ s) (raiseSoft_moves h.toEvalClosed ht _ _ _)
    · exact h.refl s

/-! ### The pack manager at samples -/

theorem takeEstimate_moves (h : UnitClosed R) : Moves R takeEstimate := by
  intro s
  unfold takeEstimate
  split
  · exact h.ka _ s
  · exact h.refl s

theorem packCell_moves (h : UnitClosed R) (ht : Moves R told) : Moves R (packCell told) := by
  intro s
  have m := h.toMainClosed
  refine h.trans _ _ _ (takeEstimate_moves h s) ?_
  unfold packCell
  dsimp only
  split
  · exact judgeLow_moves m ht _
  · split
    · exact judgeGood_moves m ht _
    · exact h.refl _
  · split
    · exact judgeGood_moves m ht _
    · exact h.refl _
  · split
    · exact cellPhase_moves m ht _ _
    · exact chargeFault_moves m ht _ _
  · split
    · exact h.refl _
    · exact chargeFault_moves m ht _ _
  · exact h.refl _

theorem packCurrent_moves (h : UnitClosed R) (ht : Moves R told) : Moves R (packCurrent told) := by
  intro s
  unfold packCurrent
  split
  · split
    · split
      · exact enterDone_moves h ht s
      · exact h.pmg _ s
    · exact h.pmg _ s
  · exact h.refl s

theorem packTemperature_moves (h : MainClosed R) (ht : Moves R told) :
    Moves R (packTemperature told) := by
  intro s
  unfold packTemperature
  split
  · exact h.trans _ _ _ (judgeHot_moves h ht _ s) (chargeTemperature_moves h ht _ _)
  · exact chargeFault_moves h ht _ s

theorem claimedHit_moves (h : MainClosed R) (ht : Moves R told) (u : Idx4) :
    Moves R (claimedHit told u) := by
  cases u
  · exact h.refl
  · exact h.refl
  · exact chargeFault_moves h ht _
  · exact chargeFault_moves h ht _

theorem deliverTelling_moves (h : MainClosed R) (ht : Moves R told) (t : Telling) :
    Moves R (deliverTelling told t) := by
  cases t with
  | claimedHit u => exact claimedHit_moves h ht u
  | raised u cap => exact deliverOverride_moves h.toEvalClosed ht (.raised u cap)
  | stands u cap => exact deliverOverride_moves h.toEvalClosed ht (.stands u cap)
  | cleared u => exact deliverOverride_moves h.toEvalClosed ht (.cleared u)

theorem sampleTold_moves (h : MainClosed R) (ht : Moves R told) (ch : ChannelId) (l : List Reading)
    {owner : State → State} (ho : Moves R owner) : Moves R (sampleTold told ch l owner) :=
  compareAmong_moves h (deliverTelling_moves h ht) _ _ _ fun e m => by
    rw [List.mem_singleton.mp m]
    exact ho

/-! ### The suction controller at samples -/

theorem speedTold_moves (h : EvalClosed R) (ht : Moves R told) : Moves R (speedTold told) := by
  intro s
  unfold speedTold
  dsimp only
  split
  · split
    · exact h.trans _ _ _ (h.snc _ s) (enterHalt_moves h ht _ _)
    · exact h.snc _ s
  · exact commitSuction_moves h ht _ s

theorem motorITold_moves (h : EvalClosed R) (ht : Moves R told) : Moves R (motorITold told) := by
  intro s
  unfold motorITold
  dsimp only
  split
  · exact h.trans _ _ _ (h.snc _ s) (enterHalt_moves h ht _ _)
  · exact h.snc _ s

theorem motorTTold_moves (h : EvalClosed R) (ht : Moves R told) : Moves R (motorTTold told) := by
  intro s
  unfold motorTTold
  split
  · exact h.refl s
  · split
    · split
      · exact clearHard_moves h ht _ s
      · exact h.refl s
    · split
      · exact raiseHard_moves h ht _ s
      · exact h.refl s

/-! ### Stored samples -/

theorem cellSampled_moves (h : UnitClosed R) (ht : Moves R told) (cell : Six Reading) :
    Moves R (cellSampled told cell) := by
  intro s
  unfold cellSampled
  dsimp only
  exact h.trans _ _ _ (h.bleed _ s) (h.trans _ _ _ (h.chan _ _)
    (h.trans _ _ _ (sampleTold_moves h.toMainClosed ht _ _ (packCell_moves h ht) _) (h.bleed _ _)))

theorem channelSampled_moves (h : UnitClosed R) (ht : Moves R told) (c : Conversion) :
    Moves R (channelSampled told c) := by
  intro s
  have m := h.toMainClosed
  have v := h.toEvalClosed
  cases c with
  | packI i => exact h.trans _ _ _ (h.chan _ s) (h.trans _ _ _ (h.ka _ _)
      (sampleTold_moves m ht _ _ (packCurrent_moves h ht) _))
  | packT i => exact h.trans _ _ _ (h.chan _ s) (sampleTold_moves m ht _ _ (packTemperature_moves m ht) _)
  | motorT i => exact h.trans _ _ _ (h.chan _ s) (sampleTold_moves m ht _ _ (motorTTold_moves v ht) _)
  | motorI i => exact h.trans _ _ _ (h.chan _ s) (sampleTold_moves m ht _ _ (motorITold_moves v ht) _)
  | speed n => exact h.trans _ _ _ (h.chan _ s) (sampleTold_moves m ht _ _ (speedTold_moves v ht) _)
  | dockV i => exact h.trans _ _ _ (h.chan _ s) (sampleTold_moves m ht _ _ h.refl _)

/-! ### The gauge second -/

theorem integrate_moves (h : UnitClosed R) (mean : Int) : Moves R (integrate mean) := by
  intro s
  unfold integrate
  dsimp only
  split
  · exact h.trans _ _ _ (h.ka _ s) (h.trans _ _ _ (reportIf_moves h.toEvalClosed _ _ _ _)
      (reportIf_moves h.toEvalClosed _ _ _ _))
  · exact h.ka _ s

theorem countDischarge_moves (h : UnitClosed R) (mean : Int) : Moves R (countDischarge mean) := by
  intro s
  unfold countDischarge
  dsimp only
  split
  · split
    · exact h.trans _ _ _ (h.ka _ s) (h.trans _ _ _ (h.ka _ _) (h.reservation _ _))
    · exact h.ka _ s
  · exact h.ka _ s

theorem gaugeCount_moves (h : UnitClosed R) (mean : Int) : Moves R (gaugeCount mean) := by
  intro s
  unfold gaugeCount
  dsimp only
  have h1 := h.trans _ _ _ (integrate_moves h mean s) (countDischarge_moves h mean _)
  split
  · exact h.refl s
  · split
    · refine h.trans _ _ _ h1 ?_
      unfold learnStep
      split
      · exact h.pmg _ _
      · exact h.refl _
    · exact h1

theorem chargeSteps_moves (h : MainClosed R) (ht : Moves R told) : Moves R (chargeSteps told) := by
  intro s
  unfold chargeSteps
  have precharge : Moves R (prechargeStep told) := by
    intro t
    unfold prechargeStep
    dsimp only
    split
    · split
      · exact h.trans _ _ _ (h.pmg _ t) (chargeFault_moves h ht _ _)
      · exact h.pmg _ t
    · exact h.refl t
  have trim : Moves R trimStep := by
    intro t
    unfold trimStep
    split
    · exact askChanged_moves h _ _ t
    · exact h.refl t
  refine h.trans _ _ _ (precharge s) (h.trans _ _ _ (trim _) ?_)
  unfold balanceStep
  split
  · exact setBleedSet_moves h _ _
  · exact h.refl _

theorem restOfSecond_moves (h : MainClosed R) (ht : Moves R told) : Moves R (restOfSecond told) :=
  fun s => h.trans _ _ _ (computeBudgetThen_moves h ht (judgeLowCharge_moves h ht) s)
    (chargeSteps_moves h ht _)

theorem gaugeSecond_moves (h : UnitClosed R) (ht : Moves R told) : Moves R (gaugeSecond told) := by
  intro s
  have m := h.toMainClosed
  have counted : ∀ n f mean, R s (gaugeCount mean ((s.setDraws n).modKa f)) := fun n f mean =>
    h.trans _ _ _ (h.draws n s) (h.trans _ _ _ (h.ka f _) (gaugeCount_moves h mean _))
  unfold gaugeSecond
  dsimp only
  split
  · refine h.trans _ _ _ (counted _ _ _) (h.trans _ _ _ (h.chan _ _) (h.trans _ _ _ (h.pmg _ _)
      (compareAmong_moves m (deliverOverride_moves h.toEvalClosed ht) _ _ _ (fun e k => ?_) _)))
    rw [List.mem_singleton.mp k]
    exact restOfSecond_moves m ht
  · exact counted _ _ _

/-! ### Dirt sensing -/

theorem impactCounted_moves (h : EvalClosed R) (p : Pulse) : Moves R (impactCounted p) := by
  intro s
  cases p with
  | faint => exact h.refl s
  | fine => exact h.trans _ _ _ (h.dsu _ s) (reportIf_moves h _ _ _ _)
  | coarse => exact h.trans _ _ _ (h.dsu _ s) (reportIf_moves h _ _ _ _)

theorem takeBoostLevel_moves (h : EvalClosed R) (n : Nat) : Moves R (takeBoostLevel n) := by
  intro s
  unfold takeBoostLevel
  split
  · exact h.refl s
  · exact h.trans _ _ _ (h.dsu _ s) (h.notice _ _)

theorem moveBoost_moves (h : EvalClosed R) (before : Nat) : Moves R (moveBoost before) := by
  intro s
  have stop := h.trans _ _ _ (stopTimer_moves h .i2 s) (takeBoostLevel_moves h s.dsu.dirtLevel _)
  unfold moveBoost
  dsimp only
  split
  · split
    · exact stop
    · exact h.refl s
  · split
    · split
      · exact startTimer_moves h _ s
      · exact stop
    · exact h.refl s

theorem advanceQuiet_moves (h : UnitClosed R) (level score : Nat) : Moves R (advanceQuiet level score) := by
  intro s
  unfold advanceQuiet
  split
  · split
    · exact h.trans _ _ _ (h.dsu _ s) (h.trans _ _ _ (h.ka _ _) (h.reservation _ _))
    · exact h.dsu _ s
  · exact h.dsu _ s

theorem classifyWindow_moves (h : UnitClosed R) (applied : Nat) : Moves R (classifyWindow applied) := by
  intro s
  unfold classifyWindow
  dsimp only
  exact h.trans _ _ _ (h.dsu _ s)
    (h.trans _ _ _ (advanceQuiet_moves h _ _ _) (moveBoost_moves h.toEvalClosed _ _))

theorem closeClassified_moves (h : UnitClosed R) (ht : Moves R told) : Moves R (closeClassified told) := by
  intro s
  unfold closeClassified
  dsimp only
  have closed : ∀ u : State, R s u → R s (openWindow s.snc.applied (classifyWindow s.snc.applied u)) := fun u hu =>
    h.trans _ _ _ hu (h.trans _ _ _ (classifyWindow_moves h _ u) (h.dsu _ _))
  have compared := h.trans _ _ _ (h.chan (fun c => { c with dirtNet := windowNet s }) s)
    (compareNow_moves h.toMainClosed (deliverOverride_moves h.toEvalClosed h.refl) .dirtNet
      [.valid (storeNet s).chan.dirtNet] _)
  have c := closed _ compared
  have told := h.trans _ _ _ c (h.trans _ _ _ (dirtStop_moves h.toEvalClosed h.refl _) (ht _))
  split <;> split
  · exact told
  · exact c
  · exact h.trans _ _ _ told (evaluate_moves h.toEvalClosed ht _)
  · exact h.trans _ _ _ c (evaluate_moves h.toEvalClosed ht _)

theorem windowClose_moves (h : UnitClosed R) (ht : Moves R told) : Moves R (windowClose told) := by
  intro s
  unfold windowClose
  dsimp only
  split
  · exact h.dsu _ s
  · exact h.trans _ _ _ (h.dsu _ s) (h.dsu _ _)
  · exact closeClassified_moves h ht s

/-! ### Timers and run time -/

theorem expireTimer_moves (h : MainClosed R) (k : Idx4) : Moves R (expireTimer k) := by
  intro s
  unfold expireTimer
  dsimp only
  split
  · exact h.trans _ _ _ (setTimerRunning_moves h.toEvalClosed _ _ s) (h.timerNotice _ _)
  · exact setTimerRunning_moves h.toEvalClosed _ _ s

theorem safetyExpired_moves (h : MainClosed R) (ht : Moves R told) : Moves R (safetyExpired told) := by
  intro s
  unfold safetyExpired
  split
  all_goals first | exact chargeFault_moves h ht _ s | exact h.refl s

theorem expiryTold_moves (h : UnitClosed R) (ht : Moves R told) (k : Idx4) :
    Moves R (expiryTold told k) := by
  cases k
  · exact windowClose_moves h ht
  · exact safetyExpired_moves h.toMainClosed ht
  · exact fun s => setBoostLevel_moves h.toEvalClosed ht _ s
  · exact h.refl

theorem addRunSecond_moves (h : UnitClosed R) : Moves R addRunSecond := by
  intro s
  unfold addRunSecond
  dsimp only
  split
  · exact h.trans _ _ _ (h.ka _ s) (h.trans _ _ _ (h.ka _ _) (h.notice _ _))
  · exact h.ka _ s

/-! ### The dock line -/

theorem serveLine_moves (h : MainClosed R) : Moves R serveLine := fun s => h.dlc _ s

theorem endExchange_moves (h : MainClosed R) : Moves R endExchange := fun s => h.dlc _ s

theorem waitInDock_moves (h : MainClosed R) (ht : Moves R told) : Moves R (waitInDock told) := fun s =>
  h.trans _ _ _ (changePack_moves h ht _ s) (chargeEntryTest_moves h ht _)

theorem packInserted_moves (h : MainClosed R) (ht : Moves R told) : Moves R (packInserted told) := by
  intro s
  unfold packInserted
  split
  · exact waitInDock_moves h ht s
  · exact waitInDock_moves h ht s
  all_goals exact h.refl s

theorem packRemoved_moves (h : MainClosed R) (ht : Moves R told) : Moves R (packRemoved told) := by
  intro s
  unfold packRemoved
  split
  · exact changePack_moves h ht _ s
  · exact changePack_moves h ht _ s
  · exact stopCharge_moves h ht _ s
  · exact stopCharge_moves h ht _ s
  · exact h.refl s
  · exact h.refl s

theorem packLost_moves (h : MainClosed R) (ht : Moves R told) : Moves R (packLost told) := by
  intro s
  unfold packLost
  split
  · exact h.trans _ _ _ (stopCharge_moves h ht _ s) (chargeEntryTest_moves h ht _)
  · exact h.refl s

/-- Two separate events in a free order. -/
theorem twoEvents_moves (h : EvalClosed R) {f g : State → State} (hf : Moves R f) (hg : Moves R g) :
    Moves R (inAnyOrder [f, g]) :=
  inAnyOrder_moves h _ fun e m => by
    rcases List.mem_cons.mp m with m | m
    · rw [m]
      exact hf
    · rw [List.mem_singleton.mp m]
      exact hg

theorem dockInserted_moves (h : MainClosed R) (ht : Moves R told) : Moves R (dockInserted told) := by
  intro s
  unfold dockInserted
  dsimp only
  exact h.trans _ _ _ (h.tdu _ s)
    (h.trans _ _ _ (twoEvents_moves h.toEvalClosed (raiseHard_moves h.toEvalClosed ht _)
      (packInserted_moves h ht) _)
      (h.trans _ _ _ (h.dlc _ _) (h.trans _ _ _ (setSession_moves h _ _)
        (h.trans _ _ _ (h.dlc _ _) (serveLine_moves h _)))))

theorem dockRemoved_moves (h : MainClosed R) (ht : Moves R told) : Moves R (dockRemoved told) := by
  intro s
  unfold dockRemoved
  dsimp only
  exact h.trans _ _ _ (h.tdu _ s)
    (h.trans _ _ _ (twoEvents_moves h.toEvalClosed (clearHard_moves h.toEvalClosed ht _)
      (packRemoved_moves h ht) _)
      (h.trans _ _ _ (h.dlc _ _) (setSession_moves h _ _)))

theorem enterOffered_moves (h : MainClosed R) (ht : Moves R told) : Moves R (enterOffered told) :=
  fun s => h.trans _ _ _ (setSession_moves h _ s) (chargeEntryTest_moves h ht _)

theorem enterLost_moves (h : MainClosed R) (ht : Moves R told) : Moves R (enterLost told) := fun s =>
  h.trans _ _ _ (setSession_moves h _ s) (h.trans _ _ _ (h.dlc _ _) (packLost_moves h ht _))

theorem takeMiss_moves (h : MainClosed R) (ht : Moves R told) (f : DockFrame) :
    Moves R (takeMiss told f) := by
  intro s
  unfold takeMiss
  split
  · split
    · exact enterLost_moves h ht s
    · exact h.refl s
  · split
    · exact enterLost_moves h ht s
    · exact h.dlc _ s
  · split
    · exact enterLost_moves h ht s
    · exact h.dlc _ s
  · exact h.refl s
  · exact h.refl s

theorem exchangeMissed_moves (h : MainClosed R) (ht : Moves R told) : Moves R (exchangeMissed told) := by
  intro s
  unfold exchangeMissed
  split
  · exact h.refl s
  · exact h.trans _ _ _ (endExchange_moves h s)
      (h.trans _ _ _ (takeMiss_moves h ht _ _) (serveLine_moves h _))

theorem takeOffer_moves (h : MainClosed R) (ht : Moves R told) (o : Offer) :
    Moves R (takeOffer told o) := fun s =>
  h.trans _ _ _ (endExchange_moves h s) (h.trans _ _ _ (h.dlc _ _)
    (h.trans _ _ _ (enterOffered_moves h ht _) (serveLine_moves h _)))

theorem takeGrant_moves (h : MainClosed R) (x : Exchange) : Moves R (takeGrant x) := by
  intro s
  unfold takeGrant
  dsimp only
  refine h.trans _ _ _ ?_ (serveLine_moves h _)
  split
  · split
    · exact h.trans _ _ _ (h.dlc _ s) (h.dlc _ _)
    · exact h.trans _ _ _ (h.dlc _ s) (setSession_moves h _ _)
  · exact h.dlc _ s

theorem takeDecline_moves (h : MainClosed R) (ht : Moves R told) : Moves R (takeDecline told) := by
  intro s
  unfold takeDecline
  dsimp only
  refine h.trans _ _ _ ?_ (serveLine_moves h _)
  split
  · split
    · exact h.trans _ _ _ (h.dlc _ s) (h.trans _ _ _ (h.dlc _ _) (chargeFault_moves h ht _ _))
    · exact h.trans _ _ _ (h.dlc _ s) (h.dlc _ _)
  · exact h.dlc _ s

theorem takeKeepack_moves (h : MainClosed R) (i : Nat) : Moves R (takeKeepack i) := fun s =>
  h.trans _ _ _ (h.dlc _ s) (serveLine_moves h _)

theorem takeAnswer_moves (h : MainClosed R) (ht : Moves R told) (x : Exchange) (a : DockAnswer) :
    Moves R (takeAnswer told x a) := by
  intro s
  unfold takeAnswer
  split
  · split
    · exact takeOffer_moves h ht _ s
    · exact exchangeMissed_moves h ht s
  · exact takeGrant_moves h _ s
  · exact takeDecline_moves h ht s
  · exact takeKeepack_moves h _ s
  · exact exchangeMissed_moves h ht s

theorem answerReceived_moves (h : MainClosed R) (ht : Moves R told) (bytes : List Byte) :
    Moves R (answerReceived told bytes) := by
  intro s
  unfold answerReceived
  split
  · exact h.refl s
  · split
    · exact exchangeMissed_moves h ht s
    · exact takeAnswer_moves h ht _ _ s

theorem quitSent_moves (h : MainClosed R) (ht : Moves R told) : Moves R (quitSent told) := by
  intro s
  unfold quitSent
  dsimp only
  refine h.trans _ _ _ ?_ (serveLine_moves h _)
  split
  · exact h.trans _ _ _ (endExchange_moves h s) (enterOffered_moves h ht _)
  · exact endExchange_moves h s

theorem frameSent_moves (h : MainClosed R) (ht : Moves R told) : Moves R (frameSent told) := by
  intro s
  unfold frameSent
  split
  · exact h.refl s
  · split
    · exact h.refl s
    · split
      · exact quitSent_moves h ht s
      · exact h.dlc _ s

/-! ### Detections and the tick -/

theorem binDetected_moves (h : EvalClosed R) (ht : Moves R told) (b : Bool) :
    Moves R (binDetected told b) := by
  intro s
  unfold binDetected
  dsimp only
  split
  · exact h.trans _ _ _ (h.tdu _ s) (raiseHard_moves h ht _ _)
  · exact h.trans _ _ _ (h.tdu _ s) (clearHard_moves h ht _ _)

theorem detect_moves (h : MainClosed R) (d : DetectorId) (b : Bool) : Moves R (detect d b) := fun s =>
  h.trans _ _ _ (h.tdu _ s) (h.detectorNotice _ _ _)

theorem detectionTold_moves (h : MainClosed R) (ht : Moves R told) (d : DetectorId) (b : Bool) :
    Moves R (detectionTold told d b) := by
  cases d
  · intro s
    cases b
    · exact dockRemoved_moves h ht s
    · exact dockInserted_moves h ht s
  · exact binDetected_moves h.toEvalClosed ht b
  · exact h.refl

theorem foldl_steps {α : Type} (h : EvalClosed R) (f : α → State → State) (hf : ∀ a, Moves R (f a))
    (l : List α) : ∀ s, R s (l.foldl (fun u a => f a u) s) := by
  induction l with
  | nil => exact h.refl
  | cons a l ih => exact fun s => h.trans _ _ _ (hf a s) (ih _)

theorem tickAtLevels_moves (h : UnitClosed R) (ht : Moves R told) : Moves R (tickAtLevels told) := by
  intro s
  have m := h.toMainClosed
  unfold tickAtLevels
  dsimp only
  refine h.trans _ _ _ (h.tdu _ s) (h.trans _ _ _ (foldl_steps h.toEvalClosed _ (expireTimer_moves m) _ _)
    (h.trans _ _ _ (foldl_steps h.toEvalClosed _ (fun d => detect_moves m d _) _ _)
      (inAnyOrder_moves h.toEvalClosed _ (fun e k => ?_) _)))
  rcases List.mem_append.mp k with k | k
  · rcases List.mem_append.mp k with k | k
    · obtain ⟨x, -, rfl⟩ := List.mem_map.mp k
      exact expiryTold_moves h ht x
    · obtain ⟨x, -, rfl⟩ := List.mem_map.mp k
      exact detectionTold_moves m ht x _
  · split at k
    · rw [List.mem_singleton.mp k]
      exact addRunSecond_moves h
    · exact absurd k (by simp)

/-- A tick, for a relation that lets the input lines move. -/
theorem tick_moves (h : UnitClosed R) (hp : ∀ f, Moves R (State.modPins f)) (ht : Moves R told) :
    Moves R (tick told) := fun s =>
  h.trans _ _ _ (h.trans _ _ _ (hp _ s) (h.draws _ _)) (tickAtLevels_moves h ht _)

end Sys2Proof.Machine
end

