-- ==== Sys2Proof/Tests/Slice0.lean ====
section
/-! SUPPORT. Tests: terms that the check of well-formedness refuses, worked examples of the manual, one effect
of a command at a time, and for each statement with hypotheses a state and operands that meet them. The
expected values come from the manual's text and tables or from hand calculation by its rules. -/

namespace Sys2Proof.Tests

open Sys2Proof Sys2Proof.Machine

/-! ### Helpers -/

/-- The state after a command. -/
def after (c : Instr) (s : State) : State :=
  match exec c s with
  | .next t => t
  | .fault _ | .refused _ => s

/-- The payload of the reply in the slot: STARTED is in transmission after reset, so a reply waits there. -/
def reply (s : State) : List Byte := (s.link.slot.map Frame.payload).getD []

theorem quiet {s : State} (l : s.link = State.reset.link) (d : s.domain = .awake) : Quiet s :=
  ⟨d, by rw [l]; decide, by rw [l]; exact Or.inl rfl⟩

theorem ready {s : State} (l : s.link = State.reset.link) (d : s.domain = .awake) : Ready s :=
  ⟨d, by rw [l]; rfl, by rw [l]; rfl, by rw [l]; rfl⟩

def inSuction (m : Suction) (s : State) : State := s.modSnc fun c => { c with suction := m }

def inPack (p : PackState) (s : State) : State := s.modPmg fun q => { q with state := p }

def inSession (x : Session) (s : State) : State := s.modDlc fun d => { d with session := x }

/-- An exchange whose answer is awaited. -/
def awaiting (f : DockFrame) (s : State) : State :=
  s.modDlc fun d =>
    { d with exchange := some { frame := f, awaiting := true, newer := false, ordered := false } }

def withCells (v : Int) (s : State) : State := s.modChan fun c => { c with cell := Six.all (.valid v) }

/-- A motor in RUN at preset 1, 450 su, with a budget of 400 W. -/
def running : State :=
  ((((State.reset.modSnc fun c =>
    { c with suction := .moving .run, preset := .p1, adopted := 450, applied := 450, budget := 400 }).modChan
      fun c => { c with target := 450, speed := 450, budget := 400 }).modTdu fun t =>
        { t with runMark := true }).modPmg fun p => { p with budget := 400 }).modKa fun k =>
          { k with qRem := 9000000, estimatePending := false }

/-- The entry that an insertion pushes. -/
def dockedEntry : OverrideEntry := { source := .docked, cap := 0, saved := true, released := false }

/-- A docked SC6: session OFFERED, the DOCKED entry in force, cells at 3700 mV and the pack at 20 °C. -/
def docked : State :=
  (((inSession .offered (inPack .dockedWait (withCells 3700 State.reset))).modSnc fun c =>
    { c with
      stack := [dockedEntry]
      boostPermitted := false
      marks := { c.marks with docked := true } }).modChan fun c => { c with packT := .valid 20 }).modDlc
        fun d => { d with offer := some ⟨1, 26000, 3000⟩ }

/-- A charge in a phase, W2 and W3 claimed with the records of R81. -/
def charging (phase : Phase) : State :=
  ((inPack (.charging phase) docked).modWcu fun w =>
    { w with
      claim := some { w2 := WatchRecord.warm, w3 := WatchRecord.warm }
      entries := { w.entries with
        i2 := loadedW2 State.reset.ka.charge
        i3 := loadedW3 State.reset.ka.charge } }).modKa fun k =>
          { k with estimatePending := false }

def noneOpen : Six Bool := Six.all false

/-! ### Terms that no agent can send -/

theorem test_wf_frame_length : (Instr.frameReceived 3 1 [] 0).wellFormed = false := by decide
theorem test_wf_frame_too_long :
    (Instr.frameReceived 65 1 (List.replicate 64 0) 0).wellFormed = false := by decide
theorem test_wf_known_kind : (Instr.unknownRequest 25 []).wellFormed = false := by decide
theorem test_wf_unknown_too_long :
    (Instr.unknownRequest 26 (List.replicate 64 0)).wellFormed = false := by decide
theorem test_wf_section_too_long :
    (Instr.writeSection 0 1 1 0 (List.replicate 60 0)).wellFormed = false := by decide
theorem test_wf_preset_too_long :
    (Instr.writePreset 1 1 0 (List.replicate 60 0)).wellFormed = false := by decide
theorem test_wf_suction_too_long :
    (Instr.writeSuction 0 1 0 (List.replicate 60 0)).wellFormed = false := by decide
theorem test_wf_dirt_too_long :
    (Instr.writeDirt 0 1 0 (List.replicate 60 0)).wellFormed = false := by decide
theorem test_wf_gauge_too_long :
    (Instr.writeGauge 0 1 0 (List.replicate 60 0)).wellFormed = false := by decide
theorem test_wf_charge_too_long :
    (Instr.writeCharge 0 1 0 (List.replicate 60 0)).wellFormed = false := by decide
theorem test_wf_limits_too_long :
    (Instr.writeLimits 0 1 0 (List.replicate 60 0)).wellFormed = false := by decide
theorem test_wf_watch_too_long :
    (Instr.writeWatch 0 1 0 (List.replicate 60 0)).wellFormed = false := by decide
theorem test_wf_timer_too_long :
    (Instr.writeTimer 0 1 0 (List.replicate 60 0)).wellFormed = false := by decide
theorem test_wf_service_too_long :
    (Instr.writeService 0 1 0 (List.replicate 60 0)).wellFormed = false := by decide
theorem test_wf_notice_too_long :
    (Instr.writeNotice 0 1 0 (List.replicate 60 0)).wellFormed = false := by decide
theorem test_wf_cell_outside :
    (Instr.cellSample noneOpen ⟨3700, 3700, 3700, 3700, 3700, 10001⟩).wellFormed = false := by decide
theorem test_wf_channels_too_long :
    (Instr.readChannels (List.replicate 64 0)).wellFormed = false := by decide
theorem test_wf_decline_none : (Instr.declineReceived 0).wellFormed = false := by decide
theorem test_wf_decline_unlisted : (Instr.declineReceived 4).wellFormed = false := by decide

/-! ### Worked examples and tables of the manual -/

/-- R70: at r 2, −13 lies in step −4. -/
theorem test_quantise_negative : quantise 2 (-13) = -4 := by decide

/-- The table of band matching of R70: r 3, 100 to 200 covers 96 to 207. -/
theorem test_band_table :
    [95, 96, 207, 208].map (inBand { WatchRecord.warm with low := 100, high := 200, resolution := 3 }) =
      [false, true, true, false] := by decide

def somePipeline : PipelineInputs := pipelineInputs running

/-- The table of R109 at step 80 and ceiling 200. -/
theorem test_boost_table :
    [0, 1, 2, 3].map (fun l =>
      boostAddition { somePipeline with level := l, step := 80, ceiling := 200 }) = [0, 80, 160, 200] := by
  decide

/-- R112: K_fan 300 and 585 W give 1249, and the cold defaults with 400 W give 1100. -/
theorem test_power_bound_585 : powerBound 300 585 = 1249 := by decide
theorem test_power_bound_400 : powerBound 300 400 = 1100 := by decide

/-- R110: the middle of 70..110 °C gives 128 of 256. -/
theorem test_derate_middle : derateFactor (.valid 90) 70 110 = 128 := by decide

/-- R98: 8 up and 20 down, never past the target. -/
theorem test_slew_up : slewed 8 20 450 440 = 448 := by decide
theorem test_slew_ends : slewed 8 20 450 446 = 450 := by decide
theorem test_slew_down : slewed 8 20 0 15 = 0 := by decide

def coldDirt : DirtEntry := State.reset.ka.dirt

/-- The table of R146, at 60/150/300 with H 20. -/
theorem test_dirt_level_table :
    [nextDirtLevel coldDirt 1 140, nextDirtLevel coldDirt 1 280, nextDirtLevel coldDirt 2 140,
      nextDirtLevel coldDirt 2 129, nextDirtLevel coldDirt 0 310, nextDirtLevel coldDirt 3 0,
      nextDirtLevel coldDirt 3 290] = [1, 2, 2, 1, 3, 2, 3] := by decide

/-- The table of R148: the floor moves an eighth of the way, truncated toward zero, within 0..floor_max. -/
theorem test_floor_table :
    [adaptedFloor { coldDirt with floor := 40 } 56, adaptedFloor { coldDirt with floor := 40 } 20,
      adaptedFloor { coldDirt with floor := 40 } 45, adaptedFloor { coldDirt with floor := 395 } 450,
      adaptedFloor { coldDirt with floor := 3 } 0] = [42, 38, 40, 400, 3] := by decide

/-- R167: 9,000,000 mC and 3725 mV. -/
theorem test_estimate : estimateOf 9000000 (some 3725) = 4500000 := by decide

/-- R24 and R164: Q_full lies within 50 % and 110 % of the design capacity. -/
theorem test_q_full_range : (qFullLow 9000000, qFullHigh 9000000) = (4500000, 9900000) := by decide

/-- R174: 12 % gives 120 W at foldback 100 and 84 W at 70. -/
theorem test_budget_knee :
    [fullBudget { KeepAlive.cold with qRem := 1080000 } 100,
      fullBudget { KeepAlive.cold with qRem := 1080000 } 70] = [120, 84] := by decide

/-- R109, R115: OVF with source BOOST needs P on and L above 0, whatever the base speed; the target stays at or below
1250 (R111). -/
theorem test_boost_over_needs_boost :
    let i := { somePipeline with base := 2000, boostPermitted := true, level := 1, step := 0, budget := 600 }
    ((pipeline i).boostOver, stage2 i) = (true, 1250) ∧
      ((pipeline { i with level := 0 }).boostOver, stage2 { i with level := 0 }) = (false, 2000) ∧
      (pipeline { i with boostPermitted := false }).boostOver = false ∧
      (pipeline { i with level := 0 }).target ≤ 1250 := by decide

/-- R36: a record out of its ranges stores SOC and BUDGET at the ends of theirs. -/
theorem test_pack_channels_hold_their_ranges :
    let s := running.modKa fun k =>
      { k with qRem := 2 * k.gauge.qFull, limits := { k.limits with wPackMax := 65535 } }
    (storeSoc s).chan.soc = 100 ∧ (storeBudget s).chan.budget = 600 := by decide

/-- R122: a low-charge cap out of its range is told at the end of it. -/
theorem test_low_charge_cap_holds_its_range :
    (lowChargeCap { running.ka.limits with lowCap := 65535 }, lowChargeCap { running.ka.limits with lowCap := 450 }) =
      (1250, 450) := by decide

/-- R172: 2,160,000 mC at eight means of −12000 mA is 3 minutes. -/
theorem test_run_time_estimate :
    runTimeEstimate ((running.modKa fun k => { k with qRem := 2160000 }).modPmg fun p =>
      { p with means := List.replicate 8 (-12000) }) = 3 := by decide

/-! ### One effect of a command at a time -/

def asleep : State := (State.reset.modLink fun l => { l with tx := none }).setDomain .sleep

/-- R1: the start byte leaves HUNT. -/
theorem test_start_byte : (after (.byteArrival 0xB4 false) State.reset).link.receiver = .length := by decide

/-- R1: a byte with a stop-bit error inside a frame sets CHECK. -/
theorem test_stop_error :
    (after (.byteArrival 0 true) (setReceiver .length State.reset)).link.check = true := by decide

/-- R3, R12: LENGTH 1, kind 0x01 and check 0xFE sum to 0; Identify is answered. -/
theorem test_frame_identify :
    reply (after (.frameReceived 1 0x01 [] 0xFE) State.reset) = [0x00, 0x50, 0xC6, 0x56, 0x03] := by decide

/-- R3: a frame whose bytes do not sum to 0 sets CHECK. -/
theorem test_frame_check : (after (.frameReceived 1 0x01 [] 0xFF) State.reset).link.check = true := by decide

/-- R2: the gap expires inside a frame. -/
theorem test_gap : (after .gapTimeout (setReceiver .length State.reset)).link.gap = true := by decide

/-- R5: an unknown kind is answered 0x7F, UNKNOWN and the kind. -/
theorem test_unknown_kind :
    (after (.unknownRequest 0x1A []) State.reset).link.slot =
      some { kind := 0x7F, payload := [0x10, 0x1A], ending := .plain } := by decide

/-- R5: a third request waits in the queue while a reply stands in the slot. -/
theorem test_request_waits : (after .identify (after .resume State.reset)).link.queue.length = 1 := by decide

/-- R9: STARTED ends and the transmitter takes the reply in the slot. -/
theorem test_reply_is_sent :
    ((after (.transmitEnd false false) (after .identify State.reset)).link.tx.map Frame.kind) =
      some 0x41 := by decide

/-- R12: GetStatus right after a cold start: KEEPALIVE_LOST is set and there is no run-time estimate. -/
theorem test_status_after_reset :
    reply (after (.getStatus none) State.reset) =
      [0, 0, 1, 0, 0, 0, 0, 0, 0, 0, 0, 0, 0, 255, 255, 0, 0, 0] := by decide

/-- R13: Sleep is accepted in OFF, and refused STATE with the motor running. -/
theorem test_sleep_accepted : (after .sleep State.reset).link.closing = true := by decide
theorem test_sleep_refused : reply (after .sleep running) = [0x17] := by decide

/-- R15: Restart closes the link. -/
theorem test_restart : (after .restart running).link.closing = true := by decide

/-- R11, R14: WAKE ends SLEEP, and STARTED carries cause 2 and no cold start. -/
theorem test_wake :
    (after (.wake false false) asleep).link.tx =
      some { kind := 0x8A, payload := [0, 2, 1], ending := .plain } := by decide

/-- R14: awake, a rise of DOCK_SENSE is D0's matter, and DOCK_WAKE starts nothing. -/
theorem test_dock_wake_awake :
    after (.dockWake false) State.reset = State.reset.modPins fun p => { p with dockSense := true } := by rfl

/-- R15: RESET low holds the main domain, and its return completes the warm start. -/
theorem test_reset_hold : (after .resetAssert running).domain = .held .reset := by decide
theorem test_reset_release :
    (after (.resetRelease false false) (after .resetAssert running)).domain = .awake := by decide

/-- R15: a supply dip holds the main domain, and the return completes the warm start. -/
theorem test_supply_dip : (after .supplyDip running).domain = .held .supply := by decide
theorem test_supply_return :
    (after (.supplyReturn false false) (after .supplyDip running)).snc.adopted = 0 := by decide

/-- R33: the marker is lost with the supply, and the cold start sets it and KEEPALIVE_LOST. -/
theorem test_keepalive_loss : (after .keepaliveLoss State.reset).ka.marker = false := by rfl
theorem test_cold_start :
    (after (.coldStart false false) (running.modKa fun k => { k with marker := false })).ka =
      KeepAlive.cold := by decide

/-- R34: the acknowledgement clears KEEPALIVE_LOST. -/
theorem test_acknowledge : (after .acknowledgeKeepAlive State.reset).ka.keepAliveLost = false := by decide

/-- R21: entry 1 of PRESET, 450/50/150, notify off. -/
theorem test_read_preset :
    reply (after (.readSection 0 1 1 0) State.reset) =
      [0x00, 0, 1, 1, 0, 0xC2, 0x01, 50, 150, 0, 0] := by decide

/-- R23: section 10 does not exist. -/
theorem test_write_bad_section : reply (after (.writeSection 10 0 1 0 []) State.reset) = [0x12] := by decide

/-- R24: a base of 1300 is held at 1250 and answered CLAMPED. -/
theorem test_write_preset_clamped :
    reply (after (.writePreset 4 1 0 [0x14, 0x05, 0, 0, 0, 0]) State.reset) = [0x01] := by decide
theorem test_write_preset_held :
    (after (.writePreset 4 1 0 [0x14, 0x05, 0, 0, 0, 0]) State.reset).ka.presets.p4.base = 1250 := by decide

/-- R26: T_knee 80 with T_cut 85 breaks the relation. -/
theorem test_write_suction_range :
    reply (after (.writeSuction 0 1 0 [44, 1, 250, 0, 8, 20, 80, 85, 0xC8, 0xAF]) State.reset) =
      [0x14] := by decide

/-- R29: the DIRT entry is held as written. -/
theorem test_write_dirt :
    (after (.writeDirt 0 1 0 [50, 0, 100, 0, 200, 0, 10, 0, 30, 0, 144, 1, 40, 0, 0]) State.reset).ka.dirt =
      { t1 := 50, t2 := 100, t3 := 200, h := 10, floor := 30, floorMax := 400, blank := 40,
        hold := false } := by decide

/-- R27: a GAUGE write that changes Q_rem is refused READ_ONLY. -/
theorem test_write_gauge_read_only :
    reply (after (.writeGauge 0 1 0 [64, 84, 137, 0, 64, 84, 137, 0, 0, 0, 0, 1, 0, 0, 0]) State.reset) =
      [0x15] := by decide

/-- R24: V_cv 4300 is held at 4250. -/
theorem test_write_charge :
    (after (.writeCharge 0 1 0 [208, 7, 204, 16, 150, 0, 200, 0, 0, 45, 10]) State.reset).ka.charge.vCv =
      4250 := by decide

/-- R24: W_pack_max 700 is held at 600. -/
theorem test_write_limits :
    (after (.writeLimits 0 1 0 [188, 2, 40, 228, 12, 184, 11, 60, 10, 88, 2]) State.reset).ka.limits.wPackMax =
      600 := by decide

/-- R28: WATCH entry 2 is held during a charge, and the flag is set. -/
theorem test_write_watch_held :
    reply (after (.writeWatch 2 1 0 (List.replicate 13 0)) (charging .cc)) = [0x16] := by decide

/-- R51: a TIMER write leaves the timer itself, T0 at 16 ms, until its next reload. -/
theorem test_write_timer :
    (after (.writeTimer 0 1 0 [3, 100, 0, 0, 0, 1]) State.reset).tdu.timers.i0.rate = .ms16 := by decide

/-- R65: the SERVICE entry is held. -/
theorem test_write_service :
    (after (.writeService 0 1 0 [50, 0, 0, 30, 1, 1, 0]) State.reset).ka.service =
      { hours := 50, anyHours := false, minutes := 30, anyMinutes := true, enable := true } := by decide

/-- R8: all enables off. -/
theorem test_write_notice :
    (after (.writeNotice 0 1 0 (List.replicate 14 0)) State.reset).link.enables = NoticeMarks.none := by decide

/-- R38: open tap 1 leaves members 1 and 2 without a reading. -/
theorem test_open_tap :
    Six.toList (cellsOf ⟨true, false, false, false, false, false⟩ (Six.all 3700)) =
      [.noReading, .noReading, .valid 3700, .valid 3700, .valid 3700, .valid 3700] := by decide

/-- R167: the first CELL sample after a cold start gives the estimate. -/
theorem test_estimate_is_taken :
    (after (.cellSample noneOpen (Six.all 3725)) State.reset).ka.qRem = 4500000 := by decide

/-- R40: −40.5 A is held at −40 A. R41: half a degree below zero is rounded away from zero. -/
theorem test_pack_current : (after (.channelSample (.packI (-40500000))) State.reset).chan.packI = -40000 := by
  decide
theorem test_pack_temperature :
    (after (.channelSample (.packT (-10500))) State.reset).chan.packT = .valid (-11) := by decide

/-- R48: a sample of the keep-alive shunt counts in SLEEP. -/
theorem test_keepalive_shunt : (after (.keepaliveShuntSample (-5999)) asleep).ka.accSum = -5 := by decide

/-- R47: SOC as a plain record. -/
theorem test_read_channels : reply (after (.readChannels [9]) State.reset) = [0, 0, 0, 0, 0] := by decide

/-- R165: a gauge second with mean −100 takes 100 mC. -/
theorem test_gauge_second :
    (after .gaugeSecond (running.modKa fun k => { k with accSum := -200, accCount := 2 })).ka.qRem =
      8999900 := by decide

/-- R53: T3 is a one-shot timer after a warm start. -/
theorem test_timer_expiry :
    (after (.timerExpiry .i3) (startTimer .i3 State.reset)).tdu.timers.i3.running = false := by decide

/-- R56: T1 is not the host's. -/
theorem test_timer_control_held : reply (after (.timerControl 1 1) State.reset) = [0x16] := by decide

/-- R58, R103: the bin opens. -/
theorem test_bin_opens : (after (.detection .d1) State.reset).snc.marks.binOpen = true := by decide

/-- R61: debounce 16 is held at 15. -/
theorem test_arm_clamped : reply (after (.armDetector 2 0 16) State.reset) = [0x01] := by decide

/-- R62, R63: a run second at 0:00:59. -/
theorem test_run_second :
    (after .runSecond (running.modKa fun k =>
      { k with filter := { hours := 0, minutes := 0, seconds := 59 } })).ka.filter =
      { hours := 0, minutes := 1, seconds := 0 } := by decide

/-- R64: the motor total and the filter counter. -/
theorem test_read_run_time :
    reply (after .readRunTime (running.modKa fun k =>
      { k with filter := { hours := 258, minutes := 3, seconds := 4 } })) =
      [0, 0, 0, 0, 0, 2, 1, 3, 4] := by decide

theorem test_reset_filter :
    (after .resetFilterTime (running.modKa fun k =>
      { k with filter := { hours := 258, minutes := 3, seconds := 4 } })).ka.filter = RunTime.zero := by decide

/-- R66. -/
theorem test_clear_service_due :
    (after .clearServiceDue (State.reset.modKa fun k => { k with serviceDue := true })).ka.serviceDue =
      false := by decide

/-- R78: the hit set is read and emptied. -/
theorem test_read_hits :
    reply (after .readClearWatchHits (State.reset.modWcu fun w =>
      { w with hits := w.hits.set .i2 true })) = [0x00, 4, 0] := by decide

/-- R98: the applied speed moves by 8 at a control period. -/
theorem test_control_period :
    (after .controlPeriod (running.modSnc fun c => { c with applied := 440 })).snc.applied = 448 := by decide

/-- R88: preset 1 starts the motor, given a budget. -/
theorem test_select_preset :
    (after (.selectPreset 1) (State.reset.modSnc fun c => { c with budget := 400 })).snc.adopted =
      450 := by decide

/-- R95: outside HELD Resume is refused STATE. -/
theorem test_resume_refused : reply (after .resume running) = [0x17] := by decide

/-- R104: ClearHalt leaves HALT. -/
theorem test_clear_halt :
    (after .clearHalt (inSuction (.halt .stall) State.reset)).snc.suction = .moving .off := by decide

/-- R120: the record is read and cleared. -/
theorem test_read_conditions :
    reply (after .readClearConditions (reportCondition .lim .power State.reset)) =
      [0x00, 0, 0, 0, 0, 0, 0, 1, 3] := by decide

/-- R132: without an entry the active flag is written. -/
theorem test_set_boost : (after (.setBoost 0) State.reset).snc.boostPermitted = false := by decide

/-- R133: a flag of 2 is refused RANGE. -/
theorem test_set_soft_range : reply (after (.setSoftOverrides 2) State.reset) = [0x14] := by decide

/-- R134: a host cap holds the target down. -/
theorem test_push_override : (after (.pushOverride 300) running).snc.adopted = 300 := by decide

/-- R135: nothing to release. -/
theorem test_release_refused : reply (after .releaseOverride running) = [0x17] := by decide

/-- R136: depth 1, boost off, soft overrides on, and DOCKED, hard, cap 0, saved on, unreleased. -/
theorem test_read_overrides :
    reply (after .readOverrides docked) = [0x00, 1, 0, 1, 5, 0, 0, 0, 1, 0] := by decide

/-- R140: a pulse above the low level. -/
theorem test_impact : (after (.impact .fine) State.reset).dsu.fine = 1 := by decide

/-- R156: an empty ring gives no record. -/
theorem test_read_history : reply (after (.readDirtHistory 16) State.reset) = [0x00, 0] := by decide

/-- R194: outside CHARGE_FAULT the request is refused. -/
theorem test_clear_fault_refused : reply (after .clearChargeFault docked) = [0x17] := by decide

/-- R180: the first PROBE of PROBING. -/
theorem test_probe : (after .probeDue (inSession .probing State.reset)).dlc.probes = 1 := by decide

/-- R181: a KEEP in ACTIVE. -/
theorem test_keep :
    (after .keepDue (inSession .active State.reset)).dlc.exchange.map Exchange.frame = some .keep := by decide

/-- R181: the retry wait ends and the ASK that is due is sent. -/
theorem test_retry :
    (after .retryWaitEnd (docked.modDlc fun d =>
      { d with retry := some .afterMiss, askDue := true, askVoltage := 25500, askCurrent := 2000
        })).dlc.exchange.map Exchange.frame = some (.ask 25500 2000) := by decide

/-- R178: the answer is awaited when the last byte is sent. -/
theorem test_frame_sent :
    ((after .dockFrameSent (after .keepDue (inSession .active State.reset))).dlc.exchange.map
      Exchange.awaiting) = some true := by decide

/-- R186: charge entry at an OFFER, in CC with 6 × 4200 + 300 mV asked. -/
theorem test_offer :
    (after (.offerReceived 1 26000 3000)
      (awaiting .probe (inSession .probing docked))).pmg.askedVoltage = 25500 := by decide

/-- R181: a GRANT makes the session ACTIVE. -/
theorem test_grant :
    (after (.grantReceived 25500 2000) (awaiting (.ask 25500 2000) docked)).dlc.session = .active := by decide

/-- R182: the first DECLINE of an ASK still due. -/
theorem test_decline :
    (after (.declineReceived 1) (awaiting (.ask 25500 2000) (docked.modDlc fun d =>
      { d with askDue := true }))).dlc.declines = 1 := by decide

/-- R181: a KEEPACK carries the dock current. -/
theorem test_keepack :
    (after (.keepackReceived 1234) (awaiting .keep (inSession .active docked))).dlc.dockCurrent =
      1234 := by decide

/-- R180: the tenth PROBE without an answer loses the session. -/
theorem test_dock_timeout :
    (after .dockAnswerTimeout (awaiting .probe ((inSession .probing State.reset).modDlc fun d =>
      { d with probes := 10 }))).dlc.session = .lost := by decide

/-- R178: an invalid answer is a miss. -/
theorem test_invalid_answer :
    (after .invalidDockAnswer (awaiting .keep (inSession .active docked))).dlc.misses = 1 := by decide

/-- R18: a KEEPACK of 1234 mA is 24 02 D2 04 and the check byte 04. -/
theorem test_keepack_bytes : dockAnswerBytes (.keepack 1234) = [0x24, 0x02, 0xD2, 0x04, 0x04] := by decide

/-- R11: a cold start that RESET joins stays cold. -/
theorem test_cold_hold :
    (after .resetAssert (after (.coldStart false false) ((running.modKa fun k =>
      { k with marker := false }).modPins fun p => { p with supplyLow := true }))).domain = .held .cold := by decide

/-- The same state with no detector armed. -/
def unarmed (s : State) : State :=
  s.modTdu fun t =>
    let off := { t.detectors.d2 with armed := false, measurement := none }
    { t with detectors := ⟨off, off, off⟩ }

/-- Entry 3: a tick of the 1 ms clock at the sixteenth millisecond counts T0 down. -/
theorem test_tick :
    (match step (unarmed (State.reset.modTdu fun t => { t with clock := 15 })) with
      | .next t => t.tdu.timers.i0.count
      | .fault _ | .refused _ => 0) = 15 := by decide

/-- R57: a sample that shows the other level abandons a measurement of 31 ms, and the next at the new level begins
anew. -/
theorem test_bounce :
    let d : Detector := { armed := true, polarity := .rising, debounce := 8, measurement := some 31 }
    ((d.sampled true).reached = true ∧ (d.sampled false).measurement = none) ∧
      ((d.sampled false).sampled true).measurement = some 0 := by decide

/-- R145: the watch that clears at a close evaluates at the boost level before it. Its 450 su meets the gate, and the
500 su of the new boost level then replaces the pending target. -/
def clearsAtClose : State :=
  ((((running.modSnc fun c =>
    { c with
      adopted := 300
      applied := 300
      stack := [{ source := .watch .i0, cap := 300, saved := true, released := false }]
      boostPermitted := false }).modChan fun c => { c with target := 300 }).modDsu fun d =>
        { d with fine := 100, opening := 300 }).modWcu fun w =>
          { w with
            entries := { w.entries with
              i0 := { WatchRecord.warm with
                kind := .trap, channel := .dirtNet, low := 1000, high := 2000, action := .override, cap := 300 }
              i1 := { WatchRecord.warm with
                kind := .gate, channel := .target, low := 450, high := 450, action := .hold } }
            comparisons := { w.comparisons with i0 := { raised := true, outside := 7 } } })

theorem test_watch_compares_before_boost_moves :
    (after (.timerExpiry .i0) clearsAtClose).snc.suction = .held .run 500 ∧
      (after (.timerExpiry .i0) clearsAtClose).dsu.boostLevel = 1 := by decide

/-- A run under two raised watches, with a base below s_min, a boost above it and a speed below 50. -/
def twoWatches : State :=
  (((clearsAtClose.modDsu fun d => { d with boostLevel := 1 }).modSnc fun c =>
    { c with
      boostPermitted := false
      stack :=
        [{ source := .watch .i1, cap := 1250, saved := false, released := false },
          { source := .watch .i0, cap := 1250, saved := true, released := false }] }).modKa fun k =>
    { k with presets := { k.presets with p1 := { base := 50, step := 250, ceiling := 500, notify := false } } }).modChan
      fun c => { c with speed := 40 }

def clearsOf (units : List Idx4) : List (State → State) := units.map fun u => deliverOverride id (.cleared u)

/-- R105, R129, R130: two clears of one comparison lead from RUN to OFF and on to SPINUP, in either order; that OFF was
entered is noted. -/
theorem test_two_clears_enter_off_and_leave_it :
    twoWatches.snc.suction.reported = .run ∧ twoWatches.dsu.boostLevel = 1 ∧
      (takeNotingRest (clearsOf [.i0]) twoWatches).1.snc.suction.reported = .off ∧
      (takeNotingRest (clearsOf [.i1]) twoWatches).1.snc.suction.reported = .off ∧
      (takeNotingRest (clearsOf [.i0, .i1]) twoWatches).1.snc.suction.reported = .spinUp ∧
      (takeNotingRest (clearsOf [.i1, .i0]) twoWatches).1.snc.suction.reported = .spinUp ∧
      (takeNotingRest (clearsOf [.i0, .i1]) twoWatches).2 = true ∧
      (takeNotingRest (clearsOf [.i1, .i0]) twoWatches).2 = true := by decide

/-! ### Witnesses: states and operands that meet the hypotheses of the statements, chapters 1 to 4 -/

theorem witness_IdleStepsAndStoppedDomain :
    (running.pending = [] ∧ running.domain = .awake) ∧ (asleep.pending = [] ∧ asleep.domain ≠ .awake) ∧
      needsMain .identify = true := by decide

/-- Whether a running timer's rate clock ticks at the next millisecond. -/
def ticking (s : State) (k : Idx4) : Bool :=
  (s.tdu.timers.get k).running &&
    decide ((s.tdu.clock + 1) % 4000 % (s.tdu.timers.get k).rate.milliseconds = 0)

/-- Whether a detector detects at the next sample. -/
def detecting (s : State) (d : DetectorId) : Bool :=
  let x := s.tdu.detectors.get d
  x.armed && decide ((Pins.atTick s.draws s.pins).level d = decide (x.polarity = .rising)) &&
    decide (4 * x.debounce ≤ (x.measurement.map (· + 1)).getD 0)

/-- The one detector armed, for the level that its line shows at the next tick. -/
def dueAt (d : DetectorId) (debounce : Nat) (measured : Option Nat) (s : State) : State :=
  (unarmed s).modTdu fun t =>
    { t with
      detectors := t.detectors.set d
        { armed := true
          polarity := if (Pins.atTick s.draws s.pins).level d then .rising else .falling
          debounce := debounce
          measurement := measured } }

theorem detecting_dueAt (d : DetectorId) (debounce : Nat) (measured : Option Nat) (s : State)
    (h : 4 * debounce ≤ (measured.map (· + 1)).getD 0) : detecting (dueAt d debounce measured s) d = true := by
  have level : decide ((if (Pins.atTick s.draws s.pins).level d then Polarity.rising else .falling) = .rising) =
      (Pins.atTick s.draws s.pins).level d := by
    cases (Pins.atTick s.draws s.pins).level d <;> rfl
  have shows : (Pins.atTick s.draws s.pins).level d =
      decide (((dueAt d debounce measured s).tdu.detectors.get d).polarity = .rising) := by
    cases d <;> exact level.symm
  have counts : 4 * ((dueAt d debounce measured s).tdu.detectors.get d).debounce ≤
      (((dueAt d debounce measured s).tdu.detectors.get d).measurement.map (· + 1)).getD 0 := by
    cases d <;> exact h
  have armed : ((dueAt d debounce measured s).tdu.detectors.get d).armed = true := by cases d <;> rfl
  unfold detecting
  simp only [armed, Bool.true_and, Bool.and_eq_true, decide_eq_true_eq]
  exact ⟨shows, counts⟩

/-- The last millisecond of T0's first interval. -/
def dueT0 : State :=
  (unarmed State.reset).modTdu fun t =>
    { t with clock := 255, timers := { t.timers with i0 := { t.timers.i0 with count := 1 } } }

/-- The bin at its new level for 31 of its 32 ms. -/
def dueD1 : State := dueAt .d1 8 (some 31) State.reset

def dueSecond : State := unarmed (running.modTdu fun t => { t with runMs := 999 })

/-- AUX at the new level of a D2 without debounce. -/
def dueD2 : State := dueAt .d2 0 none State.reset

theorem witness_IdleStepsAndStoppedDomain_ticks :
    (Quiet (unarmed State.reset) ∧ (unarmed State.reset).pending = [] ∧
      (allUnits.all fun k => !ticking (unarmed State.reset) k) = true ∧
      (allDetectors.all fun d => !detecting (unarmed State.reset) d) = true ∧
      (unarmed State.reset).tdu.runMark = false) ∧
    (Quiet dueT0 ∧ dueT0.pending = [] ∧ ticking dueT0 .i0 = true ∧ (dueT0.tdu.timers.get .i0).count = 1 ∧
      (allUnits.all fun k => decide (k = .i0) || !ticking dueT0 k) = true ∧
      (allDetectors.all fun d => !detecting dueT0 d) = true ∧ dueT0.tdu.runMark = false) ∧
    ((Quiet dueD1 ∧ detecting dueD1 .d1 = true) ∧ dueD1.pending = [] ∧
      (allDetectors.all fun d => decide (d = .d1) || !detecting dueD1 d) = true ∧
      (allUnits.all fun k => !ticking dueD1 k) = true ∧ dueD1.tdu.runMark = false) ∧
    (dueSecond.pending = [] ∧ dueSecond.tdu.runMark = true ∧ dueSecond.tdu.runMs = 999 ∧
      (allUnits.all fun k => !ticking dueSecond k) = true ∧
      (allDetectors.all fun d => !detecting dueSecond d) = true) ∧
    ((Quiet dueD2 ∧ detecting dueD2 .d2 = true) ∧ dueD2.pending = []) ∧
    ticking (startTimer .i3 State.reset) .i3 = true :=
  ⟨⟨quiet rfl rfl, by decide⟩, ⟨quiet rfl rfl, by decide⟩,
    ⟨⟨quiet rfl rfl, detecting_dueAt _ _ _ _ (by decide)⟩, by decide⟩, by decide,
    ⟨⟨quiet rfl rfl, detecting_dueAt _ _ _ _ (by decide)⟩, by decide⟩, by decide⟩

theorem witness_MainRowsLeaveTheLine :
    Quiet running ∧ isUnitEvent .controlPeriod = true ∧ touchesKeepAlive .controlPeriod = false ∧
      storesConverted .controlPeriod = false := ⟨quiet rfl rfl, by decide⟩

def receiving (r : Receiver) : State := setReceiver r State.reset

theorem witness_ByteMovesTheReceiver :
    ((receiving .hunt).domain = .awake ∧ (receiving .hunt).link.receiver = .hunt) ∧
      ((receiving .length).domain = .awake ∧ (receiving .length).link.receiver = .length ∧
        (1 ≤ (1 : Byte).toNat ∧ (64 : Byte).toNat ≤ 64) ∧ (0 : Byte).toNat = 0 ∧ 65 ≤ (65 : Byte).toNat) ∧
      (receiving (.body 2 [7])).link.receiver = .body (0 + 2) [7] ∧
      (receiving (.body 1 [7])).link.receiver = .body 1 [7] ∧
      (receiving (.check [7])).link.receiver ≠ .hunt := by decide

def full : State := (receiving (.check [0x01])).modLink fun l => { l with queue := [⟨1, []⟩, ⟨1, []⟩] }

theorem witness_FrameIsJudged :
    ((receiving (.check [0x01])).domain = .awake ∧
      (receiving (.check [0x01])).link.receiver = .check (0x01 :: []) ∧
      (byteOf 1 :: 0x01 :: [] ++ [0xFF]).foldl (· + ·) (0 : Byte) ≠ 0 ∧
      (byteOf 1 :: 0x01 :: [] ++ [0xFE]).foldl (· + ·) (0 : Byte) = 0 ∧
      (receiving (.check [0x01])).link.queue.length < 2) ∧
    (full.domain = .awake ∧ full.link.receiver = .check (0x01 :: []) ∧ 2 ≤ full.link.queue.length) := by decide

theorem witness_WholeFrameIsTaken :
    State.reset.domain = .awake ∧ State.reset.link.receiver = .hunt ∧
      ((1 : Byte).toNat = ([] : List Byte).length + 1 ∧
        ((1 : Byte) :: 0x01 :: [] ++ [0xFE]).foldl (· + ·) (0 : Byte) = 0 ∧
        ((1 : Byte) :: 0x01 :: [] ++ [0]).foldl (· + ·) (0 : Byte) ≠ 0) ∧
      ((64 : Byte).toNat = (List.replicate 63 (0 : Byte)).length + 1 ∧
        (List.replicate 63 (0 : Byte)).length ≤ 63) := by decide

theorem witness_LinkRefusals :
    Ready running ∧ (0 : Byte).toNat = 0 ∧ 26 ≤ (26 : Byte).toNat ∧
      (1 ≤ (1 : Byte).toNat ∧ lengthAllowed 1 1 = false) ∧
      ((25 : Byte).toNat ≤ 25 ∧ lengthAllowed 25 1 = false) := ⟨ready rfl rfl, by decide⟩

def pendingNotices : State :=
  State.reset.modLink fun l => { l with notices := { NoticeMarks.none with dirt := true, detector := true } }

def nothingPending : State := State.reset.modLink fun l => { l with notices := NoticeMarks.none }

/-- A reply in the slot and a request behind it. -/
def queued (closing : Bool) : State :=
  (after .resume State.reset).modLink fun l => { l with queue := [⟨0x01, []⟩], closing := closing }

def allEnabled : State :=
  State.reset.modLink fun l => { l with enables := { l.enables with watch := true, timer := true, detector := true } }

theorem witness_NoticesAndTransmitter :
    (State.reset.domain = .awake ∧ State.reset.link.tx = some (startedFrame .cold true) ∧
      (startedFrame .cold true).ending = .plain ∧ State.reset.link.queue = [] ∧
      State.reset.link.slot = none ∧ lowestPending State.reset.link.notices = some .pack) ∧
    (nothingPending.link.tx = some (startedFrame .cold true) ∧ nothingPending.link.queue = [] ∧
      nothingPending.link.slot = none ∧ lowestPending nothingPending.link.notices = none) ∧
    ((queued false).domain = .awake ∧ (queued false).link.tx = some (startedFrame .cold true) ∧
      (queued false).link.slot = some { kind := 0x48, payload := [0x17], ending := .plain } ∧
      (queued false).link.queue = ⟨0x01, []⟩ :: [] ∧ (queued false).link.closing = false ∧
      (queued true).link.closing = true) ∧
    ((after .resume State.reset).link.slot =
      some { kind := 0x48, payload := [0x17], ending := .plain } ∧
      (after .resume State.reset).link.queue = []) ∧
    (pendingNotices.link.slot = none ∧ pendingNotices.link.closing = false ∧
      lowestPending pendingNotices.link.notices = some .dirt) ∧
    (State.reset.link.enables.get .suction = true ∧ State.reset.link.enables.get .dirt = false ∧
      State.reset.link.enables.watch = false ∧ State.reset.link.enables.timer = false ∧
      State.reset.link.enables.detector = false) ∧
    (allEnabled.link.enables.watch = true ∧ allEnabled.link.enables.timer = true ∧
      allEnabled.link.enables.detector = true) := by decide

def sending (e : Ending) (s : State) : State :=
  s.modLink fun l => { l with tx := some { kind := 0x58, payload := [0], ending := e }, closing := true }

theorem witness_SleepAndRestart :
    Ready State.reset ∧ Ready running ∧
      ((State.reset.snc.suction = .moving .off ∧ State.reset.pmg.state = .discharge ∧
        State.reset.dlc.session = .absent) ∧ running.snc.suction ≠ .moving .off) ∧
      ((sending .sleep running).domain = .awake ∧
        (sending .sleep running).link.tx = some { kind := 0x58, payload := [0], ending := .sleep }) :=
  ⟨ready rfl rfl, ready rfl rfl, by decide⟩

def abandoned : State := (sending .sleep running).modLink fun l => { l with queue := [⟨0x01, []⟩] }

theorem witness_SleepAndRestart_abandoned :
    abandoned.domain = .awake ∧ abandoned.link.tx = some { kind := 0x58, payload := [0], ending := .sleep } ∧
      abandoned.snc.suction ≠ .moving .off ∧ abandoned.link.slot = none ∧
      abandoned.link.queue = ⟨0x01, []⟩ :: [] ∧ lowestPending abandoned.link.notices = some .pack := by decide

def markerLost : State := running.modKa fun k => { k with marker := false }

theorem witness_WarmStartValues :
    (running.ka.presets.p0.base = 0 ∧ (sending .restart running).domain = .awake ∧
      (sending .restart running).link.tx = some { kind := 0x58, payload := [0], ending := .restart }) ∧
    (asleep.ka.presets.p0.base = 0 ∧ asleep.domain = .sleep ∧ asleep.pins.resetLow = false ∧
      asleep.pins.supplyLow = false) ∧
    ((after .resetAssert running).domain = .held .reset ∧ (after .resetAssert running).pins.resetLow = true ∧
      (after .resetAssert running).pins.supplyLow = false) ∧
    ((after .supplyDip running).domain = .held .supply ∧ (after .supplyDip running).pins.supplyLow = true ∧
      (after .supplyDip running).pins.resetLow = false) ∧
    (markerLost.ka.marker = false ∧ markerLost.pins.resetLow = false ∧ markerLost.pins.supplyLow = false) := by
  decide

theorem witness_InputsHighAtStart :
    asleep.ka.presets.p0.base = 0 ∧ asleep.domain = .sleep ∧ asleep.pins.resetLow = false ∧
      asleep.pins.supplyLow = false := by decide

def bothLow : State := after .supplyDip (after .resetAssert running)

theorem witness_LinesAndSupplies :
    (running.domain = .awake ∧ running.pins.resetLow = false ∧ running.pins.supplyLow = false) ∧
      (asleep.domain = .sleep ∧ asleep.pins.resetLow = false) ∧
      (bothLow.pins.resetLow = true ∧ bothLow.pins.supplyLow = true) ∧ running.ka.marker = true ∧
      (markerLost.ka.marker = false ∧ markerLost.pins.resetLow = false ∧
        markerLost.pins.supplyLow = false) := by decide

def heldCold : State := running.setDomain (.held .cold)

def lostInReset : State := markerLost.modPins fun p => { p with resetLow := true }

theorem witness_LinesAndSupplies_cold :
    (heldCold.domain = .held .cold ∧ heldCold.pins.resetLow = false ∧ heldCold.pins.supplyLow = false) ∧
      (lostInReset.ka.marker = false ∧ lostInReset.pins.resetLow = true) := by decide

theorem witness_SectionIsRead :
    Ready docked ∧ 10 ≤ (10 : Byte).toNat ∧ (0 : Byte).toNat = 0 ∧
      SectionId.entryCount .watch < (3 : Byte).toNat + (2 : Byte).toNat ∧
      (1 ≤ (1 : Byte).toNat ∧ (3 : Byte).toNat + (1 : Byte).toNat ≤ SectionId.entryCount .watch) :=
  ⟨ready rfl rfl, by decide⟩

theorem witness_SectionIsRead_held :
    Ready (charging .cc) ∧ (charging .cc).wcu.claim ≠ none ∧ 1 < (2 : Byte).toNat ∧
      (2 : Byte).toNat + (2 : Byte).toNat ≤ SectionId.entryCount .watch ∧ 2 ≤ (2 : Byte).toNat + 0 :=
  ⟨ready rfl rfl, by decide⟩

def zeros : List Byte := List.replicate 13 0

def reserved : State :=
  State.reset.setReservation (some { sectionId := .watch, first := 3, count := 1, broken := false })

theorem witness_WriteTestsInOrder :
    (Ready State.reset ∧ Ready reserved ∧ Ready (charging .cc)) ∧
    (10 ≤ (10 : Byte).toNat ∧ (0 : Byte).toNat = 0 ∧
      SectionId.entryCount .watch < (3 : Byte).toNat + (2 : Byte).toNat) ∧
    (1 ≤ (1 : Byte).toNat ∧ (3 : Byte).toNat + (1 : Byte).toNat ≤ SectionId.entryCount .watch) ∧
    (zeros.length ≠ (1 : Byte).toNat * SectionId.entrySize .preset ∧
      zeros.length = (1 : Byte).toNat * SectionId.entrySize .watch) ∧
    allReadOnlyKept .service State.reset 0 (chunks 7 1 (List.replicate 7 1)) = false ∧
    (allReadOnlyKept .watch (charging .cc) 3 (chunks 13 1 zeros) = true ∧
      touchesClaim .watch 3 1 = true ∧ (charging .cc).wcu.claim.isSome = true) ∧
    (State.reset.wcu.claim.isSome = false ∧ parseAll .watch (chunks 13 1 (3 :: List.replicate 12 0)) = none) ∧
    (parseAll .watch (chunks 13 1 zeros)).isSome = true ∧
    ((1 : Byte) ≠ 0 ∧ State.reset.reservation ≠
        some { sectionId := .watch, first := 3, count := 1, broken := false } ∧
      reserved.reservation = some { sectionId := .watch, first := 3, count := 1, broken := false }) :=
  ⟨⟨ready rfl rfl, ready rfl rfl, ready rfl rfl⟩, by decide⟩

def topPreset : PresetEntry := { base := 1250, step := 250, ceiling := 500, notify := true }
def topSuction : SuctionEntry :=
  { kFan := 1000, sMin := 600, slewUp := 50, slewDown := 100, tKnee := 110, tCut := 121,
    currentLimit := 60000 }
def someDirt : DirtEntry :=
  { t1 := 1, t2 := 2, t3 := 20000, h := 500, floor := 5000, floorMax := 5000, blank := 10, hold := false }
def topGauge : GaugeEntry := { design := 36000000, qFull := 39600000, cycles := 65535 }
def lowCharge : ChargeEntry :=
  { iCc := 200, vCv := 4100, iTerm := 50, iPre := 50, windowLow := -10, windowHigh := 30, cool := -10 }
def topLimits : LimitsEntry :=
  { wPackMax := 600, socKnee := 100, vSag := 3700, vCut := 3300, packHot := 75, lowThreshold := 50,
    lowCap := 1250 }
def widest : WatchRecord :=
  { kind := .trap, channel := .cell, low := -8388608, high := 8388607, resolution := 7,
    action := .override, cap := 1250, report := true }
def topTimer : TimerEntry := { rate := .s4, preset := 4095, mode := .repeats, notice := true }
def topService : ServiceEntry :=
  { hours := 65535, anyHours := true, minutes := 59, anyMinutes := true, enable := true }

theorem witness_EntriesDecodeAsEncoded :
    topPreset.inRange ∧ (topSuction.inRange ∧ topSuction.tKnee + 10 < topSuction.tCut) ∧
      (someDirt.inRange ∧ someDirt.t1 < someDirt.t2 ∧ someDirt.t2 < someDirt.t3 ∧
        someDirt.floor ≤ someDirt.floorMax) ∧
      (topGauge.inRange ∧ { KeepAlive.cold with gauge := topGauge }.gauge = topGauge) ∧ lowCharge.inRange ∧
      topLimits.inRange ∧ (widest.inRange ∧ watchRelated widest = true) ∧ topTimer.inRange ∧
      topService.inRange := by
  unfold PresetEntry.inRange SuctionEntry.inRange DirtEntry.inRange GaugeEntry.inRange ChargeEntry.inRange
    LimitsEntry.inRange WatchRecord.inRange TimerEntry.inRange ServiceEntry.inRange
  and_intros <;> decide

/-- The entries of `witness_EntriesDecodeAsEncoded` at a ready link. -/
theorem witness_SettingsAreStored :
    Ready State.reset ∧ someDirt.inRange ∧ topLimits.inRange ∧ topService.inRange ∧ topTimer.inRange ∧
      topGauge.inRange :=
  have w := witness_EntriesDecodeAsEncoded
  ⟨ready rfl rfl, w.2.2.1.1, w.2.2.2.2.2.1, w.2.2.2.2.2.2.2.2, w.2.2.2.2.2.2.2.1, w.2.2.2.1.1⟩

theorem witness_SettingsAreActedOn :
    Ready State.reset ∧ Ready (charging .cc) ∧ topPreset.inRange ∧ topSuction.inRange ∧ lowCharge.inRange ∧
      widest.inRange ∧ PresetId.p7 ≠ .p0 ∧ State.reset.wcu.claim = none ∧
      ((charging .cc).wcu.claim = none ∨ Idx4.i1 = .i0 ∨ Idx4.i1 = .i1) :=
  have w := witness_EntriesDecodeAsEncoded
  ⟨ready rfl rfl, ready rfl rfl, w.1, w.2.1.1, w.2.2.2.2.1, w.2.2.2.2.2.2.1.1, by decide⟩

theorem witness_WritesAreClampedOrRefused :
    Ready State.reset ∧
      ((65535 : Nat) < 65536 ∧ (255 : Nat) < 256) ∧
      ({ topSuction with tCut := 120 }.inRange ∧ (120 : Int) ≤ topSuction.tKnee + 10) ∧
      ({ someDirt with t2 := 1 }.inRange ∧ (1 : Nat) ≤ someDirt.t1) ∧
      ({ someDirt with t3 := 2 }.inRange ∧ (2 : Nat) ≤ someDirt.t2) ∧
      ({ someDirt with floorMax := 4999 }.inRange ∧ (4999 : Nat) < someDirt.floor) ∧
      ({ widest with low := 1, high := 0 }.inRange ∧ { widest with low := 1, high := 0 }.high < 1) ∧
      ({ widest with kind := .gate }.inRange ∧ widest.channel ≠ .target) ∧
      ({ widest with kind := .gate, channel := .target }.inRange ∧ widest.action = .override) ∧
      ({ widest with channel := .target }.inRange ∧ widest.kind = .trap) ∧
      { widest with action := .hold }.inRange := by
  refine ⟨ready rfl rfl, ?_⟩
  unfold SuctionEntry.inRange DirtEntry.inRange WatchRecord.inRange
  and_intros <;> decide

/-- Entries whose numbers are clamped; the relations of the last two fail only after clamping. -/
theorem witness_WritesAreClampedOrRefused_sections :
    (PresetId.p7 ≠ .p0 ∧ (1251 : Nat) < 65536 ∧ (251 : Nat) < 256 ∧ (501 : Nat) < 65536) ∧
      ((65535 : Nat) < 65536 ∧ (255 : Nat) < 256 ∧ (-128 : Int) ≤ 127 ∧
        max 40 (min 110 (127 : Int)) + 10 < max 50 (min 125 (127 : Int))) ∧
      ((36000001 : Nat) < 4294967296 ∧ (4294967295 : Nat) < 4294967296) ∧
      State.reset.wcu.claim = none ∧ ((0 : Nat) < 65536 ∧ (60 : Nat) < 256) ∧
      ((20 : Int) + 10 < 31 ∧ max 50 (min 125 (31 : Int)) ≤ max 40 (min 110 (20 : Int)) + 10) ∧
      ((20000 : Nat) < 20001 ∧ max 1 (min 20000 20001) ≤ max 1 (min 20000 20000)) := by decide

theorem witness_ReadOnlyAndHeld :
    Ready State.reset ∧ Ready (charging .cv) ∧
      (1 ≤ (1 : Byte).toNat ∧ (8 : Byte).toNat ≤ 8 ∧
        (List.replicate 48 (0 : Byte)).length = (8 : Byte).toNat * 6) ∧
      [trustCode .calibrated] ++ bytes4 0 ≠ [trustCode State.reset.ka.trust] ++ bytes4 State.reset.ka.qRem ∧
      (charging .cv).wcu.claim ≠ none ∧ zeros.length = 13 := ⟨ready rfl rfl, ready rfl rfl, by decide⟩

theorem witness_StatusAndClearingRequests :
    Ready State.reset ∧ (none : Option Byte).getD 0 = 0 ∧ (some (0 : Byte)).getD 0 = 0 ∧
      (1 : Byte) ≠ 0 := ⟨ready rfl rfl, by decide⟩

def dischargingState : State :=
  running.modPmg fun p => { p with means := List.replicate 8 (-100) }

theorem witness_StatusAndClearingRequests_estimate :
    Ready dischargingState ∧ dischargingState.snc.suction.reported = .run ∧
      dischargingState.pmg.means.length = 8 ∧
      100 ≤ -(dischargingState.pmg.means.foldl (· + ·) 0).tdiv 8 ∧ State.reset.pmg.means.length ≠ 8 :=
  ⟨ready rfl rfl, by decide⟩

theorem witness_RequestsThatRead :
    Ready docked ∧ ((0 : Byte).toNat = 0 ∧ 17 ≤ (17 : Byte).toNat) ∧
      (1 ≤ (1 : Byte).toNat ∧ (16 : Byte).toNat ≤ 16) ∧ 12 ≤ (List.replicate 12 (0 : Byte)).length ∧
      ([(11 : Byte)].length ≤ 11 ∧ ∃ b ∈ [(11 : Byte)], 11 ≤ b.toNat) ∧
      (List.replicate 11 ChannelId.budget).length ≤ 11 := ⟨ready rfl rfl, by decide⟩

theorem witness_ConvertedChannels :
    Quiet running ∧ NearestWhole 500 1 ∧ NearestWhole (-500) (-1) ∧ NearestWhole (-40499) (-40) ∧
      NearestWhole 125499 125 ∧ (0 : Int) ≤ 0 := by
  refine ⟨quiet rfl rfl, ?_⟩
  unfold NearestWhole
  decide

/-- A motor or a pack whose hot condition stands. -/
def hot (src : Source) : State :=
  (running.modSnc fun c =>
    { c with
      marks := c.marks.set src true
      stack := [{ source := src, cap := 0, saved := true, released := false }]
      boostPermitted := false }).modPmg fun p => { p with hotMark := decide (src = .packHot) }

theorem witness_ConvertedChannels_hot :
    (Quiet running ∧ Quiet (hot .motorHot) ∧ Quiet (hot .packHot) ∧ Quiet docked) ∧
      (StackSound (hot .motorHot).snc) ∧
      (running.wcu.traps .motorT = false ∧ running.wcu.traps .packT = false ∧
        running.snc.marks.motorHot = false ∧ running.snc.stack.length < 4 ∧ running.pmg.hotMark = false ∧
        running.snc.marks.packHot = false ∧ running.pmg.state = .discharge) ∧
      ((hot .motorHot).snc.marks.motorHot = true ∧ (hot .motorHot).wcu.traps .motorT = false) ∧
      ((hot .packHot).pmg.hotMark = true ∧ (hot .packHot).wcu.traps .packT = false) ∧
      (NearestWhole 110000 110 ∧ running.ka.suction.tCut ≤ 110 ∧ ¬running.ka.suction.tCut ≤ 109) ∧
      (NearestWhole 70499 70 ∧ 70 ≤ running.ka.suction.tKnee ∧ running.ka.suction.tKnee < 71) ∧
      (NearestWhole 59500 60 ∧ (running.ka.limits.packHot : Int) ≤ 60 ∧
        59 < (running.ka.limits.packHot : Int)) ∧
      ((55 : Int) ≤ (running.ka.limits.packHot : Int) - 5 ∧ (running.ka.limits.packHot : Int) - 5 < 56) ∧
      (NearestWhole 125500 126 ∧ (125 : Int) < 126 ∧ NearestWhole (-40500) (-41) ∧ (-41 : Int) < -40) ∧
      (docked.pmg.hotMark = false ∧ docked.pmg.state.isCharging = false ∧ docked.pmg.state ≠ .discharge ∧
        docked.pmg.state ≠ .protect) := by
  refine ⟨⟨quiet rfl rfl, quiet rfl rfl, quiet rfl rfl, quiet rfl rfl⟩,
    ⟨by decide, by decide, fun _ => rfl, by decide⟩, ?_⟩
  unfold NearestWhole
  decide

/-- A hot mark in the dock, above pack hot less 5, and a charge whose PACK_T sample has no reading. -/
theorem witness_ConvertedChannels_marks_stay :
    Quiet (inPack .dockedWait (hot .packHot)) ∧ (inPack .dockedWait (hot .packHot)).pmg.hotMark = true ∧
      (hot .packHot).wcu.traps .packT = false ∧ (running.ka.limits.packHot : Int) - 5 < 56 ∧
      Quiet (inPack (.charging .cc) docked) ∧ (inPack (.charging .cc) docked).pmg.state.isCharging = true ∧
      docked.wcu.traps .packT = false ∧ running.ka.gauge.qFull ≠ 0 :=
  ⟨quiet rfl rfl, by decide, by decide, by decide, quiet rfl rfl, by decide⟩

theorem witness_CellSampleIsStored : Quiet (charging .cv) := quiet rfl rfl

def lastCoulomb : State :=
  (asleep.modKa fun k =>
    { k with discharged := 8999999, accSum := -1, accCount := 1, estimatePending := false }).setReservation
      (some { sectionId := .gauge, first := 0, count := 1, broken := false })

theorem witness_GaugeSecondAsleep :
    lastCoulomb.ka.gauge.cycles ≤ 65535 ∧ running.ka.gauge.cycles ≤ 65535 ∧ running.domain = .awake ∧
      (lastCoulomb.domain ≠ .awake ∧ lastCoulomb.ka.accCount ≠ 0 ∧ lastCoulomb.ka.estimatePending = false) ∧
      (after .gaugeSecond lastCoulomb).ka.gauge.cycles ≠ lastCoulomb.ka.gauge.cycles ∧
      lastCoulomb.reservation = some { sectionId := .gauge, first := 0, count := 1, broken := false } := by
  decide

def beforeEstimate : State := asleep.modKa fun k => { k with accSum := 7, accCount := 1 }

def otherReserved : State :=
  lastCoulomb.setReservation (some { sectionId := .watch, first := 0, count := 1, broken := false })

def midCycle : State := lastCoulomb.modKa fun k => { k with discharged := 0 }

theorem witness_GaugeSecondAsleep_reservation :
    (beforeEstimate.domain ≠ .awake ∧ beforeEstimate.ka.accCount ≠ 0 ∧
      beforeEstimate.ka.estimatePending = true) ∧
    (midCycle.ka.gauge.cycles ≤ 65535 ∧ midCycle.domain ≠ .awake ∧ midCycle.ka.accCount ≠ 0 ∧
      midCycle.ka.estimatePending = false ∧
      (after .gaugeSecond midCycle).ka.gauge.cycles = midCycle.ka.gauge.cycles) ∧
    (otherReserved.reservation =
      some { sectionId := .watch, first := 0, count := 1, broken := false } ∧
      SectionId.watch ≠ .gauge) ∧
    (lastCoulomb.setReservation none).reservation = none := by decide

/-- A running motor at a gauge second, with its cells at v. -/
def atSecond (v sum : Int) : State :=
  (withCells v running).modKa fun k => { k with accSum := sum, accCount := 1 }

theorem witness_GaugeSecondAwake :
    (Quiet (atSecond 3299 1) ∧ Quiet (atSecond 3300 0) ∧ Quiet (atSecond 3400 0)) ∧
      ((atSecond 3299 1).ka.gauge.cycles ≤ 65535 ∧ (atSecond 3299 1).ka.accCount ≠ 0 ∧
        (atSecond 3299 1).ka.estimatePending = false) ∧
      (lowestCell (atSecond 3299 1).chan.cell = some 3299 ∧ (atSecond 3299 1).snc.isRunning = true ∧
        (3299 : Int) < (atSecond 3299 1).ka.limits.vSag) ∧
      (lowestCell (atSecond 3300 0).chan.cell = some 3300 ∧
        ¬(3300 : Int) < (atSecond 3300 0).ka.limits.vSag) ∧
      (lowestCell (atSecond 3400 0).chan.cell = some 3400 ∧
        ((atSecond 3400 0).ka.limits.vSag : Int) + 100 ≤ 3400) ∧
      lowestCell (Six.all .noReading) = none ∧
      (((atSecond 3299 1).ka.gauge.qFull : Int) <
          (atSecond 3299 1).ka.qRem + (atSecond 3299 1).ka.accSum.tdiv (atSecond 3299 1).ka.accCount ∧
        (atSecond 3299 1).pmg.state.bleeds = false ∧ (atSecond 3299 1).snc.conditions.ovf = none) ∧
      (((atSecond 3299 (-9000001)).ka.qRem : Int) + (-9000001) < 0 ∧
        (atSecond 3299 (-9000001)).snc.conditions.unf = none) :=
  ⟨⟨quiet rfl rfl, quiet rfl rfl, quiet rfl rfl⟩, by decide⟩

def emptyPack (lowCharge : Bool) (percent : Nat) : State :=
  ((atSecond 3400 0).modKa fun k => { k with qRem := 90000 * percent }).modPmg fun p =>
    { p with lowCharge := lowCharge }

def lowEntry (released : Bool) : OverrideEntry :=
  { source := .lowCharge, cap := 0, saved := true, released := released }

def lowCapped (released : Bool) (percent : Nat) : State :=
  (emptyPack true percent).modSnc fun c => { c with stack := [lowEntry released], boostPermitted := false }

theorem witness_GaugeSecondAwake_budget_and_low_charge :
    (Quiet (emptyPack false 10) ∧ (emptyPack false 10).pmg.state = .discharge ∧
      (emptyPack false 10).ka.accCount ≠ 0 ∧ (emptyPack false 10).ka.estimatePending = false ∧
      allCellsValid (emptyPack false 10).chan.cell = true ∧ (emptyPack false 10).chan.packT ≠ .noReading ∧
      (emptyPack false 10).chan.motorT ≠ .noReading ∧
      (after .gaugeSecond (emptyPack false 10)).pmg.budget ≠ (emptyPack false 10).pmg.budget) ∧
    ((emptyPack false 10).wcu.traps .soc = false ∧ (emptyPack false 10).wcu.traps .budget = false ∧
      (emptyPack false 10).pmg.lowCharge = false ∧ (emptyPack false 10).snc.softOverrides = true ∧
      (after .gaugeSecond (emptyPack false 10)).pmg.lowCharge = true ∧
      (after .gaugeSecond (emptyPack false 11)).pmg.lowCharge = false ∧
      findEntry .lowCharge (emptyPack false 10).snc.stack = none ∧
      (emptyPack false 10).snc.stack.length < 4) ∧
    (findEntry .lowCharge (lowCapped true 12).snc.stack = some (lowEntry true) ∧
      findEntry .lowCharge (lowCapped false 12).snc.stack = some (lowEntry false) ∧
      (lowCapped true 12).pmg.lowCharge = true ∧
      (after .gaugeSecond (lowCapped true 12)).pmg.lowCharge = true ∧
      (after .gaugeSecond (lowCapped false 13)).pmg.lowCharge = false) ∧
    StackSound (lowCapped false 13).snc :=
  ⟨⟨quiet rfl rfl, by decide⟩, by decide, by decide, ⟨by decide, by decide, fun _ => rfl, by decide⟩⟩

/-- A charge at a gauge second. -/
def chargingSecond (phase : Phase) (v : Int) (precharge : Nat) : State :=
  ((withCells v (charging phase)).modKa fun k => { k with accSum := 100, accCount := 1 }).modPmg fun p =>
    { p with precharge := precharge, askedVoltage := 25480 }

theorem witness_GaugeSecondAwake_charge_steps :
    (Quiet (chargingSecond .precharge 2999 1798) ∧ Quiet (chargingSecond .cv 4201 0)) ∧
      ((chargingSecond .precharge 2999 1798).ka.accCount ≠ 0 ∧
        (chargingSecond .precharge 2999 1798).ka.estimatePending = false ∧
        (chargingSecond .precharge 2999 1798).ka.gauge.cycles ≤ 65535 ∧
        (chargingSecond .precharge 2999 1798).pmg.state = .charging .precharge ∧
        (chargingSecond .precharge 2999 1798).pmg.precharge < 1799 ∧
        1799 ≤ (chargingSecond .precharge 2999 1799).pmg.precharge) ∧
      ((chargingSecond .cv 4201 0).pmg.state = .charging .cv ∧
        highestCell (chargingSecond .cv 4201 0).chan.cell = some 4201 ∧
        ((chargingSecond .cv 4201 0).ka.charge.vCv : Int) < 4201 ∧
        highestCell (chargingSecond .cv 4189 0).chan.cell = some 4189 ∧
        (4189 : Int) < (chargingSecond .cv 4189 0).ka.charge.vCv - 10 ∧
        (chargingSecond .cv 4189 0).pmg.askedVoltage < 6 * (chargingSecond .cv 4189 0).ka.charge.vCv + 300 ∧
        ¬(4190 : Int) < (chargingSecond .cv 4190 0).ka.charge.vCv - 10) ∧
      lowestCell (chargingSecond .done 3901 0).chan.cell = some 3901 :=
  ⟨⟨quiet rfl rfl, quiet rfl rfl⟩, by decide⟩

/-- A state with a control period at the front of its queue. -/
def aboutToRun (s : State) : State := s.setPending [.controlPeriod]

theorem witness_KeepAliveStaysSound :
    (∃ t, step (aboutToRun running) = .next t) ∧ StopPresetFixed running.ka ∧ GaugeBounded running.ka :=
  ⟨⟨_, rfl⟩, fun _ => rfl, fun _ => by decide⟩

def timerNoticed : State :=
  (startTimer .i3 (State.reset.modTdu fun t =>
    { t with entries := { t.entries with i3 := { topTimer with rate := .ms1 } } })).modLink
      fun l => { l with enables := { l.enables with timer := true } }

def learning (s : State) : State := s.modPmg fun p => { p with learning := some { qStart := 500000, added := 7 } }

theorem witness_GaugeSecondAwake_learning :
    (Quiet (learning (chargingSecond .cc 3700 0)) ∧
      (learning (chargingSecond .cc 3700 0)).pmg.state = .charging .cc ∧ Phase.cc ≠ .done ∧
      (learning (chargingSecond .cc 3700 0)).pmg.learning = some { qStart := 500000, added := 7 } ∧
      (learning (chargingSecond .cc 3700 0)).ka.accSum.tdiv (learning (chargingSecond .cc 3700 0)).ka.accCount =
        100) ∧
    (Quiet (learning (chargingSecond .done 4200 0)) ∧
      (learning (chargingSecond .done 4200 0)).pmg.state = .charging .done) ∧
    (Quiet (learning (chargingSecond .precharge 2999 1799)) ∧
      (learning (chargingSecond .precharge 2999 1799)).pmg.state = .charging .precharge ∧
      1799 ≤ (learning (chargingSecond .precharge 2999 1799)).pmg.precharge) :=
  ⟨⟨quiet rfl rfl, by decide⟩, ⟨quiet rfl rfl, by decide⟩, quiet rfl rfl, by decide⟩

theorem witness_TimerExpires :
    (Quiet State.reset ∧ (State.reset.tdu.timers.get .i1).running = false ∧
      (State.reset.tdu.timers.get .i0).running = true ∧ (State.reset.tdu.entries.get .i0).notice = false) ∧
    (Quiet timerNoticed ∧ (timerNoticed.tdu.timers.get .i3).running = true ∧
      (timerNoticed.tdu.entries.get .i3).notice = true ∧ timerNoticed.link.enables.timer = true) :=
  ⟨⟨quiet rfl rfl, by decide⟩, ⟨rfl, by decide, Or.inl rfl⟩, by decide⟩

theorem witness_TimerControlAndArmDetector :
    Ready running ∧ (4 ≤ (4 : Byte).toNat ∧ (3 : Byte).toNat < 4 ∧ 2 ≤ (2 : Byte).toNat ∧
      (1 : Byte).toNat < 2) ∧
      (3 ≤ (3 : Byte).toNat ∧ (1 : Byte).toNat < 2 ∧ 3 ≤ (3 : Byte).toNat ∧ (1 : Byte).toNat < 2) :=
  ⟨ready rfl rfl, by decide⟩

def armedD2 : State := armDetector .d2 .rising 0 State.reset

def binHigh : State := armDetector .d1 .falling 8 State.reset

theorem witness_Detections :
    (Quiet State.reset ∧ (State.reset.tdu.detectors.get .d2).armed = false ∧
      State.reset.tdu.detectors.d1.armed = true ∧ State.reset.tdu.detectors.d1.polarity = .rising ∧
      State.reset.snc.marks.binOpen = false ∧ State.reset.snc.stack.length < 4) ∧
    (Quiet armedD2 ∧ armedD2.tdu.detectors.d2.armed = true) ∧
    (Quiet binHigh ∧ binHigh.tdu.detectors.d1.armed = true ∧
      binHigh.tdu.detectors.d1.polarity = .falling) :=
  ⟨⟨quiet rfl rfl, by decide⟩, ⟨quiet rfl rfl, by decide⟩, quiet rfl rfl, by decide⟩

def trapEntry (k : Idx4) : OverrideEntry := { source := .watch k, cap := 300, saved := false, released := false }

def binEntry (released saved : Bool) : OverrideEntry :=
  { source := .binOpen, cap := 0, saved := saved, released := released }

/-- A bin whose entry, or whose want of one, meets a given stack. -/
def binStack (polarity : Polarity) (mark : Bool) (stack : List OverrideEntry) : State :=
  (armDetector .d1 polarity 8 State.reset).modSnc fun c =>
    { c with stack := stack, boostPermitted := false, marks := { c.marks with binOpen := mark } }

def fullStack : List OverrideEntry :=
  [trapEntry .i3, trapEntry .i2, trapEntry .i1, { trapEntry .i0 with saved := true }]

theorem witness_Detections_bin_entry :
    (Quiet (binStack .rising false fullStack) ∧ findEntry .binOpen fullStack = none ∧ 4 ≤ fullStack.length ∧
      (binStack .rising false fullStack).snc.suction.isHalt = false) ∧
    (inSuction (.halt .stall) (binStack .rising false fullStack)).snc.suction.isHalt = true ∧
    (Quiet (binStack .rising false [binEntry true true]) ∧ findEntry .binOpen [binEntry true true] ≠ none) ∧
    (Quiet (binStack .falling true [trapEntry .i0, binEntry false true]) ∧
      StackSound (binStack .falling true [trapEntry .i0, binEntry false true]).snc ∧
      (binStack .falling true [trapEntry .i0, binEntry false true]).snc.stack =
        [trapEntry .i0] ++ binEntry false true :: [] ∧
      (binStack .falling true [trapEntry .i0, binEntry false true]).pmg.state ≠ .dockedWait) ∧
    (Quiet (binStack .falling true [binEntry false false, { trapEntry .i0 with released := true, saved := true }]) ∧
      StackSound (binStack .falling true
        [binEntry false false, { trapEntry .i0 with released := true, saved := true }]).snc) :=
  ⟨⟨quiet rfl rfl, by decide⟩, by decide, ⟨quiet rfl rfl, by decide⟩,
    ⟨quiet rfl rfl, ⟨by decide, by decide, fun _ => rfl, by decide⟩, by decide⟩,
    quiet rfl rfl, by decide, by decide, fun _ => rfl, by decide⟩

def dockHigh : State := armDetector .d0 .falling 8 (charging .cc)

theorem witness_DockInsertionAndRemoval :
    (Quiet running ∧ running.tdu.detectors.d0.armed = true ∧
      running.tdu.detectors.d0.polarity = .rising ∧ running.dlc.session = .absent ∧
      running.pmg.state = .discharge) ∧
    (Quiet dockHigh ∧ dockHigh.tdu.detectors.d0.armed = true ∧
      dockHigh.tdu.detectors.d0.polarity = .falling) :=
  ⟨⟨quiet rfl rfl, by decide⟩, quiet rfl rfl, by decide⟩

def dockStack (stack : List OverrideEntry) : State :=
  State.reset.modSnc fun c => { c with stack := stack, boostPermitted := false }

theorem witness_DockInsertionAndRemoval_entry :
    (Quiet (dockStack fullStack) ∧ (dockStack fullStack).snc.marks.docked = false ∧
      (dockStack fullStack).wcu.traps .budget = false ∧ findEntry .docked fullStack = none ∧
      4 ≤ fullStack.length ∧ (dockStack fullStack).snc.suction.isHalt = false) ∧
    (Quiet State.reset ∧ State.reset.snc.stack.length < 4 ∧ State.reset.pmg.state = .discharge) ∧
    (findEntry .docked [{ dockedEntry with released := true }] ≠ none) ∧
    (Quiet dockHigh ∧ StackSound dockHigh.snc ∧ dockHigh.snc.marks.docked = true ∧
      dockHigh.pmg.state.isCharging = true) ∧
    (Quiet (armDetector .d0 .falling 8 docked) ∧ StackSound (armDetector .d0 .falling 8 docked).snc ∧
      (armDetector .d0 .falling 8 docked).pmg.state = .dockedWait ∧
      (inPack (.fault .hot) docked).pmg.state = .fault .hot) :=
  ⟨⟨quiet rfl rfl, by decide⟩, ⟨quiet rfl rfl, by decide⟩, by decide,
    ⟨quiet rfl rfl, ⟨by decide, by decide, fun _ => rfl, by decide⟩, by decide⟩,
    quiet rfl rfl, ⟨by decide, by decide, fun _ => rfl, by decide⟩, by decide⟩

def lastSecond : State :=
  running.modKa fun k =>
    { k with
      motorTotal := { hours := 65535, minutes := 59, seconds := 59 }
      filter := { hours := 65534, minutes := 59, seconds := 59 }
      service := { hours := 65535, anyHours := false, minutes := 0, anyMinutes := false, enable := true } }

theorem witness_RunSecondCounts :
    (Quiet State.reset ∧ State.reset.tdu.runMark = false) ∧
    (Quiet lastSecond ∧ lastSecond.tdu.runMark = true ∧
      (lastSecond.ka.motorTotal.hours ≤ 65535 ∧ lastSecond.ka.motorTotal.minutes ≤ 59 ∧
        lastSecond.ka.motorTotal.seconds ≤ 59) ∧
      (lastSecond.ka.filter.hours ≤ 65535 ∧ lastSecond.ka.filter.minutes ≤ 59 ∧
        lastSecond.ka.filter.seconds ≤ 59) ∧
      (lastSecond.ka.filter.seconds = 59 ∧ (after .runSecond lastSecond).ka.filter ≠ lastSecond.ka.filter ∧
        lastSecond.ka.service.enable = true ∧
        lastSecond.ka.service.hours = (after .runSecond lastSecond).ka.filter.hours ∧
        lastSecond.ka.service.minutes = (after .runSecond lastSecond).ka.filter.minutes)) :=
  ⟨⟨quiet rfl rfl, by decide⟩, quiet rfl rfl, by decide⟩

/-! ### Witnesses, chapters 5 to 11 -/

theorem witness_BandComparison : (WatchRecord.warm).resolution = 0 := by decide

/-- W0 as an OVERRIDE trap on DOCK_V with a comparison state. -/
def trapping (raised : Bool) (outside : Nat) : State :=
  running.modWcu fun w =>
    { w with
      entries := w.entries.set .i0
        { kind := .trap, channel := .dockV, low := 0, high := 100, resolution := 0, action := .override,
          cap := 300, report := true }
      comparisons := w.comparisons.set .i0 { raised := raised, outside := outside } }

theorem noEntries {c : Snc} (h : c.stack = []) : StackSound c :=
  ⟨by rw [h]; decide, by rw [h]; decide, fun n => absurd h n, by rw [h]; decide⟩

theorem witness_TrapOverride :
    (Quiet (trapping false 0) ∧ Quiet (trapping true 6) ∧ Quiet (trapping true 7)) ∧
      StackSound (trapping true 7).snc ∧
      (((trapping true 7).wcu.entries.get .i0).kind = .trap ∧
        ((trapping true 7).wcu.entries.get .i0).channel = .dockV ∧
        ((trapping true 7).wcu.entries.get .i0).action = .override ∧
        (trapping true 7).wcu.claim = none ∧ (trapping true 7).pmg.state ≠ .dockedWait) ∧
      inBand ((trapping true 7).wcu.entries.get .i0) (dockVOf 100000) = true ∧
      inBand ((trapping true 7).wcu.entries.get .i0) (dockVOf 101000) = false ∧
      (((trapping false 0).wcu.comparisons.get .i0).raised = false ∧
        ((trapping true 6).wcu.comparisons.get .i0).outside < 7 ∧
        7 ≤ ((trapping true 7).wcu.comparisons.get .i0).outside) ∧
      ((trapping true 7).snc.softOverrides = true ∧
        findEntry (.watch .i0) (trapping true 7).snc.stack = none ∧
        (trapping true 7).snc.stack.length < 4) :=
  ⟨⟨quiet rfl rfl, quiet rfl rfl, quiet rfl rfl⟩, noEntries rfl, by decide⟩

theorem witness_TrapOverride_alone (k : Idx4) (h : k ≠ .i0) :
    ¬(((trapping false 0).wcu.entries.get k).kind = .trap ∧
      ((trapping false 0).wcu.entries.get k).channel = .dockV) := by
  cases k
  · exact absurd rfl h
  all_goals decide

/-- A motor in a state at an adopted target, where preset 1 computes 450 su. -/
def wanting (m : Suction) (adopted speed : Nat) : State :=
  ((running.modSnc fun c => { c with suction := m, adopted := adopted, applied := adopted }).modChan fun c =>
    { c with target := adopted, speed := speed }).modTdu fun t => { t with runMark := decide (0 < adopted) }

/-- The same with W0 as a gate that holds every increase. -/
def gated (s : State) : State :=
  let gate : WatchRecord :=
    { kind := .gate, channel := .target, low := 450, high := 450, resolution := 0, action := .hold,
      cap := 0, report := false }
  s.modWcu fun w => { w with entries := { w.entries with i0 := gate } }

/-- The same with the bin open: every computed target is 0. -/
def stopped (s : State) : State :=
  s.modSnc fun c =>
    { c with
      stack := [{ source := .binOpen, cap := 0, saved := true, released := false }]
      boostPermitted := false
      marks := { c.marks with binOpen := true } }

def computed (s : State) : Nat := (pipeline (pipelineInputs s)).target

theorem hardCaps {c : Snc} (h : c.stack = []) : HardCapsZero c := by
  intro e he
  rw [h] at he
  cases he

theorem witness_TargetIsTaken :
    (HardCapsZero (wanting (.moving .run) 450 450).snc ∧ RestsAtZero (wanting (.moving .run) 450 450).snc ∧
      computed (wanting (.moving .run) 450 450) ≤ 450) ∧
    (RestsAtZero (wanting (.moving .run) 449 449).snc ∧ 449 < computed (wanting (.moving .run) 449 449) ∧
      gatesHold 450 (wanting (.moving .run) 449 449).wcu = false) ∧
    (RestsAtZero (gated (wanting (.moving .run) 449 449)).snc ∧
      gatesHold (computed (gated (wanting (.moving .run) 449 449)))
        (gated (wanting (.moving .run) 449 449)).wcu = true) ∧
    (RestsAtZero (wanting (.held .run 450) 449 449).snc ∧
      449 < computed (wanting (.held .run 450) 449 449)) ∧
    (RestsAtZero (wanting (.held .run 500) 450 450).snc ∧
      computed (wanting (.held .run 500) 450 450) ≤ 450) ∧
    RestsAtZero (wanting (.halt .stall) 0 0).snc :=
  ⟨⟨hardCaps rfl, Nat.zero_lt_succ _, by decide⟩, ⟨Nat.zero_lt_succ _, by decide, by decide⟩,
    ⟨Nat.zero_lt_succ _, by decide⟩, ⟨Nat.zero_lt_succ _, by decide⟩, ⟨Nat.zero_lt_succ _, by decide⟩, rfl⟩

theorem witness_AdoptionMoves :
    (HardCapsZero (wanting (.moving .off) 0 0).snc ∧ HardCapsZero (wanting (.moving .brake) 0 60).snc ∧
      HardCapsZero (stopped (wanting (.moving .run) 450 50)).snc) ∧
    ((wanting (.moving .off) 0 0).snc.suction.motion? = some .off ∧
      0 < computed (wanting (.moving .off) 0 0) ∧
      gatesHold (computed (wanting (.moving .off) 0 0)) (wanting (.moving .off) 0 0).wcu = false) ∧
    ((wanting (.moving .brake) 0 60).snc.suction.motion? = some .brake ∧
      0 < computed (wanting (.moving .brake) 0 60)) ∧
    (computed (stopped (wanting (.moving .run) 450 50)) = 0 ∧
      (stopped (wanting (.moving .run) 450 50)).chan.speed = 50) ∧
    (computed (stopped (wanting (.moving .spinUp) 450 49)) = 0 ∧
      (stopped (wanting (.moving .spinUp) 450 49)).chan.speed = 49) ∧
    (computed (wanting (.held .run 500) 451 450) < 451 ∧
      (wanting (.held .run 500) 451 450).snc.suction.motion? = some .run) ∧
    ((evaluate tellSuction (wanting (.moving .off) 0 0)).snc.suction.reported ≠ .off ∧
      running.link.enables.suction = true) :=
  ⟨⟨hardCaps rfl, hardCaps rfl, by unfold HardCapsZero; decide⟩, by decide⟩

theorem witness_ControlPeriodActs :
    ((Quiet (wanting (.halt .stall) 0 0) ∧ HandedOn (wanting (.halt .stall) 0 0)) ∧
      (wanting (.halt .stall) 0 0).snc.suction = .halt .stall) ∧
    (Quiet running ∧ computed running = running.snc.adopted ∧ running.snc.suction = .moving .run) ∧
    (Quiet (wanting (.moving .spinUp) 450 405) ∧
      computed (wanting (.moving .spinUp) 450 405) = 450 ∧ 9 * 450 ≤ 405 * 10 ∧ ¬9 * 450 ≤ 404 * 10) ∧
    (89 * 5 < 450 ∧ ¬90 * 5 < 450) :=
  ⟨⟨⟨quiet rfl rfl, rfl, rfl⟩, rfl⟩, ⟨quiet rfl rfl, by decide⟩, ⟨quiet rfl rfl, by decide⟩, by decide⟩

/-- A control period whose evaluation leaves the suction controller in a state. -/
def evaluated (s : State) : Snc := (evaluate tellSuction s).snc

theorem witness_ControlPeriodActs_evaluated :
    (Quiet State.reset ∧ (evaluated State.reset).suction.motion? = some .off ∧
      (evaluated (wanting (.halt .stall) 0 0)).suction.motion? = none) ∧
    (Quiet (stopped (wanting (.moving .run) 450 450)) ∧
      (evaluated (stopped (wanting (.moving .run) 450 450))).suction.motion? = some .brake ∧
      (evaluated running).suction.motion? = some .run) ∧
    (Quiet (wanting (.moving .spinUp) 450 405) ∧
      (evaluated (wanting (.moving .spinUp) 450 405)).suction = .moving .spinUp ∧
      (evaluated (wanting (.moving .spinUp) 450 405)).applied = 450 ∧ 9 * 450 ≤ 405 * 10) ∧
    ((evaluated (wanting (.held .spinUp 450) 449 405)).suction = .held .spinUp 450 ∧
      Quiet (wanting (.held .spinUp 450) 449 405)) ∧
    ((evaluated ((wanting (.moving .spinUp) 450 89).modSnc fun c => { c with spinUpCount := 99 })).spinUpCount = 99 ∧
      89 * 5 < 450) :=
  ⟨⟨quiet rfl rfl, by decide⟩, ⟨quiet rfl rfl, by decide⟩, ⟨quiet rfl rfl, by decide⟩,
    ⟨by decide, quiet rfl rfl⟩, by decide⟩

theorem witness_StallAndOverCurrent :
    (Quiet running ∧ running.wcu.traps .speed = false ∧ running.wcu.traps .motorI = false) ∧
    (running.snc.suction.motion? = some .run ∧ speedOf 224 * 2 < running.snc.applied ∧
      ¬speedOf 225 * 2 < running.snc.applied) ∧
    (Quiet State.reset ∧ State.reset.snc.suction = .moving .off ∧ 50 ≤ speedOf 50) ∧
    (running.snc.suction.isHalt = false ∧ running.ka.suction.currentLimit < motorIOf 45001000 ∧
      ¬running.ka.suction.currentLimit < motorIOf 45000999) ∧
    Quiet (wanting (.moving .brake) 0 50) :=
  ⟨⟨quiet rfl rfl, by decide⟩, by decide, ⟨quiet rfl rfl, by decide⟩, by decide, quiet rfl rfl⟩

theorem witness_StallAndOverCurrent_moves :
    (Quiet (wanting (.moving .spinUp) 450 0) ∧ (wanting (.moving .spinUp) 450 0).wcu.traps .speed = false ∧
      (wanting (.moving .spinUp) 450 0).snc.applied = 450 ∧ 9 * 450 ≤ speedOf 405 * 10 ∧
      ¬9 * 450 ≤ speedOf 404 * 10) ∧
    (Quiet (wanting (.held .spinUp 500) 450 0) ∧
      (wanting (.held .spinUp 500) 450 0).snc.suction = .held .spinUp 500) ∧
    (Quiet (wanting (.moving .brake) 0 60) ∧ (wanting (.moving .brake) 0 60).snc.suction = .moving .brake ∧
      speedOf 49 < 50 ∧ (wanting (.moving .brake) 0 60).dsu.boostLevel = 0 ∧
      (wanting (.moving .brake) 0 60).pmg.state ≠ .dockedWait) ∧
    (Quiet (wanting (.held .brake 450) 0 60) ∧
      (wanting (.held .brake 450) 0 60).snc.suction = .held .brake 450) ∧
    (Quiet (wanting (.held .off 450) 0 0) ∧ (wanting (.held .off 450) 0 0).snc.suction = .held .off 450 ∧
      50 ≤ speedOf 50) :=
  ⟨⟨quiet rfl rfl, by decide⟩, ⟨quiet rfl rfl, by decide⟩, ⟨quiet rfl rfl, by decide⟩,
    ⟨quiet rfl rfl, by decide⟩, quiet rfl rfl, by decide⟩

theorem witness_PresetIsSelected :
    (Ready running ∧ 8 ≤ (8 : Byte).toNat ∧ running.snc.suction.isHalt = false) ∧
    (Ready (wanting (.halt .stall) 0 0) ∧ (7 : Byte).toNat < 8 ∧
      (wanting (.halt .stall) 0 0).snc.suction.isHalt = true) :=
  ⟨⟨ready rfl rfl, by decide⟩, ready rfl rfl, by decide⟩

theorem witness_ResumeAdoptsThePending :
    (Ready (wanting (.held .run 450) 449 449) ∧
      (wanting (.held .run 450) 449 449).snc.suction = .held .run 450 ∧ 449 < 450) ∧
    (Ready running ∧ ∀ m p, running.snc.suction ≠ .held m p) :=
  ⟨⟨ready rfl rfl, by decide⟩, ready rfl rfl, fun _ _ => nofun⟩

def softEntry (u : Idx4) : OverrideEntry := { source := .watch u, cap := 0, saved := false, released := false }

/-- HALT with a full stack of soft entries and the bin open. -/
def crowded : State :=
  (wanting (.halt .stackFull) 0 49).modSnc fun c =>
    { c with
      stack := [softEntry .i0, softEntry .i1, softEntry .i2, softEntry .i3]
      boostPermitted := false
      marks := { c.marks with binOpen := true } }

/-- HALT with three entries and the bin open. -/
def roomForOne : State := crowded.modSnc fun c => { c with stack := c.stack.tail }

def waitingIn (s : State) : Nat :=
  (hardSources.filter fun src => s.snc.marks.get src && (findEntry src s.snc.stack).isNone).length

theorem witness_HaltIsCleared :
    (Ready running ∧ running.snc.suction.isHalt = false) ∧
    (Ready (wanting (.halt .stall) 0 50) ∧ 50 ≤ (wanting (.halt .stall) 0 50).chan.speed) ∧
    (Ready crowded ∧ 4 < waitingIn crowded + min 4 crowded.snc.stack.length) ∧
    (Ready roomForOne ∧ roomForOne.snc.suction.isHalt = true ∧ roomForOne.chan.speed < 50 ∧
      waitingIn roomForOne + roomForOne.snc.stack.length ≤ 4 ∧
      roomForOne.link.enables.suction = true) :=
  ⟨⟨ready rfl rfl, by decide⟩, ⟨ready rfl rfl, by decide⟩, ⟨ready rfl rfl, by decide⟩, ready rfl rfl,
    by decide⟩

theorem witness_PowerBoundIsLargest :
    1 ≤ ({ somePipeline with budget := 0 } : PipelineInputs).kFan ∧
      ({ somePipeline with budget := 0 } : PipelineInputs).budget = 0 ∧ (1250 : Nat) ≤ 1250 := by decide

theorem witness_PipelineStages :
    (110 : Int) < 121 ∧ (110 : Int) ≤ 110 ∧ (121 : Int) ≤ 121 ∧ (110 : Int) < 111 ∧ (120 : Int) < 121 ∧
      somePipeline.tKnee < somePipeline.tCut ∧
      (let i := { somePipeline with boostPermitted := true, level := 1 }
      i.boostPermitted = true ∧ 0 < i.level ∧ ¬0 < ({ i with level := 0 } : PipelineInputs).level) := by decide

theorem withinCap {c : Snc} (m : Motion) (h : c.suction = .moving m) (k : c.adopted ≤ effectiveCap c.stack) :
    CapBounded c where
  adopted := k
  held := fun _ _ e => by rw [h] at e; cases e
  halt := fun e => by rw [h] at e; cases e

theorem witness_TargetStaysBounded :
    TargetBounded running ∧ ∃ t, step (aboutToRun running) = .next t :=
  ⟨⟨withinCap .run rfl (by decide), ⟨fun _ _ => by decide, fun _ _ _ _ e => by cases e⟩⟩, _, rfl⟩

theorem witness_HandingOnStaysSound :
    (∃ t, step (aboutToRun running) = .next t) ∧ HandedOn running ∧ RestsAtZero running.snc ∧
      QueueBounded full := ⟨⟨_, rfl⟩, ⟨rfl, rfl⟩, Nat.zero_lt_succ _, Nat.le_refl 2⟩

theorem witness_StackStaysSound :
    StackSound docked.snc ∧ HardCapsZero docked.snc ∧ ∃ t, step (aboutToRun docked) = .next t :=
  ⟨⟨by decide, by decide, fun _ => rfl, by decide⟩, by unfold HardCapsZero; decide, _, rfl⟩

theorem witness_PushAndClear :
    findEntry .hostCap docked.snc.stack = none ∧ (docked.snc.stack.head?.any OverrideEntry.released) = false ∧
      Source.hostCap ≠ .binOpen ∧ ((docked.snc.push .hostCap 300).cleared? .hostCap).isSome = true ∧
      (Snc.warm.push .hostCap 300).cleared? .hostCap = some Snc.warm ∧ Snc.warm.stack = [] := by decide

theorem witness_BoostAndSwitch :
    Ready running ∧ Ready docked ∧ 2 ≤ (2 : Byte).toNat ∧ (1 : Byte).toNat < 2 ∧
      running.snc.stack = [] ∧ docked.snc.stack = [] ++ [dockedEntry] :=
  ⟨ready rfl rfl, ready rfl rfl, by decide⟩

def hostEntry (released : Bool) : OverrideEntry :=
  { source := .hostCap, cap := 300, saved := true, released := released }

def capped (released : Bool) : State :=
  running.modSnc fun c => { c with stack := [hostEntry released], boostPermitted := false }

theorem witness_HostCap :
    (Ready (running.modSnc fun c => { c with softOverrides := false }) ∧ Ready (capped false) ∧
      Ready (capped true) ∧ Ready running ∧ Ready crowded) ∧
    ((capped false).snc.softOverrides = true ∧ (capped false).snc.hasUnreleased .hostCap = true ∧
      ((capped false).snc.cleared? .hostCap).isSome = true) ∧
    ((capped true).snc.hasUnreleased .hostCap = false ∧
      findEntry .hostCap (capped true).snc.stack = some (hostEntry true)) ∧
    (findEntry .hostCap crowded.snc.stack = none ∧ 4 ≤ crowded.snc.stack.length ∧
      crowded.snc.hasUnreleased .hostCap = false) ∧
    (findEntry .hostCap running.snc.stack = none ∧ running.snc.stack.length < 4) :=
  ⟨⟨ready rfl rfl, ready rfl rfl, ready rfl rfl, ready rfl rfl, ready rfl rfl⟩, by decide⟩

/-- The window counters at values. -/
def counted (fine coarse : Nat) : State := running.modDsu fun d => { d with fine := fine, coarse := coarse }

theorem witness_ImpactIsCounted :
    (Quiet (counted 4093 4093) ∧ (counted 4093 4093).dsu.fine < 4094 ∧
      (counted 4093 4093).dsu.coarse < 4094) ∧
    (Quiet (counted 4094 4095) ∧ 4094 ≤ (counted 4094 4095).dsu.fine ∧
      (counted 4094 4095).dsu.fine ≤ 4095 ∧ 4094 ≤ (counted 4094 4095).dsu.coarse ∧
      (counted 4094 4095).dsu.coarse ≤ 4095 ∧ (counted 4094 4095).snc.conditions.ovf = none ∧
      (counted 4094 4095).link.reports.ovf = false) ∧
    (reportCondition .ovf .dirt (counted 0 0)).snc.conditions.ovf ≠ none :=
  ⟨⟨quiet rfl rfl, by decide⟩, ⟨quiet rfl rfl, by decide⟩, by decide⟩

theorem witness_DirtLevelMoves :
    (3 : Nat) ≤ 3 ∧ 2 < 3 ∧ (279 : Int) < (coldDirt.t3 : Int) - coldDirt.h ∧
      ¬(280 : Int) < (coldDirt.t3 : Int) - coldDirt.h := by decide

/-- A window that closes with a score at the end of a quiet run. -/
def closing (fine quietRun : Nat) : State :=
  (running.modDsu fun d => { d with fine := fine, quiet := quietRun }).setReservation
    (some { sectionId := .dirt, first := 0, count := 1, broken := false })

def levels (dirt boost : Nat) (hold : Bool) : State :=
  (running.modDsu fun d => { d with dirtLevel := dirt, boostLevel := boost }).modKa fun k =>
    { k with dirt := { k.dirt with hold := hold } }

theorem witness_WindowIsClassified :
    ((closing 48 7).dsu.ring.length ≤ 16 ∧ (closing 48 7).dsu.quiet ≤ 7 ∧
      (closing 48 7).ka.dirt.floor ≤ (closing 48 7).ka.dirt.floorMax) ∧
    (nextDirtLevel (closing 48 7).ka.dirt (closing 48 7).dsu.dirtLevel 8 = 0 ∧
      (closing 48 7).dsu.quiet = 7) ∧
    ((closing 48 6).dsu.quiet ≠ 7) ∧
    ((levels 2 2 true).dsu.boostLevel ≤ (levels 2 2 true).dsu.dirtLevel ∧
      (levels 2 3 true).dsu.dirtLevel < (levels 2 3 true).dsu.boostLevel ∧
      (levels 2 2 true).ka.dirt.hold = true ∧ (levels 2 2 false).ka.dirt.hold = false) := by decide

theorem witness_WindowIsClassified_told :
    (State.reset.snc.suction.reported = .off ∧ (wanting (.halt .stall) 0 0).snc.suction.reported = .halt ∧
      running.snc.suction.reported = .run) ∧
    ((levels 2 1 true).dsu.boostLevel ≠ 0 ∧
      (moveBoost 1 (levels 2 1 true)).dsu.boostLevel ≠ (levels 2 1 true).dsu.boostLevel ∧
      (moveBoost 1 (levels 2 2 true)).dsu.boostLevel = (levels 2 2 true).dsu.boostLevel) := by decide

def expiring (k : Idx4) (s : State) : State := startTimer k s

theorem witness_TimerExpires_owners :
    (Quiet (expiring .i0 (wanting (.moving .brake) 0 50)) ∧
      (expiring .i0 (wanting (.moving .brake) 0 50)).snc.suction.reported = .brake) ∧
    (Quiet (expiring .i0 (wanting (.moving .spinUp) 450 405)) ∧
      (wanting (.moving .spinUp) 450 405).snc.suction.reported = .spinUp) ∧
    (Quiet (expiring .i0 running) ∧ (expiring .i0 running).tdu.timers.i0.running = true ∧
      running.snc.suction.reported = .run ∧
      running.ka.dirt.blank < ((running.snc.applied : Int) - running.dsu.opening).natAbs) ∧
    (Quiet (running.modDsu fun d => { d with opening := 400 }) ∧
      ((running.snc.applied : Int) - 400).natAbs ≤ running.ka.dirt.blank ∧
      running.wcu.traps .dirtNet = false) ∧
    (Quiet (expiring .i1 (charging .cv)) ∧ (expiring .i1 (charging .cv)).tdu.timers.i1.running = true ∧
      (expiring .i1 (charging .cv)).pmg.state = .charging .cv ∧ Phase.cv ≠ .done ∧
      (charging .done).pmg.state = .charging .done ∧ running.pmg.state.isCharging = false) ∧
    (Quiet (expiring .i2 (levels 1 2 true)) ∧ (expiring .i2 (levels 1 2 true)).tdu.timers.i2.running = true ∧
      (levels 1 2 true).dsu.boostLevel ≠ (levels 1 2 true).dsu.dirtLevel ∧
      (levels 2 2 true).dsu.boostLevel = (levels 2 2 true).dsu.dirtLevel) :=
  ⟨⟨quiet rfl rfl, by decide⟩, ⟨quiet rfl rfl, by decide⟩, ⟨quiet rfl rfl, by decide⟩,
    ⟨quiet rfl rfl, by decide⟩, ⟨quiet rfl rfl, by decide⟩, quiet rfl rfl, by decide⟩

/-- A window whose close compares its net of 60 with an OVERRIDE trap, at a measured speed. -/
def comparing (low speed boost : Nat) : State :=
  (((running.modDsu fun d => { d with fine := 100, opening := 450, boostLevel := boost }).modChan fun c =>
    { c with speed := speed }).modWcu fun w =>
      { w with entries := { w.entries with
          i0 := { WatchRecord.warm with
            kind := .trap, channel := .dirtNet, low := low, high := 2000, action := .override, cap := 0 } } })

def comparedNet (s : State) : State :=
  (watchEvent (deliverOverride id) .dirtNet [.valid 60] (s.modChan fun c => { c with dirtNet := 60 })).1

theorem witness_TimerExpires_compared :
    (Quiet (expiring .i0 (comparing 60 49 1)) ∧ (expiring .i0 (comparing 60 49 1)).tdu.timers.i0.running = true ∧
      (comparing 60 49 1).snc.suction.reported = .run ∧ (comparing 60 49 1).wcu.traps .dirtNet = true ∧
      ((comparing 60 49 1).snc.applied : Int) = (comparing 60 49 1).dsu.opening ∧
      (comparing 60 49 1).dsu.fine - (comparing 60 49 1).ka.dirt.floor = 60) ∧
    (comparedNet (comparing 60 49 1)).snc.suction.reported = .off ∧
    (compareNow (deliverOverride id) .dirtNet [.valid 60] (comparing 60 49 1)).2 = true ∧
    (compareNow (deliverOverride id) .dirtNet [.valid 60] (comparing 60 50 1)).2 = false ∧
    (comparedNet (comparing 60 50 1)).snc.suction.reported = .brake ∧
    (comparedNet (comparing 61 50 1)).snc.suction.reported = .run ∧
    ((classifyWindow 450 (comparing 60 49 1)).dsu.boostLevel = 1 ∧
      (classifyWindow 450 (comparing 60 49 0)).dsu.boostLevel = 1) :=
  ⟨⟨quiet rfl rfl, by decide⟩, by decide⟩

def lowSamples (n : Nat) : State := running.modPmg fun p => { p with lowCount := n }

theorem witness_LowPackIsProtected :
    (Quiet (lowSamples 2) ∧ (lowSamples 2).pmg.state = .discharge ∧
      (lowSamples 2).ka.estimatePending = false ∧ 2 ≤ (lowSamples 2).pmg.lowCount ∧
      ∃ v ∈ validCells (cellsOf noneOpen (Six.all 2999)), v < (lowSamples 2).ka.limits.vCut) ∧
    (Quiet (lowSamples 1) ∧ (lowSamples 1).pmg.lowCount < 2) ∧
    ¬∃ v ∈ validCells (cellsOf noneOpen (Six.all 3000)), v < (lowSamples 2).ka.limits.vCut :=
  ⟨⟨quiet rfl rfl, by decide⟩, ⟨quiet rfl rfl, by decide⟩, by decide⟩

/-- A pack under its low mark after n good samples. -/
def recovering (n : Nat) (s : State) : State :=
  (s.modPmg fun p => { p with lowMark := true, recoveryCount := n }).modKa fun k =>
    { k with estimatePending := false }

theorem witness_LowPackIsProtected_recovery :
    (Quiet (recovering 9 (inPack .protect running)) ∧
      (recovering 9 (inPack .protect running)).pmg.lowMark = true ∧
      (recovering 9 (inPack .protect running)).pmg.state = .protect ∧
      (recovering 9 (inPack .protect running)).ka.estimatePending = false ∧
      (recovering 9 (inPack .protect running)).wcu.traps .cell = false ∧
      9 ≤ (recovering 9 (inPack .protect running)).pmg.recoveryCount ∧
      (recovering 8 (inPack .protect running)).pmg.recoveryCount < 9) ∧
    (allCellsValid (cellsOf noneOpen (Six.all 3200)) = true ∧
      (∀ v ∈ validCells (cellsOf noneOpen (Six.all 3200)), (running.ka.limits.vCut : Int) + 200 ≤ v) ∧
      (-200 : Int) < running.chan.packI ∧ running.chan.packI < 200 ∧
      ¬(∀ v ∈ validCells (cellsOf noneOpen (Six.all 3199)), (running.ka.limits.vCut : Int) + 200 ≤ v)) ∧
    ((Quiet (recovering 9 docked) ∧ HardCapsZero (recovering 9 docked).snc) ∧
      (recovering 9 docked).pmg.state = .dockedWait ∧ (recovering 9 docked).snc.suction = .moving .off ∧
      (recovering 9 docked).snc.adopted = 0 ∧ (recovering 9 docked).snc.hasUnreleased .docked = true) ∧
    (State.reset.ka.estimatePending = true ∧ lowestCell (cellsOf noneOpen (Six.all 3301)) = some 3301 ∧
      lowestCell (cellsOf noneOpen (Six.all 4150)) = some 4150 ∧
      lowestCell (cellsOf (Six.all true) (Six.all 3301)) = none) :=
  ⟨⟨quiet rfl rfl, by decide⟩, by decide,
    ⟨⟨quiet rfl rfl, by unfold HardCapsZero; decide⟩, by decide⟩, by decide⟩

theorem witness_ChargingStaysSound :
    ClaimedWhileCharging (charging .cc) ∧ DockedWhileCharging (charging .cc) ∧
      BleedBounded (charging .cc) ∧ ∃ t, step (aboutToRun (charging .cc)) = .next t :=
  ⟨rfl, fun _ => rfl, fun _ => rfl, _, rfl⟩

/-- A probe of PROBING that awaits its answer, ready for charge entry. -/
def offered : State := awaiting .probe (inSession .probing docked)

theorem witness_ChargeIsEntered :
    (Quiet offered ∧ HardCapsZero offered.snc) ∧
    (offered.dlc.exchange =
        some { frame := .probe, awaiting := true, newer := false, ordered := false } ∧
      offered.dlc.session = .probing ∧ offered.dlc.retry = none ∧ 500 ≤ (500 : Word16).toNat ∧
      (4000 : Word16).toNat ≤ 4000 ∧ 12000 ≤ (12000 : Word16).toNat ∧ (30000 : Word16).toNat ≤ 30000) ∧
    (offered.pmg.state = .dockedWait ∧ offered.snc.suction = .moving .off ∧ offered.snc.adopted = 0 ∧
      offered.snc.hasUnreleased .docked = true) ∧
    (offered.chan.packT = .valid 20 ∧ offered.ka.charge.windowLow ≤ 20 ∧
      20 ≤ offered.ka.charge.windowHigh ∧ allCellsValid offered.chan.cell = true) ∧
    (6 * offered.ka.charge.vCv + 300 ≤ (25500 : Word16).toNat ∧
      (25499 : Word16).toNat < 6 * offered.ka.charge.vCv + 300) :=
  ⟨⟨quiet rfl rfl, by unfold HardCapsZero; decide⟩, by decide⟩

/-- The gauge at a state of charge, and how far it is trusted. -/
def gaugeAt (trust : Trust) (percent : Nat) (s : State) : State :=
  s.modKa fun k => { k with trust := trust, qRem := 90000 * percent }

theorem witness_ChargeIsEntered_learning :
    (Quiet (gaugeAt .calibrated 10 offered) ∧ (gaugeAt .calibrated 10 offered).ka.trust = .calibrated ∧
      (gaugeAt .calibrated 10 offered).ka.qRem * 100 / (gaugeAt .calibrated 10 offered).ka.gauge.qFull ≤ 10) ∧
    ¬(gaugeAt .calibrated 11 offered).ka.qRem * 100 / (gaugeAt .calibrated 11 offered).ka.gauge.qFull ≤ 10 :=
  ⟨⟨quiet rfl rfl, by decide⟩, by decide⟩

def openTap : Six Bool := { noneOpen with c6 := true }

theorem witness_ChargePhases (phase : Phase) :
    Quiet (charging phase) ∧ (charging phase).pmg.state = .charging phase ∧
      (charging phase).ka.estimatePending = false ∧
      (∀ u, ((charging phase).wcu.entries.get u).kind = .trap →
        ((charging phase).wcu.entries.get u).channel = .cell →
          (∀ v ∈ validCells (cellsOf noneOpen (Six.all 4249)),
            inBand ((charging phase).wcu.entries.get u) v = false) ∧
            ((charging phase).wcu.comparisons.get u).raised = false) := by
  refine ⟨quiet rfl rfl, rfl, rfl, fun u => ?_⟩
  cases u <;> cases phase <;> decide

theorem witness_ChargePhases_samples :
    allCellsValid (cellsOf openTap (Six.all 3700)) = false ∧
      (∀ v ∈ validCells (cellsOf noneOpen (Six.all 3000)), 3000 ≤ v) ∧
      (∃ v ∈ validCells (cellsOf noneOpen (Six.all 2999)), v < 3000) ∧
      (∃ v ∈ validCells (cellsOf noneOpen (Six.all 4200)), 4200 ≤ v) ∧
      (∀ v ∈ validCells (cellsOf noneOpen (Six.all 4199)), v < 4200) ∧
      (∀ v ∈ validCells (cellsOf noneOpen (Six.all 4049)), v < 4200 - 150) ∧
      (∃ v ∈ validCells (cellsOf noneOpen (Six.all 4050)), 4200 - 150 ≤ v) := by decide

theorem witness_ChargePhases_temperature (phase : Phase) :
    Quiet (charging phase) ∧ Quiet (inPack (.paused phase) (charging phase)) ∧ NearestWhole 45500 46 ∧
      NearestWhole 43000 43 ∧
      (∀ u, ((charging phase).wcu.entries.get u).kind = .trap →
        ((charging phase).wcu.entries.get u).channel = .packT →
          inBand ((charging phase).wcu.entries.get u) 46 = false ∧
            ((charging phase).wcu.comparisons.get u).raised = false) ∧
      ((charging phase).ka.charge.windowHigh < 46 ∧ (charging phase).ka.charge.windowLow + 2 ≤ 43 ∧
        43 ≤ (charging phase).ka.charge.windowHigh - 2 ∧ (charging phase).ka.charge.windowHigh - 2 < 44 ∧
        (charging phase).dlc.offer = some ⟨1, 26000, 3000⟩) := by
  refine ⟨quiet rfl rfl, quiet rfl rfl, by unfold NearestWhole; decide, by unfold NearestWhole; decide,
    fun u => ?_, ?_⟩
  · cases u <;> cases phase <;> decide
  · cases phase <;> decide

def tapering (n : Nat) : State :=
  (charging .cv).modPmg fun p => { p with taper := n, learning := some { qStart := 0, added := 8000000 } }

theorem witness_ChargePhases_taper :
    Quiet (tapering 5999) ∧ (tapering 5999).pmg.state = .charging .cv ∧
      (tapering 5999).wcu.traps .packI = false ∧ 5999 ≤ (tapering 5999).pmg.taper ∧
      (tapering 5998).pmg.taper < 5999 ∧
      max (-40000) (min 8000 ((149999 : Int).tdiv 1000)) < ((tapering 5999).ka.charge.iTerm : Int) ∧
      ¬max (-40000) (min 8000 ((150000 : Int).tdiv 1000)) < ((tapering 5999).ka.charge.iTerm : Int) :=
  ⟨quiet rfl rfl, by decide⟩

theorem witness_ChargePhases_faults (phase : Phase) :
    Quiet (charging phase) ∧ NearestWhole 50000 50 ∧ NearestWhole 126000 126 ∧
      ((charging phase).pmg.state.isCharging = true ∧ (charging phase).wcu.claim ≠ none ∧
        (charging phase).wcu.entries.i2.kind = .trap ∧ (charging phase).wcu.entries.i2.channel = .cell ∧
        (charging phase).wcu.entries.i3.kind = .trap ∧ (charging phase).wcu.entries.i3.channel = .packT) ∧
      (allCellsValid (cellsOf noneOpen (Six.all 4250)) = true ∧
        (∃ v ∈ validCells (cellsOf noneOpen (Six.all 4250)),
          inBand (charging phase).wcu.entries.i2 v = true) ∧
        allCellsValid (cellsOf openTap (Six.all 4249)) = false ∧
        (∀ v ∈ validCells (cellsOf openTap (Six.all 4249)),
          inBand (charging phase).wcu.entries.i2 v = false) ∧
        inBand (charging phase).wcu.entries.i3 50 = true) := by
  refine ⟨quiet rfl rfl, by unfold NearestWhole; decide, by unfold NearestWhole; decide, ?_⟩
  cases phase <;> decide

/-- A release: the shadow records are no trap, and a reservation covers WATCH entry 3. -/
theorem witness_ChargePhases_release :
    let s := (charging .cc).setReservation (some { sectionId := .watch, first := 3, count := 1, broken := false })
    s.wcu.claim = some { w2 := WatchRecord.warm, w3 := WatchRecord.warm } ∧ WatchRecord.warm.kind ≠ .trap ∧
      (releaseWatches s).wcu.entries.i2 ≠ s.wcu.entries.i2 ∧
      (releaseWatches s).reservation = some { sectionId := .watch, first := 3, count := 1, broken := true } := by
  decide

theorem witness_ChargeFaultIsCleared :
    (Ready docked ∧ ∀ kind, docked.pmg.state ≠ .fault kind) ∧
    (Ready (inPack (.fault .hot) docked) ∧ (inPack (.fault .hot) docked).pmg.state = .fault .hot) ∧
    (Ready (inSession .lost (inPack (.fault .hot) docked)) ∧
      (inSession .lost (inPack (.fault .hot) docked)).dlc.session ≠ .offered) :=
  ⟨⟨ready rfl rfl, fun _ => nofun⟩, ⟨ready rfl rfl, rfl⟩, ready rfl rfl, nofun⟩

def faulted (s : State) : State := inPack (.fault .hot) s

def brakingFault : State := (faulted (wanting (.moving .brake) 0 50)).modPmg fun p => { p with budget := 0 }

/-- The conditions of R185 at a cleared fault, and the ways in which they fail. -/
theorem witness_ChargeFaultIsCleared_test :
    (Ready (faulted docked) ∧ HardCapsZero (faulted docked).snc) ∧
    ((faulted docked).dlc.session = .offered ∧ (faulted docked).snc.suction = .moving .off ∧
      (faulted docked).snc.adopted = 0 ∧ (faulted docked).snc.hasUnreleased .docked = true ∧
      (faulted docked).dlc.offer = some ⟨1, 26000, 3000⟩ ∧ (faulted docked).chan.packT = .valid 20 ∧
      (faulted docked).ka.charge.windowLow ≤ 20 ∧ 20 ≤ (faulted docked).ka.charge.windowHigh) ∧
    (6 * (faulted docked).ka.charge.vCv + 300 ≤ 26000 ∧ allCellsValid (faulted docked).chan.cell = true ∧
      (25499 : Nat) < 6 * (faulted docked).ka.charge.vCv + 300 ∧
      allCellsValid (Six.all Reading.noReading) = false) ∧
    ((faulted State.reset).snc.hasUnreleased .docked = false ∧
      ¬∃ v, (Reading.noReading : Reading) = .valid v) ∧
    (Ready brakingFault ∧ brakingFault.snc.suction.reported ≠ .off ∧ brakingFault.pmg.state = .fault .hot ∧
      brakingFault.pmg.budget = 0 ∧ brakingFault.wcu.traps .budget = false) :=
  ⟨⟨ready rfl rfl, by unfold HardCapsZero; decide⟩, by decide, by decide, ⟨by decide, fun ⟨_, h⟩ => nomatch h⟩,
    ready rfl rfl, by decide⟩

def probed (n : Nat) (x : Session) : State := (inSession x docked).modDlc fun d => { d with probes := n }

def asking (retry : Option RetryWait) (x : Session) : State :=
  (inSession x docked).modDlc fun d => { d with askDue := true, askVoltage := 25500, retry := retry }

/-- An exchange whose frame is being sent. -/
def sendingFrame (f : DockFrame) (s : State) : State :=
  s.modDlc fun d =>
    { d with exchange := some { frame := f, awaiting := false, newer := false, ordered := false } }

theorem witness_DockFramesAreSent :
    (Quiet (probed 9 .probing) ∧ (probed 9 .probing).dlc.probes < 10 ∧
      (probed 9 .probing).dlc.exchange = none ∧ (probed 9 .probing).dlc.quitDue = false) ∧
    (Quiet (probed 0 .lost) ∧ (probed 0 .lost).dlc.session = .lost ∧ (probed 0 .lost).dlc.probes = 0) ∧
    (Quiet docked ∧ docked.dlc.session ≠ .probing ∧ docked.dlc.session ≠ .lost ∧
      docked.dlc.session ≠ .active ∧ docked.dlc.retry = none ∧ docked.dlc.exchange = none) ∧
    (Quiet (inSession .active docked) ∧ (inSession .active docked).dlc.askDue = false) ∧
    (Quiet (asking none .active) ∧ (asking none .active).dlc.askDue = true ∧
      (asking none .active).dlc.retry = none) ∧
    (Quiet (asking (some .afterMiss) .offered) ∧ (asking (some .afterMiss) .offered).dlc.retry ≠ none) ∧
    (Quiet (sendingFrame .keep (inSession .active docked)) ∧
      Quiet (sendingFrame .quit (inSession .active docked)) ∧ DockFrame.keep ≠ .quit) :=
  ⟨⟨quiet rfl rfl, by decide⟩, ⟨quiet rfl rfl, by decide⟩, ⟨quiet rfl rfl, by decide⟩,
    ⟨quiet rfl rfl, by decide⟩, ⟨quiet rfl rfl, by decide⟩, ⟨quiet rfl rfl, by decide⟩,
    quiet rfl rfl, quiet rfl rfl, by decide⟩

/-- An ASK of OFFERED during which the leave-charging order came. -/
def orderedAsk : State :=
  docked.modDlc fun d =>
    { d with exchange := some { frame := .ask 25500 2000, awaiting := true, newer := false, ordered := true } }

def declined (n : Nat) : State :=
  awaiting (.ask 25500 2000) ((asking none .active).modDlc fun d => { d with declines := n })

theorem witness_DockAnswers :
    (Quiet docked ∧ docked.dlc.awaited? = none) ∧
    (Quiet (awaiting (.ask 25500 2000) docked) ∧ (awaiting (.ask 25500 2000) docked).dlc.session = .offered ∧
      (DockFrame.ask 25500 2000).isAsk = true) ∧
    (Quiet orderedAsk ∧ orderedAsk.dlc.session = .offered ∧
      orderedAsk.dlc.exchange =
        some { frame := .ask 25500 2000, awaiting := true, newer := false, ordered := true }) ∧
    (Quiet (declined 0) ∧ (declined 0).dlc.session = .active ∧ (declined 0).dlc.askDue = true ∧
      (declined 0).dlc.declines = 0) ∧
    (Quiet (declined 1) ∧ 1 ≤ (declined 1).dlc.declines) ∧
    (Quiet (awaiting .keep (inSession .active docked)) ∧ DockFrame.keep.isAsk = false) ∧
    (Quiet offered ∧ offerInRange 12000 500 = true ∧ offerInRange 30000 4000 = true ∧
      offerInRange 11999 500 = false ∧ offerInRange 12000 4001 = false) ∧
    (awaiting (.ask 25500 2000) docked).dlc.askDue = false ∧ DockFrame.keep ≠ .probe :=
  ⟨⟨quiet rfl rfl, by decide⟩, ⟨quiet rfl rfl, by decide⟩, ⟨quiet rfl rfl, by decide⟩,
    ⟨quiet rfl rfl, by decide⟩, ⟨quiet rfl rfl, by decide⟩, ⟨quiet rfl rfl, by decide⟩,
    ⟨quiet rfl rfl, by decide⟩, by decide⟩

def missing (n : Nat) (x : Session) : State :=
  awaiting (.ask 25500 2000) ((asking none x).modDlc fun d => { d with misses := n })

theorem witness_MissedExchange :
    (Quiet docked ∧ docked.dlc.awaited? = none) ∧
    (Quiet (awaiting .probe (probed 9 .probing)) ∧ (probed 9 .probing).dlc.probes < 10) ∧
    (Quiet (awaiting .probe (probed 10 .probing)) ∧ 10 ≤ (probed 10 .probing).dlc.probes) ∧
    (Quiet (awaiting .probe (probed 0 .lost)) ∧ (awaiting .probe (probed 0 .lost)).dlc.session = .lost) ∧
    (Quiet (missing 1 .active) ∧ (missing 1 .active).dlc.misses < 2 ∧ (missing 1 .active).dlc.askDue = true) ∧
    (Quiet (missing 2 .offered) ∧ 2 ≤ (missing 2 .offered).dlc.misses) ∧
    (awaiting .keep (inSession .active (charging .cc))).pmg.state.isCharging = true :=
  ⟨⟨quiet rfl rfl, by decide⟩, ⟨quiet rfl rfl, by decide⟩, ⟨quiet rfl rfl, by decide⟩,
    ⟨quiet rfl rfl, by decide⟩, ⟨quiet rfl rfl, by decide⟩, ⟨quiet rfl rfl, by decide⟩, by decide⟩

theorem witness_MissedExchange_bytes :
    ([0x24, 2, 5, 0, 0] : List Byte).foldl (· + ·) (0 : Byte) ≠ 0 ∧
      (∀ kind ∈ ([0x20, 0, 0xE0] : List Byte).head?, kind.toNat < 0x21 ∨ 0x24 < kind.toNat) ∧
      alwaysMisses (dockAnswerBytes (.offer 1 11999 500)) = true := by decide

end Sys2Proof.Tests
end

