-- ==== Sys2Proof/Proofs/Keeping.lean ====
section
/-! PROOF. What every step keeps, said once. An invariant that the suction controller's own operations keep, and
that no write outside the suction controller can break, is kept by every step (`step_keeps`): a proof of such an
invariant is then a proof of the fields of `StepKept`. -/

namespace Sys2Proof.Machine

/-- An operation that keeps an invariant. -/
abbrev Keeps (I : State → Prop) (f : State → State) : Prop := ∀ s, I s → I (f s)

/-- The link controller can write its block without breaking the invariant, as long as no request enters the queue. -/
abbrev LinkKept (I : State → Prop) : Prop :=
  ∀ f, (∀ l, (f l).queue.length ≤ l.queue.length) → Keeps I (State.modLink f)

@[simp] theorem settingsKept_iff {a b : KeepAlive} :
    SettingsKept a b ↔ b.presets = a.presets ∧ b.suction = a.suction ∧ { b.dirt with floor := a.dirt.floor } = a.dirt ∧
      b.gauge.design = a.gauge.design ∧ b.charge = a.charge ∧ b.limits = a.limits ∧ b.service = a.service :=
  ⟨fun ⟨h1, h2, h3, h4, h5, h6, h7⟩ => ⟨h1, h2, h3, h4, h5, h6, h7⟩,
    fun ⟨h1, h2, h3, h4, h5, h6, h7⟩ => ⟨h1, h2, h3, h4, h5, h6, h7⟩⟩

@[simp] theorem convertedKept_iff {a b : Channels} : ConvertedKept a b ↔
    { b with target := a.target, dirtNet := a.dirtNet, soc := a.soc, budget := a.budget } = a := .rfl

/-- An invariant that the budget's way from the pack manager through the watch unit to the suction controller keeps
(R158, R174). -/
structure BudgetKept (I : State → Prop) : Prop where
  raiseSoft : ∀ {told}, Keeps I told → ∀ src cap, Keeps I (raiseSoft told src cap)
  clearSoft : ∀ {told}, Keeps I told → ∀ src, Keeps I (clearSoft told src)
  tellBudget : ∀ {told}, Keeps I told → ∀ w, Keeps I (tellBudget told w)
  report : ∀ flag src, Keeps I (reportCondition flag src)
  compareBudget : ∀ sample u, Keeps I fun s => (compareUnit .budget sample u s).1
  link : LinkKept I
  chan : ∀ f, (∀ c, ConvertedKept c (f c) ∧ (f c).target = c.target) → Keeps I (State.modChan f)
  budget : ∀ w, Keeps I (State.modPmg fun p => { p with budget := w })
  draws : ∀ n, Keeps I (State.setDraws n)

/-- An invariant that the events of the units keep: each event of the suction controller taken whole, and every write
of the other blocks. The run mark and TARGET are the suction controller's (R105), the converted channels are the
samples', and the settings in the keep-alive domain are the host's. -/
structure ControlKept (I : State → Prop) : Prop extends BudgetKept I where
  evaluate : ∀ {told}, Keeps I told → Keeps I (evaluate told)
  raiseHard : ∀ {told}, Keeps I told → ∀ src, Keeps I (raiseHard told src)
  clearHard : ∀ {told}, Keeps I told → ∀ src, Keeps I (clearHard told src)
  speedTold : ∀ {told}, Keeps I told → Keeps I (speedTold told)
  motorITold : ∀ {told}, Keeps I told → Keeps I (motorITold told)
  controlPeriod : ∀ {told}, Keeps I told → Keeps I (controlPeriod told)
  ka : ∀ f, (∀ k, SettingsKept k (f k) ∧ (f k).marker = k.marker) → Keeps I (State.modKa f)
  t1 : ∀ b, Keeps I (setTimerRunning .i1 b)
  t2 : ∀ b, Keeps I (setTimerRunning .i2 b)
  wcu : ∀ f, Keeps I (State.modWcu f)
  dsu : ∀ f, Keeps I (State.modDsu f)
  pmg : ∀ f, Keeps I (State.modPmg f)
  ask : Keeps I handOver
  leave : Keeps I leaveOrder
  reservation : ∀ r, Keeps I (State.setReservation r)
  bleed : ∀ b, Keeps I (State.setBleedOut b)

/-- Such an invariant that the dock line controller cannot break either. -/
structure DockKept (I : State → Prop) : Prop extends ControlKept I where
  dlc : ∀ f, Keeps I (State.modDlc f)

/-- An invariant that a step can break in no other place: the queues, the lines, the timer unit beside the run mark,
starts and stops. -/
structure StepWrites (I : State → Prop) : Prop where
  accept : ∀ r, Keeps I (acceptRequest r)
  tdu : ∀ f, (∀ t, (f t).runMark = t.runMark) → Keeps I (State.modTdu f)
  sampled : ∀ f, (∀ c, (f c).target = c.target) → Keeps I (State.modChan f)
  pins : ∀ f, Keeps I (State.modPins f)
  pending : ∀ p, Keeps I (State.setPending p)
  stopped : ∀ d, d ≠ .awake → Keeps I (State.setDomain d)
  warm : ∀ cause a b, Keeps I (warmBlocks cause a b)
  lost : Keeps I loseKeepAlive
  cold : ∀ d, d ≠ .awake → Keeps I fun s => stopMain d (s.modKa fun _ => KeepAlive.cold)
  coldWarm : ∀ cause a b, Keeps I fun s => warmBlocks cause a b (s.modKa fun _ => KeepAlive.cold)

/-- Such an invariant that the requests to the suction controller and the writes of settings keep too. -/
structure StepKept (I : State → Prop) : Prop extends DockKept I, StepWrites I where
  selectPreset : ∀ p, Keeps I fun s => (selectPreset p s).state
  resume : Keeps I fun s => (resume s).state
  clearHalt : Keeps I fun s => (clearHalt s).state
  readClearConditions : Keeps I fun s => (readClearConditions s).state
  setBoost : ∀ flag, Keeps I fun s => (setBoost flag s).state
  setSoftOverrides : ∀ flag, Keeps I fun s => (setSoftOverrides flag s).state
  pushOverride : ∀ cap, Keeps I fun s => (pushOverride cap s).state
  write : ∀ sec first count parts entries, parseAll sec parts = some entries →
    Keeps I (applyWrite tellSuction sec first count entries)

variable {I : State → Prop} {told : State → State}

/-! ### Notices, marks of the line, free orders -/

theorem setCheck_keeps (hl : LinkKept I) : Keeps I setCheck := hl _ (by simp)
theorem setGap_keeps (hl : LinkKept I) : Keeps I setGap := hl _ (by simp)
theorem setReceiver_keeps (hl : LinkKept I) (r : Receiver) : Keeps I (setReceiver r) := hl _ (by simp)

theorem askNotice_keeps (hl : LinkKept I) (k : NoticeKind) : Keeps I (askNotice k) :=
  hl _ fun l => by split <;> rfl

theorem askWatchNotice_keeps (hl : LinkKept I) (u : Idx4) : Keeps I (askWatchNotice u) :=
  hl _ fun l => by split <;> rfl

theorem askTimerNotice_keeps (hl : LinkKept I) (k : Idx4) : Keeps I (askTimerNotice k) :=
  hl _ fun l => by split <;> rfl

theorem askDetectorNotice_keeps (hl : LinkKept I) (d : DetectorId) (b : Bool) : Keeps I (askDetectorNotice d b) :=
  hl _ fun l => by split <;> rfl

theorem reportIf_keeps (hr : ∀ flag src, Keeps I (reportCondition flag src)) (b : Bool)
    (flag : ConditionFlag) (src : ConditionSource) :
    Keeps I (reportIf b flag src) := by
  intro s hs
  unfold reportIf
  split
  · exact hr _ _ s hs
  · exact hs

theorem foldl_keeps (events : List (State → State)) (he : ∀ e ∈ events, Keeps I e) (s : State) (hs : I s) :
    I (events.foldl (fun t e => e t) s) := by
  induction events generalizing s with
  | nil => exact hs
  | cons e l ih =>
    rw [List.forall_mem_cons] at he
    exact ih he.2 _ (he.1 s hs)

theorem inAnyOrder_keeps (hn : ∀ n, Keeps I (State.setDraws n)) (events : List (State → State))
    (he : ∀ e ∈ events, Keeps I e) : Keeps I (inAnyOrder events) := fun s hs =>
  foldl_keeps _ (fun e m => he e ((arrange_perm _ _).mem_iff.mp m)) _ (hn _ s hs)

theorem twoEvents_keep (hn : ∀ n, Keeps I (State.setDraws n)) {f g : State → State} (hf : Keeps I f) (hg : Keeps I g) :
    Keeps I (inAnyOrder [f, g]) :=
  inAnyOrder_keeps hn _ (by
    rw [List.forall_mem_cons, List.forall_mem_singleton]
    exact ⟨hf, hg⟩)

/-! ### The watch unit's comparison -/

theorem recordHit_keeps (hl : LinkKept I) (hw : ∀ f, Keeps I (State.modWcu f)) (u : Idx4) : Keeps I (recordHit u) := by
  intro s hs
  have hit := hw (fun w => { w with hits := w.hits.set u true }) s hs
  unfold recordHit
  dsimp only
  split
  · exact askWatchNotice_keeps hl u _ hit
  · exact hit

/-- The comparisons of a channel's samples keep the invariant. -/
abbrev CompareKept (I : State → Prop) (channel : ChannelId) : Prop :=
  ∀ sample u, Keeps I fun s => (compareUnit channel sample u s).1

theorem compareKept (hl : LinkKept I) (hw : ∀ f, Keeps I (State.modWcu f)) (channel : ChannelId) :
    CompareKept I channel := by
  intro sample u s hs
  have hit := recordHit_keeps hl hw u s hs
  have compared : ∀ c, Keeps I (setComparison u c) := fun c => hw _
  simp only [compareUnit, trapHit, trapMiss]
  split
  · split
    · exact hs
    · split
      · split
        · exact compared _ _ hit
        · exact hit
      · split
        · split <;> exact compared _ s hs
        · exact hs
  · exact hs

theorem compareUnits_keeps {ch : ChannelId} (hc : CompareKept I ch) (l : List Reading) (us : List Idx4) :
    Keeps I fun s => (compareUnits ch l us s).1 := by
  induction us with
  | nil => exact fun _ hs => hs
  | cons u us ih => exact fun s hs => ih _ (hc l u s hs)

theorem tellings_keep {deliver : Telling → State → State} (hd : ∀ t, Keeps I (deliver t)) (ts : List Telling) :
    ∀ e ∈ ts.map deliver, Keeps I e := by
  rintro _ m
  obtain ⟨t, -, rfl⟩ := List.mem_map.mp m
  exact hd t

theorem watchEvent_keeps (h : BudgetKept I) {ch : ChannelId} (hc : CompareKept I ch)
    {deliver : Telling → State → State} (hd : ∀ t, Keeps I (deliver t))
    (l : List Reading) : Keeps I fun s => (watchEvent deliver ch l s).1 := fun s hs =>
  inAnyOrder_keeps h.draws _ (tellings_keep hd _) _ (compareUnits_keeps hc l _ s hs)

theorem compareNow_keeps (h : BudgetKept I) {ch : ChannelId} (hc : CompareKept I ch)
    {deliver : Telling → State → State} (hd : ∀ t, Keeps I (deliver t))
    (l : List Reading) : Keeps I fun s => (compareNow deliver ch l s).1 := by
  intro s hs
  dsimp only
  rw [compareNow_fst]
  split
  · exact watchEvent_keeps h hc hd l s hs
  · exact hs

theorem compareAmong_keeps (h : BudgetKept I) {ch : ChannelId} (hc : CompareKept I ch)
    {deliver : Telling → State → State} (hd : ∀ t, Keeps I (deliver t))
    (l : List Reading) (others : List (State → State)) (ho : ∀ e ∈ others, Keeps I e) :
    Keeps I (compareAmong deliver ch l others) := by
  intro s hs
  have drawn := h.draws (s.draws + 1) s hs
  unfold compareAmong
  dsimp only
  split
  · split
    · refine inAnyOrder_keeps h.draws _ (fun e m => ?_) _ (watchEvent_keeps h hc hd l _ drawn)
      rcases List.mem_append.mp m with m | m
      · exact ho e m
      · exact tellings_keep hd _ e m
    · exact inAnyOrder_keeps h.draws _ (tellings_keep hd _) _
        (watchEvent_keeps h hc hd l _ (inAnyOrder_keeps h.draws _ ho _ drawn))
  · exact inAnyOrder_keeps h.draws _ ho s hs

theorem deliverOverride_keeps (h : BudgetKept I) (ht : Keeps I told) (t : Telling) :
    Keeps I (deliverOverride told t) := by
  cases t with
  | raised u cap => exact h.raiseSoft ht _ _
  | stands u cap => exact h.raiseSoft ht _ _
  | cleared u => exact h.clearSoft ht _
  | claimedHit u => exact fun _ hs => hs

/-! ### Dirt sensing -/

theorem breakReservation_keeps (h : ControlKept I) (sec : SectionId) (first count : Nat) :
    Keeps I (breakReservation sec first count) := fun s hs => h.reservation _ s hs

theorem impactCounted_keeps (h : ControlKept I) (p : Pulse) : Keeps I (impactCounted p) := by
  intro s hs
  cases p with
  | faint => exact hs
  | fine => exact reportIf_keeps h.report _ _ _ _ (h.dsu _ s hs)
  | coarse => exact reportIf_keeps h.report _ _ _ _ (h.dsu _ s hs)

theorem takeBoostLevel_keeps (h : ControlKept I) (n : Nat) : Keeps I (takeBoostLevel n) := by
  intro s hs
  unfold takeBoostLevel
  split
  · exact hs
  · exact askNotice_keeps h.link _ _ (h.dsu _ s hs)

theorem setBoostLevel_keeps (h : ControlKept I) (ht : Keeps I told) (n : Nat) : Keeps I (setBoostLevel told n) := by
  intro s hs
  unfold setBoostLevel
  split
  · exact hs
  · exact h.evaluate ht _ (takeBoostLevel_keeps h n s hs)

theorem dirtStop_keeps (h : ControlKept I) (ht : Keeps I told) : Keeps I (dirtStop told) := fun s hs =>
  setBoostLevel_keeps h ht _ _ (h.t2 _ _ (h.dsu _ s hs))

theorem id_keeps : Keeps I id := fun _ hs => hs

theorem dirtTold_keeps (h : ControlKept I) : Keeps I dirtTold := by
  intro s hs
  unfold dirtTold
  split
  · exact dirtStop_keeps h id_keeps s hs
  · exact dirtStop_keeps h id_keeps s hs
  all_goals exact hs

theorem moveBoost_keeps (h : ControlKept I) (before : Nat) : Keeps I (moveBoost before) := by
  intro s hs
  have stop := takeBoostLevel_keeps h s.dsu.dirtLevel _ (h.t2 false s hs)
  unfold moveBoost
  dsimp only
  split
  · split
    · exact stop
    · exact hs
  · split
    · split
      · exact h.t2 _ s hs
      · exact stop
    · exact hs

theorem advanceQuiet_keeps (h : ControlKept I) (level score : Nat) : Keeps I (advanceQuiet level score) := by
  intro s hs
  unfold advanceQuiet
  split
  · split
    · exact breakReservation_keeps h _ _ _ _ (h.ka _ (by simp) _ (h.dsu _ s hs))
    · exact h.dsu _ s hs
  · exact h.dsu _ s hs

theorem classifyWindow_keeps (h : ControlKept I) (applied : Nat) : Keeps I (classifyWindow applied) := fun s hs =>
  moveBoost_keeps h _ _ (advanceQuiet_keeps h _ _ _ (h.dsu _ s hs))

theorem openWindow_keeps (h : ControlKept I) (applied : Nat) : Keeps I (openWindow applied) := fun s hs =>
  h.dsu _ s hs

theorem closeClassified_keeps (h : ControlKept I) (ht : Keeps I told) : Keeps I (closeClassified told) := by
  intro s hs
  have stored : I (storeNet s) := h.chan _ (by simp) s hs
  have compared := compareNow_keeps h.toBudgetKept (compareKept h.link h.wcu .dirtNet)
    (deliverOverride_keeps h.toBudgetKept id_keeps)
    [.valid (storeNet s).chan.dirtNet] _ stored
  have closed := openWindow_keeps h s.snc.applied _ (classifyWindow_keeps h s.snc.applied _ compared)
  have rested := ht _ (dirtStop_keeps h id_keeps _ closed)
  unfold closeClassified
  dsimp only
  split <;> split
  · exact rested
  · exact closed
  · exact h.evaluate ht _ rested
  · exact h.evaluate ht _ closed

theorem windowClose_keeps (h : ControlKept I) (ht : Keeps I told) : Keeps I (windowClose told) := by
  intro s hs
  unfold windowClose
  dsimp only
  split
  · exact h.dsu _ s hs
  · exact h.dsu _ _ (h.dsu _ s hs)
  · exact closeClassified_keeps h ht s hs

/-! ### The pack manager: budget and states -/

theorem setBleedSet_keeps (h : ControlKept I) (b : Six Bool) : Keeps I (setBleedSet b) := fun s hs =>
  h.bleed _ _ (h.pmg _ s hs)

theorem takePackState_keeps (h : ControlKept I) (p : PackState) : Keeps I (takePackState p) := by
  intro s hs
  unfold takePackState
  dsimp only
  split
  · exact h.pmg _ s hs
  · exact setBleedSet_keeps h _ _ (h.pmg _ s hs)

theorem storeBudget_keeps (h : BudgetKept I) : Keeps I storeBudget := by
  intro s hs
  unfold storeBudget
  exact h.budget _ _ (h.chan _ (by simp) _ (reportIf_keeps h.report _ _ _ s hs))

theorem computeBudget_keeps (h : BudgetKept I) (ht : Keeps I told) (first : Bool) :
    Keeps I (computeBudget told first) := by
  intro s hs
  refine compareAmong_keeps h h.compareBudget (deliverOverride_keeps h ht) _ _ (fun e m => ?_) _ (storeBudget_keeps h s hs)
  split at m
  · rw [List.mem_singleton.mp m]
    exact h.tellBudget ht _
  · exact absurd m (by simp)

theorem computeBudgetThen_keeps (h : BudgetKept I) (ht : Keeps I told) {further : State → State}
    (hf : Keeps I further) : Keeps I (computeBudgetThen told further) := by
  intro s hs
  refine compareAmong_keeps h h.compareBudget (deliverOverride_keeps h ht) _ _ (fun e m => ?_) _ (storeBudget_keeps h s hs)
  rw [List.mem_singleton.mp m]
  intro t hI
  refine hf _ ?_
  split
  · exact h.tellBudget ht _ t hI
  · exact hI

theorem announcePack_keeps (h : BudgetKept I) (ht : Keeps I told) : Keeps I (announcePack told) := fun s hs =>
  computeBudget_keeps h ht _ _ (askNotice_keeps h.link _ s hs)

theorem changePack_keeps (h : ControlKept I) (ht : Keeps I told) (p : PackState) : Keeps I (changePack told p) :=
  fun s hs => announcePack_keeps h.toBudgetKept ht _ (takePackState_keeps h p s hs)

/-! ### The dock line's side of the charge -/

theorem askAnew_keeps (h : ControlKept I) : Keeps I askAnew := fun s hs => h.ask _ (h.pmg _ s hs)

theorem askChanged_keeps (h : ControlKept I) (v i : Nat) : Keeps I (askChanged v i) := by
  intro s hs
  unfold askChanged
  split
  · exact hs
  · exact h.ask _ (h.pmg _ s hs)

/-! ### The charge -/

theorem tellCleared_keeps (h : ControlKept I) (ht : Keeps I told) (us : List Idx4) (c : Four Comparison) :
    Keeps I (tellCleared told us c) :=
  inAnyOrder_keeps h.draws _ fun e m => by
    obtain ⟨u, -, rfl⟩ := List.mem_map.mp m
    exact h.clearSoft ht _

theorem claimWatches_keeps (h : ControlKept I) (ht : Keeps I told) : Keeps I (claimWatches told) := fun s hs =>
  breakReservation_keeps h _ _ _ _ (h.wcu _ _ (tellCleared_keeps h ht _ _ _ (h.wcu _ s hs)))

theorem releaseWatches_keeps (h : ControlKept I) : Keeps I releaseWatches := by
  intro s hs
  unfold releaseWatches
  split
  · exact hs
  · exact breakReservation_keeps h _ _ _ _ (h.wcu _ _ (h.wcu _ s hs))

theorem leaveCharging_keeps (h : ControlKept I) : Keeps I leaveCharging := fun s hs =>
  h.pmg _ _ (h.t1 _ _ (releaseWatches_keeps h s hs))

theorem chargeFault_keeps (h : ControlKept I) (ht : Keeps I told) (k : ChargeFault) :
    Keeps I (chargeFault told k) := by
  intro s hs
  unfold chargeFault
  split
  · exact announcePack_keeps h.toBudgetKept ht _ (leaveCharging_keeps h _ (h.leave _ (takePackState_keeps h _ s hs)))
  · exact hs

theorem entryFault_keeps (h : ControlKept I) (ht : Keeps I told) (k : ChargeFault) : Keeps I (entryFault told k) :=
  fun s hs => announcePack_keeps h.toBudgetKept ht _ (h.leave _ (takePackState_keeps h _ s hs))

theorem stopCharge_keeps (h : ControlKept I) (ht : Keeps I told) (p : PackState) : Keeps I (stopCharge told p) :=
  fun s hs => announcePack_keeps h.toBudgetKept ht _ (leaveCharging_keeps h _ (takePackState_keeps h _ s hs))

theorem clearLowMark_keeps (h : ControlKept I) (ht : Keeps I told) : Keeps I (clearLowMark told) := by
  intro s hs
  unfold clearLowMark
  split
  · exact h.clearHard ht _ _ (h.pmg _ s hs)
  · exact hs

theorem chargeEntry_keeps (h : ControlKept I) (ht : Keeps I told) : Keeps I (chargeEntry told) := fun s hs =>
  have claimed := claimWatches_keeps h (dirtTold_keeps h) _
    (clearLowMark_keeps h (dirtTold_keeps h) _ (h.pmg _ s hs))
  announcePack_keeps h.toBudgetKept ht _ (askAnew_keeps h _ (h.pmg _ _
    (takePackState_keeps h _ _ (h.t1 _ _ claimed))))

theorem chargeEntryTest_keeps (h : ControlKept I) (ht : Keeps I told) : Keeps I (chargeEntryTest told) := by
  intro s hs
  unfold chargeEntryTest
  split
  · split
    · exact hs
    · split
      · exact entryFault_keeps h ht _ s hs
      · split
        · exact chargeEntry_keeps h ht s hs
        · exact entryFault_keeps h ht _ s hs
  · exact hs

theorem tellSuction_keeps (h : ControlKept I) : Keeps I tellSuction := by
  intro s hs
  have stopped := dirtStop_keeps h id_keeps s hs
  unfold tellSuction suctionTold
  split
  · exact chargeEntryTest_keeps h id_keeps _ stopped
  · exact stopped
  all_goals exact hs

theorem changePhase_keeps (h : ControlKept I) (ht : Keeps I told) (p : Phase) : Keeps I (changePhase told p) :=
  fun s hs => announcePack_keeps h.toBudgetKept ht _ (askChanged_keeps h _ _ _ (takePackState_keeps h _ s hs))

theorem recharge_keeps (h : ControlKept I) (ht : Keeps I told) : Keeps I (recharge told) := fun s hs =>
  announcePack_keeps h.toBudgetKept ht _ (askAnew_keeps h _ (h.pmg _ _ (takePackState_keeps h _ s hs)))

theorem learn_keeps (h : ControlKept I) : Keeps I learn := by
  intro s hs
  unfold learn
  split
  · exact hs
  · exact h.pmg _ _ (breakReservation_keeps h _ _ _ _ (h.ka _ (by simp) s hs))

theorem enterDone_keeps (h : ControlKept I) (ht : Keeps I told) : Keeps I (enterDone told) := fun s hs =>
  have stopped := h.t1 false _ (askAnew_keeps h _ (takePackState_keeps h _ s hs))
  announcePack_keeps h.toBudgetKept ht _ (h.ka _ (by simp) _ (learn_keeps h _ stopped))

theorem cellPhase_keeps (h : ControlKept I) (ht : Keeps I told) (p : Phase) : Keeps I (cellPhase told p) := by
  intro s hs
  cases p <;> simp only [cellPhase]
  · split
    · exact changePhase_keeps h ht _ s hs
    · exact hs
  · split
    · exact changePhase_keeps h ht _ s hs
    · exact hs
  · exact hs
  · split
    · exact recharge_keeps h ht s hs
    · exact hs

theorem pauseCharge_keeps (h : ControlKept I) (ht : Keeps I told) (p : Phase) : Keeps I (pauseCharge told p) :=
  fun s hs => announcePack_keeps h.toBudgetKept ht _ (askAnew_keeps h _ (takePackState_keeps h _ s hs))

theorem resumeCharge_keeps (h : ControlKept I) (ht : Keeps I told) (p : Phase) : Keeps I (resumeCharge told p) :=
  fun s hs => announcePack_keeps h.toBudgetKept ht _ (askAnew_keeps h _ (takePackState_keeps h _ s hs))

theorem chargeTemperature_keeps (h : ControlKept I) (ht : Keeps I told) (t : Int) :
    Keeps I (chargeTemperature told t) := by
  intro s hs
  unfold chargeTemperature
  dsimp only
  split
  · split
    · exact pauseCharge_keeps h ht _ s hs
    · exact askChanged_keeps h _ _ s hs
  · split
    · exact resumeCharge_keeps h ht _ s hs
    · exact hs
  · exact chargeEntryTest_keeps h ht s hs
  all_goals exact hs

theorem chargeSteps_keeps (h : ControlKept I) (ht : Keeps I told) : Keeps I (chargeSteps told) := by
  have precharge : Keeps I (prechargeStep told) := by
    intro s hs
    unfold prechargeStep
    dsimp only
    split
    · split
      · exact chargeFault_keeps h ht _ _ (h.pmg _ s hs)
      · exact h.pmg _ s hs
    · exact hs
  have trim : Keeps I trimStep := by
    intro s hs
    unfold trimStep
    split
    · exact askChanged_keeps h _ _ s hs
    · exact hs
  have balance : Keeps I balanceStep := by
    intro s hs
    unfold balanceStep
    split
    · exact setBleedSet_keeps h _ s hs
    · exact hs
  exact fun s hs => balance _ (trim _ (precharge s hs))

/-! ### Protection and LOW_CHARGE -/

theorem judgeLow_keeps (h : ControlKept I) (ht : Keeps I told) : Keeps I (judgeLow told) := by
  intro s hs
  unfold judgeLow
  split
  · split
    · exact announcePack_keeps h.toBudgetKept ht _ (h.raiseHard ht _ _ (h.pmg _ _ (takePackState_keeps h _ s hs)))
    · exact h.pmg _ s hs
  · exact h.pmg _ s hs

theorem judgeGood_keeps (h : ControlKept I) (ht : Keeps I told) : Keeps I (judgeGood told) := by
  intro s hs
  have cleared := h.clearHard ht .packLow _
    (h.pmg (fun p => { p with lowMark := false, recoveryCount := 0 }) s hs)
  unfold judgeGood recover
  dsimp only
  split
  · split
    · split
      · exact changePack_keeps h ht _ _ cleared
      · exact cleared
    · exact h.pmg _ s hs
  · exact h.pmg _ s hs

theorem judgeHot_keeps (h : ControlKept I) (ht : Keeps I told) (t : Int) : Keeps I (judgeHot told t) := by
  intro s hs
  unfold judgeHot
  split
  · split
    · exact h.clearHard ht _ _ (h.pmg _ s hs)
    · exact hs
  · split
    · exact h.raiseHard ht _ _ (h.pmg _ s hs)
    · exact hs

theorem judgeLowCharge_keeps (h : ControlKept I) (ht : Keeps I told) : Keeps I (judgeLowCharge told) := by
  intro s hs
  unfold judgeLowCharge
  dsimp only
  split
  · split
    · exact h.clearSoft ht _ _ (h.pmg _ s hs)
    · exact h.raiseSoft ht _ _ s hs
  · split
    · exact h.raiseSoft ht _ _ _ (h.pmg _ s hs)
    · exact hs

/-! ### Samples -/

theorem packCell_keeps (h : ControlKept I) (ht : Keeps I told) : Keeps I (packCell told) := by
  intro s hs
  have estimated : I (takeEstimate s) := by
    unfold takeEstimate
    split
    · exact h.ka _ (by simp) s hs
    · exact hs
  unfold packCell
  dsimp only
  generalize takeEstimate s = t at estimated
  split
  · exact judgeLow_keeps h ht _ estimated
  · split
    · exact judgeGood_keeps h ht _ estimated
    · exact estimated
  · split
    · exact judgeGood_keeps h ht _ estimated
    · exact estimated
  · split
    · exact cellPhase_keeps h ht _ _ estimated
    · exact chargeFault_keeps h ht _ _ estimated
  · split
    · exact estimated
    · exact chargeFault_keeps h ht _ _ estimated
  · exact estimated

theorem packCurrent_keeps (h : ControlKept I) (ht : Keeps I told) : Keeps I (packCurrent told) := by
  intro s hs
  unfold packCurrent
  split
  · split
    · split
      · exact enterDone_keeps h ht s hs
      · exact h.pmg _ s hs
    · exact h.pmg _ s hs
  · exact hs

theorem packTemperature_keeps (h : ControlKept I) (ht : Keeps I told) : Keeps I (packTemperature told) := by
  intro s hs
  unfold packTemperature
  split
  · exact chargeTemperature_keeps h ht _ _ (judgeHot_keeps h ht _ s hs)
  · exact chargeFault_keeps h ht _ s hs

theorem motorTTold_keeps (h : ControlKept I) (ht : Keeps I told) : Keeps I (motorTTold told) := by
  intro s hs
  unfold motorTTold
  split
  · exact hs
  · split
    · split
      · exact h.clearHard ht _ s hs
      · exact hs
    · split
      · exact h.raiseHard ht _ s hs
      · exact hs

theorem deliverTelling_keeps (h : ControlKept I) (ht : Keeps I told) (t : Telling) :
    Keeps I (deliverTelling told t) := by
  cases t with
  | claimedHit u =>
    cases u with
    | i0 | i1 => exact fun _ hs => hs
    | i2 | i3 => exact chargeFault_keeps h ht _
  | raised u cap => exact deliverOverride_keeps h.toBudgetKept ht (.raised u cap)
  | stands u cap => exact deliverOverride_keeps h.toBudgetKept ht (.stands u cap)
  | cleared u => exact deliverOverride_keeps h.toBudgetKept ht (.cleared u)

theorem accumulate_keeps (h : ControlKept I) (i : Int) : Keeps I (accumulate i) := by
  intro s hs
  exact h.ka _ (by simp) s hs

theorem sampleTold_keeps (h : ControlKept I) (ht : Keeps I told) (ch : ChannelId) (l : List Reading)
    {owner : State → State} (ho : Keeps I owner) : Keeps I (sampleTold told ch l owner) :=
  compareAmong_keeps h.toBudgetKept (compareKept h.link h.wcu ch) (deliverTelling_keeps h ht) _ _ (by simpa using ho)

theorem cellSampled_keeps (h : ControlKept I) (hc : ∀ f, (∀ c, (f c).target = c.target) → Keeps I (State.modChan f))
    (ht : Keeps I told) (cell : Six Reading) : Keeps I (cellSampled told cell) := fun s hs =>
  h.bleed _ _ (sampleTold_keeps h ht _ _ (packCell_keeps h ht) _ (hc _ (by simp) _ (h.bleed _ s hs)))

theorem channelSampled_keeps (h : ControlKept I)
    (hc : ∀ f, (∀ c, (f c).target = c.target) → Keeps I (State.modChan f)) (ht : Keeps I told) (c : Conversion) :
    Keeps I (channelSampled told c) := by
  intro s hs
  have stored : ∀ f : Channels → Channels, (∀ c, (f c).target = c.target) → I (s.modChan f) :=
    fun f hf => hc f hf s hs
  cases c with
  | packI v =>
    exact sampleTold_keeps h ht _ _ (packCurrent_keeps h ht) _ (accumulate_keeps h _ _ (stored _ (by simp)))
  | packT v => exact sampleTold_keeps h ht _ _ (packTemperature_keeps h ht) _ (stored _ (by simp))
  | motorT v => exact sampleTold_keeps h ht _ _ (motorTTold_keeps h ht) _ (stored _ (by simp))
  | motorI v => exact sampleTold_keeps h ht _ _ (h.motorITold ht) _ (stored _ (by simp))
  | speed v => exact sampleTold_keeps h ht _ _ (h.speedTold ht) _ (stored _ (by simp))
  | dockV v => exact sampleTold_keeps h ht _ _ id_keeps _ (stored _ (by simp))

/-! ### The gauge second -/

theorem integrate_keeps (h : ControlKept I) (mean : Int) : Keeps I (integrate mean) := by
  intro s hs
  have counted := h.ka (fun k => { k with qRem := integrated mean k }) (by simp) s hs
  unfold integrate
  dsimp only
  split
  · exact reportIf_keeps h.report _ _ _ _ (reportIf_keeps h.report _ _ _ _ counted)
  · exact counted

theorem countDischarge_keeps (h : ControlKept I) (mean : Int) : Keeps I (countDischarge mean) := by
  intro s hs
  unfold countDischarge
  dsimp only
  split
  · split
    · exact breakReservation_keeps h _ _ _ _
        (h.ka _ (by simp) _ (h.ka _ (by simp) s hs))
    · exact h.ka _ (by simp) s hs
  · exact h.ka _ (by simp) s hs

theorem gaugeCount_keeps (h : ControlKept I) (mean : Int) : Keeps I (gaugeCount mean) := by
  intro s hs
  have counted := countDischarge_keeps h mean _ (integrate_keeps h mean s hs)
  unfold gaugeCount learnStep
  dsimp only
  split
  · exact hs
  · split
    · split
      · exact h.pmg _ _ counted
      · exact counted
    · exact counted

theorem gaugeSecond_keeps (h : ControlKept I) (ht : Keeps I told) : Keeps I (gaugeSecond told) := by
  intro s hs
  have counted := gaugeCount_keeps h (meanOf s.ka.accSum s.ka.accCount s.draws) _
    (h.ka (fun k => { k with accSum := 0, accCount := 0 }) (by simp) _
      (h.draws (if s.ka.accCount = 0 then s.draws + 1 else s.draws) s hs))
  have rest : Keeps I (restOfSecond told) := fun t hI =>
    chargeSteps_keeps h ht _ (computeBudgetThen_keeps h.toBudgetKept ht (judgeLowCharge_keeps h ht) t hI)
  unfold gaugeSecond
  dsimp only
  split
  · exact compareAmong_keeps h.toBudgetKept (compareKept h.link h.wcu .soc) (deliverOverride_keeps h.toBudgetKept ht) _ _
      (by simpa using rest) _
      (h.pmg _ _ (h.chan _ (by simp) _ counted))
  · exact counted

/-! ### Expiries, run time -/

theorem safetyExpired_keeps (h : ControlKept I) (ht : Keeps I told) : Keeps I (safetyExpired told) := by
  intro s hs
  have fault := chargeFault_keeps h ht .timeout s hs
  unfold safetyExpired
  split <;> assumption

theorem expiryTold_keeps (h : ControlKept I) (ht : Keeps I told) (k : Idx4) : Keeps I (expiryTold told k) := by
  cases k with
  | i0 => exact windowClose_keeps h ht
  | i1 => exact safetyExpired_keeps h ht
  | i2 => exact fun s hs => setBoostLevel_keeps h ht _ s hs
  | i3 => exact id_keeps

theorem addRunSecond_keeps (h : ControlKept I) : Keeps I addRunSecond := by
  intro s hs
  have counted := h.ka (fun k => { k with motorTotal := k.motorTotal.addSecond, filter := k.filter.addSecond })
    (by simp) s hs
  unfold addRunSecond
  dsimp only
  split
  · exact askNotice_keeps h.link _ _ (h.ka _ (by simp) _ counted)
  · exact counted

/-! ### The dock session -/

theorem serveLine_keeps (h : DockKept I) : Keeps I serveLine := fun s hs => h.dlc _ s hs
theorem endExchange_keeps (h : DockKept I) : Keeps I endExchange := fun s hs => h.dlc _ s hs

theorem setSession_keeps (h : DockKept I) (x : Session) : Keeps I (setSession x) := by
  intro s hs
  unfold setSession
  split
  · exact hs
  · exact askNotice_keeps h.link _ _ (h.dlc _ s hs)


theorem waitInDock_keeps (h : ControlKept I) (ht : Keeps I told) : Keeps I (waitInDock told) := fun s hs =>
  chargeEntryTest_keeps h ht _ (changePack_keeps h ht _ s hs)

theorem packInserted_keeps (h : ControlKept I) (ht : Keeps I told) : Keeps I (packInserted told) := by
  intro s hs
  have waits := waitInDock_keeps h ht s hs
  unfold packInserted
  split <;> assumption

theorem packRemoved_keeps (h : ControlKept I) (ht : Keeps I told) : Keeps I (packRemoved told) := by
  intro s hs
  have changed := changePack_keeps h ht (outOfDock s.pmg) s hs
  have stopped := stopCharge_keeps h ht .discharge s hs
  unfold packRemoved
  split <;> assumption

theorem packLost_keeps (h : ControlKept I) (ht : Keeps I told) : Keeps I (packLost told) := by
  intro s hs
  unfold packLost
  split
  · exact chargeEntryTest_keeps h ht _ (stopCharge_keeps h ht _ s hs)
  · exact hs

/-- An insertion, from the arming of D0 on. -/
theorem dockInserted_keeps (h : DockKept I) (ht : Keeps I told) {s : State}
    (armed : I (armDetector .d0 .falling 8 s)) : I (dockInserted told s) :=
  have taken := twoEvents_keep h.draws (h.raiseHard ht .docked) (packInserted_keeps h.toControlKept ht) _ armed
  serveLine_keeps h _ (h.dlc _ _ (setSession_keeps h _ _ (h.dlc _ _ taken)))

/-- A removal, from the arming of D0 on. -/
theorem dockRemoved_keeps (h : DockKept I) (ht : Keeps I told) {s : State}
    (armed : I (armDetector .d0 .rising 8 s)) : I (dockRemoved told s) :=
  have taken := twoEvents_keep h.draws (h.clearHard ht .docked) (packRemoved_keeps h.toControlKept ht) _ armed
  setSession_keeps h _ _ (h.dlc _ _ taken)

theorem enterOffered_keeps (h : DockKept I) (ht : Keeps I told) : Keeps I (enterOffered told) := fun s hs =>
  chargeEntryTest_keeps h.toControlKept ht _ (setSession_keeps h _ s hs)

theorem enterLost_keeps (h : DockKept I) (ht : Keeps I told) : Keeps I (enterLost told) := fun s hs =>
  packLost_keeps h.toControlKept ht _ (h.dlc _ _ (setSession_keeps h _ s hs))

theorem takeMiss_keeps (h : DockKept I) (ht : Keeps I told) (f : DockFrame) : Keeps I (takeMiss told f) := by
  intro s hs
  have lost := enterLost_keeps h ht s hs
  have missed := h.dlc (Dlc.missed f) s hs
  unfold takeMiss
  split
  · split <;> assumption
  · split <;> assumption
  · split <;> assumption
  all_goals exact hs

theorem exchangeMissed_keeps (h : DockKept I) (ht : Keeps I told) : Keeps I (exchangeMissed told) := by
  intro s hs
  unfold exchangeMissed
  split
  · exact hs
  · exact serveLine_keeps h _ (takeMiss_keeps h ht _ _ (endExchange_keeps h s hs))

theorem takeGrant_keeps (h : DockKept I) (x : Exchange) : Keeps I (takeGrant x) := by
  intro s hs
  have ended := h.dlc
    (fun d => { d with exchange := none, misses := 0, declines := 0, askDue := d.askDue && x.newer }) s hs
  unfold takeGrant
  dsimp only
  refine serveLine_keeps h _ ?_
  split
  · split
    · exact h.dlc _ _ ended
    · exact setSession_keeps h _ _ ended
  · exact ended

theorem takeDecline_keeps (h : DockKept I) (ht : Keeps I told) : Keeps I (takeDecline told) := by
  intro s hs
  have ended := h.dlc (fun d => { d with exchange := none, misses := 0 }) s hs
  unfold takeDecline
  dsimp only
  refine serveLine_keeps h _ ?_
  split
  · split
    · exact chargeFault_keeps h.toControlKept ht _ _ (h.dlc _ _ ended)
    · exact h.dlc _ _ ended
  · exact ended

theorem takeAnswer_keeps (h : DockKept I) (ht : Keeps I told) (x : Exchange) (a : DockAnswer) :
    Keeps I (takeAnswer told x a) := by
  intro s hs
  have missed := exchangeMissed_keeps h ht s hs
  unfold takeAnswer
  split
  · split
    · exact serveLine_keeps h _ (enterOffered_keeps h ht _ (h.dlc _ _ (endExchange_keeps h s hs)))
    · exact missed
  · exact takeGrant_keeps h _ s hs
  · exact takeDecline_keeps h ht s hs
  · exact serveLine_keeps h _ (h.dlc _ s hs)
  · exact missed

theorem answerReceived_keeps (h : DockKept I) (ht : Keeps I told) (bytes : List Byte) :
    Keeps I (answerReceived told bytes) := by
  intro s hs
  unfold answerReceived
  split
  · exact hs
  · split
    · exact exchangeMissed_keeps h ht s hs
    · exact takeAnswer_keeps h ht _ _ s hs

theorem frameSent_keeps (h : DockKept I) (ht : Keeps I told) : Keeps I (frameSent told) := by
  intro s hs
  have ended := endExchange_keeps h s hs
  unfold frameSent quitSent
  dsimp only
  split
  · exact hs
  · split
    · exact hs
    · split
      · refine serveLine_keeps h _ ?_
        split
        · exact enterOffered_keeps h ht _ ended
        · exact ended
      · exact h.dlc _ s hs

/-! ### Detections and the tick -/

/-- A detection of D1, from its arming on. -/
theorem binDetected_keeps (h : ControlKept I) (ht : Keeps I told) {b : Bool} {s : State}
    (armed : I (armDetector .d1 (Polarity.leaving b) 8 s)) : I (binDetected told b s) := by
  unfold binDetected
  dsimp only
  split
  · exact h.raiseHard ht _ _ armed
  · exact h.clearHard ht _ _ armed

theorem detectionTold_keeps (h : DockKept I) (ht : Keeps I told) {d : DetectorId}
    (ha : d ≠ .d2 → ∀ p, Keeps I (armDetector d p 8)) (b : Bool) : Keeps I (detectionTold told d b) := by
  intro s hs
  cases d with
  | d0 =>
    cases b with
    | true => exact dockInserted_keeps h ht (ha nofun _ s hs)
    | false => exact dockRemoved_keeps h ht (ha nofun _ s hs)
  | d1 => exact binDetected_keeps h.toControlKept ht (ha nofun _ s hs)
  | d2 => exact hs

theorem foldl_steps_keep {α : Type} (f : α → State → State) (hf : ∀ a, Keeps I (f a)) (l : List α) :
    Keeps I fun s => l.foldl (fun u a => f a u) s := by
  induction l with
  | nil => exact fun _ hs => hs
  | cons a l ih => exact fun s hs => ih _ (hf a s hs)

theorem mem_tickEvents {e : State → State} {expired : List Idx4} {detected : List DetectorId} {second : Bool}
    {levels : Pins} (he : e ∈ tickEvents told expired detected second levels) :
    (∃ k ∈ expired, e = expiryTold told k) ∨
      (∃ d ∈ detected, e = detectionTold told d (levels.level d)) ∨ e = addRunSecond := by
  rcases List.mem_append.mp he with m | m
  · rcases List.mem_append.mp m with m | m
    · obtain ⟨k, hk, rfl⟩ := List.mem_map.mp m
      exact .inl ⟨k, hk, rfl⟩
    · obtain ⟨d, hd, rfl⟩ := List.mem_map.mp m
      exact .inr (.inl ⟨d, hd, rfl⟩)
  · split at m
    · exact .inr (.inr (List.mem_singleton.mp m))
    · exact absurd m (by simp)

theorem armDetector_keeps (h : StepWrites I) (d : DetectorId) (p : Polarity) (n : Nat) :
    Keeps I (armDetector d p n) := h.tdu _ (by simp)

theorem disarmDetector_keeps (h : StepWrites I) (d : DetectorId) : Keeps I (disarmDetector d) := h.tdu _ (by simp)

theorem setTimerRunning_keeps (h : StepWrites I) (k : Idx4) (b : Bool) : Keeps I (setTimerRunning k b) :=
  h.tdu _ (by simp)

theorem detect_keeps (h : StepKept I) (d : DetectorId) (b : Bool) : Keeps I (detect d b) := fun s hs =>
  askDetectorNotice_keeps h.link _ _ _ (disarmDetector_keeps h.toStepWrites _ s hs)

theorem expireTimer_keeps (h : StepKept I) (k : Idx4) : Keeps I (expireTimer k) := by
  intro s hs
  have reloaded := setTimerRunning_keeps h.toStepWrites k (repeatsAtExpiry k (s.tdu.entries.get k).mode) s hs
  unfold expireTimer
  dsimp only
  split
  · exact askTimerNotice_keeps h.link _ _ reloaded
  · exact reloaded

theorem tick_keeps (h : StepKept I) (ht : Keeps I told) : Keeps I (tick told) := by
  intro s hs
  have moved : I (moveLines s) := h.draws _ _ (h.pins _ s hs)
  have ticked := h.tdu (Tdu.ticked (moveLines s).pins) (fun _ => rfl) _ moved
  unfold tick tickAtLevels
  dsimp only
  refine inAnyOrder_keeps h.draws _ (fun e m => ?_) _
    (foldl_steps_keep _ (fun d => detect_keeps h d _) _ _ (foldl_steps_keep _ (expireTimer_keeps h) _ _ ticked))
  rcases mem_tickEvents m with ⟨k, -, rfl⟩ | ⟨d, -, rfl⟩ | rfl
  · exact expiryTold_keeps h.toControlKept ht k
  · exact detectionTold_keeps h.toDockKept ht (fun _ p => armDetector_keeps h.toStepWrites d p 8) _
  · exact addRunSecond_keeps h.toControlKept

/-! ### Requests -/

theorem readSection_keeps (h : StepKept I) (a b c d : Byte) : Keeps I fun s => (readSection a b c d s).state := by
  intro s hs
  simp only [readSection, refuse, answerOk]
  split
  · exact hs
  · split
    · dsimp only
      split
      · exact hs
      · exact h.reservation _ s hs
    · exact hs

theorem writeSection_keeps (h : StepKept I) (a b c d : Byte) (entries : List Byte) :
    Keeps I fun s => (writeSection tellSuction a b c d entries s).state := by
  intro s hs
  have consumed : I (if d = 0 then s else s.setReservation none) := by
    split
    · exact hs
    · exact h.reservation _ s hs
  simp only [writeSection, refuse]
  generalize (if d = 0 then s else s.setReservation none) = t at consumed
  split
  · exact consumed
  · split
    · exact consumed
    · split
      · exact consumed
      · simp only [writeRange, refuse]
        split
        · exact consumed
        · split
          · exact h.wcu (fun w => { w with heldAccess := true }) _ consumed
          · split
            · exact consumed
            · split
              · exact consumed
              · exact h.write _ _ _ _ _ (by assumption) _ consumed

theorem timerControl_keeps (h : StepKept I) (a b : Byte) : Keeps I fun s => (timerControl a b s).state := by
  intro s hs
  simp only [timerControl, refuse, answerOk]
  split
  · exact hs
  · split
    · exact hs
    · split
      · exact hs
      · dsimp only
        split
        · exact setTimerRunning_keeps h.toStepWrites _ _ s hs
        · exact setTimerRunning_keeps h.toStepWrites _ _ s hs

theorem armRequest_keeps (h : StepKept I) (a b c : Byte) : Keeps I fun s => (armRequest a b c s).state := by
  intro s hs
  simp only [armRequest, refuse, answerOk]
  split
  · exact hs
  · split
    · exact hs
    · split
      · exact hs
      · split
        · exact disarmDetector_keeps h.toStepWrites _ s hs
        · exact armDetector_keeps h.toStepWrites _ _ _ s hs

theorem closeLink_keeps (hl : LinkKept I) : Keeps I closeLink := hl _ (by simp)

/-- A request that is carried out keeps the invariant, whatever its kind and payload. -/
theorem carryOut_keeps (h : StepKept I) (r : Request) : Keeps I fun s => (carryOut r s).state := by
  have ht := tellSuction_keeps h.toControlKept
  intro s hs
  show I (carryOut r s).state
  unfold carryOut
  split
  case h_1 => exact hs
  case h_2 =>
    simp only [getStatus, answerOk]
    split
    · exact hs
    · exact h.link _ (by simp) s hs
  case h_3 =>
    unfold readChannels
    dsimp only
    split
    · exact hs
    · split <;> exact hs
  case h_4 => exact readSection_keeps h _ _ _ _ s hs
  case h_5 => exact writeSection_keeps h _ _ _ _ _ s hs
  case h_6 => exact h.selectPreset _ s hs
  case h_7 => exact h.setBoost _ s hs
  case h_8 => exact h.resume s hs
  case h_9 => exact h.clearHalt s hs
  case h_10 => exact h.pushOverride _ s hs
  case h_11 =>
    unfold releaseOverride
    split
    · exact h.clearSoft ht _ s hs
    · exact hs
  case h_12 => exact hs
  case h_13 => exact h.setSoftOverrides _ s hs
  case h_14 => exact h.readClearConditions s hs
  case h_15 => exact h.wcu (fun w => { w with hits := Four.all false, heldAccess := false }) s hs
  case h_16 =>
    unfold readDirtHistory
    split <;> exact hs
  case h_17 => exact timerControl_keeps h _ _ s hs
  case h_18 => exact armRequest_keeps h _ _ _ s hs
  case h_19 => exact hs
  case h_20 => exact h.ka (fun k => { k with filter := RunTime.zero }) (by simp) s hs
  case h_21 => exact h.ka (fun k => { k with serviceDue := false }) (by simp) s hs
  case h_22 =>
    unfold clearChargeFault
    split
    · exact waitInDock_keeps h.toControlKept ht s hs
    all_goals exact hs
  case h_23 => exact h.ka (fun k => { k with keepAliveLost := false }) (by simp) s hs
  case h_24 =>
    unfold sleepRequest
    split
    · exact closeLink_keeps h.link s hs
    · exact hs
  case h_25 => exact closeLink_keeps h.link s hs
  case h_26 => exact hs

/-! ### The link controller's turn -/

theorem handNext_keeps (h : StepKept I) : Keeps I handNext := by
  intro s hs
  unfold handNext
  split
  · exact hs
  · next r rest queued =>
    split
    · refine h.link _ (by simp) _ ?_
      have taken : I (s.modLink fun l => { l with queue := l.queue.tail }) :=
        h.link _ (fun l => by simp) s hs
      have same : (s.modLink fun l => { l with queue := l.queue.tail }) = s.modLink fun l => { l with queue := rest } := by
        simp only [State.modLink, queued, List.tail_cons]
      rw [same] at taken
      unfold handle
      split
      · dsimp only
        split
        · exact carryOut_keeps h _ _ taken
        · exact taken
      · exact taken
    · exact hs

theorem startFrame_keeps (h : StepKept I) : Keeps I startFrame := by
  intro s hs
  unfold startFrame
  split
  · exact hs
  · split
    · exact h.link _ (by simp) s hs
    · split
      · exact hs
      · split
        · exact h.draws _ _ (h.link _ (by simp [Link.noticeStarted]) s hs)
        · exact hs

theorem settle_keeps (h : StepKept I) : Keeps I settle := fun s hs =>
  handNext_keeps h _ (startFrame_keeps h _ (handNext_keeps h s hs))

theorem whileAwake_keeps (h : StepKept I) {f : State → State} (hf : Keeps I f) : Keeps I (whileAwake f) := by
  intro s hs
  unfold whileAwake
  split
  · exact settle_keeps h _ (hf s hs)
  · exact hs

/-! ### The receiver -/

theorem byteReceived_keeps (h : StepKept I) (b : Byte) : Keeps I (byteReceived b) := by
  intro s hs
  have received : ∀ r, I (setReceiver r s) := fun r => setReceiver_keeps h.link r s hs
  unfold byteReceived
  split
  · split
    · exact received _
    · exact hs
  · split
    · exact received _
    · exact setCheck_keeps h.link _ (received _)
  · exact received _
  · unfold judgeFrame
    split
    · split
      · exact h.accept _ _ (received _)
      · exact received _
    · exact setCheck_keeps h.link _ (received _)

theorem brokenByte_keeps (h : StepKept I) : Keeps I brokenByte := by
  intro s hs
  have broken := setCheck_keeps h.link _ (setReceiver_keeps h.link .hunt s hs)
  unfold brokenByte
  split <;> assumption

theorem gapExpired_keeps (h : StepKept I) : Keeps I gapExpired := by
  intro s hs
  have expired := setGap_keeps h.link _ (setReceiver_keeps h.link .hunt s hs)
  unfold gapExpired
  split <;> assumption

theorem frameReceived_keeps (h : StepKept I) (bytes : List Byte) : Keeps I (frameReceived bytes) := by
  have byte : ∀ b, Keeps I fun s => frameByte s b := by
    intro b s hs
    have received := byteReceived_keeps h b s hs
    dsimp only [frameByte]
    split
    · exact settle_keeps h _ received
    all_goals exact received
  exact foldl_steps_keep (fun b s => frameByte s b) byte bytes

/-! ### Starts and stops -/

theorem stopMain_keeps (h : StepKept I) {d : Domain} (hd : d ≠ .awake) : Keeps I (stopMain d) := fun s hs =>
  h.stopped d hd _ (h.bleed _ _ (h.dlc _ _ (h.link _ (by simp) s hs)))

/-- What follows the warm-start values at the completion of a start. -/
theorem warmCompletion_keeps (h : StepKept I) (cause : StartCause) (a b : Bool) (s : State)
    (hw : I (warmBlocks cause a b s)) : I (completeWarmStart cause a b s) := by
  have ht := tellSuction_keeps h.toControlKept
  have first : ∀ d, Keeps I (firstDetection d) := fun d t hI =>
    detectionTold_keeps h.toDockKept ht (fun _ p => armDetector_keeps h.toStepWrites d p 8) true _ (detect_keeps h d true t hI)
  refine inAnyOrder_keeps h.draws _ (fun e m => ?_) _ (computeBudget_keeps h.toBudgetKept ht _ _ (askNotice_keeps h.link _ _ hw))
  have : e = firstDetection .d0 ∨ e = firstDetection .d1 := by
    simp only [List.mem_append] at m
    rcases m with m | m <;> split at m <;> simp_all
  rcases this with rfl | rfl
  · exact first _
  · exact first _

theorem completeWarmStart_keeps (h : StepKept I) (cause : StartCause) (a b : Bool) :
    Keeps I (completeWarmStart cause a b) := fun s hs =>
  warmCompletion_keeps h cause a b s (h.warm cause a b s hs)

theorem beginStart_keeps (h : StepKept I) (cause : StartCause) (a b : Bool) :
    Keeps I (beginStart cause a b) := by
  intro s hs
  unfold beginStart
  split
  · exact stopMain_keeps h (by simp) s hs
  · exact completeWarmStart_keeps h _ _ _ s hs

theorem holdMain_keeps (h : StepKept I) (cause : StartCause) : Keeps I (holdMain cause) := by
  intro s hs
  unfold holdMain joinCauses
  split
  · exact stopMain_keeps h (by simp) s hs
  · exact h.stopped _ (by simp) s hs
  · split
    · exact h.stopped _ (by simp) s hs
    · exact h.draws _ _ (h.stopped _ (by simp) s hs)

theorem releaseHold_keeps (h : StepKept I) (a b : Bool) : Keeps I (releaseHold a b) := by
  intro s hs
  unfold releaseHold
  split
  · split
    · exact hs
    · exact completeWarmStart_keeps h _ _ _ s hs
  all_goals exact hs

theorem transmitEnd_keeps (h : StepKept I) (a b : Bool) : Keeps I (transmitEnd a b) := by
  intro s hs
  have ended := h.link (fun l => { l with tx := none }) (by simp) s hs
  unfold transmitEnd endOfSleepReply
  dsimp only
  split
  · exact hs
  · split
    · exact settle_keeps h _ ended
    · split
      · exact stopMain_keeps h (by simp) _ ended
      · exact settle_keeps h _ (startFrame_keeps h _ (h.link _ (by simp) _ ended))
    · exact completeWarmStart_keeps h _ _ _ _ ended

theorem coldStart_keeps (h : StepKept I) (a b : Bool) : Keeps I (coldStart a b) := by
  intro s hs
  unfold coldStart beginStart
  split
  · exact hs
  · split
    · exact h.cold _ (by simp) s hs
    · exact warmCompletion_keeps h _ _ _ _ (h.coldWarm _ _ _ s hs)

/-! ### Every step -/

theorem exec_keeps (h : StepKept I) (c : Instr) {s t : State} (hs : I s) (hst : exec c s = .next t) : I t := by
  have ht := tellSuction_keeps h.toControlKept
  have main : ∀ {f : State → State}, Keeps I f → mainStep f s = .next t → I t := by
    intro f hf he
    obtain rfl := Host.Outcome.next.inj he
    exact whileAwake_keeps h hf s hs
  have next : ∀ {u : State}, I u → Host.Outcome.next (φ := Fault) (ρ := Refusal) u = .next t → I t := by
    intro u hu he
    rwa [← Host.Outcome.next.inj he]
  cases c
  case byteArrival byte stopError =>
    refine main ?_ hst
    split
    · exact brokenByte_keeps h
    · exact byteReceived_keeps h _
  case frameReceived => exact main (frameReceived_keeps h _) hst
  case gapTimeout => exact main (gapExpired_keeps h) hst
  case transmitEnd =>
    refine next ?_ hst
    split
    · exact transmitEnd_keeps h _ _ s hs
    · exact hs
  case wake =>
    refine next ?_ hst
    split
    · exact beginStart_keeps h _ _ _ s hs
    · exact hs
  case dockWake =>
    refine next ?_ hst
    split
    · exact beginStart_keeps h _ _ _ s hs
    · exact h.pins _ s hs
  case resetAssert =>
    refine next ?_ hst
    split
    · exact hs
    · exact holdMain_keeps h _ _ (h.pins _ s hs)
  case resetRelease =>
    refine next ?_ hst
    split
    · exact releaseHold_keeps h _ _ _ (h.pins _ s hs)
    · exact hs
  case supplyDip =>
    refine next ?_ hst
    split
    · exact hs
    · split
      · exact h.pins _ s hs
      · exact holdMain_keeps h _ _ (h.pins _ s hs)
  case supplyReturn =>
    refine next ?_ hst
    split
    · exact releaseHold_keeps h _ _ _ (h.pins _ s hs)
    · exact hs
  case keepaliveLoss => exact next (h.lost s hs) hst
  case coldStart => exact next (coldStart_keeps h _ _ s hs) hst
  case cellSample => exact main (cellSampled_keeps h.toControlKept h.sampled ht _) hst
  case channelSample => exact main (channelSampled_keeps h.toControlKept h.sampled ht _) hst
  case keepaliveShuntSample =>
    refine next ?_ hst
    split
    · exact hs
    · exact h.ka _ (by simp) s hs
  case gaugeSecond =>
    refine next ?_ hst
    split
    · exact settle_keeps h _ (gaugeSecond_keeps h.toControlKept ht s hs)
    · exact gaugeSecond_keeps h.toControlKept ht s hs
  case timerExpiry timer =>
    refine main (fun u hu => ?_) hst
    split
    · exact expiryTold_keeps h.toControlKept ht _ _ (expireTimer_keeps h _ u hu)
    · exact hu
  case detection =>
    refine main (fun u hu => ?_) hst
    dsimp only
    split
    · exact detectionTold_keeps h.toDockKept ht (fun _ p => armDetector_keeps h.toStepWrites _ p 8) _ _
        (detect_keeps h _ _ _ (h.pins _ u hu))
    · exact hu
  case runSecond =>
    refine main (fun u hu => ?_) hst
    split
    · exact addRunSecond_keeps h.toControlKept _ (h.tdu _ (by simp) u hu)
    · exact hu
  case controlPeriod => exact main (h.controlPeriod ht) hst
  case impact => exact main (impactCounted_keeps h.toControlKept _) hst
  case probeDue =>
    refine main (fun u hu => ?_) hst
    split
    · exact serveLine_keeps h.toDockKept _ (h.dlc _ u hu)
    · exact hu
  case keepDue =>
    refine main (fun u hu => ?_) hst
    split
    · exact serveLine_keeps h.toDockKept _ (h.dlc _ u hu)
    · exact hu
  case retryWaitEnd =>
    refine main (fun u hu => ?_) hst
    split
    · exact serveLine_keeps h.toDockKept _ (h.dlc _ u hu)
    · exact hu
  case dockFrameSent => exact main (frameSent_keeps h.toDockKept ht) hst
  case offerReceived => exact main (answerReceived_keeps h.toDockKept ht _) hst
  case grantReceived => exact main (answerReceived_keeps h.toDockKept ht _) hst
  case declineReceived => exact main (answerReceived_keeps h.toDockKept ht _) hst
  case keepackReceived => exact main (answerReceived_keeps h.toDockKept ht _) hst
  case dockAnswerTimeout => exact main (exchangeMissed_keeps h.toDockKept ht) hst
  case invalidDockAnswer => exact main (exchangeMissed_keeps h.toDockKept ht) hst
  all_goals exact main (h.accept _) hst

/-- An invariant of `StepKept` is kept by every step. -/
theorem step_keeps (h : StepKept I) {s t : State} (hs : I s) (hst : step s = .next t) : I t := by
  unfold step at hst
  split at hst
  · obtain rfl := Host.Outcome.next.inj hst
    exact whileAwake_keeps h (tick_keeps h (tellSuction_keeps h.toControlKept)) s hs
  · exact exec_keeps h _ (h.pending _ s hs) hst

end Sys2Proof.Machine
end

