-- ==== Sys2Proof/Proofs/HandingOn.lean ====
section
/-! PROOF. The run mark, TARGET and the resting target follow the suction controller, and the queue holds at most two
(R3, R62, R96, R102, R105): three invariants of `DriveKept`. -/

namespace Sys2Proof.Machine

/-- An invariant of the drive: the writes of the other blocks keep it, and it is kept where the suction state and the
adopted target stay, and where a change that leaves the resting target sound is carried out with its handing on. -/
structure DriveKept (I : State → Prop) : Prop where
  still : ∀ (f : Snc → Snc) s, (f s.snc).suction = s.snc.suction → (f s.snc).adopted = s.snc.adopted → I s →
    I (s.modSnc f)
  commit : ∀ {told}, Keeps I told → ∀ (f : Snc → Snc) s, (RestsAtZero s.snc → RestsAtZero (f s.snc)) → I s →
    I (commitSuction told f s)
  link : LinkKept I
  chan : ∀ f, (∀ c, ConvertedKept c (f c) ∧ (f c).target = c.target) → Keeps I (State.modChan f)
  draws : ∀ n, Keeps I (State.setDraws n)
  ka : ∀ f, Keeps I (State.modKa f)
  t1 : ∀ b, Keeps I (setTimerRunning .i1 b)
  t2 : ∀ b, Keeps I (setTimerRunning .i2 b)
  wcu : ∀ f, Keeps I (State.modWcu f)
  dsu : ∀ f, Keeps I (State.modDsu f)
  pmg : ∀ f, Keeps I (State.modPmg f)
  dlc : ∀ f, Keeps I (State.modDlc f)
  reservation : ∀ r, Keeps I (State.setReservation r)
  bleed : ∀ b, Keeps I (State.setBleedOut b)

variable {I : State → Prop} {told : State → State}

/-! ### A change of the suction controller and its handing on (R105) -/

/-- A change of the suction controller with TARGET stored and the run mark set, before the change of the reported
state is told. -/
def carried (f : Snc → Snc) (s : State) : State :=
  setRunMark (if (f s.snc).adopted = s.snc.adopted then s.modSnc f else storeTarget (s.modSnc f))

theorem carried_snc (f : Snc → Snc) (s : State) : (carried f s).snc = f s.snc := by
  unfold carried
  split <;> rfl

theorem carried_line (f : Snc → Snc) (s : State) : LineKept s (carried f s) := by
  unfold carried
  split <;> constructor <;> rfl

theorem commitSuction_eq (told : State → State) (f : Snc → Snc) (s : State) :
    commitSuction told f s =
      if (f s.snc).suction.reported = s.snc.suction.reported then carried f s
      else told (askNotice .suction (carried f s)) := by
  rw [← carried_snc f s]
  rfl

theorem commitSuction_keeps (hn : ∀ k, Keeps I (askNotice k)) (ht : Keeps I told) {f : Snc → Snc} {s : State}
    (hc : I (carried f s)) : I (commitSuction told f s) := by
  rw [commitSuction_eq]
  split
  · exact hc
  · exact ht _ (hn _ _ hc)

/-! ### Changes of the suction controller that leave the resting target sound -/

theorem RestsAtZero.of_motion {c d : Snc} (hc : RestsAtZero c) (hm : d.suction.motion? = c.suction.motion?)
    (ha : d.adopted = c.adopted) : RestsAtZero d := by
  unfold RestsAtZero at hc ⊢
  rwa [hm, ha]

/-- The motion after an adoption is one that regulates exactly when the target is above 0 (R96). -/
theorem restsAtZero_nextMotion (c : Snc) (target speed : Nat) (m : Motion) :
    RestsAtZero { c with suction := .moving (nextMotion target speed m), adopted := target } := by
  rcases Nat.eq_zero_or_pos target with rfl | positive
  · cases m with
    | off | brake => rfl
    | spinUp | run => by_cases fast : 50 ≤ speed <;> simp [RestsAtZero, Suction.motion?, nextMotion, fast]
  · cases m <;> simp [RestsAtZero, Suction.motion?, nextMotion, positive]

theorem restsAtZero_adoptInto {c : Snc} {m : Motion} (hm : c.suction.motion? = some m) (target speed : Nat)
    (hc : RestsAtZero c) : RestsAtZero (c.adoptInto target speed m) := by
  unfold Snc.adoptInto motionAfter Snc.adopt
  split
  · exact hc.of_motion hm.symm rfl
  · exact restsAtZero_nextMotion _ target speed m

theorem restsAtZero_halted (cause : HaltCause) {c : Snc} (hc : RestsAtZero c) : RestsAtZero (c.halted cause) := by
  unfold Snc.halted
  split
  · exact hc
  · rfl

theorem motion_withMotion {s : Suction} {m : Motion} (h : s.motion? = some m) (n : Motion) :
    (s.withMotion n).motion? = some n := by
  cases s with
  | halt c => cases h
  | moving _ | held _ _ => rfl

/-- A move between two motions that both rest, or both regulate, leaves the resting target sound. -/
theorem restsAtZero_moveTo {c : Snc} {old new : Motion} (hm : c.suction.motion? = some old)
    (hk : old = .spinUp ∧ new = .run ∨ old = .brake ∧ new = .off ∨ old = .off ∧ new = .brake)
    (hc : RestsAtZero c) : RestsAtZero (c.moveTo old new) := by
  have moved : (c.moveTo old new).suction.motion? = some new := motion_withMotion hm new
  have kept : (c.moveTo old new).adopted = c.adopted := rfl
  unfold RestsAtZero at hc ⊢
  rw [moved, kept]
  rcases hk with ⟨rfl, rfl⟩ | ⟨rfl, rfl⟩ | ⟨rfl, rfl⟩ <;> simpa only [hm] using hc

theorem restsAtZero_testSpinUp (speed : Nat) {c : Snc} (hc : RestsAtZero c) : RestsAtZero (c.testSpinUp speed) := by
  unfold Snc.testSpinUp
  split
  · next done =>
    simp only [Snc.spinUpDone, Bool.and_eq_true, decide_eq_true_eq] at done
    exact restsAtZero_moveTo done.1.1 (.inl ⟨rfl, rfl⟩) hc
  · exact hc

theorem restsAtZero_speedMoves (speed : Nat) {c : Snc} (hc : RestsAtZero c) : RestsAtZero (c.speedMoves speed) := by
  unfold Snc.speedMoves
  split
  · exact restsAtZero_testSpinUp speed hc
  · next braking =>
    split
    · exact restsAtZero_moveTo braking (.inr (.inl ⟨rfl, rfl⟩)) hc
    · exact hc
  · next off =>
    split
    · exact restsAtZero_moveTo off (.inr (.inr ⟨rfl, rfl⟩)) hc
    · exact hc
  all_goals exact hc

/-! ### Changes of the stack leave the drive -/

theorem raised?_drive {c d : Snc} {src : Source} {cap : Nat} (h : c.raised? src cap = some d) :
    d.suction = c.suction ∧ d.adopted = c.adopted := by
  unfold Snc.raised? at h
  split at h <;> split at h <;> simp only [Option.some.injEq, reduceCtorEq] at h <;> subst h <;> exact ⟨rfl, rfl⟩

theorem popChain_drive (c : Snc) : c.popChain.suction = c.suction ∧ c.popChain.adopted = c.adopted := by
  unfold Snc.popChain
  split <;> exact ⟨rfl, rfl⟩

theorem cleared?_drive {c d : Snc} {src : Source} (h : c.cleared? src = some d) :
    d.suction = c.suction ∧ d.adopted = c.adopted := by
  unfold Snc.cleared? at h
  split at h
  · split at h
    · split at h <;> simp only [Option.some.injEq] at h <;> subst h
      · exact popChain_drive c
      · exact ⟨rfl, rfl⟩
    · cases h
  · cases h

/-! ### The events of the suction controller -/

theorem DriveKept.report (h : DriveKept I) (flag : ConditionFlag) (src : ConditionSource) :
    Keeps I (reportCondition flag src) := by
  intro s hs
  have set := h.still (fun c => { c with conditions := c.conditions.set flag src }) s rfl rfl hs
  unfold reportCondition
  dsimp only
  split
  · exact hs
  · split
    · exact askNotice_keeps h.link _ _ set
    · exact set

theorem DriveKept.reportComputed (h : DriveKept I) (c : Computed) : Keeps I (reportComputed c) :=
  have one := reportIf_keeps h.report
  fun s hs => one _ _ _ _ (one _ _ _ _ (one _ _ _ _ (one _ _ _ s hs)))

theorem recordGateHits_keeps (hl : LinkKept I) (hw : ∀ f, Keeps I (State.modWcu f)) (target : Nat) :
    Keeps I (recordGateHits target) := by
  intro s hs
  unfold recordGateHits
  generalize allUnits = us
  suffices ∀ t, I t → I (us.foldl (fun t u =>
      if gateMatches target (s.wcu.entries.get u) && !s.wcu.isClaimed u then recordHit u t else t) t) from this s hs
  induction us with
  | nil => exact fun t ht => ht
  | cons u us ih =>
    intro t ht
    refine ih _ ?_
    dsimp only
    split
    · exact recordHit_keeps hl hw u t ht
    · exact ht

theorem recordHit_snc (u : Idx4) (s : State) : (recordHit u s).snc = s.snc := by
  unfold recordHit
  dsimp only
  split <;> rfl

theorem recordGateHits_snc (target : Nat) (s : State) : (recordGateHits target s).snc = s.snc := by
  unfold recordGateHits
  generalize allUnits = us
  suffices ∀ t, (us.foldl (fun t u =>
      if gateMatches target (s.wcu.entries.get u) && !s.wcu.isClaimed u then recordHit u t else t) t).snc = t.snc from
    this s
  induction us with
  | nil => exact fun _ => rfl
  | cons u us ih =>
    intro t
    refine (ih _).trans ?_
    dsimp only
    split
    · exact recordHit_snc u t
    · rfl

/-- A computed target is adopted, held or left pending; each leaves the resting target sound (R93 to R96). -/
theorem DriveKept.takeTarget (h : DriveKept I) (ht : Keeps I told) (target : Nat) : Keeps I (takeTarget told target) := by
  intro s hs
  have hits := recordGateHits_keeps h.link h.wcu target s hs
  have motion : ∀ {m}, s.snc.suction.motion? = some m → (recordGateHits target s).snc.suction.motion? = some m := by
    rw [recordGateHits_snc]
    exact id
  unfold Machine.takeTarget
  dsimp only
  split
  · exact hs
  · next m p held =>
    have hm : s.snc.suction.motion? = some m := by rw [held]; rfl
    split
    · exact h.commit ht _ s (fun hc => hc.of_motion hm.symm rfl) hs
    · exact h.commit ht _ s (restsAtZero_adoptInto hm _ _) hs
  · next m moving =>
    have hm : s.snc.suction.motion? = some m := by rw [moving]; rfl
    split
    · exact h.commit ht _ s (restsAtZero_adoptInto hm _ _) hs
    · split
      · exact h.commit ht _ _ (fun hc => hc.of_motion (motion hm).symm rfl) hits
      · exact h.commit ht _ _ (restsAtZero_adoptInto (motion hm) _ _) hits

theorem DriveKept.evaluate (h : DriveKept I) (ht : Keeps I told) : Keeps I (evaluate told) := by
  intro s hs
  unfold Machine.evaluate
  split
  · exact hs
  · exact h.takeTarget ht _ _ (h.reportComputed _ s hs)

theorem DriveKept.enterHalt (h : DriveKept I) (ht : Keeps I told) (cause : HaltCause) : Keeps I (enterHalt told cause) :=
  fun s hs => h.commit ht _ s (restsAtZero_halted cause) hs

theorem DriveKept.stackChange (h : DriveKept I) (ht : Keeps I told) {c : Snc} {s : State}
    (hc : c.suction = s.snc.suction ∧ c.adopted = s.snc.adopted) (hs : I s) : I (stackChange told c s) :=
  h.evaluate ht _ (askNotice_keeps h.link _ _ (h.still _ s hc.1 hc.2 hs))

theorem DriveKept.raise (h : DriveKept I) (ht : Keeps I told) (src : Source) (cap : Nat) :
    Keeps I fun s => changeStack told (s.snc.raised? src cap) s := by
  intro s hs
  dsimp only
  cases hc : s.snc.raised? src cap with
  | none => exact hs
  | some c => exact h.stackChange ht (raised?_drive hc) hs

theorem DriveKept.clear (h : DriveKept I) (ht : Keeps I told) (src : Source) :
    Keeps I fun s => changeStack told (s.snc.cleared? src) s := by
  intro s hs
  dsimp only
  cases hc : s.snc.cleared? src with
  | none => exact hs
  | some c => exact h.stackChange ht (cleared?_drive hc) hs

theorem DriveKept.setMark (h : DriveKept I) (src : Source) (b : Bool) : Keeps I (setMark src b) := fun s hs =>
  h.still _ s rfl rfl hs

theorem DriveKept.raiseHard (h : DriveKept I) (ht : Keeps I told) (src : Source) : Keeps I (raiseHard told src) := by
  intro s hs
  have marked := h.setMark src true s hs
  unfold Machine.raiseHard
  dsimp only
  split
  · exact hs
  · split
    · exact h.enterHalt ht _ _ marked
    · exact h.raise ht _ _ _ marked

theorem DriveKept.clearHard (h : DriveKept I) (ht : Keeps I told) (src : Source) : Keeps I (clearHard told src) := by
  intro s hs
  unfold Machine.clearHard
  split
  · exact h.clear ht _ _ (h.setMark src false s hs)
  · exact hs

theorem slewStep_drive (e : SuctionEntry) (c : Snc) :
    (c.slewStep e).suction = c.suction ∧ (c.slewStep e).adopted = c.adopted := by
  unfold Snc.slewStep
  split <;> exact ⟨rfl, rfl⟩

theorem countSpinUp_drive (c : Snc) : c.countSpinUp.suction = c.suction ∧ c.countSpinUp.adopted = c.adopted := by
  unfold Snc.countSpinUp
  split <;> exact ⟨rfl, rfl⟩

theorem countStall_drive (speed : Nat) (c : Snc) :
    (c.countStall speed).suction = c.suction ∧ (c.countStall speed).adopted = c.adopted := by
  unfold Snc.countStall
  split <;> exact ⟨rfl, rfl⟩

theorem countOver_drive (current limit : Nat) (c : Snc) :
    (c.countOver current limit).suction = c.suction ∧ (c.countOver current limit).adopted = c.adopted := by
  unfold Snc.countOver
  split <;> exact ⟨rfl, rfl⟩

theorem DriveKept.speedTold (h : DriveKept I) (ht : Keeps I told) : Keeps I (speedTold told) := by
  intro s hs
  have counted := h.still _ s (countStall_drive s.chan.speed _).1 (countStall_drive s.chan.speed _).2 hs
  unfold Machine.speedTold
  dsimp only
  split
  · split
    · exact h.enterHalt ht _ _ counted
    · exact counted
  · exact h.commit ht _ s (restsAtZero_speedMoves _) hs

theorem DriveKept.motorITold (h : DriveKept I) (ht : Keeps I told) : Keeps I (motorITold told) := by
  intro s hs
  have counted := h.still _ s (countOver_drive s.chan.motorI s.ka.suction.currentLimit _).1
    (countOver_drive s.chan.motorI s.ka.suction.currentLimit _).2 hs
  unfold Machine.motorITold
  dsimp only
  split
  · exact h.enterHalt ht _ _ counted
  · exact counted

theorem DriveKept.controlPeriod (h : DriveKept I) (ht : Keeps I told) : Keeps I (controlPeriod told) := by
  intro s hs
  have evaluated := h.evaluate ht s hs
  have slewed := h.still (Snc.slewStep (Machine.evaluate told s).ka.suction) _ (slewStep_drive _ _).1 (slewStep_drive _ _).2
    evaluated
  have tested := h.commit ht (Snc.testSpinUp (Machine.evaluate told s).chan.speed) _ (restsAtZero_testSpinUp _) slewed
  have counted := h.still Snc.countSpinUp _ (countSpinUp_drive _).1 (countSpinUp_drive _).2 tested
  unfold Machine.controlPeriod
  dsimp only
  split
  · exact h.enterHalt ht _ _ counted
  · exact counted

theorem DriveKept.toDockKept (h : DriveKept I) : DockKept I where
  raiseSoft ht src cap s hs := by
    unfold raiseSoft
    split
    · exact h.raise ht src cap s hs
    · exact hs
  clearSoft ht src := h.clear ht src
  tellBudget ht w s hs := h.evaluate ht _ (h.still _ s rfl rfl hs)
  report := h.report
  compareBudget := compareKept h.link h.wcu .budget
  link := h.link
  chan := h.chan
  budget w := h.pmg _
  draws := h.draws
  evaluate := h.evaluate
  raiseHard := h.raiseHard
  clearHard := h.clearHard
  speedTold := h.speedTold
  motorITold := h.motorITold
  controlPeriod := h.controlPeriod
  ka f _ := h.ka f
  t1 := h.t1
  t2 := h.t2
  wcu := h.wcu
  dsu := h.dsu
  pmg := h.pmg
  ask s hs := h.dlc _ _ (h.dlc _ s hs)
  leave s hs := h.dlc _ _ (h.dlc _ s hs)
  reservation := h.reservation
  bleed := h.bleed
  dlc := h.dlc

/-! ### Requests and writes -/

/-- A stack change in HALT makes no evaluation (R91, R137). -/
theorem stackChange_halt {c : Snc} (hc : c.suction.isHalt = true) (s : State) :
    (stackChange told c s).snc = c := by
  have halted : (askNotice .override (s.modSnc fun _ => c)).snc.suction.isHalt = true := hc
  unfold stackChange evaluate
  rw [if_pos halted]
  rfl

theorem pushMarked_halt {s : State} (hs : s.snc.suction.isHalt = true) : (pushMarked s).snc.suction.isHalt = true := by
  unfold pushMarked
  generalize markedSources s.snc = sources
  induction sources generalizing s with
  | nil => exact hs
  | cons src sources ih =>
    refine ih ?_
    dsimp only
    cases hc : s.snc.raised? src 0 with
    | none => exact hs
    | some c =>
      have hh : c.suction.isHalt = true := by rwa [(raised?_drive hc).1]
      rwa [changeStack, stackChange_halt hh]

theorem restsAtZero_leaveHalt {c : Snc} (hh : c.suction.isHalt = true) (hc : RestsAtZero c) :
    RestsAtZero { c with suction := .moving .off, applied := 0 } := by
  obtain ⟨cause, hcause⟩ : ∃ cause, c.suction = .halt cause := by
    cases hm : c.suction <;> simp_all [Suction.isHalt]
  have rests : c.adopted = 0 := by simpa only [RestsAtZero, hcause, Suction.motion?] using hc
  exact rests

theorem DriveKept.pushMarked (h : DriveKept I) (ht : Keeps I tellSuction) : Keeps I pushMarked := by
  intro s hs
  unfold Machine.pushMarked
  generalize markedSources s.snc = sources
  induction sources generalizing s with
  | nil => exact hs
  | cons src sources ih => exact ih _ (h.raise ht src 0 s hs)

theorem DriveKept.clearHalt (h : DriveKept I) (ht : Keeps I tellSuction) : Keeps I fun s => (clearHalt s).state := by
  intro s hs
  dsimp only
  unfold Machine.clearHalt
  split
  · exact hs
  · next halted =>
    split
    · exact hs
    · split
      · exact hs
      · have hh := pushMarked_halt (Bool.not_eq_false _ ▸ halted)
        exact h.evaluate ht _ (h.commit ht _ _ (restsAtZero_leaveHalt hh) (h.pushMarked ht s hs))

theorem DriveKept.resume (h : DriveKept I) (ht : Keeps I tellSuction) : Keeps I fun s => (resume s).state := by
  intro s hs
  dsimp only
  unfold Machine.resume
  split
  · next m p held =>
    have hm : s.snc.suction.motion? = some m := by rw [held]; rfl
    exact h.commit ht _ s (restsAtZero_adoptInto hm _ _) hs
  all_goals exact hs

theorem DriveKept.selectPreset (h : DriveKept I) (ht : Keeps I tellSuction) (p : Byte) :
    Keeps I fun s => (selectPreset p s).state := by
  intro s hs
  dsimp only
  unfold Machine.selectPreset
  split
  · exact hs
  · next id _ =>
    have selected := h.still (fun c => { c with preset := id }) s rfl rfl hs
    split
    · exact hs
    · refine h.evaluate ht _ ?_
      split
      · exact askNotice_keeps h.link _ _ selected
      · exact selected

theorem DriveKept.setBoost (h : DriveKept I) (ht : Keeps I tellSuction) (flag : Byte) :
    Keeps I fun s => (setBoost flag s).state := by
  intro s hs
  dsimp only
  unfold Machine.setBoost
  split
  · exact hs
  · split
    · exact h.evaluate ht _ (h.still (fun c => { c with boostPermitted := flagOf flag }) s rfl rfl hs)
    · exact h.evaluate ht _ (h.still (fun c => { c with stack := saveBottom (flagOf flag) c.stack }) s rfl rfl hs)

theorem DriveKept.setSoftOverrides (h : DriveKept I) (flag : Byte) : Keeps I fun s => (setSoftOverrides flag s).state := by
  intro s hs
  dsimp only
  unfold Machine.setSoftOverrides
  split
  · exact hs
  · exact h.still (fun c => { c with softOverrides := flagOf flag }) s rfl rfl hs

theorem DriveKept.pushOverride (h : DriveKept I) (ht : Keeps I tellSuction) (cap : Nat) :
    Keeps I fun s => (pushOverride cap s).state := by
  intro s hs
  dsimp only
  unfold Machine.pushOverride
  dsimp only
  split
  · exact hs
  · split
    · exact hs
    · split
      · exact hs
      · next c raised => exact h.stackChange ht (raised?_drive raised) hs

theorem DriveKept.storeEntries (h : DriveKept I) (w : StepWrites I) (first : Nat) (entries : List Parsed) :
    Keeps I (storeEntries first entries) := by
  induction entries generalizing first with
  | nil => exact fun _ hs => hs
  | cons p entries ih =>
    intro s hs
    refine ih _ _ ?_
    unfold storeEntry
    cases p.value with
    | watch e => exact h.wcu _ s hs
    | timer e => exact w.tdu (fun t => { t with entries := t.entries.set (unitAt first) e }) (by simp) s hs
    | notice m r => exact h.link (fun l => { l with enables := m, reports := r }) (by simp) s hs
    | preset e | suction e | dirt e | gauge e | charge e | limits e | service e => exact h.ka _ s hs

theorem DriveKept.applyWrite (h : DriveKept I) (w : StepWrites I) (ht : Keeps I tellSuction) (sec : SectionId) (first count : Nat)
    (entries : List Parsed) : Keeps I (applyWrite tellSuction sec first count entries) := by
  intro s hs
  have hc := h.toDockKept.toControlKept
  have stored := breakReservation_keeps hc sec first count _ (h.storeEntries w first entries s hs)
  unfold Machine.applyWrite
  cases sec with
  | preset =>
    simp only [sectionWritten]
    split
    · exact h.evaluate ht _ stored
    · exact stored
  | suction => exact h.evaluate ht _ stored
  | gauge => exact h.ka (fun k => { k with qRem := min k.qRem k.gauge.qFull }) _ stored
  | charge =>
    simp only [sectionWritten, chargeWritten]
    split
    · exact askChanged_keeps hc _ _ _ stored
    · exact chargeEntryTest_keeps hc ht _ stored
  | watch => exact tellCleared_keeps hc ht _ _ _ (h.wcu _ _ stored)
  | notice => exact h.link dropDisabled (by simp [dropDisabled]) _ stored
  | dirt | limits | timer | service => exact stored

theorem DriveKept.toStepKept (h : DriveKept I) (w : StepWrites I) : StepKept I :=
  have ht := tellSuction_keeps h.toDockKept.toControlKept
  { toDockKept := h.toDockKept
    toStepWrites := w
    selectPreset := h.selectPreset ht
    resume := h.resume ht
    clearHalt := h.clearHalt ht
    readClearConditions := fun s hs => h.still (fun c => { c with conditions := Conditions.clear }) s rfl rfl hs
    setBoost := h.setBoost ht
    setSoftOverrides := h.setSoftOverrides
    pushOverride := h.pushOverride ht
    write := fun sec first count _ entries _ => h.applyWrite w ht sec first count entries }

/-! ### The three invariants -/

/-- The part of a state that `HandedOn` speaks of. -/
theorem HandedOn.of_same {s t : State} (hs : HandedOn s) (snc : t.snc = s.snc) (tdu : t.tdu.runMark = s.tdu.runMark)
    (chan : t.chan.target = s.chan.target) : HandedOn t :=
  ⟨by rw [tdu, snc, hs.runMark], by rw [chan, snc, hs.target]⟩

theorem isRunning_congr {c d : Snc} (hs : d.suction = c.suction) (ha : d.adopted = c.adopted) :
    d.isRunning = c.isRunning := by
  unfold Snc.isRunning
  rw [hs, ha]

/-- What a change of the suction controller hands on is the run mark and the adopted target (R62, R105). -/
theorem handedOn_carried {f : Snc → Snc} {s : State} (hs : HandedOn s) : HandedOn (carried f s) := by
  unfold carried
  split
  · next same => exact ⟨rfl, hs.target.trans same.symm⟩
  · exact ⟨rfl, rfl⟩

theorem handedOn_driveKept : DriveKept HandedOn where
  still _ _ hsuction hadopted hs :=
    ⟨hs.runMark.trans (isRunning_congr hsuction hadopted).symm, hs.target.trans hadopted.symm⟩
  commit ht _ _ _ hs := commitSuction_keeps (fun _ _ hs => hs.of_same rfl rfl rfl) ht (handedOn_carried hs)
  link _ _ _ hs := hs.of_same rfl rfl rfl
  chan _ hf s hs := hs.of_same rfl rfl (hf s.chan).2
  draws _ _ hs := hs.of_same rfl rfl rfl
  ka _ _ hs := hs.of_same rfl rfl rfl
  t1 _ _ hs := hs.of_same rfl rfl rfl
  t2 _ _ hs := hs.of_same rfl rfl rfl
  wcu _ _ hs := hs.of_same rfl rfl rfl
  dsu _ _ hs := hs.of_same rfl rfl rfl
  pmg _ _ hs := hs.of_same rfl rfl rfl
  dlc _ _ hs := hs.of_same rfl rfl rfl
  reservation _ _ hs := hs.of_same rfl rfl rfl
  bleed _ _ hs := hs.of_same rfl rfl rfl

theorem handedOn_stepWrites : StepWrites HandedOn where
  accept r s hs := by
    unfold acceptRequest setOverrun
    split <;> exact hs.of_same rfl rfl rfl
  tdu _ hf s hs := hs.of_same rfl (hf s.tdu) rfl
  sampled _ hf s hs := hs.of_same rfl rfl (hf s.chan)
  pins _ _ hs := hs.of_same rfl rfl rfl
  pending _ _ hs := hs.of_same rfl rfl rfl
  stopped _ _ _ hs := hs.of_same rfl rfl rfl
  warm _ _ _ _ _ := ⟨rfl, rfl⟩
  lost _ hs := hs.of_same rfl rfl rfl
  cold _ _ _ hs := hs.of_same rfl rfl rfl
  coldWarm _ _ _ _ _ := ⟨rfl, rfl⟩

/-- An invariant of the suction controller's block alone: no write of another block reaches it. -/
theorem driveKept_of_snc {J : Snc → Prop}
    (still : ∀ {c d : Snc}, d.suction = c.suction → d.adopted = c.adopted → J c → J d)
    (commit : ∀ {c : Snc} (f : Snc → Snc), (RestsAtZero c → RestsAtZero (f c)) → J c → J (f c)) :
    DriveKept fun s => J s.snc where
  still _ _ hsuction hadopted hs := still hsuction hadopted hs
  commit ht f _ hf hs := commitSuction_keeps (fun _ _ hs => hs) ht (by rw [carried_snc]; exact commit f hf hs)
  link _ _ _ hs := hs
  chan _ _ _ hs := hs
  draws _ _ hs := hs
  ka _ _ hs := hs
  t1 _ _ hs := hs
  t2 _ _ hs := hs
  wcu _ _ hs := hs
  dsu _ _ hs := hs
  pmg _ _ hs := hs
  dlc _ _ hs := hs
  reservation _ _ hs := hs
  bleed _ _ hs := hs

theorem stepWrites_of_snc {J : Snc → Prop} (warm : J Snc.warm) : StepWrites fun s => J s.snc where
  accept r s hs := by
    unfold acceptRequest setOverrun
    split <;> exact hs
  tdu _ _ _ hs := hs
  sampled _ _ _ hs := hs
  pins _ _ hs := hs
  pending _ _ hs := hs
  stopped _ _ _ hs := hs
  warm _ _ _ _ _ := warm
  lost _ hs := hs
  cold _ _ _ hs := hs
  coldWarm _ _ _ _ _ := warm

theorem restsAtZero_driveKept : DriveKept fun s => RestsAtZero s.snc :=
  driveKept_of_snc (fun hsuction hadopted hc => hc.of_motion (congrArg Suction.motion? hsuction) hadopted)
    fun _ hf hc => hf hc

theorem QueueBounded.of_kept {s t : State} (hs : QueueBounded s) (h : LineKept s t) : QueueBounded t := by
  unfold QueueBounded
  rw [h.queue]
  exact hs

theorem queueBounded_driveKept : DriveKept QueueBounded where
  still _ _ _ _ hs := hs
  commit ht _ _ _ hs := commitSuction_keeps (fun _ _ hs => hs.of_kept (LineKept.askNotice _ _)) ht
    (hs.of_kept (carried_line _ _))
  link _ hf s hs := (hf s.link).trans hs
  chan _ _ _ hs := hs
  draws _ _ hs := hs
  ka _ _ hs := hs
  t1 _ _ hs := hs
  t2 _ _ hs := hs
  wcu _ _ hs := hs
  dsu _ _ hs := hs
  pmg _ _ hs := hs
  dlc _ _ hs := hs
  reservation _ _ hs := hs
  bleed _ _ hs := hs

theorem queueBounded_stepWrites : StepWrites QueueBounded where
  accept r s hs := by
    unfold acceptRequest
    split
    · next room =>
      show (s.link.queue ++ [r]).length ≤ 2
      rw [List.length_append, List.length_singleton]
      omega
    · exact hs
  tdu _ _ _ hs := hs
  sampled _ _ _ hs := hs
  pins _ _ hs := hs
  pending _ _ hs := hs
  stopped _ _ _ hs := hs
  warm _ _ _ _ _ := Nat.zero_le 2
  lost _ hs := hs
  cold _ _ _ hs := hs
  coldWarm _ _ _ _ _ := Nat.zero_le 2

/-- Settles O44: each of the three is an invariant of `DriveKept`, which every step keeps. -/
theorem handingOnStaysSound : Obligations.HandingOnStaysSound := by
  unfold Obligations.HandingOnStaysSound
  intro s t hst
  exact ⟨fun hs => step_keeps (handedOn_driveKept.toStepKept handedOn_stepWrites) hs hst,
    fun hs => step_keeps (restsAtZero_driveKept.toStepKept (stepWrites_of_snc rfl)) hs hst,
    fun hs => step_keeps (queueBounded_driveKept.toStepKept queueBounded_stepWrites) hs hst⟩

end Sys2Proof.Machine
end

