-- ==== Sys2Proof/Proofs/MessageLink.lean ====
section
/-! PROOF. The message link: what the receiver does with each byte, a frame at its check byte, the link controller's
own refusals, the transmitter, Sleep and Restart (R1 to R15). -/

namespace Sys2Proof.Machine

/-- Settles O1: it is what `step` says of a queue that is not empty. -/
theorem stepTakesTheFrontCommand : Obligations.StepTakesTheFrontCommand := by
  unfold Obligations.StepTakesTheFrontCommand
  intro c rest s
  rfl

/-! ### The receiver by state (R1, R2) -/

theorem mainStep_awake {s : State} (h : s.domain = .awake) (f : State → State) : mainStep f s = .next (settle (f s)) := by
  simp only [mainStep, whileAwake, h, if_true]

theorem execByteArrival_sound {s : State} (h : s.domain = .awake) (b : Byte) :
    exec (.byteArrival b false) s = .next (settle (byteReceived b s)) := mainStep_awake h _

theorem execByteArrival_broken {s : State} (h : s.domain = .awake) (b : Byte) :
    exec (.byteArrival b true) s = .next (settle (brokenByte s)) := mainStep_awake h _

theorem execGapTimeout_awake {s : State} (h : s.domain = .awake) : exec .gapTimeout s = .next (settle (gapExpired s)) :=
  mainStep_awake h _

section
variable {s : State} {b : Byte}

theorem byteReceived_start (h : s.link.receiver = .hunt) (hb : b = 0xB4) : byteReceived b s = setReceiver .length s := by
  simp only [byteReceived, h, hb, if_true]

theorem byteReceived_hunt (h : s.link.receiver = .hunt) (hb : b ≠ 0xB4) : byteReceived b s = s := by
  simp only [byteReceived, h, if_neg hb]

theorem byteReceived_length (h : s.link.receiver = .length) (hb : 1 ≤ b.toNat ∧ b.toNat ≤ 64) :
    byteReceived b s = setReceiver (.body b.toNat []) s := by
  simp only [byteReceived, h, if_pos hb]

theorem byteReceived_badLength (h : s.link.receiver = .length) (hb : b.toNat = 0 ∨ 65 ≤ b.toNat) :
    byteReceived b s = setCheck (setReceiver .hunt s) := by
  have : ¬(1 ≤ b.toNat ∧ b.toNat ≤ 64) := by omega
  simp only [byteReceived, h, if_neg this]

theorem byteReceived_body {n : Nat} {buffer : List Byte} (h : s.link.receiver = .body (n + 2) buffer) :
    byteReceived b s = setReceiver (.body (n + 1) (buffer ++ [b])) s := by
  have : ¬ n + 2 ≤ 1 := by omega
  simp only [byteReceived, h, if_neg this, Nat.reduceSubDiff]

theorem byteReceived_lastOfBody {buffer : List Byte} (h : s.link.receiver = .body 1 buffer) :
    byteReceived b s = setReceiver (.check (buffer ++ [b])) s := by
  simp only [byteReceived, h, le_refl, if_true]

theorem byteReceived_check {buffer : List Byte} (h : s.link.receiver = .check buffer) :
    byteReceived b s = judgeFrame buffer b (setReceiver .hunt s) := by
  simp only [byteReceived, h]

theorem brokenByte_hunt (h : s.link.receiver = .hunt) : brokenByte s = s := by simp only [brokenByte, h]

theorem gapExpired_hunt (h : s.link.receiver = .hunt) : gapExpired s = s := by simp only [gapExpired, h]

theorem brokenByte_inFrame (h : s.link.receiver ≠ .hunt) : brokenByte s = setCheck (setReceiver .hunt s) := by
  unfold brokenByte
  split
  · exact absurd (by assumption) h
  all_goals rfl

theorem gapExpired_inFrame (h : s.link.receiver ≠ .hunt) : gapExpired s = setGap (setReceiver .hunt s) := by
  unfold gapExpired
  split
  · exact absurd (by assumption) h
  all_goals rfl

end

/-- Settles O4, by the receiver's states. -/
theorem byteMovesTheReceiver : Obligations.ByteMovesTheReceiver := by
  unfold Obligations.ByteMovesTheReceiver
  intro s b awake
  rw [execByteArrival_sound awake, execByteArrival_broken awake, execGapTimeout_awake awake]
  refine ⟨fun hunt => ⟨fun hb => ?_, fun hb => ?_, ?_, ?_⟩, fun length => ⟨fun hb => ?_, fun hb => ?_⟩,
    fun n buffer body => ?_, fun buffer body => ?_, fun inFrame => ⟨?_, ?_⟩⟩
  · rw [byteReceived_start hunt hb]
  · rw [byteReceived_hunt hunt hb]
  · rw [brokenByte_hunt hunt]
  · rw [gapExpired_hunt hunt]
  · rw [byteReceived_length length hb]
  · rw [byteReceived_badLength length hb]
  · rw [byteReceived_body body]
  · rw [byteReceived_lastOfBody body]
  · rw [brokenByte_inFrame inFrame]
  · rw [gapExpired_inFrame inFrame]

/-! ### A frame at its check byte (R3) -/

theorem judgeFrame_sound {kind check : Byte} {payload : List Byte} {s : State}
    (h : (byteOf (payload.length + 1) :: kind :: payload ++ [check]).foldl (· + ·) (0 : Byte) = 0) :
    judgeFrame (kind :: payload) check s = acceptRequest { kind := kind, payload := payload } s := if_pos h

theorem judgeFrame_bad {kind check : Byte} {payload : List Byte} {s : State}
    (h : (byteOf (payload.length + 1) :: kind :: payload ++ [check]).foldl (· + ·) (0 : Byte) ≠ 0) :
    judgeFrame (kind :: payload) check s = setCheck s := if_neg h

/-- Settles O5, by the sum of the frame and the room in the queue. -/
theorem frameIsJudged : Obligations.FrameIsJudged := by
  unfold Obligations.FrameIsJudged
  intro s kind payload check awake inCheck
  dsimp only
  rw [execByteArrival_sound awake, byteReceived_check inCheck]
  refine ⟨fun bad => ?_, fun sound room => ?_, fun sound full => ?_⟩
  · rw [judgeFrame_bad bad]
  · rw [judgeFrame_sound sound, acceptRequest, if_pos (show (setReceiver .hunt s).link.queue.length < 2 from room)]
  · rw [judgeFrame_sound sound, acceptRequest,
      if_neg (show ¬(setReceiver .hunt s).link.queue.length < 2 from Nat.not_lt.mpr full)]

/-! ### A whole frame (R1, R3, R17) -/

theorem setReceiver_setReceiver (a b : Receiver) (s : State) : setReceiver a (setReceiver b s) = setReceiver a s := rfl

theorem setReceiver_same {s : State} {r : Receiver} (h : s.link.receiver = r) : setReceiver r s = s := by
  subst h
  rfl

theorem frameByte_outsideCheck {s : State} (b : Byte) (h : ∀ buffer, s.link.receiver ≠ .check buffer) :
    frameByte s b = byteReceived b s := by
  unfold frameByte
  split
  · exact absurd (by assumption) (h _)
  all_goals rfl

theorem frameByte_check {s : State} {b : Byte} {buffer : List Byte} (h : s.link.receiver = .check buffer) :
    frameByte s b = settle (judgeFrame buffer b (setReceiver .hunt s)) := by
  simp only [frameByte, h, byteReceived_check h]

/-- The body bytes fill the buffer, and the last of them brings the receiver to its check byte. -/
theorem frameBytes_body (bytes : List Byte) (b : Byte) (buffer : List Byte) (s : State) :
    (b :: bytes).foldl frameByte (setReceiver (.body (bytes.length + 1) buffer) s) =
      setReceiver (.check (buffer ++ b :: bytes)) s := by
  induction bytes generalizing b buffer with
  | nil =>
    rw [List.foldl_cons, frameByte_outsideCheck _ (fun _ => by simp [setReceiver]), byteReceived_lastOfBody rfl]
    rfl
  | cons c bytes ih =>
    rw [List.foldl_cons, frameByte_outsideCheck _ (fun _ => by simp [setReceiver]),
      byteReceived_body (n := bytes.length) rfl, setReceiver_setReceiver, ih, List.append_assoc, List.singleton_append]

theorem byteOf_toNat_eq {b : Byte} {n : Nat} (h : b.toNat = n) : byteOf n = b := by
  subst h
  simp [byteOf]

/-- The bytes of a frame whose length byte is right, at a receiver in HUNT: the frame is judged. -/
theorem frameReceived_hunt {s : State} {length kind check : Byte} {payload : List Byte}
    (hunt : s.link.receiver = .hunt) (hlen : length.toNat = payload.length + 1) (short : payload.length ≤ 63) :
    frameReceived (0xB4 :: length :: kind :: payload ++ [check]) s = settle (judgeFrame (kind :: payload) check s) := by
  have start : frameByte s 0xB4 = setReceiver .length s := by
    rw [frameByte_outsideCheck _ (by simp [hunt]), byteReceived_start hunt rfl]
  have counted : frameByte (setReceiver .length s) length = setReceiver (.body (payload.length + 1) []) s := by
    rw [frameByte_outsideCheck _ (fun _ => by simp [setReceiver]), byteReceived_length rfl (by omega), hlen,
      setReceiver_setReceiver]
  have body := frameBytes_body payload kind [] s
  unfold frameReceived
  rw [List.cons_append, List.cons_append, List.foldl_cons, start, List.foldl_cons, counted, List.foldl_append, body,
    List.foldl_cons, List.foldl_nil, frameByte_check rfl, setReceiver_setReceiver, setReceiver_same hunt, List.nil_append]

/-- Settles O6: the bytes bring the receiver to the check byte, where the frame is judged; the turn after the step is
then the one that the frame has had. -/
theorem wholeFrameIsTaken : Obligations.WholeFrameIsTaken := by
  unfold Obligations.WholeFrameIsTaken
  intro s length kind payload check awake hunt hlen short
  dsimp only
  have taken : exec (.frameReceived length kind payload check) s =
      .next (settle (judgeFrame (kind :: payload) check s)) := by
    refine (mainStep_awake awake _).trans ?_
    rw [frameReceived_hunt hunt hlen short, settle_settle]
  rw [taken, ← byteOf_toNat_eq hlen]
  exact ⟨fun sound => by rw [judgeFrame_sound sound], fun bad => by rw [judgeFrame_bad bad]⟩

/-! ### What the link controller refuses (R5) -/

theorem endingOf_refused (kind : Nat) {st : Status} (h : st ≠ .ok) : endingOf kind st = .plain := by
  unfold endingOf
  split
  · exact absurd rfl h
  · exact absurd rfl h
  · rfl

/-- Settles O7: an unknown kind, and a known kind of an unlisted length, are refused without their owner. -/
theorem linkRefusals : Obligations.LinkRefusals := by
  unfold Obligations.LinkRefusals
  intro s kind payload ready
  refine ⟨fun unknown => requestStep_refused ready kind payload ?_,
    fun known unlisted => requestStep_refused ready kind payload ?_⟩
  · have : knownKind kind.toNat = false := by
      simp only [knownKind, Bool.and_eq_false_iff, decide_eq_false_iff_not]
      omega
    simp only [handle, this, Bool.false_eq_true, if_false, statusByte]
  · have : knownKind kind.toNat = true := by
      simp only [knownKind, Bool.and_eq_true, decide_eq_true_eq]
      omega
    simp only [handle, this, if_true, unlisted, Bool.false_eq_true, if_false, refuse, statusByte,
      endingOf_refused kind.toNat (st := .length) (by decide)]

/-! ### The transmitter (R9, R10) -/

theorem handNext_of_empty {s : State} (h : s.link.queue = []) : handNext s = s := handNext_of_unhandable (.inl h)

theorem handNext_cons {s : State} {r : Request} {rest : List Request} (hq : s.link.queue = r :: rest)
    (hs : s.link.slot = none) (hc : s.link.closing = false) :
    handNext s = (handle r (s.modLink fun l => { l with queue := rest })).1.modLink fun l =>
      { l with slot := some (handle r (s.modLink fun l => { l with queue := rest })).2 } := by
  simp only [handNext, hq, hs, hc, Option.isNone_none, Bool.not_false, Bool.and_self, if_true]

theorem startFrame_reply {s : State} {f : Frame} (ht : s.link.tx = none) (hs : s.link.slot = some f) :
    startFrame s = s.modLink fun l => { l with tx := some f, slot := none } := by
  simp only [startFrame, ht, hs, Option.isSome_none, Bool.false_eq_true, if_false]

theorem startFrame_idle {s : State} (ht : s.link.tx = none) (hs : s.link.slot = none)
    (h : s.link.closing = true ∨ lowestPending s.link.notices = none) : startFrame s = s := by
  rcases h with h | h <;> simp [startFrame, ht, hs, h]

theorem startFrame_notice {s : State} {k : NoticeKind} (ht : s.link.tx = none) (hs : s.link.slot = none)
    (hc : s.link.closing = false) (hk : lowestPending s.link.notices = some k) : startFrame s = startNotice k s := by
  simp only [startFrame, ht, hs, hc, hk, Option.isSome_none, Bool.false_eq_true, if_false]

/-- The frame of a notice that starts. -/
def noticeFrame (k : NoticeKind) (s : State) : Frame :=
  { kind := noticeCode k, payload := noticePayload k s, ending := .plain }

/-- The contents of a notice come from its owner and its accumulation set alone. -/
theorem noticeFrame_modLink (k : NoticeKind) (f : Link → Link) (s : State) (hw : (f s.link).accWatch = s.link.accWatch)
    (ht : (f s.link).accTimer = s.link.accTimer) (hd : (f s.link).accDetector = s.link.accDetector) :
    noticeFrame k (s.modLink f) = noticeFrame k s := by
  cases k <;> simp only [noticeFrame, noticePayload, State.modLink, hw, ht, hd]

/-- The state in which the last byte of a frame leaves the transmitter. -/
def freed (s : State) : State := s.modLink fun l => { l with tx := none }

theorem exec_transmitEnd {s : State} (h : s.domain = .awake) (a b : Bool) :
    exec (.transmitEnd a b) s = .next (transmitEnd a b s) := by
  show Host.Outcome.next (if s.domain = .awake then transmitEnd a b s else s) = _
  rw [if_pos h]

theorem transmitEnd_plain {s : State} {g : Frame} (ht : s.link.tx = some g) (hg : g.ending = .plain) (a b : Bool) :
    transmitEnd a b s = settle (freed s) := by
  simp only [transmitEnd, ht, hg, freed]

/-- All notice kinds, in the order of their numbers. -/
def allKinds : List NoticeKind :=
  [.suction, .override, .watch, .condition, .dirt, .pack, .dock, .timer, .service, .detector]

theorem mem_allKinds (k : NoticeKind) : k ∈ allKinds := by cases k <;> decide

theorem allKinds_sorted : allKinds.Pairwise fun a b => (noticeCode a).toNat ≤ (noticeCode b).toNat := by decide

theorem lowestPending_lowest {m : NoticeMarks} {k : NoticeKind} (h : lowestPending m = some k) :
    m.get k = true ∧ ∀ j, m.get j = true → (noticeCode k).toNat ≤ (noticeCode j).toNat := by
  obtain ⟨pending, before, after, split, none⟩ := List.find?_eq_some_iff_append.mp h
  refine ⟨pending, fun j hj => ?_⟩
  have split : allKinds = before ++ k :: after := split
  have sorted := allKinds_sorted
  have mem := mem_allKinds j
  rw [split] at sorted mem
  rcases List.mem_append.mp mem with m | m
  · exact absurd (none j m) (by simp [hj])
  · rcases List.mem_cons.mp m with rfl | m
    · exact le_rfl
    · exact (List.pairwise_cons.mp (List.pairwise_append.mp sorted).2.1).1 j m

theorem askNotice_enabled {k : NoticeKind} {s : State} (h : s.link.enables.get k = true) :
    askNotice k s = s.modLink fun l => { l with notices := l.notices.set k true } := by
  simp only [askNotice, State.modLink, h, if_true]

theorem askNotice_disabled {k : NoticeKind} {s : State} (h : s.link.enables.get k = false) : askNotice k s = s := by
  simp only [askNotice, State.modLink, h, Bool.false_eq_true, if_false]

/-- Settles O8: what is started at the end of a plain frame by what waits, and what a request for a notice marks. -/
theorem noticesAndTransmitter : Obligations.NoticesAndTransmitter := by
  unfold Obligations.NoticesAndTransmitter
  refine ⟨fun s g a b awake busy plain empty => ?_, fun s g f r rest a b awake busy plain full queued => ?_,
    fun m k => lowestPending_lowest, fun s => ?_⟩
  · have waiting : handNext (freed s) = freed s :=
      handNext_of_empty empty
    rw [exec_transmitEnd awake, transmitEnd_plain busy plain, settle, waiting]
    refine ⟨fun f full => ?_, fun free idle => ?_, fun k free unclosed pending => ?_⟩
    · rw [startFrame_reply (s := freed s) rfl full]
      exact congrArg Host.Outcome.next (handNext_of_empty empty)
    · rw [startFrame_idle (s := freed s) rfl free idle, waiting]
      rfl
    · rw [startFrame_notice (s := freed s) rfl free unclosed pending,
        handNext_of_empty (s := startNotice k (freed s)) empty]
      exact ⟨_, rfl, congrArg some (noticeFrame_modLink k _ s rfl rfl rfl), rfl, rfl, rfl, fun h => if_neg h,
        fun h => if_pos h⟩
  · have waiting : handNext (freed s) = freed s :=
      handNext_of_unhandable (.inr (.inl (by simp [freed, full])))
    rw [exec_transmitEnd awake, transmitEnd_plain busy plain, settle, waiting, startFrame_reply (s := freed s) rfl full]
    refine ⟨fun unclosed => ?_, fun closed => ?_⟩
    · rw [handNext_cons (s := (freed s).modLink fun l => { l with tx := some f, slot := none }) queued rfl unclosed]
      rfl
    · exact congrArg Host.Outcome.next (handNext_of_unhandable (.inr (.inr closed)))
  · refine ⟨fun k => askNotice_enabled, fun k => askNotice_disabled, fun u h => ?_, fun u h => ?_, fun k h => ?_,
      fun k h => ?_, fun d level h => ?_, fun d level h => ?_⟩
    · simp [askWatchNotice, h]
    · simp [askWatchNotice, State.modLink, h]
    · simp [askTimerNotice, h]
    · simp [askTimerNotice, State.modLink, h]
    · simp [askDetectorNotice, h]
    · simp [askDetectorNotice, State.modLink, h]

/-! ### Sleep and Restart (R13, R15) -/

theorem reported_off (x : Suction) : x.reported = .off ↔ x = .moving .off := by
  cases x with
  | moving m => cases m <;> simp [Suction.reported]
  | held _ _ | halt _ => simp [Suction.reported]

theorem maySleep_iff (s : State) : maySleep s = true ↔
    s.snc.suction = .moving .off ∧ (s.pmg.state = .discharge ∨ s.pmg.state = .protect) ∧ s.dlc.session = .absent := by
  simp only [maySleep, Bool.and_eq_true, Bool.or_eq_true, decide_eq_true_eq, reported_off, and_assoc]

theorem transmitEnd_sleep {s : State} {f : Frame} (ht : s.link.tx = some f) (hf : f.ending = .sleep) (a b : Bool) :
    transmitEnd a b s = endOfSleepReply (freed s) := by
  simp only [transmitEnd, ht, hf, freed]

theorem exec_sleep {s : State} (h : Ready s) : exec .sleep s =
    .next ((sleepRequest s).state.withReply (replyFrame 0x18 (sleepRequest s).status (sleepRequest s).body)) :=
  requestStep_of_ready h 0x18 [] rfl rfl

/-- A state in SLEEP shows nothing on its outputs (R14, R39). -/
theorem drive_stopped {s : State} (h : s.domain ≠ .awake) : s.drive = .outputsOff := by
  unfold State.drive
  split <;> first | rfl | exact absurd (by assumption) h

/-- A turn that hands the oldest request after a notice has started: the notice is in transmission, and the reply
waits in the slot. -/
theorem settle_afterNotice {s : State} {r : Request} {rest : List Request} (busy : s.link.tx ≠ none)
    (queued : s.link.queue = r :: rest) (free : s.link.slot = none) (unclosed : s.link.closing = false) :
    (settle s).link.tx = s.link.tx ∧ (settle s).link.queue = rest ∧ (settle s).link.slot ≠ none := by
  have kept := handle_slot r (s.modLink fun l => { l with queue := rest })
  have handed := handNext_cons queued free unclosed
  have still : startFrame (handNext s) = handNext s := startFrame_of_busy (by rwa [handNext_tx])
  have done : handNext (handNext s) = handNext s := handNext_of_unhandable (unhandable_handNext s)
  rw [settle, still, done, handed]
  exact ⟨kept.tx, kept.queue, by simp⟩

/-- Settles O9: the three conditions are `maySleep`, at the request and at the end of its reply. -/
theorem sleepAndRestart : Obligations.SleepAndRestart := by
  unfold Obligations.SleepAndRestart
  intro s
  dsimp only
  rw [← maySleep_iff s]
  refine ⟨fun ready => ⟨fun still => ?_, fun moving => ?_, ?_⟩, fun f a b awake busy sleeping => ?_⟩
  · rw [exec_sleep ready, sleepRequest, if_pos still]
    rfl
  · rw [exec_sleep ready, sleepRequest, if_neg moving]
    rfl
  · exact requestStep_of_ready ready 0x19 [] rfl rfl
  · rw [exec_transmitEnd awake, transmitEnd_sleep busy sleeping, endOfSleepReply]
    have same : maySleep (freed s) = maySleep s := rfl
    rw [same]
    refine ⟨fun still => ?_, fun moving => ?_, fun moving free r rest k queued pending => ?_⟩
    · rw [if_pos still]
      exact ⟨_, rfl, rfl, rfl, rfl, rfl, drive_stopped (by simp [stopMain]), rfl⟩
    · rw [if_neg moving]
      rfl
    · rw [if_neg moving, startFrame_notice (s := (freed s).modLink fun l => { l with closing := false }) rfl free rfl pending]
      refine ⟨_, rfl, ?_⟩
      have turn := settle_afterNotice (rest := rest) (r := r)
        (s := startNotice k ((freed s).modLink fun l => { l with closing := false }))
        (by simp [startNotice, Link.noticeStarted]) queued free rfl
      obtain ⟨tx, queue, slot⟩ := turn
      have contents := (noticeFrame_modLink k (fun l => { l with closing := false }) (freed s) rfl rfl rfl).trans
        (noticeFrame_modLink k _ s rfl rfl rfl)
      exact ⟨tx.trans (congrArg some contents), queue, slot⟩

end Sys2Proof.Machine
end

