-- ==== Sys2Proof/Proofs/Starts.lean ====
section
/-! PROOF. Starts, supplies and the state right after reset (R11, R14 to R16, R20, R33, R35, R49, R60). -/

namespace Sys2Proof.Machine

variable {told : State → State}

/-! ### An evaluation of a suction controller at rest -/

/-- The motor is off, and nothing asks for speed: the preset's base is 0 and no boost stands. -/
structure AtRest (s : State) : Prop where
  off : s.snc.suction = .moving .off
  adopted : s.snc.adopted = 0
  runMark : s.tdu.runMark = false
  base : (s.ka.presets.get s.snc.preset).base = 0
  level : s.dsu.boostLevel = 0
  cool : s.chan.motorT.isValid = true

theorem pipeline_idle {i : PipelineInputs} (base : i.base = 0) (level : i.level = 0) (cool : i.motorT.isValid = true) :
    pipeline i =
      { target := 0, boostOver := false, thermalInvalid := false, powerLimited := false, floored := false } := by
  have noBoost : boosts i = false := by simp [boosts, level]
  have s2 : stage2 i = 0 := by simp [stage2, noBoost, base]
  have s3 : stage3 i = 0 := by simp [stage3, s2]
  have s5 : stage5 i = 0 := by simp [stage5, stage4, s3]
  simp [pipeline, belowMinimum, s5, s3, noBoost, cool]

/-- A target of 0 adopted at rest is the target that stands. -/
theorem adoptInto_atRest {c : Snc} (off : c.suction = .moving .off) (adopted : c.adopted = 0) (speed : Nat) :
    c.adoptInto 0 speed .off = c := by
  obtain ⟨⟩ := c
  subst off adopted
  rfl

/-- At rest an evaluation changes nothing. -/
theorem evaluate_atRest {s : State} (h : AtRest s) : evaluate told s = s := by
  have computed := pipeline_idle (i := pipelineInputs s) h.base h.level h.cool
  have same : s.snc.adoptInto 0 s.chan.speed .off = s.snc := adoptInto_atRest h.off h.adopted _
  have resting : s.snc.isRunning = false := by simp [Snc.isRunning, h.off, Suction.reported]
  have kept : carried (Snc.adoptInto 0 s.chan.speed .off) s = s := by
    simp only [carried, same, if_true, setRunMark, State.modTdu, State.modSnc, resting, ← h.runMark]
  have unhalted : ¬s.snc.suction.isHalt = true := by simp [h.off, Suction.isHalt]
  unfold evaluate
  rw [if_neg unhalted]
  simp only [computed, reportComputed, reportIf, Bool.false_eq_true, if_false, takeTarget, h.off,
    Nat.zero_le, if_true, commitSuction_eq, same, kept]

theorem AtRest.of_same {s t : State} (h : AtRest s) (suction : t.snc.suction = s.snc.suction)
    (adopted : t.snc.adopted = s.snc.adopted) (preset : t.snc.preset = s.snc.preset)
    (runMark : t.tdu.runMark = s.tdu.runMark) (ka : t.ka = s.ka) (dsu : t.dsu = s.dsu)
    (motorT : t.chan.motorT = s.chan.motorT) : AtRest t :=
  ⟨suction.trans h.off, adopted.trans h.adopted, runMark.trans h.runMark, by rw [ka, preset, h.base],
    by rw [dsu, h.level], by rw [motorT, h.cool]⟩

/-! ### The warm-start values (R16) -/

/-- A state right after a warm start, before D0 and D1 look at their inputs. -/
def State.warmLines (cause : StartCause) (a b : Bool) (s : State) : State :=
  { s.warmStarted cause with pins := { s.pins with dockSense := a, binLatch := b } }

theorem atRest_warm {s : State} (h : s.ka.presets.p0.base = 0) (cause : StartCause) (a b : Bool) :
    AtRest (s.warmLines cause a b) := ⟨rfl, rfl, rfl, h, rfl, rfl⟩

/-- The budget of a warm start, told to a suction controller at rest (R174, R176). -/
theorem warm_budget {s : State} (h : s.ka.presets.p0.base = 0) (cause : StartCause) (a b : Bool) :
    computeBudget told true (askNotice .pack (warmBlocks cause a b s)) = s.warmLines cause a b :=
  evaluate_atRest (told := told) (atRest_warm h cause a b)

theorem completeWarmStart_eq {s : State} (h : s.ka.presets.p0.base = 0) (cause : StartCause) (a b : Bool) :
    completeWarmStart cause a b s =
      inAnyOrder ((if a then [firstDetection .d0] else []) ++ (if b then [firstDetection .d1] else []))
        (s.warmLines cause a b) := by
  rw [completeWarmStart, warm_budget h]

theorem completeWarmStart_low {s : State} (h : s.ka.presets.p0.base = 0) (cause : StartCause) :
    completeWarmStart cause false false s = s.warmStarted cause := completeWarmStart_eq h cause false false

theorem beginStart_free {s : State} (hr : s.pins.resetLow = false) (hs : s.pins.supplyLow = false) (cause : StartCause)
    (a b : Bool) : beginStart cause a b s = completeWarmStart cause a b s := by
  simp [beginStart, Pins.holds, hr, hs]

theorem exec_coldStart {s : State} (h : s.ka.marker = false) (a b : Bool) :
    exec (.coldStart a b) s = .next (beginStart .cold a b (s.modKa fun _ => KeepAlive.cold)) := by
  show Host.Outcome.next (coldStart a b s) = _
  simp [coldStart, h]

theorem exec_resetRelease {s : State} {cause : StartCause} (hd : s.domain = .held cause) (hr : s.pins.resetLow = true)
    (hs : s.pins.supplyLow = false) (a b : Bool) :
    exec (.resetRelease a b) s =
      .next (completeWarmStart cause a b (s.modPins fun p => { p with resetLow := false })) := by
  show Host.Outcome.next _ = _
  simp [hr, releaseHold, hd, Pins.holds, hs]

theorem exec_supplyReturn {s : State} {cause : StartCause} (hd : s.domain = .held cause) (hs : s.pins.supplyLow = true)
    (hr : s.pins.resetLow = false) (a b : Bool) :
    exec (.supplyReturn a b) s =
      .next (completeWarmStart cause a b (s.modPins fun p => { p with supplyLow := false })) := by
  show Host.Outcome.next _ = _
  simp [hs, releaseHold, hd, Pins.holds, hr]

theorem exec_wake {s : State} (hd : s.domain = .sleep) (a b : Bool) :
    exec (.wake a b) s = .next (beginStart .wake a b s) := by
  show Host.Outcome.next (if s.domain = .sleep then _ else _) = _
  rw [if_pos hd]

theorem exec_dockWake {s : State} (hd : s.domain = .sleep) (b : Bool) :
    exec (.dockWake b) s = .next (beginStart .dock true b s) := by
  show Host.Outcome.next (if s.domain = .sleep then _ else _) = _
  rw [if_pos hd]

/-- Settles O10: each of the five commands completes a warm start with both inputs low. -/
theorem warmStartValues : Obligations.WarmStartValues := by
  unfold Obligations.WarmStartValues
  refine ⟨fun s base => ⟨fun f awake busy ending => ?_, fun asleep reset supply => ?_, fun cause held low high => ?_,
    fun cause held low high => ?_⟩, fun s lost reset supply => ?_⟩
  · have ended : transmitEnd false false s = completeWarmStart .restart false false (freed s) := by
      simp only [transmitEnd, busy, ending, freed]
    rw [exec_transmitEnd awake, ended, completeWarmStart_low (s := freed s) base]
    rfl
  · rw [exec_wake asleep, beginStart_free reset supply, completeWarmStart_low base]
  · rw [exec_resetRelease held low high,
      completeWarmStart_low (s := s.modPins fun p => { p with resetLow := false }) base]
  · rw [exec_supplyReturn held low high,
      completeWarmStart_low (s := s.modPins fun p => { p with supplyLow := false }) base]
  · rw [exec_coldStart lost, beginStart_free (s := s.modKa fun _ => KeepAlive.cold) reset supply,
      completeWarmStart_low (s := s.modKa fun _ => KeepAlive.cold) rfl]

/-! ### Inputs that are high at a start (R60) -/

theorem changeStack_atRest {s : State} {c : Snc} (h : AtRest s) (suction : c.suction = s.snc.suction)
    (adopted : c.adopted = s.snc.adopted) (preset : c.preset = s.snc.preset) :
    changeStack told (some c) s = askNotice .override (s.modSnc fun _ => c) :=
  evaluate_atRest (h.of_same suction adopted preset rfl rfl rfl rfl)

/-- A hard source that is raised at rest on an empty stack is marked and pushed (R103, R125). -/
theorem raiseHard_atRest {s : State} {src : Source} (h : AtRest s) (mark : s.snc.marks.get src = false)
    (stack : s.snc.stack = []) :
    raiseHard told src s = askNotice .override (s.modSnc fun c =>
      Snc.push src 0 { c with marks := c.marks.set src true }) := by
  have empty : (setMark src true s).snc.stack = [] := stack
  have pushed : (setMark src true s).snc.raised? src 0 = some ((setMark src true s).snc.push src 0) := by
    simp [Snc.raised?, empty, findEntry]
  have marked : AtRest (setMark src true s) := h.of_same rfl rfl rfl rfl rfl rfl rfl
  unfold raiseHard
  dsimp only
  rw [if_neg (by simp [mark]), if_neg (by simp [empty]), pushed,
    changeStack_atRest (c := (setMark src true s).snc.push src 0) marked rfl rfl rfl]
  rfl

/-- What a raise at rest leaves: the entry stands, and all but the suction controller and the notices is as it was. -/
theorem raiseHard_atRest_raised {s : State} {src : Source} (h : AtRest s) (mark : s.snc.marks.get src = false)
    (stack : s.snc.stack = []) :
    AtRest (raiseHard told src s) ∧ (raiseHard told src s).snc.hasUnreleased src = true ∧
      (raiseHard told src s).snc.marks = s.snc.marks.set src true ∧ (raiseHard told src s).pmg = s.pmg ∧
        (raiseHard told src s).dlc = s.dlc ∧ (raiseHard told src s).wcu = s.wcu ∧ (raiseHard told src s).tdu = s.tdu := by
  rw [raiseHard_atRest h mark stack]
  exact ⟨h.of_same rfl rfl rfl rfl rfl rfl rfl, by simp [Snc.hasUnreleased, askNotice, Snc.push], rfl, rfl, rfl, rfl, rfl⟩

theorem chargeEntryTest_closed {s : State} (h : s.dlc.session ≠ .offered ∨ s.pmg.state ≠ .dockedWait) :
    chargeEntryTest told s = s := by
  have : mayCharge s = false := by
    unfold mayCharge
    rcases h with h | h <;> simp [h]
  simp [chargeEntryTest, this]

theorem compareAmong_untrapped {deliver : Telling → State → State} {channel : ChannelId} {sample : List Reading}
    {others : List (State → State)} {s : State} (h : s.wcu.traps channel = false) :
    compareAmong deliver channel sample others s = inAnyOrder others s := by
  simp [compareAmong, h]

/-- A budget of 0 that no trap watches, told at rest (R174). -/
theorem announcePack_atRest {s : State} (h : AtRest s) (untrapped : s.wcu.traps .budget = false)
    (undischarged : s.pmg.state ≠ .discharge) :
    AtRest (announcePack told s) ∧ (announcePack told s).pmg = { s.pmg with budget := 0 } ∧
      (announcePack told s).snc.stack = s.snc.stack ∧ (announcePack told s).snc.marks = s.snc.marks ∧
        (announcePack told s).dlc = s.dlc := by
  have none : budgetOf (askNotice .pack s) = 0 := if_neg undischarged
  have stored : storeBudget (askNotice .pack s) = ((askNotice .pack s).modChan fun c => { c with budget := 0 }).modPmg
      fun p => { p with budget := 0 } := by
    unfold storeBudget
    rw [none]
    have : decide ((askNotice .pack s).pmg.state = .discharge) = false := decide_eq_false undischarged
    rw [this]
    rfl
  have rests : AtRest (storeBudget (askNotice .pack s)) := by
    rw [stored]
    exact h.of_same rfl rfl rfl rfl rfl rfl rfl
  have traps : (storeBudget (askNotice .pack s)).wcu.traps .budget = false := by
    rw [stored]
    exact untrapped
  have rests' : AtRest ((storeBudget (askNotice .pack s)).modSnc fun c => { c with budget := 0 }) :=
    rests.of_same rfl rfl rfl rfl rfl rfl rfl
  unfold announcePack computeBudget
  dsimp only
  rw [compareAmong_untrapped traps, none]
  split
  · rw [inAnyOrder_one, tellBudget, evaluate_atRest rests']
    refine ⟨rests', ?_⟩
    rw [stored]
    exact ⟨rfl, rfl, rfl, rfl⟩
  · rw [inAnyOrder_nil]
    refine ⟨rests, ?_⟩
    rw [stored]
    exact ⟨rfl, rfl, rfl, rfl⟩

theorem takePackState_closed {new : PackState} (h : new.bleeds = false) (s : State) :
    takePackState new s = setBleedSet (Six.all false)
      (s.modPmg fun p => { p with state := new, lowCount := 0, recoveryCount := 0, taper := 0 }) := by
  simp [takePackState, h]

/-- An insertion at rest with no session: the pack waits in the dock (R159). -/
theorem packInserted_atRest {s : State} (h : AtRest s) (untrapped : s.wcu.traps .budget = false)
    (absent : s.dlc.session ≠ .offered) (discharge : s.pmg.state = .discharge) :
    AtRest (packInserted told s) ∧ (packInserted told s).pmg.state = .dockedWait ∧
      (packInserted told s).snc.stack = s.snc.stack ∧ (packInserted told s).snc.marks = s.snc.marks := by
  have taken : AtRest (takePackState .dockedWait s) := by
    rw [takePackState_closed rfl]
    exact h.of_same rfl rfl rfl rfl rfl rfl rfl
  obtain ⟨rests, pmg, stack, marks, dlc⟩ := announcePack_atRest (told := told) taken
    (by rw [takePackState_closed rfl]; exact untrapped) (by rw [takePackState_closed rfl]; exact fun k => by cases k)
  have closed : packInserted told s = announcePack told (takePackState .dockedWait s) := by
    simp only [packInserted, discharge, waitInDock, changePack]
    exact chargeEntryTest_closed (.inl (by rw [dlc, takePackState_closed rfl]; exact absent))
  rw [closed, pmg]
  exact ⟨rests, by rw [takePackState_closed rfl]; rfl, by rw [stack, takePackState_closed rfl]; rfl,
    by rw [marks, takePackState_closed rfl]; rfl⟩

theorem inAnyOrder_two (f g : State → State) (s : State) :
    ∃ n, inAnyOrder [f, g] s = g (f (s.setDraws n)) ∨ inAnyOrder [f, g] s = f (g (s.setDraws n)) := by
  refine ⟨s.draws + 1, ?_⟩
  have two : Config.place s.draws % 2 = 0 ∨ Config.place s.draws % 2 = 1 := by omega
  rcases two with h | h
  · exact .inl (by simp [inAnyOrder, arrange, h, insertAt])
  · exact .inr (by simp [inAnyOrder, arrange, h, insertAt])

/-- Raise and insertion, in either order. -/
theorem insertion_atRest {s : State} (h : AtRest s) (mark : s.snc.marks.docked = false) (stack : s.snc.stack = [])
    (untrapped : s.wcu.traps .budget = false) (absent : s.dlc.session ≠ .offered) (discharge : s.pmg.state = .discharge) :
    (inAnyOrder [raiseHard told .docked, packInserted told] s).pmg.state = .dockedWait ∧
      (inAnyOrder [raiseHard told .docked, packInserted told] s).snc.hasUnreleased .docked = true := by
  obtain ⟨n, e⟩ := inAnyOrder_two (raiseHard told .docked) (packInserted told) s
  have drawn : AtRest (s.setDraws n) := h.of_same rfl rfl rfl rfl rfl rfl rfl
  rcases e with e | e <;> rw [e]
  · obtain ⟨rests, raised, -, pmg, dlc, wcu, -⟩ :=
      raiseHard_atRest_raised (told := told) (src := .docked) drawn mark stack
    obtain ⟨-, waits, kept, -⟩ := packInserted_atRest (told := told) rests (by rw [wcu]; exact untrapped)
      (by rw [dlc]; exact absent) (by rw [pmg]; exact discharge)
    exact ⟨waits, by rw [Snc.hasUnreleased, kept]; exact raised⟩
  · obtain ⟨rests, waits, kept, marks⟩ := packInserted_atRest (told := told) drawn untrapped absent discharge
    obtain ⟨-, raised, -, pmg, -⟩ := raiseHard_atRest_raised (told := told) (src := .docked) rests
      (by rw [marks]; exact mark) (by rw [kept]; exact stack)
    exact ⟨by rw [pmg]; exact waits, raised⟩

theorem setSession_session (new : Session) (s : State) : (setSession new s).dlc.session = new := by
  unfold setSession
  split
  · assumption
  · rfl

theorem serve_kept (d : Dlc) :
    d.serve.session = d.session ∧ d.serve.offer = d.offer ∧ d.serve.misses = d.misses ∧ d.serve.declines = d.declines ∧
      d.serve.askDue = d.askDue ∧ d.serve.askVoltage = d.askVoltage ∧ d.serve.askCurrent = d.askCurrent ∧
        d.serve.dockCurrent = d.dockCurrent ∧ d.serve.retry = d.retry := by
  unfold Dlc.serve Dlc.send
  split
  · exact ⟨rfl, rfl, rfl, rfl, rfl, rfl, rfl, rfl, rfl⟩
  · repeat' split
    all_goals exact ⟨rfl, rfl, rfl, rfl, rfl, rfl, rfl, rfl, rfl⟩

theorem serveLine_session (s : State) : (serveLine s).dlc.session = s.dlc.session := (serve_kept s.dlc).1

theorem dockInserted_session (s : State) : (dockInserted told s).dlc.session = .probing := by
  unfold dockInserted
  dsimp only
  rw [serveLine_session]
  exact setSession_session _ _

/-- The session and the line leave the pack and the suction controller as the order of the owners made them. -/
theorem dockInserted_owners (s : State) :
    (dockInserted told s).pmg =
        (inAnyOrder [raiseHard told .docked, packInserted told] (armDetector .d0 .falling 8 s)).pmg ∧
      (dockInserted told s).snc =
        (inAnyOrder [raiseHard told .docked, packInserted told] (armDetector .d0 .falling 8 s)).snc := by
  unfold dockInserted setSession
  dsimp only
  split <;> exact ⟨rfl, rfl⟩

/-! ### What the timer unit keeps through the owners' events -/

/-- A part of the timer and detector unit that the owners' events leave: they write T1, T2 and the run mark alone. -/
structure OwnersLeave (P : Tdu → Prop) : Prop where
  runMark : ∀ t b, P t → P { t with runMark := b }
  t1 : ∀ t x, P t → P { t with timers := t.timers.set .i1 x }
  t2 : ∀ t x, P t → P { t with timers := t.timers.set .i2 x }

theorem driveKept_of_tdu {P : Tdu → Prop} (h : OwnersLeave P) : DriveKept fun s => P s.tdu where
  still _ _ _ _ hs := hs
  commit ht f s _ hs := commitSuction_keeps (fun _ _ hs => hs) ht (by
    unfold carried
    split <;> exact h.runMark _ _ hs)
  link _ _ _ hs := hs
  chan _ _ _ hs := hs
  draws _ _ hs := hs
  ka _ _ hs := hs
  t1 _ _ hs := h.t1 _ _ hs
  t2 _ _ hs := h.t2 _ _ hs
  wcu _ _ hs := hs
  dsu _ _ hs := hs
  pmg _ _ hs := hs
  dlc _ _ hs := hs
  reservation _ _ hs := hs
  bleed _ _ hs := hs

theorem ownersLeave_detector (d : DetectorId) (x : Detector) : OwnersLeave fun t => t.detectors.get d = x :=
  ⟨fun _ _ h => h, fun _ _ h => h, fun _ _ h => h⟩

theorem three_get_set {α : Type} (f : Three α) (d : DetectorId) (a : α) : (f.set d a).get d = a := by cases d <;> rfl

theorem three_get_set_ne {α : Type} (f : Three α) {d e : DetectorId} (h : e ≠ d) (a : α) :
    (f.set d a).get e = f.get e := by
  cases d <;> cases e <;> first | rfl | exact absurd rfl h

theorem armDetector_get (d : DetectorId) (p : Polarity) (s : State) :
    (armDetector d p 8 s).tdu.detectors.get d = Detector.armedFor p := three_get_set _ d _

theorem armDetector_get_ne {d e : DetectorId} (h : e ≠ d) (p : Polarity) (n : Nat) (s : State) :
    (armDetector d p n s).tdu.detectors.get e = s.tdu.detectors.get e := three_get_set_ne _ h _

/-- After a detection of D0 or D1 the detector is armed for the edge that leaves the level (R59). -/
theorem detectionTold_rearmed {d : DetectorId} (hd : d ≠ .d2) (level : Bool) (s : State) :
    (detectionTold tellSuction d level s).tdu.detectors.get d = Detector.armedFor (Polarity.leaving level) := by
  have kept := (driveKept_of_tdu (ownersLeave_detector d (Detector.armedFor (Polarity.leaving level)))).toDockKept
  have ht := tellSuction_keeps kept.toControlKept
  cases d with
  | d0 =>
    cases level with
    | true => exact dockInserted_keeps kept ht (armDetector_get .d0 _ s)
    | false => exact dockRemoved_keeps kept ht (armDetector_get .d0 _ s)
  | d1 => exact binDetected_keeps kept.toControlKept ht (armDetector_get .d1 _ s)
  | d2 => exact absurd rfl hd

theorem firstDetection_line (d : DetectorId) (s : State) : LineKept s (firstDetection d s) :=
  (detect_moves lineKept_closed d true s).trans
    (detectionTold_moves lineKept_closed (tellSuction_moves lineKept_closed) d true _)

theorem completeWarmStart_docked {s : State} (h : s.ka.presets.p0.base = 0) (cause : StartCause) :
    completeWarmStart cause true false s = firstDetection .d0 (s.warmLines cause true false) :=
  (completeWarmStart_eq h cause true false).trans (inAnyOrder_one _ _)

theorem completeWarmStart_open {s : State} (h : s.ka.presets.p0.base = 0) (cause : StartCause) :
    completeWarmStart cause false true s = firstDetection .d1 (s.warmLines cause false true) :=
  (completeWarmStart_eq h cause false true).trans (inAnyOrder_one _ _)

/-- Settles O11: the warm-start state is at rest, so the first evaluation of the detector has its own effect alone. -/
theorem inputsHighAtStart : Obligations.InputsHighAtStart := by
  unfold Obligations.InputsHighAtStart
  intro s base asleep reset supply
  constructor
  · have line := firstDetection_line .d0 (s.warmLines .dock true false)
    have rests : AtRest (armDetector .d0 .falling 8 (disarmDetector .d0 (s.warmLines .dock true false))) :=
      (atRest_warm base .dock true false).of_same rfl rfl rfl rfl rfl rfl rfl
    obtain ⟨waits, raised⟩ := insertion_atRest (told := tellSuction) rests rfl rfl rfl
      (fun h : Session.absent = .offered => by cases h) rfl
    rw [exec_dockWake asleep, beginStart_free reset supply, completeWarmStart_docked base]
    obtain ⟨pack, suction⟩ :=
      dockInserted_owners (told := tellSuction) (disarmDetector .d0 (s.warmLines .dock true false))
    exact ⟨_, rfl, line.domain, line.tx, by rw [line.pins]; rfl, dockInserted_session _,
      (congrArg Pmg.state pack).trans waits, (congrArg (Snc.hasUnreleased .docked) suction).trans raised,
      detectionTold_rearmed (d := .d0) (by decide) true _⟩
  · have line := firstDetection_line .d1 (s.warmLines .wake false true)
    have rests : AtRest (armDetector .d1 .falling 8 (disarmDetector .d1 (s.warmLines .wake false true))) :=
      (atRest_warm base .wake false true).of_same rfl rfl rfl rfl rfl rfl rfl
    obtain ⟨-, raised, marks, -⟩ := raiseHard_atRest_raised (told := tellSuction) (src := .binOpen) rests rfl rfl
    rw [exec_wake asleep, beginStart_free reset supply, completeWarmStart_open base]
    exact ⟨_, rfl, line.domain, line.tx, by rw [line.pins]; rfl, congrArg HardMarks.binOpen marks, raised,
      detectionTold_rearmed (d := .d1) (by decide) true _⟩

/-! ### Lines and supplies (R14, R15, R20, R33) -/

theorem kaKept_closed : MainClosed fun s t => t.ka = s.ka where
  refl _ := rfl
  trans _ _ _ a b := b.trans a
  snc _ _ := rfl
  chan _ _ := rfl
  tdu _ _ := rfl
  dsu _ _ := rfl
  draws _ _ := rfl
  notice _ _ := rfl
  hit u s := by
    unfold recordHit
    dsimp only
    split <;> rfl
  wcu _ _ := rfl
  pmg _ _ := rfl
  dlc _ _ := rfl
  reservation _ _ := rfl
  bleed _ _ := rfl
  timerNotice _ _ := rfl
  detectorNotice _ _ _ := rfl

/-- What follows the warm-start values at the completion of a start is an event of the main domain. -/
theorem completeWarmStart_moves {R : State → State → Prop} (h : MainClosed R) (cause : StartCause) (a b : Bool)
    (s : State) : R (warmBlocks cause a b s) (completeWarmStart cause a b s) := by
  have ht := tellSuction_moves h
  refine h.trans _ _ _ (h.notice .pack _) (h.trans _ _ _ (computeBudget_moves h ht true _)
    (inAnyOrder_moves h.toEvalClosed _ (fun e m => ?_) _))
  have : e = firstDetection .d0 ∨ e = firstDetection .d1 := by
    rcases List.mem_append.mp m with m | m <;> split at m <;> simp_all
  rcases this with rfl | rfl <;>
    exact fun t => h.trans _ _ _ (detect_moves h _ true t) (detectionTold_moves h ht _ true _)

theorem exec_resetAssert {s : State} (h : s.pins.resetLow = false) :
    exec .resetAssert s = .next (holdMain .reset (s.modPins fun p => { p with resetLow := true })) := by
  show Host.Outcome.next (if s.pins.resetLow = true then _ else _) = _
  rw [if_neg (by simp [h])]

theorem exec_supplyDip {s : State} (h : s.pins.supplyLow = false) (hd : s.domain ≠ .sleep) :
    exec .supplyDip s = .next (holdMain .supply (s.modPins fun p => { p with supplyLow := true })) := by
  show Host.Outcome.next (if s.pins.supplyLow = true then _ else if s.domain = .sleep then _ else _) = _
  rw [if_neg (by simp [h]), if_neg hd]

theorem holdMain_awake {s : State} (h : s.domain = .awake) (cause : StartCause) :
    holdMain cause s = stopMain (.held cause) s := by simp only [holdMain, h]

theorem holdMain_asleep {s : State} (h : s.domain = .sleep) (cause : StartCause) :
    holdMain cause s = s.setDomain (.held cause) := by simp only [holdMain, h]

/-- A held cold start stays one (R11, entry 11). -/
theorem holdMain_cold {s : State} (h : s.domain = .held .cold) (cause : StartCause) : holdMain cause s = s := by
  obtain ⟨⟩ := s
  subst h
  exact if_pos (.inr rfl)

/-- Settles O12, command by command. -/
theorem linesAndSupplies : Obligations.LinesAndSupplies := by
  unfold Obligations.LinesAndSupplies
  intro s a b
  refine ⟨fun awake high => ?_, fun asleep high => ?_, fun awake high => ?_, fun low => ?_, fun low => ?_,
    fun reset supply => ?_, fun held => ⟨fun high => ?_, fun high => ?_⟩, fun lost low => ?_, fun awake => ?_, ?_,
    fun intact => ?_, fun lost reset supply => ?_⟩
  · rw [exec_resetAssert high, holdMain_awake (s := s.modPins _) awake]
    exact ⟨_, rfl, rfl, rfl, rfl, rfl, rfl, drive_stopped (by simp [stopMain]), rfl⟩
  · rw [exec_resetAssert high, holdMain_asleep (s := s.modPins _) asleep]
  · rw [exec_supplyDip high (by simp [awake]), holdMain_awake (s := s.modPins _) awake]
    exact ⟨_, rfl, rfl, rfl, rfl, rfl, rfl, drive_stopped (by simp [stopMain]), rfl⟩
  · exact congrArg Host.Outcome.next (if_pos low)
  · exact congrArg Host.Outcome.next (if_pos low)
  · refine congrArg Host.Outcome.next ((if_pos reset).trans ?_)
    have holds : (s.modPins fun p => { p with resetLow := false }).pins.holds = true := by simp [Pins.holds, supply]
    unfold releaseHold
    rw [holds]
    split <;> rfl
  · rw [exec_resetAssert high, holdMain_cold (s := s.modPins _) held]
  · rw [exec_supplyDip high (by simp [held]), holdMain_cold (s := s.modPins _) held]
  · have holds : (s.modKa fun _ => KeepAlive.cold).pins.holds = true := by
      simp only [State.modKa_pins, Pins.holds, Bool.or_eq_true]
      exact low
    rw [exec_coldStart lost, beginStart, if_pos holds]
    exact ⟨_, rfl, rfl, rfl, rfl, rfl⟩
  · exact congrArg Host.Outcome.next (if_neg (by simp [awake]))
  · exact ⟨_, rfl, rfl, rfl⟩
  · exact congrArg Host.Outcome.next (if_pos intact)
  · rw [exec_coldStart lost, beginStart_free (s := s.modKa fun _ => KeepAlive.cold) reset supply]
    have line := completeWarmStart_moves lineKept_closed .cold a b (s.modKa fun _ => KeepAlive.cold)
    have ka := completeWarmStart_moves kaKept_closed .cold a b (s.modKa fun _ => KeepAlive.cold)
    exact ⟨_, rfl, line.domain, ka, congrArg KeepAlive.keepAliveLost ka, congrArg KeepAlive.marker ka, line.tx⟩

/-! ### The state right after reset -/

/-- Settles O60: the state after reset is plain data, on which each of the properties is a closed fact. -/
theorem resetIsSound : Obligations.ResetIsSound := by
  unfold Obligations.ResetIsSound
  have cap : CapBounded State.reset.snc := ⟨Nat.zero_le _, nofun, fun _ => rfl⟩
  have power : PowerBounded State.reset := ⟨fun _ _ => by decide, fun _ _ => nofun⟩
  have stack : StackSound State.reset.snc := ⟨by decide, by decide, fun h => absurd rfl h, by decide⟩
  have gauge : GaugeBounded State.reset.ka := fun _ => by decide
  exact ⟨⟨cap, power⟩, stack, nofun, rfl, nofun, fun _ => rfl, gauge, ⟨rfl, rfl⟩,
    rfl, fun _ => rfl, Nat.zero_le 2, ⟨rfl, rfl, rfl, rfl⟩, ⟨rfl, by decide, .inl rfl⟩, rfl, rfl⟩

end Sys2Proof.Machine
end

