-- ==== Sys2Proof/Proofs/Settings.lean ====
section
/-! PROOF. Numbers and entries on the link, ReadSection, writes of one entry, and the requests of the status and of
what is read and cleared (R4, R12, R17, R21 to R31, R34, R64, R66, R78, R120, R172). -/

namespace Sys2Proof.Machine

/-! ### Numbers as bytes and back (R17) -/

theorem toNat_byteOf (n : Nat) : (byteOf n).toNat = n % 256 := BitVec.toNat_ofNat n 8

theorem toNat_byteOf_self {n : Nat} (h : n < 256) : (byteOf n).toNat = n :=
  (toNat_byteOf n).trans (Nat.mod_eq_of_lt h)

theorem nat2_bytes2 {n : Nat} (h : n < 65536) : nat2 (byteOf n) (byteOf (n / 256)) = n := by
  simp only [nat2, toNat_byteOf]
  omega

theorem nat4_bytes4 {n : Nat} (h : n < 4294967296) :
    nat4 (byteOf n) (byteOf (n / 256)) (byteOf (n / 65536)) (byteOf (n / 16777216)) = n := by
  simp only [nat4, toNat_byteOf]
  omega

theorem int1_byteOfInt {v : Int} (low : -128 ≤ v) (high : v < 128) : int1 (byteOfInt v) = v := by
  rw [int1, byteOfInt, BitVec.toInt_ofInt]
  exact Int.bmod_eq_of_le (by omega) (by omega)

/-- Three bytes of a word, put together again. -/
theorem ofNat_extracts (w : BitVec 24) :
    BitVec.ofNat 24 ((w.extractLsb' 0 8).toNat + 256 * (w.extractLsb' 8 8).toNat +
      65536 * (w.extractLsb' 16 8).toNat) = w := by
  apply BitVec.eq_of_toNat_eq
  have := w.isLt
  simp only [BitVec.extractLsb'_toNat, BitVec.toNat_ofNat, Nat.shiftRight_eq_div_pow]
  omega

theorem int3_bytes3s {v : Int} (low : -8388608 ≤ v) (high : v < 8388608) :
    int3 ((BitVec.ofInt 24 v).extractLsb' 0 8) ((BitVec.ofInt 24 v).extractLsb' 8 8)
      ((BitVec.ofInt 24 v).extractLsb' 16 8) = v := by
  rw [int3, ofNat_extracts, BitVec.toInt_ofInt]
  exact Int.bmod_eq_of_le (by omega) (by omega)

@[simp] theorem flagOf_flagByte (b : Bool) : flagOf (flagByte b) = b := by cases b <;> rfl

theorem toNat_flagByte (b : Bool) : (flagByte b).toNat = if b then 1 else 0 := by cases b <;> rfl

/-! ### Numbers within their ranges are not clamped (R24) -/

theorem clampNat_self {lo hi v : Nat} (low : lo ≤ v) (high : v ≤ hi) : clampNat lo hi v = v := by
  unfold clampNat
  omega

theorem clampInt_self {lo hi v : Int} (low : lo ≤ v) (high : v ≤ hi) : clampInt lo hi v = v := by
  unfold clampInt
  omega

theorem outside_false {lo hi v : Nat} (low : lo ≤ v) (high : v ≤ hi) : outside lo hi v = false := by
  simp [outside, Nat.not_lt.mpr low, Nat.not_lt.mpr high]

theorem outsideInt_false {lo hi v : Int} (low : lo ≤ v) (high : v ≤ hi) : outsideInt lo hi v = false := by
  simp [outsideInt, Int.not_lt.mpr low, Int.not_lt.mpr high]

/-! ### Codes (R25) -/

@[simp] theorem channelOf?_code (c : ChannelId) : channelOf? (channelCode c) = some c := by cases c <;> rfl
@[simp] theorem watchKindOf?_code (k : WatchKind) : watchKindOf? (watchKindCode k) = some k := by cases k <;> rfl
@[simp] theorem watchActionOf?_code (a : WatchAction) : watchActionOf? (watchActionCode a) = some a := by
  cases a <;> rfl
@[simp] theorem rateOf?_code (r : Rate) : rateOf? (rateCode r) = some r := by cases r <;> rfl
@[simp] theorem modeOf?_code (m : TimerMode) : modeOf? (modeCode m) = some m := by cases m <;> rfl
@[simp] theorem sectionOf?_code (sec : SectionId) : sectionOf? (sectionCode sec) = some sec := by cases sec <;> rfl
@[simp] theorem unitAt_unitNo (u : Idx4) : unitAt (unitNo u) = u := by cases u <;> rfl

theorem sectionOf?_none {b : Byte} (h : 10 ≤ b.toNat) : sectionOf? b = none := by
  unfold sectionOf?
  split <;> first | rfl | (exfalso; omega)

/-! ### Entries are parsed from their own bytes (R17, R24 to R26) -/

theorem parse_preset {e : PresetEntry} (h : e.inRange) :
    parseEntry .preset (presetBytes e) = some { value := .preset e, clamped := false } := by
  obtain ⟨base, step, ceiling⟩ := h
  show parsePreset (nat2 (byteOf e.base) (byteOf (e.base / 256))) (byteOf e.step).toNat
    (nat2 (byteOf e.ceiling) (byteOf (e.ceiling / 256))) (flagOf (flagByte e.notify)) = _
  simp (disch := omega) only [parsePreset, nat2_bytes2, toNat_byteOf_self, clampNat_self, outside_false, flagOf_flagByte,
    Bool.or_false]

theorem parse_suction {e : SuctionEntry} (h : e.inRange) (related : e.tKnee + 10 < e.tCut) :
    parseEntry .suction (suctionBytes e) = some { value := .suction e, clamped := false } := by
  obtain ⟨⟨f0, f1⟩, ⟨m0, m1⟩, ⟨u0, u1⟩, ⟨d0, d1⟩, ⟨k0, k1⟩, ⟨c0, c1⟩, l0, l1⟩ := h
  show parseSuction (nat2 (byteOf e.kFan) (byteOf (e.kFan / 256))) (nat2 (byteOf e.sMin) (byteOf (e.sMin / 256)))
    (byteOf e.slewUp).toNat (byteOf e.slewDown).toNat (int1 (byteOfInt e.tKnee)) (int1 (byteOfInt e.tCut))
    (nat2 (byteOf e.currentLimit) (byteOf (e.currentLimit / 256))) = _
  simp (disch := omega) only [parseSuction, nat2_bytes2, toNat_byteOf_self, int1_byteOfInt, clampNat_self,
    clampInt_self, outside_false, outsideInt_false, Bool.or_false, suctionRelated, related, decide_true, if_true]

theorem parse_dirt {e : DirtEntry} (h : e.inRange) (low : e.t1 < e.t2) (high : e.t2 < e.t3)
    (floors : e.floor ≤ e.floorMax) :
    parseEntry .dirt (dirtBytes e) = some { value := .dirt e, clamped := false } := by
  obtain ⟨⟨a0, a1⟩, ⟨b0, b1⟩, ⟨c0, c1⟩, h1, f1, m1, t0, t1⟩ := h
  show parseDirt (nat2 (byteOf e.t1) (byteOf (e.t1 / 256))) (nat2 (byteOf e.t2) (byteOf (e.t2 / 256)))
    (nat2 (byteOf e.t3) (byteOf (e.t3 / 256))) (nat2 (byteOf e.h) (byteOf (e.h / 256)))
    (nat2 (byteOf e.floor) (byteOf (e.floor / 256))) (nat2 (byteOf e.floorMax) (byteOf (e.floorMax / 256)))
    (nat2 (byteOf e.blank) (byteOf (e.blank / 256))) (flagOf (flagByte e.hold)) = _
  simp (disch := omega) only [parseDirt, nat2_bytes2, clampNat_self, outside_false, flagOf_flagByte, Bool.or_false,
    dirtRelated, low, high, floors, decide_true, Bool.and_true, if_true]

theorem parse_gauge {k : KeepAlive} (h : k.gauge.inRange) :
    parseEntry .gauge (gaugeBytes k) = some { value := .gauge k.gauge, clamped := false } := by
  obtain ⟨⟨d0, d1⟩, ⟨q0, q1⟩, c1⟩ := h
  have wide : k.gauge.qFull < 4294967296 := by
    unfold qFullHigh at q1
    omega
  show parseGauge (nat4 (byteOf k.gauge.design) (byteOf (k.gauge.design / 256)) (byteOf (k.gauge.design / 65536))
    (byteOf (k.gauge.design / 16777216))) (nat4 (byteOf k.gauge.qFull) (byteOf (k.gauge.qFull / 256))
    (byteOf (k.gauge.qFull / 65536)) (byteOf (k.gauge.qFull / 16777216)))
    (nat2 (byteOf k.gauge.cycles) (byteOf (k.gauge.cycles / 256))) = _
  simp (disch := omega) only [parseGauge, nat4_bytes4, nat2_bytes2, clampNat_self, outside_false, Bool.or_false]

theorem parse_charge {e : ChargeEntry} (h : e.inRange) :
    parseEntry .charge (chargeBytes e) = some { value := .charge e, clamped := false } := by
  obtain ⟨⟨i0, i1⟩, ⟨v0, v1⟩, ⟨t0, t1⟩, ⟨p0, p1⟩, ⟨l0, l1⟩, ⟨h0, h1⟩, c0, c1⟩ := h
  have related : e.windowLow < e.windowHigh := by omega
  show parseCharge (nat2 (byteOf e.iCc) (byteOf (e.iCc / 256))) (nat2 (byteOf e.vCv) (byteOf (e.vCv / 256)))
    (nat2 (byteOf e.iTerm) (byteOf (e.iTerm / 256))) (nat2 (byteOf e.iPre) (byteOf (e.iPre / 256)))
    (int1 (byteOfInt e.windowLow)) (int1 (byteOfInt e.windowHigh)) (int1 (byteOfInt e.cool)) = _
  simp (disch := omega) only [parseCharge, nat2_bytes2, int1_byteOfInt, clampNat_self, clampInt_self, outside_false,
    outsideInt_false, Bool.or_false, chargeRelated, related, decide_true, if_true]

theorem parse_limits {e : LimitsEntry} (h : e.inRange) :
    parseEntry .limits (limitsBytes e) = some { value := .limits e, clamped := false } := by
  obtain ⟨⟨w0, w1⟩, ⟨k0, k1⟩, ⟨s0, s1⟩, ⟨c0, c1⟩, ⟨h0, h1⟩, t1, l1⟩ := h
  show parseLimits (nat2 (byteOf e.wPackMax) (byteOf (e.wPackMax / 256))) (byteOf e.socKnee).toNat
    (nat2 (byteOf e.vSag) (byteOf (e.vSag / 256))) (nat2 (byteOf e.vCut) (byteOf (e.vCut / 256)))
    (byteOf e.packHot).toNat (byteOf e.lowThreshold).toNat (nat2 (byteOf e.lowCap) (byteOf (e.lowCap / 256))) = _
  simp (disch := omega) only [parseLimits, nat2_bytes2, toNat_byteOf_self, clampNat_self, outside_false, Bool.or_false]

theorem parse_watch {w : WatchRecord} (h : w.inRange) (related : watchRelated w = true) :
    parseEntry .watch (watchBytes w) = some { value := .watch w, clamped := false } := by
  obtain ⟨⟨l0, l1⟩, ⟨h0, h1⟩, r1, c1⟩ := h
  show parseWatch (watchKindCode w.kind) (channelCode w.channel)
    (int3 ((BitVec.ofInt 24 w.low).extractLsb' 0 8) ((BitVec.ofInt 24 w.low).extractLsb' 8 8)
      ((BitVec.ofInt 24 w.low).extractLsb' 16 8))
    (int3 ((BitVec.ofInt 24 w.high).extractLsb' 0 8) ((BitVec.ofInt 24 w.high).extractLsb' 8 8)
      ((BitVec.ofInt 24 w.high).extractLsb' 16 8))
    (byteOf w.resolution).toNat (watchActionCode w.action) (nat2 (byteOf w.cap) (byteOf (w.cap / 256)))
    (flagOf (flagByte w.report)) = _
  simp (disch := omega) only [parseWatch, watchKindOf?_code, channelOf?_code, watchActionOf?_code, int3_bytes3s,
    nat2_bytes2, toNat_byteOf_self, clampNat_self, outside_false, flagOf_flagByte, Bool.or_false, related, if_true]

theorem parse_timer {e : TimerEntry} (h : e.inRange) (running : Bool) :
    parseEntry .timer (timerBytes e running) = some { value := .timer e, clamped := false } := by
  obtain ⟨p0, p1⟩ := h
  show parseTimer (rateCode e.rate) (nat2 (byteOf e.preset) (byteOf (e.preset / 256))) (modeCode e.mode)
    (flagOf (flagByte e.notice)) = _
  simp (disch := omega) only [parseTimer, rateOf?_code, modeOf?_code, nat2_bytes2, clampNat_self, outside_false,
    flagOf_flagByte]

theorem parse_service {e : ServiceEntry} (h : e.inRange) (due : Bool) :
    parseEntry .service (serviceBytes e due) = some { value := .service e, clamped := false } := by
  obtain ⟨h1, m1⟩ := h
  show parseService (nat2 (byteOf e.hours) (byteOf (e.hours / 256))) (flagOf (flagByte e.anyHours))
    (byteOf e.minutes).toNat (flagOf (flagByte e.anyMinutes)) (flagOf (flagByte e.enable)) = _
  simp (disch := omega) only [parseService, nat2_bytes2, toNat_byteOf_self, clampNat_self, outside_false,
    flagOf_flagByte]

theorem parse_notice (m : NoticeMarks) (r : ReportEnables) :
    parseEntry .notice (noticeBytes m r) = some { value := .notice m r, clamped := false } := by
  simp only [parseEntry, noticeBytes, flagOf_flagByte]

/-- Settles O15: one round trip per section. -/
theorem entriesDecodeAsEncoded : Obligations.EntriesDecodeAsEncoded := by
  unfold Obligations.EntriesDecodeAsEncoded
  exact ⟨fun _ => parse_preset, fun _ => parse_suction, fun _ => parse_dirt, fun _ => parse_gauge, fun _ => parse_charge,
    fun _ => parse_limits, fun _ => parse_watch, fun _ running h => parse_timer h running,
    fun _ due h => parse_service h due, parse_notice⟩

/-! ### ReadSection (R21, R22) -/

theorem rangeExists_iff {sec : SectionId} {first count : Byte} :
    rangeExists sec first count = true ↔ 1 ≤ count.toNat ∧ first.toNat + count.toNat ≤ sec.entryCount := by
  simp [rangeExists, Nat.one_le_iff_ne_zero, Nat.pos_iff_ne_zero]

theorem exec_readSection {s : State} (h : Ready s) (sectionNo first count reserve : Byte) :
    exec (.readSection sectionNo first count reserve) s =
      .next ((readSection sectionNo first count reserve s).state.withReply
        (replyFrame 0x04 (readSection sectionNo first count reserve s).status
          (readSection sectionNo first count reserve s).body)) :=
  requestStep_of_ready h 0x04 [sectionNo, first, count, reserve] rfl rfl

/-- The held byte of a range of WATCH, as a function of whether a claim stands. -/
def watchHeldByte (claimed : Bool) (first count : Nat) : Byte :=
  byteOf (((List.range count).map fun k =>
    if claimed && (decide (unitAt (first + k) = .i2) || decide (unitAt (first + k) = .i3)) then 2 ^ k else 0).sum)

theorem heldByte_watch (first count : Nat) (s : State) :
    heldByte .watch first count s = watchHeldByte s.wcu.claim.isSome first count := rfl

theorem heldByte_other {sec : SectionId} (h : sec ≠ .watch) (first count : Nat) (s : State) :
    heldByte sec first count s = 0 := if_neg h

/-- There are few ranges of four entries, and few bits. -/
theorem watchHeldByte_low : ∀ claimed : Bool, ∀ first < 5, ∀ count < 5, first + count ≤ 4 → ∀ k < 8,
    (watchHeldByte claimed first count).getLsbD k = (claimed && decide (k < count) && decide (2 ≤ first + k)) := by
  decide

theorem watchHeldByte_bit {first count : Nat} (h : first + count ≤ 4) (claimed : Bool) (k : Nat) :
    (watchHeldByte claimed first count).getLsbD k = (claimed && decide (k < count) && decide (2 ≤ first + k)) := by
  by_cases hk : k < 8
  · exact watchHeldByte_low claimed first (by omega) count (by omega) h k hk
  · rw [BitVec.getLsbD_of_ge _ _ (by omega), decide_eq_false (show ¬k < count by omega), Bool.and_false, Bool.false_and]

/-- Settles O13. -/
theorem sectionIsRead : Obligations.SectionIsRead := by
  unfold Obligations.SectionIsRead
  intro s first count reserve ready
  refine ⟨fun no high => ?_, fun sec bad => ?_, fun sec some within => ?_, fun sec k within => ?_⟩
  · rw [exec_readSection ready]
    simp only [readSection, sectionOf?_none high]
    rfl
  · have missing : rangeExists sec first count = false := by
      rw [Bool.eq_false_iff, ne_eq, rangeExists_iff]
      omega
    rw [exec_readSection ready]
    simp only [readSection, sectionOf?_code, missing]
    rfl
  · have there : rangeExists sec first count = true := rangeExists_iff.mpr ⟨some, within⟩
    rw [exec_readSection ready]
    simp only [readSection, sectionOf?_code, there, if_true]
    rfl
  · by_cases watch : sec = .watch
    · subst watch
      rw [heldByte_watch, watchHeldByte_bit within]
      simp [Option.isSome_iff_ne_none, and_assoc]
    · simp [heldByte_other watch, watch]

/-! ### Writes of one entry (R23 to R30) -/

/-- A write of one entry that passes every test: the entry is stored, a reservation of it broken, and the owner
acts. -/
theorem writeSection_entry {told : State → State} {s : State} {sec : SectionId} {no : Byte} {n : Nat} {entry : List Byte}
    {v : EntryValue} (number : no.toNat = n) (there : n < sec.entryCount) (size : entry.length = sec.entrySize)
    (open' : ¬(sec = .preset ∧ n = 0)) (kept : readOnlyKept sec n entry s = true)
    (unclaimed : (touchesClaim sec n 1 && s.wcu.claim.isSome) = false)
    (parsed : parseEntry sec entry = some { value := v, clamped := false }) :
    writeSection told (sectionCode sec) no 1 0 entry s =
      { state := sectionWritten told sec n 1 s (breakReservation sec n 1 (storeEntry n v s))
        status := .ok
        body := [] } := by
  subst number
  have range : rangeExists sec no 1 = true := rangeExists_iff.mpr ⟨le_rfl, there⟩
  have one : chunks sec.entrySize 1 entry = [entry] := by simp [chunks, ← size]
  have readOnly : ¬((sec = .preset ∧ no.toNat = 0) ∨ allReadOnlyKept sec s no.toNat [entry] = false) := by
    simp [allReadOnlyKept, kept, open']
  have whole : entry.length = (1 : Byte).toNat * sec.entrySize := by simp [size]
  have count : (1 : Byte).toNat = 1 := rfl
  simp only [writeSection, sectionOf?_code, range, whole, ne_eq, not_true_eq_false, if_true, if_false,
    reduceCtorEq, count, writeRange, one, if_neg readOnly, unclaimed, Bool.false_eq_true, parseAll, parsed,
    applyWrite, storeEntries]
  rfl

theorem writeStep_entry {s : State} {sec : SectionId} {no : Byte} {n : Nat} {entry : List Byte} {v : EntryValue}
    (ready : Ready s) (number : no.toNat = n) (there : n < sec.entryCount) (size : entry.length = sec.entrySize)
    (open' : ¬(sec = .preset ∧ n = 0)) (kept : readOnlyKept sec n entry s = true)
    (unclaimed : (touchesClaim sec n 1 && s.wcu.claim.isSome) = false)
    (parsed : parseEntry sec entry = some { value := v, clamped := false }) :
    writeStep (sectionCode sec) no 1 0 entry s =
      .next ((sectionWritten tellSuction sec n 1 s
        (breakReservation sec n 1 (storeEntry n v s))).withReply (replyFrame 0x05 .ok [])) := by
  have listed : lengthAllowed 0x05 (sectionCode sec :: no :: 1 :: 0 :: entry).length = true := by
    simp [lengthAllowed]
  have done := requestStep_of_ready ready 0x05 (sectionCode sec :: no :: 1 :: 0 :: entry) rfl listed
  have carried : carryOut { kind := 0x05, payload := sectionCode sec :: no :: 1 :: 0 :: entry } s =
      writeSection tellSuction (sectionCode sec) no 1 0 entry s := rfl
  rw [carried, writeSection_entry number there size open' kept unclaimed parsed] at done
  exact done

/-- Settles O16: each write passes the tests, and no owner but GAUGE and NOTICE acts. -/
theorem settingsAreStored : Obligations.SettingsAreStored := by
  unfold Obligations.SettingsAreStored
  intro s ready
  refine ⟨fun e h low high floors => ?_, fun e h => ?_, fun e h => ?_, fun u e h => ?_, fun e h => ?_, fun m r => ?_⟩
  · exact writeStep_entry (sec := .dirt) ready rfl (by decide) rfl (by simp) rfl rfl (parse_dirt h low high floors)
  · exact writeStep_entry (sec := .limits) ready rfl (by decide) rfl (by simp) rfl rfl (parse_limits h)
  · have kept : readOnlyKept .service 0 (serviceBytes e s.ka.serviceDue) s = true := by
      simp [readOnlyKept, entryBytes, serviceBytes, bytes2]
    exact writeStep_entry (sec := .service) ready rfl (by decide) rfl (by simp) kept rfl
      (parse_service h s.ka.serviceDue)
  · have number : (byteOf (unitNo u)).toNat = unitNo u := by cases u <;> rfl
    have kept : readOnlyKept .timer (unitNo u) (timerBytes e (s.tdu.timers.get u).running) s = true := by
      simp [readOnlyKept, entryBytes, timerBytes, bytes2]
    have written := writeStep_entry (sec := .timer) ready number (by cases u <;> decide) rfl (by simp) kept rfl
      (parse_timer h (s.tdu.timers.get u).running)
    simp only [storeEntry, unitAt_unitNo] at written
    exact written
  · have kept : readOnlyKept .gauge 0 (gaugeBytes { s.ka with gauge := e }) s = true := by
      simp [readOnlyKept, gaugeBytes, bytes2, bytes4]
    exact writeStep_entry (sec := .gauge) ready rfl (by decide) rfl (by simp) kept rfl
      (parse_gauge (k := { s.ka with gauge := e }) h)
  · exact writeStep_entry (sec := .notice) ready rfl (by decide) rfl (by simp) rfl rfl (parse_notice m r)

/-! ### The status and what is read and cleared -/

theorem suctionCode_toNat (x : Suction) :
    (suctionCode x.reported).toNat = match x with
      | .moving .off => 0 | .moving .spinUp => 1 | .moving .run => 2 | .held _ _ => 3
      | .moving .brake => 4 | .halt _ => 5 := by
  cases x with
  | moving m => cases m <;> rfl
  | held m p => rfl
  | halt c => rfl

theorem haltCode_toNat (x : Suction) :
    (haltCode x.haltCause?).toNat = match x with
      | .halt .stall => 1 | .halt .overcurrent => 2 | .halt .stackFull => 3
      | .moving _ | .held _ _ => 0 := by
  cases x with
  | moving m => rfl
  | held m p => rfl
  | halt c => cases c <;> rfl

theorem packCode_toNat (x : PackState) :
    (packCode x).toNat = match x with
      | .discharge => 0 | .protect => 1 | .dockedWait => 2 | .charging .precharge => 3
      | .charging .cc => 4 | .charging .cv => 5 | .charging .done => 6 | .paused _ => 7 | .fault _ => 8 := by
  cases x with
  | charging p => cases p <;> rfl
  | discharge | protect | dockedWait | paused _ | fault _ => rfl

theorem faultCode_toNat (x : PackState) :
    (faultCode x.faultKind?).toNat = match x with
      | .fault .timeout => 1 | .fault .prechargeLimit => 2 | .fault .cellOver => 3 | .fault .hot => 4
      | .fault .sense => 5 | .fault .declined => 6 | .fault .unsuited => 7
      | .discharge | .protect | .dockedWait | .charging _ | .paused _ => 0 := by
  cases x with
  | fault k => cases k <;> rfl
  | discharge | protect | dockedWait | paused _ | charging _ => rfl

theorem sessionCode_toNat (x : Session) :
    (sessionCode x).toNat = match x with
      | .absent => 0 | .probing => 1 | .offered => 2 | .active => 3 | .lost => 4 := by
  cases x <;> rfl

theorem presetNo_lt (p : PresetId) : presetNo p < 256 := by cases p <;> decide

theorem linkFlagByte_toNat (l : Link) :
    (linkFlagByte l).toNat = (if l.overrun then 1 else 0) + (if l.check then 2 else 0) + (if l.gap then 4 else 0) :=
  toNat_byteOf_self (by split <;> split <;> split <;> decide)

theorem exec_getStatus {s : State} (h : Ready s) (option : Option Byte) :
    exec (.getStatus option) s = .next ((getStatus option s).state.withReply
      { kind := 0x42, payload := 0x00 :: statusBody s, ending := .plain }) := by
  cases option with
  | none => exact requestStep_of_ready h 0x02 [] rfl rfl
  | some b => exact requestStep_of_ready h 0x02 [b] rfl rfl

/-- Settles O20. -/
theorem statusAndClearingRequests : Obligations.StatusAndClearingRequests := by
  unfold Obligations.StatusAndClearingRequests
  intro s ready
  refine ⟨requestStep_of_ready ready 0x01 [] rfl rfl, fun option zero => ?_, fun b nonzero => ?_, ?_,
    requestStep_of_ready ready 0x17 [] rfl rfl, requestStep_of_ready ready 0x14 [] rfl rfl,
    requestStep_of_ready ready 0x15 [] rfl rfl, requestStep_of_ready ready 0x0F [] rfl rfl,
    requestStep_of_ready ready 0x0E [] rfl rfl⟩
  · rw [exec_getStatus ready, getStatus, if_pos zero]
    rfl
  · rw [exec_getStatus ready, getStatus, if_neg (by simpa using nonzero)]
    rfl
  · have two : ∀ n i : Nat, ((bytes2 n)[i]?).map BitVec.toNat = [n % 256, n / 256 % 256][i]? := fun n i => by
      simp only [bytes2, ← toNat_byteOf]
      rcases i with _ | _ | i <;> rfl
    refine ⟨rfl, rfl, congrArg some (linkFlagByte_toNat _), congrArg some (toNat_flagByte _),
      congrArg some (suctionCode_toNat _), congrArg some (haltCode_toNat _),
      congrArg some (toNat_byteOf_self (presetNo_lt _)), congrArg some (toNat_byteOf _), congrArg some (packCode_toNat _),
      congrArg some (faultCode_toNat _), congrArg some (sessionCode_toNat _), congrArg some (toNat_byteOf _),
      ⟨two s.chan.budget 0, two s.chan.budget 1⟩, fun estimated => ?_, fun unestimated => ?_,
      ⟨two s.dlc.dockCurrent 0, two s.dlc.dockCurrent 1⟩, congrArg some (toNat_flagByte _)⟩
    · rw [← show runTimeEstimate s = _ from if_pos estimated]
      exact ⟨two _ 0, two _ 1⟩
    · rw [← show runTimeEstimate s = _ from if_neg unestimated]
      exact ⟨two _ 0, two _ 1⟩

end Sys2Proof.Machine
end

