-- ==== Sys2Proof/Proofs/DockSession.lean ====
section
/-! PROOF. The dock line: what an announcement of the pack manager leaves while no charge may be entered, the answers
of the dock, and the misses (R18, R84, R177 to R183, R195). -/

namespace Sys2Proof.Machine

/-! ### Invariants that an evaluation respects -/

theorem budgetKept_of_eval {I : State → Prop} (h : EvalClosed fun s t => I s → I t)
    (compareBudget : ∀ sample u, Keeps I fun s => (compareUnit .budget sample u s).1) (link : LinkKept I)
    (budget : ∀ w, Keeps I (State.modPmg fun p => { p with budget := w })) : BudgetKept I where
  raiseSoft ht := raiseSoft_moves h ht
  clearSoft ht := clearSoft_moves h ht
  tellBudget ht := tellBudget_moves h ht
  report := reportCondition_moves h
  compareBudget := compareBudget
  link := link
  chan f _ := h.chan f
  budget := budget
  draws := h.draws

theorem controlKept_of_eval {I : State → Prop} (h : EvalClosed fun s t => I s → I t) (budget : BudgetKept I)
    (ka : ∀ f, (∀ k, SettingsKept k (f k) ∧ (f k).marker = k.marker) → Keeps I (State.modKa f))
    (wcu : ∀ f, Keeps I (State.modWcu f)) (pmg : ∀ f, Keeps I (State.modPmg f)) (ask : Keeps I handOver)
    (leave : Keeps I leaveOrder) (reservation : ∀ r, Keeps I (State.setReservation r))
    (bleed : ∀ b, Keeps I (State.setBleedOut b)) : ControlKept I where
  toBudgetKept := budget
  evaluate ht := evaluate_moves h ht
  raiseHard ht := raiseHard_moves h ht
  clearHard ht := clearHard_moves h ht
  speedTold ht := speedTold_moves h ht
  motorITold ht := motorITold_moves h ht
  controlPeriod ht := controlPeriod_moves h ht
  ka := ka
  t1 b := setTimerRunning_moves h .i1 b
  t2 b := setTimerRunning_moves h .i2 b
  wcu := wcu
  dsu := h.dsu
  pmg := pmg
  ask := ask
  leave := leave
  reservation := reservation
  bleed := bleed

/-! ### An announcement while no charge may be entered (R158, R185) -/

/-- The test of charge entry fails whatever the suction controller does. -/
def Shut (s : State) : Prop := s.dlc.session ≠ .offered ∨ s.pmg.state ≠ .dockedWait

/-- The dock line, the pack state, the watch records and the claim stay, and so does the comparison of every unit that
waits for no sample of the event. -/
structure Undisturbed (s t : State) : Prop where
  dlc : t.dlc = s.dlc
  state : t.pmg.state = s.pmg.state
  claim : t.wcu.claim = s.wcu.claim
  entries : t.wcu.entries = s.wcu.entries
  comparisons : ∀ u, (s.wcu.entries.get u).waits → t.wcu.comparisons.get u = s.wcu.comparisons.get u
  reservation : t.reservation = s.reservation

theorem Undisturbed.refl (s : State) : Undisturbed s s := ⟨rfl, rfl, rfl, rfl, fun _ _ => rfl, rfl⟩

theorem Undisturbed.trans {s t u : State} (a : Undisturbed s t) (b : Undisturbed t u) : Undisturbed s u where
  dlc := b.dlc.trans a.dlc
  state := b.state.trans a.state
  claim := b.claim.trans a.claim
  entries := b.entries.trans a.entries
  comparisons v h := (b.comparisons v (by rw [a.entries]; exact h)).trans (a.comparisons v h)
  reservation := b.reservation.trans a.reservation

theorem Undisturbed.of_same {s t : State} (dlc : t.dlc = s.dlc) (state : t.pmg.state = s.pmg.state)
    (wcu : t.wcu = s.wcu) (reservation : t.reservation = s.reservation) : Undisturbed s t :=
  ⟨dlc, state, by rw [wcu], by rw [wcu], fun _ _ => by rw [wcu], reservation⟩

theorem recordHit_undisturbed (u : Idx4) (s : State) : Undisturbed s (recordHit u s) := by
  unfold recordHit
  dsimp only
  split <;> exact ⟨rfl, rfl, rfl, rfl, fun _ _ => rfl, rfl⟩

theorem four_get_set_ne {α : Type} (f : Four α) {u v : Idx4} (h : v ≠ u) (a : α) : (f.set u a).get v = f.get v := by
  cases u <;> cases v <;> first | rfl | exact absurd rfl h

/-- A comparison is stored for a trap of the sample's channel alone. -/
theorem setComparison_undisturbed {u : Idx4} {s : State} (h : ¬(s.wcu.entries.get u).waits) (c : Comparison) :
    Undisturbed s (setComparison u c s) :=
  ⟨rfl, rfl, rfl, rfl, fun v hv => four_get_set_ne _ (fun e : v = u => h (e ▸ hv)) c, rfl⟩

theorem compareBudget_undisturbed (sample : List Reading) (u : Idx4) (s : State) :
    Undisturbed s (compareUnit .budget sample u s).1 := by
  unfold compareUnit
  dsimp only
  split
  next trap =>
    have waits : ¬(s.wcu.entries.get u).waits := fun w => (w trap.1).2.2.2 trap.2
    have hit := recordHit_undisturbed u s
    have stored := setComparison_undisturbed waits
    split
    · exact .refl s
    · split
      · unfold trapHit
        dsimp only
        split
        · exact hit.trans (setComparison_undisturbed (by rw [hit.entries]; exact waits) _)
        · exact hit
      · unfold trapMiss
        dsimp only
        split
        · split <;> exact stored _
        · exact .refl s
  · exact .refl s

theorem undisturbed_closed (s : State) : EvalClosed fun t u => Undisturbed s t → Undisturbed s u where
  refl _ h := h
  trans _ _ _ a b h := b (a h)
  snc _ _ h := h.trans (.of_same rfl rfl rfl rfl)
  chan _ _ h := h.trans (.of_same rfl rfl rfl rfl)
  tdu _ _ h := h.trans (.of_same rfl rfl rfl rfl)
  dsu _ _ h := h.trans (.of_same rfl rfl rfl rfl)
  draws _ _ h := h.trans (.of_same rfl rfl rfl rfl)
  notice _ _ h := h.trans (.of_same rfl rfl rfl rfl)
  hit u t h := h.trans (recordHit_undisturbed u t)

theorem undisturbed_budgetKept (s : State) : BudgetKept (Undisturbed s) :=
  budgetKept_of_eval (undisturbed_closed s) (fun sample u t h => h.trans (compareBudget_undisturbed sample u t))
    (fun _ _ _ h => h.trans (.of_same rfl rfl rfl rfl)) (fun _ _ h => h.trans (.of_same rfl rfl rfl rfl))

theorem Shut.of_undisturbed {s t : State} (shut : Shut s) (h : Undisturbed s t) : Shut t := by
  unfold Shut
  rw [h.dlc, h.state]
  exact shut

/-- While the charge entry is shut a report of the suction state reaches the dirt sensing unit alone. -/
theorem tellSuction_undisturbed {s : State} (shut : Shut s) : Keeps (Undisturbed s) tellSuction := by
  intro t h
  have stopped : Undisturbed s (dirtStop id t) := dirtStop_moves (undisturbed_closed s) (fun _ h => h) t h
  unfold tellSuction suctionTold
  split
  · rw [chargeEntryTest_closed (shut.of_undisturbed stopped)]
    exact stopped
  · exact stopped
  all_goals exact h

theorem announcePack_undisturbed {s : State} (shut : Shut s) : Undisturbed s (announcePack tellSuction s) :=
  announcePack_keeps (undisturbed_budgetKept s) (tellSuction_undisturbed shut) s (.refl s)

/-! ### Departures from the charging states (R84, R193, R195) -/

theorem takePackState_facts (new : PackState) (s : State) :
    (takePackState new s).pmg.state = new ∧ (takePackState new s).dlc = s.dlc ∧ (takePackState new s).wcu = s.wcu ∧
      (takePackState new s).reservation = s.reservation := by
  unfold takePackState
  dsimp only
  split <;> exact ⟨rfl, rfl, rfl, rfl⟩

theorem releaseWatches_same (s : State) :
    (releaseWatches s).dlc = s.dlc ∧ (releaseWatches s).pmg = s.pmg := by
  unfold releaseWatches
  split <;> exact ⟨rfl, rfl⟩

theorem leaveCharging_facts (s : State) :
    (leaveCharging s).dlc = s.dlc ∧ (leaveCharging s).pmg.state = s.pmg.state ∧
      (leaveCharging s).wcu = (releaseWatches s).wcu ∧ (leaveCharging s).reservation = (releaseWatches s).reservation := by
  obtain ⟨dlc, pmg⟩ := releaseWatches_same s
  exact ⟨dlc, by rw [← pmg]; rfl, rfl, rfl⟩

theorem Released.of_wcu {s t u v : State} (h : Released s t) (before : u.wcu = s.wcu)
    (reserved : u.reservation = s.reservation) (after : v.wcu = t.wcu) (left : v.reservation = t.reservation) :
    Released u v :=
  ⟨by rw [after]; exact h.claim, by rw [before, after]; exact h.entries, by rw [before, after]; exact h.w2,
    by rw [before, after]; exact h.w3, by rw [before, reserved, left]; exact h.reservation⟩

/-- The release stands through what follows it at the same event. -/
theorem Released.through {s t u : State} (h : Released s t) (k : Undisturbed t u) : Released s u where
  claim := k.claim.trans h.claim
  entries c hc := k.entries.trans (h.entries c hc)
  w2 c hc waits := (k.comparisons .i2 (by rw [h.entries c hc]; exact waits)).trans (h.w2 c hc waits)
  w3 c hc waits := (k.comparisons .i3 (by rw [h.entries c hc]; exact waits)).trans (h.w3 c hc waits)
  reservation claimed r hr watch := k.reservation.trans (h.reservation claimed r hr watch)

/-- A stop of the charge outside OFFERED (R195). -/
theorem stopCharge_facts {s : State} {new : PackState} (shut : s.dlc.session ≠ .offered ∨ new ≠ .dockedWait) :
    (stopCharge tellSuction new s).dlc = s.dlc ∧ (stopCharge tellSuction new s).pmg.state = new ∧
      Released s (stopCharge tellSuction new s) := by
  obtain ⟨state, dlc, wcu, reservation⟩ := takePackState_facts new s
  obtain ⟨dlc', state', wcu', reservation'⟩ := leaveCharging_facts (takePackState new s)
  have kept := announcePack_undisturbed (s := leaveCharging (takePackState new s)) (by
    unfold Shut
    rw [dlc', dlc, state', state]
    exact shut)
  have released : Released s (leaveCharging (takePackState new s)) :=
    (releaseWatches_released (takePackState new s)).of_wcu wcu.symm reservation.symm wcu' reservation'
  exact ⟨(kept.dlc.trans dlc').trans dlc, (kept.state.trans state').trans state, released.through kept⟩

/-! ### Frames of the dock (R18) -/

theorem answerFrame_carries (a : DockAnswer) :
    (dockAnswerBytes a).dropLast = dockAnswerKind a :: BitVec.ofNat 8 (dockAnswerPayload a).length ::
        dockAnswerPayload a ∧
      (dockAnswerBytes a).foldl (· + ·) (0 : Byte) = 0 ∧ dockAnswer? (dockAnswerBytes a) = some a :=
  ⟨List.dropLast_concat, dockLineBytes_sum _ _, dockAnswer?_bytes a⟩

/-! ### Answers at a quiet link -/

theorem answerStep_quiet {s : State} (q : Quiet s) (a : DockAnswer) :
    answerStep (dockAnswerBytes a) s = .next (answerReceived tellSuction (dockAnswerBytes a) s) :=
  mainStep_of_quiet q (answerReceived_moves lineKept_closed (tellSuction_moves lineKept_closed) (dockAnswerBytes a) s)

theorem exec_timeout_quiet {s : State} (q : Quiet s) :
    exec .dockAnswerTimeout s = .next (exchangeMissed tellSuction s) :=
  mainStep_of_quiet q (exchangeMissed_moves lineKept_closed (tellSuction_moves lineKept_closed) s)

theorem awaited?_some {d : Dlc} {x : Exchange} (h : d.exchange = some x) (w : x.awaiting = true) :
    d.awaited? = some x := by simp [Dlc.awaited?, h, w]

theorem answerStep_unawaited {s : State} (q : Quiet s) (h : s.dlc.awaited? = none) (a : DockAnswer) :
    answerStep (dockAnswerBytes a) s = .next s := by
  rw [answerStep_quiet q, answerReceived_bytes, h]

theorem answerStep_awaited {s : State} {x : Exchange} (q : Quiet s) (h : s.dlc.exchange = some x)
    (w : x.awaiting = true) (a : DockAnswer) :
    answerStep (dockAnswerBytes a) s = .next (takeAnswer tellSuction x a s) := by
  rw [answerStep_quiet q, answerReceived_bytes, awaited?_some h w]

/-- An answer that the frame does not call for is an invalid one. -/
theorem answerStep_uncalled {s : State} {x : Exchange} {a : DockAnswer} (q : Quiet s) (h : s.dlc.exchange = some x)
    (w : x.awaiting = true) (missed : takeAnswer tellSuction x a s = exchangeMissed tellSuction s) :
    answerStep (dockAnswerBytes a) s = exec .invalidDockAnswer s := by
  rw [answerStep_awaited q h w, missed]
  exact (exec_timeout_quiet q).symm

theorem isAsk_iff {f : DockFrame} : f.isAsk = true ↔ ∃ v i, f = .ask v i := by cases f <;> simp [DockFrame.isAsk]

/-! ### What each answer does -/

/-- A session change leaves the exchange, the offer and the asked pair, and marks the DOCK notice (R177). -/
theorem setSession_changes {new : Session} {s : State} (h : s.dlc.session ≠ new) :
    setSession new s = askNotice .dock (s.modDlc (Dlc.enter new)) := if_neg h

theorem setSession_marks {new : Session} {s : State} (h : s.dlc.session ≠ new) (on : s.link.enables.dock = true) :
    (setSession new s).link.notices.dock = true := by
  rw [setSession_changes h, askNotice_enabled (k := .dock) (s := s.modDlc (Dlc.enter new)) on]
  rfl

/-- A GRANT in OFFERED enters ACTIVE, or after a leave order sends QUIT; in ACTIVE it ends the exchange (R181, R183). -/
theorem takeGrant_offered {x : Exchange} {s : State} (h : s.dlc.session = .offered) (o : x.ordered = false) :
    (takeGrant x s).dlc.session = .active ∧ (takeGrant x s).dlc.misses = 0 ∧ (takeGrant x s).dlc.declines = 0 ∧
      (takeGrant x s).dlc.askDue = (s.dlc.askDue && x.newer) ∧
      (s.link.enables.dock = true → (takeGrant x s).link.notices.dock = true) := by
  let ended := s.modDlc fun d => { d with exchange := none, misses := 0, declines := 0, askDue := d.askDue && x.newer }
  have moved : ended.dlc.session ≠ .active := by
    show s.dlc.session ≠ .active
    simp [h]
  have taken : takeGrant x s = serveLine (setSession .active ended) := by
    simp only [takeGrant, State.modDlc, h, o, if_true, Bool.false_eq_true, if_false, ended]
  obtain ⟨session, -, misses, declines, due, -⟩ := serve_kept (setSession .active ended).dlc
  rw [taken]
  refine ⟨session.trans (setSession_session _ _), misses.trans ?_, declines.trans ?_, due.trans ?_,
    setSession_marks (s := ended) moved⟩ <;> rw [setSession_changes moved] <;> rfl

theorem takeGrant_ordered {x : Exchange} {s : State} (h : s.dlc.session = .offered) (o : x.ordered = true) :
    (takeGrant x s).dlc.session = .offered ∧
      (takeGrant x s).dlc.exchange = some { frame := .quit, awaiting := false, newer := false, ordered := false } := by
  simp only [takeGrant, State.modDlc, h, o, if_true, serveLine, Dlc.serve, Option.isSome_none, Bool.false_eq_true,
    if_false, Dlc.send]
  exact ⟨trivial, trivial⟩

theorem takeGrant_active {x : Exchange} {s : State} (h : s.dlc.session = .active) :
    (takeGrant x s).dlc.session = .active ∧ (takeGrant x s).dlc.misses = 0 ∧ (takeGrant x s).dlc.declines = 0 ∧
      (takeGrant x s).dlc.askDue = (s.dlc.askDue && x.newer) := by
  let ended := s.modDlc fun d => { d with exchange := none, misses := 0, declines := 0, askDue := d.askDue && x.newer }
  have taken : takeGrant x s = serveLine ended := by
    simp only [takeGrant, State.modDlc, h, reduceCtorEq, if_false, ended]
  obtain ⟨session, -, misses, declines, due, -⟩ := serve_kept ended.dlc
  rw [taken]
  exact ⟨session.trans h, misses, declines, due⟩

theorem leaveOrder_dlc (s : State) :
    (leaveOrder s).dlc.session = s.dlc.session ∧ (leaveOrder s).dlc.offer = s.dlc.offer ∧
      (leaveOrder s).dlc.misses = s.dlc.misses ∧ (leaveOrder s).dlc.declines = s.dlc.declines ∧
      (leaveOrder s).dlc.askDue = false := by
  obtain ⟨session, offer, misses, declines, due, -⟩ := serve_kept
    { s.dlc with
      askCurrent := 0
      askDue := false
      quitDue := s.dlc.quitDue || decide (s.dlc.session = .active)
      exchange := s.dlc.exchange.map fun x =>
        if s.dlc.session = .offered ∧ x.frame.isAsk then { x with ordered := true } else x }
  exact ⟨session, offer, misses, declines, due⟩

/-- A charge fault, seen from the dock line (R183, R193). -/
theorem chargeFault_facts {k : ChargeFault} {s : State} (due : s.dlc.askDue = false) :
    (chargeFault tellSuction k s).dlc.session = s.dlc.session ∧
      (chargeFault tellSuction k s).dlc.misses = s.dlc.misses ∧
      (chargeFault tellSuction k s).dlc.declines = s.dlc.declines ∧
      (chargeFault tellSuction k s).dlc.askDue = false ∧
      (s.pmg.state.isCharging = true → (chargeFault tellSuction k s).pmg.state = .fault k) := by
  unfold chargeFault
  split
  next charging =>
    obtain ⟨state, dlc, -, -⟩ := takePackState_facts (.fault k) s
    obtain ⟨session, -, misses, declines, asked⟩ := leaveOrder_dlc (takePackState (.fault k) s)
    obtain ⟨dlc', state', -, -⟩ := leaveCharging_facts (leaveOrder (takePackState (.fault k) s))
    have faulted := state'.trans state
    have kept := announcePack_undisturbed (s := leaveCharging (leaveOrder (takePackState (.fault k) s)))
      (.inr (by rw [faulted]; exact fun h => by cases h))
    rw [kept.dlc, kept.state, dlc', session, misses, declines, asked, dlc]
    exact ⟨rfl, rfl, rfl, rfl, fun _ => faulted⟩
  next resting => exact ⟨rfl, rfl, rfl, due, fun h => absurd h resting⟩

/-- A DECLINE: the first of a due ASK starts the retry wait, a second is the fault DECLINED of a charge (R182). -/
theorem takeDecline_facts (s : State) :
    (takeDecline tellSuction s).dlc.session = s.dlc.session ∧ (takeDecline tellSuction s).dlc.misses = 0 ∧
      (s.dlc.askDue = true → s.dlc.declines = 0 → (takeDecline tellSuction s).dlc.declines = 1 ∧
        (takeDecline tellSuction s).dlc.askDue = true ∧ (takeDecline tellSuction s).dlc.retry = some .afterDecline ∧
        (takeDecline tellSuction s).pmg = s.pmg) ∧
      (s.dlc.askDue = true → 1 ≤ s.dlc.declines → (takeDecline tellSuction s).dlc.declines = 0 ∧
        (takeDecline tellSuction s).dlc.askDue = false ∧
        (s.pmg.state.isCharging = true → (takeDecline tellSuction s).pmg.state = .fault .declined)) ∧
      (s.dlc.askDue = false → (takeDecline tellSuction s).dlc.declines = s.dlc.declines ∧
        (takeDecline tellSuction s).dlc.retry = s.dlc.retry) := by
  let ended := s.modDlc fun d => { d with exchange := none, misses := 0 }
  by_cases due : s.dlc.askDue = true
  · by_cases second : 1 ≤ s.dlc.declines
    · let judged := ended.modDlc fun d => { d with askDue := false, declines := 0 }
      have taken : takeDecline tellSuction s = serveLine (chargeFault tellSuction .declined judged) :=
        congrArg serveLine ((if_pos due).trans (if_pos (Nat.succ_le_succ second)))
      obtain ⟨session, misses, declines, asked, faulted⟩ := chargeFault_facts (k := .declined) (s := judged) rfl
      obtain ⟨session', -, misses', declines', asked', -⟩ := serve_kept (chargeFault tellSuction .declined judged).dlc
      rw [taken]
      exact ⟨session'.trans session, misses'.trans misses, fun _ none => by omega,
        fun _ _ => ⟨declines'.trans declines, asked'.trans asked, faulted⟩, fun h => by simp [h] at due⟩
    · let waiting := ended.modDlc fun d => { d with declines := d.declines + 1, retry := some .afterDecline }
      have taken : takeDecline tellSuction s = serveLine waiting :=
        congrArg serveLine ((if_pos due).trans (if_neg fun h => second (Nat.le_of_succ_le_succ h)))
      obtain ⟨session, -, misses, declines, asked, -, -, -, retry⟩ := serve_kept waiting.dlc
      rw [taken]
      exact ⟨session, misses, fun _ none => ⟨declines.trans (congrArg (· + 1) none), asked.trans due, retry, rfl⟩,
        fun _ one => absurd one second, fun h => by simp [h] at due⟩
  · have taken : takeDecline tellSuction s = serveLine ended := congrArg serveLine (if_neg due)
    obtain ⟨session, -, misses, declines, -, -, -, -, retry⟩ := serve_kept ended.dlc
    rw [taken]
    exact ⟨session, misses, fun h => absurd h due, fun h => absurd h due, fun _ => ⟨declines, retry⟩⟩

theorem takeKeepack_facts (current : Nat) (s : State) :
    (takeKeepack current s).dlc.dockCurrent = current ∧ (takeKeepack current s).dlc.misses = 0 ∧
      (takeKeepack current s).dlc.session = s.dlc.session := by
  obtain ⟨session, -, misses, -, -, -, -, dock, -⟩ := serve_kept
    { s.dlc with exchange := none, misses := 0, dockCurrent := current }
  exact ⟨dock, misses, session⟩

/-! ### An OFFER (R180) -/

/-- What the test of charge entry leaves of the dock line. -/
structure OfferHeld (offer : Offer) (s : State) : Prop where
  session : s.dlc.session = .offered
  offer : s.dlc.offer = some offer
  misses : s.dlc.misses = 0

theorem OfferHeld.of_serve {offer : Offer} {s t : State} {d : Dlc} (h : OfferHeld offer s) (served : t.dlc = d.serve)
    (session : d.session = s.dlc.session) (stored : d.offer = s.dlc.offer) (misses : d.misses = s.dlc.misses) :
    OfferHeld offer t := by
  obtain ⟨session', stored', misses', -⟩ := serve_kept d
  exact ⟨by rw [served, session', session, h.session], by rw [served, stored', stored, h.offer],
    by rw [served, misses', misses, h.misses]⟩

theorem OfferHeld.of_dlc {offer : Offer} {s t : State} (h : OfferHeld offer s) (same : t.dlc = s.dlc) :
    OfferHeld offer t :=
  ⟨by rw [same, h.session], by rw [same, h.offer], by rw [same, h.misses]⟩

theorem recordHit_dlc (u : Idx4) (s : State) : (recordHit u s).dlc = s.dlc := (recordHit_undisturbed u s).dlc

theorem offerHeld_closed (offer : Offer) : EvalClosed fun s t => OfferHeld offer s → OfferHeld offer t where
  refl _ h := h
  trans _ _ _ a b h := b (a h)
  snc _ _ h := h.of_dlc rfl
  chan _ _ h := h.of_dlc rfl
  tdu _ _ h := h.of_dlc rfl
  dsu _ _ h := h.of_dlc rfl
  draws _ _ h := h.of_dlc rfl
  notice _ _ h := h.of_dlc rfl
  hit u s h := h.of_dlc (recordHit_dlc u s)

theorem offerHeld_controlKept (offer : Offer) : ControlKept (OfferHeld offer) :=
  have budget : BudgetKept (OfferHeld offer) := budgetKept_of_eval (offerHeld_closed offer)
    (fun sample u s h => h.of_dlc (compareBudget_undisturbed sample u s).dlc) (fun _ _ _ h => h.of_dlc rfl)
    (fun _ _ h => h.of_dlc rfl)
  controlKept_of_eval (offerHeld_closed offer) budget (fun _ _ _ h => h.of_dlc rfl) (fun _ _ h => h.of_dlc rfl)
    (fun _ _ h => h.of_dlc rfl) (fun _ h => h.of_serve rfl rfl rfl rfl) (fun _ h => h.of_serve rfl rfl rfl rfl)
    (fun _ _ h => h.of_dlc rfl) (fun _ _ h => h.of_dlc rfl)

theorem dockNotice_closed : MainClosed fun s t => s.link.notices.dock = true → t.link.notices.dock = true where
  refl _ h := h
  trans _ _ _ a b h := b (a h)
  snc _ _ h := h
  chan _ _ h := h
  tdu _ _ h := h
  dsu _ _ h := h
  draws _ _ h := h
  notice k s h := by
    simp only [askNotice, State.modLink]
    split
    · cases k <;> first | rfl | exact h
    · exact h
  hit u s h := by
    unfold recordHit
    dsimp only
    split
    · simp only [askWatchNotice, State.modLink]
      split <;> exact h
    · exact h
  wcu _ _ h := h
  pmg _ _ h := h
  dlc _ _ h := h
  reservation _ _ h := h
  bleed _ _ h := h
  timerNotice k s h := by
    simp only [askTimerNotice, State.modLink]
    split <;> exact h
  detectorNotice d b s h := by
    simp only [askDetectorNotice, State.modLink]
    split <;> exact h

theorem takeOffer_facts {offer : Offer} {s : State} (h : s.dlc.session = .probing ∨ s.dlc.session = .lost) :
    OfferHeld offer (takeOffer tellSuction offer s) ∧
      (s.link.enables.dock = true → (takeOffer tellSuction offer s).link.notices.dock = true) := by
  let stored := (endExchange s).modDlc fun d => { d with offer := some offer }
  have moved : stored.dlc.session ≠ .offered := by
    show s.dlc.session ≠ .offered
    rcases h with h | h <;> simp [h]
  have offered : OfferHeld offer (setSession .offered stored) := by
    rw [setSession_changes moved]
    exact ⟨rfl, rfl, rfl⟩
  have kept := chargeEntryTest_keeps (offerHeld_controlKept offer) (tellSuction_keeps (offerHeld_controlKept offer)) _
    offered
  exact ⟨kept.of_serve rfl rfl rfl rfl, fun on =>
    chargeEntryTest_moves dockNotice_closed (tellSuction_moves dockNotice_closed) _ (setSession_marks moved on)⟩

theorem takeAnswer_grant {x : Exchange} (ask : x.frame.isAsk = true) (v i : Word16) (s : State) :
    takeAnswer tellSuction x (.grant v i) s = takeGrant x s := by
  obtain ⟨_, _, frame⟩ := isAsk_iff.mp ask
  simp only [takeAnswer, frame]

theorem takeAnswer_decline {x : Exchange} (ask : x.frame.isAsk = true) (r : Byte) (s : State) :
    takeAnswer tellSuction x (.decline r) s = takeDecline tellSuction s := by
  obtain ⟨_, _, frame⟩ := isAsk_iff.mp ask
  simp only [takeAnswer, frame]

/-- Answers that the frame does not call for (R178). -/
theorem takeAnswer_uncalled {x : Exchange} {a : DockAnswer} (s : State)
    (h : match a with
      | .offer _ v i => x.frame ≠ .probe ∨ offerInRange v.toNat i.toNat = false
      | .grant _ _ | .decline _ => x.frame.isAsk = false
      | .keepack _ => x.frame ≠ .keep) :
    takeAnswer tellSuction x a s = exchangeMissed tellSuction s := by
  cases a with
  | offer k v i =>
    cases frame : x.frame with
    | probe => simp [takeAnswer, frame, h.resolve_left fun other => other frame]
    | ask _ _ | keep | quit => simp only [takeAnswer, frame]
  | grant v i =>
    cases frame : x.frame with
    | ask _ _ => simp [frame, DockFrame.isAsk] at h
    | probe | keep | quit => simp only [takeAnswer, frame]
  | decline r =>
    cases frame : x.frame with
    | ask _ _ => simp [frame, DockFrame.isAsk] at h
    | probe | keep | quit => simp only [takeAnswer, frame]
  | keepack i =>
    cases frame : x.frame with
    | keep => exact absurd frame h
    | probe | ask _ _ | quit => simp only [takeAnswer, frame]

/-- Settles O58: the frames are read back, and each answer is taken by its own rule. -/
theorem dockAnswers : Obligations.DockAnswers := by
  unfold Obligations.DockAnswers
  refine ⟨fun kind reason voltage current => ⟨answerFrame_carries _, answerFrame_carries _, answerFrame_carries _,
    answerFrame_carries _, fun s => ⟨rfl, rfl, rfl, rfl⟩⟩, fun s x voltage current reason quiet =>
    ⟨fun free => ?_, fun busy waits => ⟨fun ask => ⟨fun offered plain => ?_, fun offered ordered => ?_,
        fun active => ?_, ?_, ?_⟩,
      fun other => ?_, fun keep => ?_, fun probe range session => ?_, fun bad => ?_⟩⟩⟩
  · exact ⟨answerStep_unawaited quiet free _, answerStep_unawaited quiet free _, answerStep_unawaited quiet free _,
      answerStep_unawaited quiet free _⟩
  · exact ⟨_, answerStep_awaited quiet busy waits _, by
      rw [takeAnswer_grant ask]
      exact takeGrant_offered offered plain⟩
  · exact ⟨_, answerStep_awaited quiet busy waits _, by
      rw [takeAnswer_grant ask]
      exact takeGrant_ordered offered ordered⟩
  · exact ⟨_, answerStep_awaited quiet busy waits _, by
      rw [takeAnswer_grant ask]
      exact takeGrant_active active⟩
  · exact ⟨_, answerStep_awaited quiet busy waits _, by
      rw [takeAnswer_decline ask]
      exact takeDecline_facts s⟩
  · obtain ⟨_, _, frame⟩ := isAsk_iff.mp ask
    exact answerStep_uncalled quiet busy waits (takeAnswer_uncalled s (by simp [frame]))
  · exact ⟨answerStep_uncalled quiet busy waits (takeAnswer_uncalled s other),
      answerStep_uncalled quiet busy waits (takeAnswer_uncalled s other)⟩
  · refine ⟨_, answerStep_awaited quiet busy waits _, ?_⟩
    simp only [takeAnswer, keep]
    exact takeKeepack_facts _ s
  · refine ⟨_, answerStep_awaited quiet busy waits _, ?_⟩
    simp only [takeAnswer, probe, range, if_true]
    obtain ⟨held, marked⟩ := takeOffer_facts
      (offer := { dockKind := reason.toNat, maxVoltage := voltage.toNat, maxCurrent := current.toNat }) session
    exact ⟨held.session, held.offer, held.misses, marked⟩
  · exact answerStep_uncalled quiet busy waits (takeAnswer_uncalled s bad)

/-! ### Misses (R178, R180, R181, R195) -/

theorem dockAnswer?_badSum {bytes : List Byte} (h : bytes.foldl (· + ·) (0 : Byte) ≠ 0) : dockAnswer? bytes = none :=
  if_neg h

theorem dockAnswer?_badKind {bytes : List Byte} (h : ∀ kind ∈ bytes.head?, kind.toNat < 0x21 ∨ 0x24 < kind.toNat) :
    dockAnswer? bytes = none := by
  unfold dockAnswer?
  split
  · split
    next kind length rest _ =>
      have unknown := h kind rfl
      split <;> first | rfl | (exfalso; omega)
    · rfl
  · rfl

theorem answerStep_unread {bytes : List Byte} (h : dockAnswer? bytes = none) (s : State) :
    answerStep bytes s = exec .invalidDockAnswer s := answerStep_of_misses (by simp [alwaysMisses, h]) s

/-- The entry to LOST: the asked pair is cleared, and a charge stops into DOCKED_WAIT (R180, R195). -/
theorem enterLost_facts {s : State} (h : s.dlc.session ≠ .lost) :
    let t := enterLost tellSuction s
    t.dlc.session = .lost ∧ t.dlc.askDue = false ∧ t.dlc.askVoltage = 0 ∧ t.dlc.askCurrent = 0 ∧
      t.pmg.state.isCharging = false ∧ (s.pmg.state.isCharging = true → t.pmg.state = .dockedWait ∧ Released s t) := by
  intro t
  let gone := (setSession .lost s).modDlc Dlc.clearAsk
  have session : gone.dlc.session = .lost := setSession_session .lost s
  have moved : gone = (askNotice .dock (s.modDlc (Dlc.enter .lost))).modDlc Dlc.clearAsk := by
    simp only [gone, setSession_changes h]
  have pack : gone.pmg = s.pmg := by
    rw [moved]
    rfl
  by_cases charging : s.pmg.state.isCharging = true
  · obtain ⟨dlc, state, released⟩ := stopCharge_facts (s := gone) (new := .dockedWait) (.inl (by simp [session]))
    have entered : t = stopCharge tellSuction .dockedWait gone := by
      show packLost tellSuction gone = _
      unfold packLost
      rw [if_pos (by rw [pack]; exact charging),
        chargeEntryTest_closed (.inl (by rw [dlc, session]; exact fun h => by cases h))]
    rw [entered, dlc, state]
    exact ⟨session, rfl, rfl, rfl, rfl, fun _ => ⟨rfl, released.of_wcu (congrArg State.wcu moved).symm
      (congrArg State.reservation moved).symm rfl rfl⟩⟩
  · have entered : t = gone := if_neg (by rw [pack]; exact charging)
    rw [entered]
    exact ⟨session, rfl, rfl, rfl, by rw [pack]; simpa using charging, fun k => absurd k charging⟩

/-- PROBEs are counted in PROBING alone (R180). -/
theorem serve_probes {d : Dlc} (h : d.session ≠ .probing) : d.serve.probes = d.probes := by
  unfold Dlc.serve Dlc.send
  simp only [if_neg h]
  repeat' split
  all_goals rfl

/-- What follows a miss on the line touches the line alone. -/
theorem exchangeMissed_awaited {s : State} {x : Exchange} (h : s.dlc.exchange = some x) (w : x.awaiting = true) :
    exchangeMissed told s = serveLine (takeMiss told x.frame (endExchange s)) := by
  simp only [exchangeMissed, awaited?_some h w]

theorem takeMiss_probing {f : DockFrame} {s : State} (h : s.dlc.session = .probing) (few : s.dlc.probes < 10) :
    takeMiss told f s = s := by
  simp only [takeMiss, h, if_neg (Nat.not_le.mpr few)]

theorem takeMiss_lost {f : DockFrame} {s : State} (h : s.dlc.session = .lost) : takeMiss told f s = s := by
  simp only [takeMiss, h]

theorem takeMiss_counts {f : DockFrame} {s : State} (h : s.dlc.session = .offered ∨ s.dlc.session = .active)
    (few : s.dlc.misses < 2) : takeMiss told f s = s.modDlc (Dlc.missed f) := by
  have below : ¬3 ≤ s.dlc.misses + 1 := by omega
  rcases h with h | h <;> simp only [takeMiss, h, if_neg below]

/-- The tenth PROBE of PROBING and the third miss of OFFERED and ACTIVE lose the session. -/
theorem takeMiss_loses {f : DockFrame} {s : State}
    (h : s.dlc.session = .probing ∧ 10 ≤ s.dlc.probes ∨
      (s.dlc.session = .offered ∨ s.dlc.session = .active) ∧ 2 ≤ s.dlc.misses) :
    takeMiss told f s = enterLost told s := by
  rcases h with ⟨h, many⟩ | ⟨h | h, many⟩
  · simp only [takeMiss, h, if_pos many]
  all_goals simp only [takeMiss, h, if_pos (Nat.succ_le_succ many)]

/-- Settles O59: a miss by the state of the session; at a loss the charge stops, and the release stands. -/
theorem missedExchange : Obligations.MissedExchange := by
  unfold Obligations.MissedExchange
  refine ⟨fun bytes s => ⟨fun sum => answerStep_unread (dockAnswer?_badSum sum) s,
    fun kind => answerStep_unread (dockAnswer?_badKind kind) s, fun misses => answerStep_of_misses misses s⟩,
    fun s quiet => ⟨rfl, fun free => ?_, fun x busy waits => ?_⟩⟩
  · rw [exec_timeout_quiet quiet]
    simp only [exchangeMissed, free]
  · let ended := endExchange s
    have missed : exec .dockAnswerTimeout s = .next (serveLine (takeMiss tellSuction x.frame ended)) := by
      rw [exec_timeout_quiet quiet, exchangeMissed_awaited busy waits]
    refine ⟨_, missed, fun probing few => ?_, fun probing many => ?_, fun lost => ?_, fun asks few => ?_,
      fun asks many => ?_⟩
    · rw [takeMiss_probing (s := ended) probing few]
      exact ⟨(serveLine_session ended).trans probing, rfl⟩
    · rw [takeMiss_loses (s := ended) (.inl ⟨probing, many⟩)]
      exact (serveLine_session _).trans (enterLost_facts (s := ended) (by simp [ended, endExchange, probing])).1
    · rw [takeMiss_lost (s := ended) lost]
      exact ⟨(serveLine_session ended).trans lost, serve_probes (d := ended.dlc) (by simp [ended, endExchange, lost]), rfl⟩
    · rw [takeMiss_counts (s := ended) asks few]
      obtain ⟨session, -, misses, -, -, -, -, -, retry⟩ := serve_kept (Dlc.missed x.frame ended.dlc)
      exact ⟨session, misses, rfl, fun ask due => retry.trans (if_pos ⟨ask, due⟩)⟩
    · rw [takeMiss_loses (s := ended) (.inr ⟨asks, many⟩)]
      have still : ended.dlc.session ≠ .lost := by
        show s.dlc.session ≠ .lost
        rcases asks with h | h <;> simp [h]
      obtain ⟨session, due, voltage, current, resting, stopped⟩ := enterLost_facts (s := ended) still
      obtain ⟨session', -, -, -, due', voltage', current', -⟩ := serve_kept (enterLost tellSuction ended).dlc
      exact ⟨session'.trans session, due'.trans due, voltage'.trans voltage, current'.trans current, resting,
        fun charging => (stopped charging).imp_right fun r => r.of_wcu rfl rfl rfl rfl⟩

end Sys2Proof.Machine
end

