-- ==== Sys2Proof/Proofs/UnitEvents.lean ====
section
/-! PROOF. What the events of the units leave: the line, the pins, the host's settings, the keep-alive domain, the
converted channels (R1, R5, R9, R32, R37, R44). -/

namespace Sys2Proof.Machine

/-! ### The line -/

theorem lineKept_unitClosed : UnitClosed LineKept where
  toMainClosed := lineKept_closed
  ka f s := .modKa f s

/-! ### The host's settings (R32) -/

theorem SettingsKept.refl (a : KeepAlive) : SettingsKept a a := ⟨rfl, rfl, rfl, rfl, rfl, rfl, rfl⟩

theorem SettingsKept.trans {a b c : KeepAlive} (h : SettingsKept a b) (k : SettingsKept b c) : SettingsKept a c where
  presets := k.presets.trans h.presets
  suction := k.suction.trans h.suction
  dirt := (congrArg (fun d : DirtEntry => { d with floor := a.dirt.floor }) k.dirt).trans h.dirt
  design := k.design.trans h.design
  charge := k.charge.trans h.charge
  limits := k.limits.trans h.limits
  service := k.service.trans h.service

theorem recordHit_ka (u : Idx4) (s : State) : (recordHit u s).ka = s.ka := kaKept_closed.hit u s

theorem settingsKept_closed (a : KeepAlive) :
    EvalClosed fun s t => SettingsKept a s.ka → SettingsKept a t.ka where
  refl _ h := h
  trans _ _ _ f g h := g (f h)
  snc _ _ h := h
  chan _ _ h := h
  tdu _ _ h := h
  dsu _ _ h := h
  draws _ _ h := h
  notice _ _ h := h
  hit u s h := by rw [recordHit_ka]; exact h

theorem settingsKept_controlKept (a : KeepAlive) : ControlKept fun s => SettingsKept a s.ka :=
  have closed := settingsKept_closed a
  controlKept_of_eval closed
    (budgetKept_of_eval closed (fun sample u => compareKept (fun _ _ _ h => h) (fun _ _ h => h) .budget sample u)
      (fun _ _ _ h => h) (fun _ _ h => h))
    (fun _ hf s h => h.trans (hf s.ka).1) (fun _ _ h => h) (fun _ _ h => h) (fun _ h => h) (fun _ h => h)
    (fun _ _ h => h) (fun _ _ h => h)

/-! ### The converted channels (R37, R45) -/

theorem ConvertedKept.trans {a b c : Channels} (h : ConvertedKept a b) (k : ConvertedKept b c) : ConvertedKept a c := by
  unfold ConvertedKept at h k ⊢
  exact (congrArg (fun x : Channels =>
    { x with target := a.target, dirtNet := a.dirtNet, soc := a.soc, budget := a.budget }) k).trans h

/-- A change of the suction controller stores TARGET alone. -/
theorem carried_converted (f : Snc → Snc) (s : State) : ConvertedKept s.chan (carried f s).chan := by
  unfold carried
  split <;> rfl

theorem convertedKept_driveKept (a : Channels) : DriveKept fun s => ConvertedKept a s.chan where
  still _ _ _ _ h := h
  commit ht f s _ h := commitSuction_keeps (fun _ _ h => h) ht (h.trans (carried_converted f s))
  link _ _ _ h := h
  chan _ hf s h := h.trans (hf s.chan).1
  draws _ _ h := h
  ka _ _ h := h
  t1 _ _ h := h
  t2 _ _ h := h
  wcu _ _ h := h
  dsu _ _ h := h
  pmg _ _ h := h
  dlc _ _ h := h
  reservation _ _ h := h
  bleed _ _ h := h

/-! ### Unit events -/

/-- What an event leaves that writes neither the keep-alive domain nor a converted channel. -/
structure QuietEvent (s u : State) : Prop where
  line : LineKept s u
  ka : u.ka = s.ka
  converted : ConvertedKept s.chan u.chan

/-- What an event leaves that may write the keep-alive domain's own values. -/
structure CountingEvent (s u : State) : Prop where
  line : LineKept s u
  settings : SettingsKept s.ka u.ka
  converted : ConvertedKept s.chan u.chan

theorem mainEvent {f : State → State} (moves : ∀ {R}, MainClosed R → Moves R tellSuction → Moves R f)
    (keeps : ∀ {I}, DockKept I → Keeps I tellSuction → Keeps I f) (s : State) : QuietEvent s (f s) :=
  have conv := (convertedKept_driveKept s.chan).toDockKept
  { line := moves lineKept_closed (tellSuction_moves lineKept_closed) s
    ka := moves kaKept_closed (tellSuction_moves kaKept_closed) s
    converted := keeps conv (tellSuction_keeps conv.toControlKept) s rfl }

theorem countingEvent {f : State → State} (moves : ∀ {R}, UnitClosed R → Moves R tellSuction → Moves R f)
    (keeps : ∀ {I}, ControlKept I → Keeps I tellSuction → Keeps I f) (s : State) : CountingEvent s (f s) :=
  have settings := settingsKept_controlKept s.ka
  have conv := (convertedKept_driveKept s.chan).toDockKept.toControlKept
  { line := moves lineKept_unitClosed (tellSuction_moves lineKept_closed) s
    settings := keeps settings (tellSuction_keeps settings) s (.refl s.ka)
    converted := keeps conv (tellSuction_keeps conv) s rfl }

theorem QuietEvent.refl (s : State) : QuietEvent s s := ⟨.refl s, rfl, rfl⟩

theorem QuietEvent.toCounting {s u : State} (h : QuietEvent s u) : CountingEvent s u :=
  ⟨h.line, by rw [h.ka]; exact .refl _, h.converted⟩

theorem CountingEvent.trans {s t u : State} (h : CountingEvent s t) (k : CountingEvent t u) : CountingEvent s u :=
  ⟨h.line.trans k.line, h.settings.trans k.settings, h.converted.trans k.converted⟩

/-- The line controller's own sending. -/
theorem served (f : Dlc → Dlc) (s : State) : QuietEvent s (serveLine (s.modDlc f)) :=
  mainEvent (f := fun s => serveLine (s.modDlc f)) (fun h _ s => h.trans _ _ _ (h.dlc f s) (serveLine_moves h _))
    (fun h _ s hs => serveLine_keeps h _ (h.dlc f s hs)) s

theorem expireTimer_quiet (k : Idx4) (s : State) : QuietEvent s (expireTimer k s) where
  line := expireTimer_moves lineKept_closed k s
  ka := expireTimer_moves kaKept_closed k s
  converted := by
    unfold expireTimer
    dsimp only
    split <;> rfl

theorem timerExpiry_counting (k : Idx4) (s : State) :
    CountingEvent s (if (s.tdu.timers.get k).running then expiryTold tellSuction k (expireTimer k s) else s) := by
  split
  · exact (expireTimer_quiet k s).toCounting.trans
      (countingEvent (fun h ht => expiryTold_moves h ht k) (fun h ht => expiryTold_keeps h ht k) _)
  · exact (QuietEvent.refl s).toCounting

theorem runSecond_counting (s : State) :
    CountingEvent s (if s.tdu.runMark then addRunSecond (s.modTdu fun u => { u with runMs := 0 }) else s) := by
  have cleared : QuietEvent s (s.modTdu fun u => { u with runMs := 0 }) := ⟨lineKept_closed.tdu _ s, rfl, rfl⟩
  split
  · exact cleared.toCounting.trans
      (countingEvent (fun h _ => addRunSecond_moves h) (fun h _ => addRunSecond_keeps h) _)
  · exact (QuietEvent.refl s).toCounting

/-- What is stated of a unit event: `u` is the state before the link controller's turn. -/
def LeavesLine (c : Instr) (s : State) : Prop :=
  ∃ u, exec c s = .next (settle u) ∧ LineKept s u ∧ SettingsKept s.ka u.ka ∧
    (touchesKeepAlive c = false → u.ka = s.ka) ∧ (storesConverted c = false → ConvertedKept s.chan u.chan) ∧
    (Quiet s → exec c s = .next u)

theorem leavesLine {c : Instr} {s u : State} (done : exec c s = .next (settle u)) (line : LineKept s u)
    (settings : SettingsKept s.ka u.ka) (ka : touchesKeepAlive c = false → u.ka = s.ka)
    (converted : storesConverted c = false → ConvertedKept s.chan u.chan) : LeavesLine c s :=
  ⟨u, done, line, settings, ka, converted, fun q => by rw [done, settle_of_quiet (q.of_kept line)]⟩

theorem leavesLine_of_quiet {c : Instr} {s u : State} (done : exec c s = .next (settle u)) (h : QuietEvent s u) :
    LeavesLine c s :=
  leavesLine done h.line h.toCounting.settings (fun _ => h.ka) fun _ => h.converted

theorem leavesLine_of_counting {c : Instr} {s u : State} (done : exec c s = .next (settle u)) (h : CountingEvent s u)
    (writes : touchesKeepAlive c = true) : LeavesLine c s :=
  leavesLine done h.line h.settings (fun k => by simp [writes] at k) fun _ => h.converted

/-- Settles O3, command by command. -/
theorem mainRowsLeaveTheLine : Obligations.MainRowsLeaveTheLine := by
  unfold Obligations.MainRowsLeaveTheLine
  intro c s unit awake
  show LeavesLine c s
  have settings := settingsKept_controlKept s.ka
  have told := tellSuction_keeps settings
  have answered (bytes : List Byte) : QuietEvent s (answerReceived tellSuction bytes s) :=
    mainEvent (fun h ht => answerReceived_moves h ht bytes) (fun h ht => answerReceived_keeps h ht bytes) s
  have missed : QuietEvent s (exchangeMissed tellSuction s) :=
    mainEvent (fun h ht => exchangeMissed_moves h ht) (fun h ht => exchangeMissed_keeps h ht) s
  cases c with
  | cellSample tapOpen millivolts =>
    exact leavesLine (mainStep_awake awake _)
      (cellSampled_moves lineKept_unitClosed (tellSuction_moves lineKept_closed) _ s)
      (cellSampled_keeps settings (fun _ _ _ h => h) told _ s (.refl s.ka)) nofun nofun
  | channelSample conversion =>
    exact leavesLine (mainStep_awake awake _)
      (channelSampled_moves lineKept_unitClosed (tellSuction_moves lineKept_closed) _ s)
      (channelSampled_keeps settings (fun _ _ _ h => h) told _ s (.refl s.ka)) nofun nofun
  | gaugeSecond =>
    exact leavesLine_of_counting (congrArg Host.Outcome.next (if_pos awake))
      (countingEvent (fun h ht => gaugeSecond_moves h ht) (fun h ht => gaugeSecond_keeps h ht) s) rfl
  | timerExpiry k => exact leavesLine_of_counting (mainStep_awake awake _) (timerExpiry_counting k s) rfl
  | runSecond => exact leavesLine_of_counting (mainStep_awake awake _) (runSecond_counting s) rfl
  | controlPeriod =>
    exact leavesLine_of_quiet (mainStep_awake awake _)
      (mainEvent (fun h ht => controlPeriod_moves h.toEvalClosed ht) (fun h ht => h.controlPeriod ht) s)
  | impact pulse =>
    exact leavesLine_of_quiet (mainStep_awake awake _)
      (mainEvent (fun h _ => impactCounted_moves h.toEvalClosed pulse)
        (fun h _ => impactCounted_keeps h.toControlKept pulse) s)
  | probeDue =>
    refine leavesLine_of_quiet (mainStep_awake awake _) ?_
    split
    · exact served _ s
    · exact .refl s
  | keepDue =>
    refine leavesLine_of_quiet (mainStep_awake awake _) ?_
    split
    · exact served _ s
    · exact .refl s
  | retryWaitEnd =>
    refine leavesLine_of_quiet (mainStep_awake awake _) ?_
    split
    · exact served _ s
    · exact .refl s
  | dockFrameSent =>
    exact leavesLine_of_quiet (mainStep_awake awake _)
      (mainEvent (fun h ht => frameSent_moves h ht) (fun h ht => frameSent_keeps h ht) s)
  | offerReceived | grantReceived | declineReceived | keepackReceived =>
    exact leavesLine_of_quiet (mainStep_awake awake _) (answered _)
  | dockAnswerTimeout | invalidDockAnswer => exact leavesLine_of_quiet (mainStep_awake awake _) missed
  | _ => exact absurd unit Bool.false_ne_true

end Sys2Proof.Machine
end

