-- ==== Sys2Proof/Proofs/Ticks.lean ====
section
/-! PROOF. Steps on an empty queue: the tick of the 1 ms rate clock, and the stopped domain (R14, R15, R50 to R62;
entries 2, 3, 38, 39). -/

namespace Sys2Proof.Machine

variable {told : State → State}

/-! ### The stopped domain (R14, R15, entry 2) -/

theorem exec_asleep {c : Instr} {s : State} (main : needsMain c = true) (h : s.domain ≠ .awake) :
    exec c s = .next s := by
  cases c with
  | wake | dockWake | resetAssert | resetRelease | supplyDip | supplyReturn | keepaliveLoss | coldStart
  | keepaliveShuntSample | gaugeSecond => exact absurd main Bool.false_ne_true
  | transmitEnd a b => exact congrArg Host.Outcome.next (if_neg h)
  | _ => exact mainStep_asleep h _

theorem step_idle {s : State} (pending : s.pending = []) : step s = .next (idleStep s) := by
  simp only [step, pending]

theorem step_tick {s : State} (pending : s.pending = []) (h : s.domain = .awake) :
    step s = .next (settle (tick tellSuction s)) := by
  rw [step_idle pending, idleStep, whileAwake, if_pos h]

/-! ### Counts and measurements (R50, R53, R57) -/

/-- A rate clock ticks where its period divides the phase. -/
theorem ticksAt_iff {clock : Nat} (h : clock < 4000) (r : Rate) :
    ticksAt clock r = true ↔ clock % r.milliseconds = 0 := by
  cases r with
  | ms1 => simp [ticksAt, Rate.milliseconds, Nat.mod_one]
  | ms16 | ms250 => simp [ticksAt, Rate.milliseconds]
  | s4 => simp [ticksAt, Rate.milliseconds, Nat.mod_eq_of_lt h]

theorem counting_iff {clock : Nat} (h : clock < 4000) (x : Timer) :
    (x.running && ticksAt clock x.rate) = true ↔ x.running = true ∧ clock % x.rate.milliseconds = 0 := by
  rw [Bool.and_eq_true, ticksAt_iff h]

theorem expiresAt_iff {clock : Nat} (h : clock < 4000) (x : Timer) :
    x.expiresAt clock = true ↔ (x.running = true ∧ clock % x.rate.milliseconds = 0) ∧ x.count ≤ 1 := by
  rw [Timer.expiresAt, Bool.and_eq_true, counting_iff h, decide_eq_true_iff]

theorem counted_eq {clock : Nat} (h : clock < 4000) (x : Timer) :
    x.counted clock = if (x.running = true ∧ clock % x.rate.milliseconds = 0) ∧ 1 < x.count
      then { x with count := x.count - 1 } else x := by
  simp only [Timer.counted, Bool.and_eq_true, decide_eq_true_eq, ticksAt_iff h]

theorem counted_running (clock : Nat) (x : Timer) : (x.counted clock).running = x.running := by
  unfold Timer.counted
  split <;> rfl

theorem newLevel_eq (p : Polarity) : p.newLevel = decide (p = .rising) := by cases p <;> rfl

/-- The milliseconds at the new level, counted on from a measurement. -/
def Detector.measured (d : Detector) : Nat := (d.measurement.map (· + 1)).getD 0

theorem sampled_eq (level : Bool) (d : Detector) :
    d.sampled level = if d.armed = true then
      { d with measurement := if level = decide (d.polarity = .rising) then some d.measured else none } else d := by
  unfold Detector.sampled Detector.measured
  rw [newLevel_eq]
  split
  · split
    · cases d.measurement <;> rfl
    · rfl
  · rfl

theorem sampled_armed (level : Bool) (d : Detector) :
    (d.sampled level).armed = d.armed ∧ (d.sampled level).polarity = d.polarity ∧
      (d.sampled level).debounce = d.debounce := by
  rw [sampled_eq]
  split <;> exact ⟨rfl, rfl, rfl⟩

theorem sampled_reached_iff (level : Bool) (d : Detector) :
    (d.sampled level).reached = true ↔
      d.armed = true ∧ level = decide (d.polarity = .rising) ∧ 4 * d.debounce ≤ d.measured := by
  rw [sampled_eq]
  unfold Detector.reached
  by_cases armed : d.armed = true
  · by_cases shown : level = decide (d.polarity = .rising)
    · simp [armed, shown]
    · simp [armed, shown]
  · simp [armed]

/-! ### The tick, part by part (entry 38) -/

/-- The lines have moved, and the unit has sampled and counted: what a tick does short of the events. -/
def State.counted (s : State) : State := (moveLines s).modTdu (Tdu.ticked (moveLines s).pins)

/-- The timers that expire at the tick. -/
def State.expired (s : State) : List Idx4 :=
  allUnits.filter fun k => (s.tdu.timers.get k).expiresAt ((s.tdu.clock + 1) % 4000)

/-- The detectors whose measurement completes at the tick. -/
def State.detected (s : State) : List DetectorId :=
  allDetectors.filter fun d => (s.counted.tdu.detectors.get d).reached

/-- The unit's own part of the expiries and detections. -/
def State.unitPart (s : State) : State :=
  s.detected.foldl (fun u d => detect d (s.counted.pins.level d) u) (s.expired.foldl (fun u k => expireTimer k u) s.counted)

theorem tick_eq (told : State → State) (s : State) :
    tick told s =
      inAnyOrder (tickEvents told s.expired s.detected s.tdu.runSecondFalls s.counted.pins) s.unitPart := rfl

theorem mem_expired {s : State} {k : Idx4} :
    k ∈ s.expired ↔ (s.tdu.timers.get k).expiresAt ((s.tdu.clock + 1) % 4000) = true := by
  simp only [State.expired, List.mem_filter, and_iff_right_iff_imp]
  intro _
  cases k <;> decide

theorem counted_detector (s : State) (d : DetectorId) :
    s.counted.tdu.detectors.get d = (s.tdu.detectors.get d).sampled (s.counted.pins.level d) := by cases d <;> rfl

theorem mem_detected {s : State} {d : DetectorId} :
    d ∈ s.detected ↔ ((s.tdu.detectors.get d).sampled (s.counted.pins.level d)).reached = true := by
  simp only [State.detected, List.mem_filter, counted_detector, and_iff_right_iff_imp]
  intro _
  cases d <;> decide

theorem eq_singleton_of_nodup {α : Type} {l : List α} (hl : l.Nodup) {a : α} (h : ∀ b, b ∈ l ↔ b = a) : l = [a] :=
  List.perm_singleton.mp ((List.perm_ext_iff_of_nodup hl (List.nodup_singleton a)).mpr (by simpa using h))

theorem expired_eq_one {s : State} {k : Idx4} (h : k ∈ s.expired) (one : ∀ j, j ≠ k → j ∉ s.expired) :
    s.expired = [k] :=
  eq_singleton_of_nodup (List.Nodup.filter _ (by decide)) fun j =>
    ⟨fun hj => by_contra fun n => one j n hj, fun e => e ▸ h⟩

theorem detected_eq_one {s : State} {d : DetectorId} (h : d ∈ s.detected) (one : ∀ e, e ≠ d → e ∉ s.detected) :
    s.detected = [d] :=
  eq_singleton_of_nodup (List.Nodup.filter _ (by decide)) fun e =>
    ⟨fun he => by_contra fun n => one e n he, fun k => k ▸ h⟩

/-! ### A tick with at most one event -/

theorem tick_alone {s : State} (e : s.expired = []) (d : s.detected = []) (r : s.tdu.runSecondFalls = false) :
    tick told s = s.counted := by
  rw [tick_eq, State.unitPart, e, d, r]
  rfl

theorem tick_expiry {s : State} {k : Idx4} (e : s.expired = [k]) (d : s.detected = [])
    (r : s.tdu.runSecondFalls = false) : tick told s = expiryTold told k (expireTimer k s.counted) := by
  rw [tick_eq, State.unitPart, e, d, r]
  rfl

theorem tick_detection {s : State} {d : DetectorId} (e : s.expired = []) (h : s.detected = [d])
    (r : s.tdu.runSecondFalls = false) :
    tick told s = detectionTold told d (s.counted.pins.level d) (detect d (s.counted.pins.level d) s.counted) := by
  rw [tick_eq, State.unitPart, e, h, r]
  rfl

theorem tick_second {s : State} (e : s.expired = []) (d : s.detected = []) (r : s.tdu.runSecondFalls = true) :
    tick told s = addRunSecond s.counted := by
  rw [tick_eq, State.unitPart, e, d, r]
  rfl

theorem counted_awake {s : State} (h : s.domain = .awake) : s.counted.domain = .awake := h

theorem counted_timer (s : State) (k : Idx4) :
    s.counted.tdu.timers.get k = (s.tdu.timers.get k).counted ((s.tdu.clock + 1) % 4000) := by cases k <;> rfl

theorem exec_expiry_counted {s : State} {k : Idx4} (h : s.domain = .awake) (e : k ∈ s.expired) :
    exec (.timerExpiry k) s.counted = .next (settle (expiryTold tellSuction k (expireTimer k s.counted))) := by
  have running : (s.counted.tdu.timers.get k).running = true := by
    rw [counted_timer, counted_running]
    have := mem_expired.mp e
    simp only [Timer.expiresAt, Bool.and_eq_true] at this
    exact this.1.1
  refine (mainStep_awake (counted_awake h) _).trans ?_
  rw [if_pos running]

theorem withLevel_self (p : Pins) (d : DetectorId) : p.withLevel d (p.level d) = p := by cases d <;> rfl

theorem exec_detection_counted {s : State} {d : DetectorId} (h : s.domain = .awake) (hd : d ∈ s.detected) :
    exec (.detection d) s.counted = .next (settle
      (detectionTold tellSuction d (s.counted.pins.level d) (detect d (s.counted.pins.level d) s.counted))) := by
  obtain ⟨armed, shown, -⟩ := (sampled_reached_iff _ _).mp (mem_detected.mp hd)
  obtain ⟨armed', polarity, -⟩ := sampled_armed (s.counted.pins.level d) (s.tdu.detectors.get d)
  have level : (s.counted.tdu.detectors.get d).polarity.newLevel = s.counted.pins.level d := by
    rw [counted_detector, newLevel_eq, polarity, ← shown]
  have stays : (s.counted.modPins fun p => p.withLevel d (s.counted.pins.level d)) = s.counted := by
    simp only [State.modPins, withLevel_self]
  refine (mainStep_awake (counted_awake h) _).trans ?_
  dsimp only
  rw [level, stays, if_pos (by rw [counted_detector, armed', armed])]

theorem runSecondFalls_iff (t : Tdu) : t.runSecondFalls = true ↔ t.runMark = true ∧ t.runMs = 999 := by
  simp [Tdu.runSecondFalls]

theorem exec_second_counted {s : State} (h : s.domain = .awake) (r : s.tdu.runSecondFalls = true) :
    exec .runSecond s.counted = .next (settle (addRunSecond s.counted)) := by
  obtain ⟨mark, ms⟩ := (runSecondFalls_iff _).mp r
  have wrapped : s.counted.tdu.runMs = 0 := by
    show (if s.tdu.runMark = true then (s.tdu.runMs + 1) % 1000 else s.tdu.runMs) = 0
    rw [if_pos mark, ms]
  have stays : (s.counted.modTdu fun u => { u with runMs := 0 }) = s.counted := by
    simp only [State.modTdu, ← wrapped]
  refine (mainStep_awake (counted_awake h) _).trans ?_
  have marked : s.counted.tdu.runMark = true := mark
  rw [if_pos marked, stays]

/-! ### Events in order, one of which settles a value -/

theorem foldl_mem_keep {α : Type} {I : State → Prop} {f : α → State → State} {l : List α}
    (hI : ∀ a ∈ l, Keeps I (f a)) : Keeps I fun s => l.foldl (fun u a => f a u) s := by
  induction l with
  | nil => exact fun _ hs => hs
  | cons a l ih => exact fun s hs => ih (fun b hb => hI b (by simp [hb])) _ (hI a (by simp) s hs)

/-- An event that settles a value, among events that keep it. -/
theorem foldl_reaches {α : Type} {I J : State → Prop} {f : α → State → State} {l : List α}
    (hJ : ∀ a ∈ l, Keeps J (f a)) (hI : ∀ a ∈ l, Keeps I (f a)) {a : α} (ha : a ∈ l) (reach : ∀ s, J s → I (f a s))
    (s : State) (hs : J s) : I (l.foldl (fun u a => f a u) s) := by
  induction l generalizing s with
  | nil => exact absurd ha (by simp)
  | cons b l ih =>
    rcases List.mem_cons.mp ha with rfl | there
    · exact foldl_mem_keep (I := I) (f := f) (fun c hc => hI c (by simp [hc])) (f a s) (reach s hs)
    · exact ih (fun c hc => hJ c (by simp [hc])) (fun c hc => hI c (by simp [hc])) there _ (hJ b (by simp) s hs)

/-! ### The unit's own part -/

/-- A timer after its expiry (R53, R55). -/
def TimerEntry.reload (k : Idx4) (e : TimerEntry) : Timer := Timer.reloadedFrom e (repeatsAtExpiry k e.mode)

theorem expireTimer_tdu (k : Idx4) (s : State) :
    (expireTimer k s).tdu = { s.tdu with timers := s.tdu.timers.set k ((s.tdu.entries.get k).reload k) } := by
  unfold expireTimer
  dsimp only
  split <;> rfl

theorem expireTimer_detectors (k : Idx4) (s : State) : (expireTimer k s).tdu.detectors = s.tdu.detectors := by
  rw [expireTimer_tdu]

/-- A detector after its detection (R58). -/
def Detector.disarmed (d : Detector) : Detector := { d with armed := false, measurement := none }

theorem four_get_set {α : Type} (f : Four α) (k : Idx4) (a : α) : (f.set k a).get k = a := by cases k <;> rfl

theorem expireTimer_timer (k : Idx4) (s : State) :
    (expireTimer k s).tdu.timers.get k = (s.tdu.entries.get k).reload k := by
  rw [expireTimer_tdu]
  exact four_get_set _ k _

theorem expireTimer_timer_ne {j k : Idx4} (h : k ≠ j) (s : State) :
    (expireTimer j s).tdu.timers.get k = s.tdu.timers.get k := by
  rw [expireTimer_tdu]
  exact four_get_set_ne _ h _

theorem detect_detector_ne {d e : DetectorId} (h : e ≠ d) (level : Bool) (s : State) :
    (detect d level s).tdu.detectors.get e = s.tdu.detectors.get e := three_get_set_ne _ h _

theorem detect_detector (d : DetectorId) (level : Bool) (s : State) :
    (detect d level s).tdu.detectors.get d = (s.tdu.detectors.get d).disarmed := three_get_set _ d _

/-- What neither an expiry nor a detection of the tick breaks in the unit itself. -/
theorem unitPart_keeps {P : Tdu → Prop} {s : State} (he : ∀ k ∈ s.expired, Keeps (fun s => P s.tdu) (expireTimer k))
    (hd : ∀ d ∈ s.detected, ∀ level, Keeps (fun s => P s.tdu) (detect d level)) (h : P s.counted.tdu) :
    P s.unitPart.tdu :=
  foldl_mem_keep (I := fun s => P s.tdu) (fun d m => hd d m _) _
    (foldl_mem_keep (I := fun s => P s.tdu) he s.counted h)

theorem unitPart_settings (s : State) :
    s.unitPart.tdu.clock = s.counted.tdu.clock ∧ s.unitPart.tdu.entries = s.counted.tdu.entries ∧
      s.unitPart.tdu.runMs = s.counted.tdu.runMs := by
  refine unitPart_keeps (P := fun t => t.clock = s.counted.tdu.clock ∧ t.entries = s.counted.tdu.entries ∧
    t.runMs = s.counted.tdu.runMs) (fun k _ t h => ?_) (fun _ _ _ _ h => h) ⟨rfl, rfl, rfl⟩
  show (expireTimer k t).tdu.clock = _ ∧ (expireTimer k t).tdu.entries = _ ∧ (expireTimer k t).tdu.runMs = _
  rw [expireTimer_tdu]
  exact h

theorem unitPart_expired {s : State} {k : Idx4} (h : k ∈ s.expired) :
    s.unitPart.tdu.timers.get k = (s.tdu.entries.get k).reload k := by
  refine foldl_mem_keep (I := fun t => t.tdu.timers.get k = (s.tdu.entries.get k).reload k)
    (f := fun d u => detect d (s.counted.pins.level d) u) (fun _ _ _ h => h) _ ?_
  have entries (j : Idx4) : Keeps (fun t => t.tdu.entries = s.tdu.entries) (expireTimer j) := fun t ht =>
    (congrArg Tdu.entries (expireTimer_tdu j t)).trans ht
  have expires (t : State) (ht : t.tdu.entries = s.tdu.entries) :
      (expireTimer k t).tdu.timers.get k = (s.tdu.entries.get k).reload k := by rw [expireTimer_timer, ht]
  have both : ∀ j, Keeps (fun t => t.tdu.entries = s.tdu.entries ∧
      t.tdu.timers.get k = (s.tdu.entries.get k).reload k) (expireTimer j) := fun j t ⟨ht, hk⟩ => by
    by_cases same : k = j
    · subst same
      exact ⟨entries k t ht, expires t ht⟩
    · exact ⟨entries j t ht, (expireTimer_timer_ne same t).trans hk⟩
  exact (foldl_reaches (fun j _ => entries j) (fun j _ => both j) h (fun t ht => ⟨entries k t ht, expires t ht⟩)
    s.counted rfl).2

theorem unitPart_running {s : State} {k : Idx4} (h : k ∉ s.expired) :
    s.unitPart.tdu.timers.get k = s.counted.tdu.timers.get k :=
  unitPart_keeps (P := fun t => t.timers.get k = s.counted.tdu.timers.get k)
    (fun j m t ht => (expireTimer_timer_ne (fun e : k = j => h (e ▸ m)) t).trans ht) (fun _ _ _ _ ht => ht) rfl

theorem unitPart_undetected {s : State} {d : DetectorId} (h : d ∉ s.detected) :
    s.unitPart.tdu.detectors.get d = s.counted.tdu.detectors.get d :=
  unitPart_keeps (P := fun t => t.detectors.get d = s.counted.tdu.detectors.get d)
    (fun k _ t ht => (congrArg (Three.get · d) (expireTimer_detectors k t)).trans ht)
    (fun e m level t ht => (detect_detector_ne (fun k : d = e => h (k ▸ m)) level t).trans ht) rfl

theorem unitPart_detected {s : State} {d : DetectorId} (h : d ∈ s.detected) :
    s.unitPart.tdu.detectors.get d = (s.counted.tdu.detectors.get d).disarmed := by
  have expires : Keeps (fun t => (t.tdu.detectors.get d).disarmed = (s.counted.tdu.detectors.get d).disarmed) fun t =>
      s.expired.foldl (fun u k => expireTimer k u) t :=
    foldl_mem_keep fun k _ t ht => (congrArg (fun x => (Three.get x d).disarmed) (expireTimer_detectors k t)).trans ht
  have leaves (e : DetectorId) : Keeps
      (fun t => (t.tdu.detectors.get d).disarmed = (s.counted.tdu.detectors.get d).disarmed)
      (detect e (s.counted.pins.level e)) := fun t ht => by
    by_cases same : d = e
    · subst same
      exact (congrArg Detector.disarmed (detect_detector d _ t)).trans ht
    · exact (congrArg Detector.disarmed (detect_detector_ne same _ t)).trans ht
  have stays (e : DetectorId) : Keeps (fun t => t.tdu.detectors.get d = (s.counted.tdu.detectors.get d).disarmed)
      (detect e (s.counted.pins.level e)) := fun t ht => by
    by_cases same : d = e
    · subst same
      have again := congrArg Detector.disarmed (show t.tdu.detectors.get d = _ from ht)
      exact (detect_detector d _ t).trans again
    · exact (detect_detector_ne same _ t).trans ht
  exact foldl_reaches (fun e _ => leaves e) (fun e _ => stays e) h (fun t ht => (detect_detector d _ t).trans ht) _
    (expires s.counted rfl)

/-! ### The owners' events (R53, R58, R62) -/

/-- What the owners' events of a tick keep. -/
theorem ownerEvent_keeps {P : Tdu → Prop} (h : OwnersLeave P) {expired : List Idx4} {detected : List DetectorId}
    {second : Bool} {lines : Pins}
    (hd : ∀ d ∈ detected, Keeps (fun s => P s.tdu) (detectionTold tellSuction d (lines.level d))) {e : State → State}
    (he : e ∈ tickEvents tellSuction expired detected second lines) : Keeps (fun s => P s.tdu) e := by
  have kept := (driveKept_of_tdu h).toDockKept
  rcases mem_tickEvents he with ⟨k, -, rfl⟩ | ⟨d, m, rfl⟩ | rfl
  · exact expiryTold_keeps kept.toControlKept (tellSuction_keeps kept.toControlKept) k
  · exact hd d m
  · exact addRunSecond_keeps kept.toControlKept

theorem detectionTold_leaves {P : Tdu → Prop} (h : OwnersLeave P) {d : DetectorId} (level : Bool)
    (arm : d ≠ .d2 → ∀ p, Keeps (fun s => P s.tdu) (armDetector d p 8)) :
    Keeps (fun s => P s.tdu) (detectionTold tellSuction d level) :=
  have kept := (driveKept_of_tdu h).toDockKept
  detectionTold_keeps kept (tellSuction_keeps kept.toControlKept) arm level

theorem tick_leaves {P : Tdu → Prop} {s : State} (h : OwnersLeave P)
    (arm : ∀ d ∈ s.detected, d ≠ .d2 → ∀ p, Keeps (fun s => P s.tdu) (armDetector d p 8)) (unit : P s.unitPart.tdu) :
    P (tick tellSuction s).tdu := by
  rw [tick_eq]
  exact inAnyOrder_keeps (I := fun s => P s.tdu) (fun _ _ hs => hs) _
    (fun e m => ownerEvent_keeps h (fun d k => detectionTold_leaves h _ (arm d k)) m) _ unit

theorem tick_settings (s : State) :
    (tick tellSuction s).tdu.clock = s.counted.tdu.clock ∧ (tick tellSuction s).tdu.entries = s.counted.tdu.entries ∧
      (tick tellSuction s).tdu.runMs = s.counted.tdu.runMs :=
  tick_leaves (P := fun t => t.clock = s.counted.tdu.clock ∧ t.entries = s.counted.tdu.entries ∧
    t.runMs = s.counted.tdu.runMs) ⟨fun _ _ h => h, fun _ _ h => h, fun _ _ h => h⟩ (fun _ _ _ _ _ h => h)
    (unitPart_settings s)

/-- T0 and T3 are the unit's alone. -/
theorem tick_timer {s : State} {k : Idx4} (h : k = .i0 ∨ k = .i3) :
    (tick tellSuction s).tdu.timers.get k = s.unitPart.tdu.timers.get k := by
  have t1 : k ≠ .i1 := by rcases h with rfl | rfl <;> decide
  have t2 : k ≠ .i2 := by rcases h with rfl | rfl <;> decide
  exact tick_leaves (P := fun t => t.timers.get k = s.unitPart.tdu.timers.get k)
    ⟨fun _ _ h => h, fun _ _ h => (four_get_set_ne _ t1 _).trans h, fun _ _ h => (four_get_set_ne _ t2 _).trans h⟩
    (fun _ _ _ _ _ h => h) rfl

theorem tick_undetected {s : State} {d : DetectorId} (h : d ∉ s.detected) :
    (tick tellSuction s).tdu.detectors.get d = s.counted.tdu.detectors.get d :=
  tick_leaves (ownersLeave_detector d _)
    (fun e m _ p t ht => (armDetector_get_ne (fun k : d = e => h (k ▸ m)) p 8 t).trans ht) (unitPart_undetected h)

/-- D2 has no owner beside the unit: its detection leaves it disarmed. -/
theorem tick_detected_d2 {s : State} (h : .d2 ∈ s.detected) :
    (tick tellSuction s).tdu.detectors.get .d2 = (s.counted.tdu.detectors.get .d2).disarmed :=
  tick_leaves (ownersLeave_detector .d2 _) (fun _ _ other p t ht => (armDetector_get_ne other.symm p 8 t).trans ht)
    (unitPart_detected h)

/-- D0 and D1 are armed again by their own event, wherever it falls among the others (R59). -/
theorem tick_rearmed {s : State} {d : DetectorId} (h : d ∈ s.detected) (hd : d ≠ .d2) :
    (tick tellSuction s).tdu.detectors.get d = Detector.armedFor (Polarity.leaving (s.counted.pins.level d)) := by
  let told (e : DetectorId) : State → State := detectionTold tellSuction e (s.counted.pins.level e)
  let Rearmed (t : State) : Prop :=
    t.tdu.detectors.get d = Detector.armedFor (Polarity.leaving (s.counted.pins.level d))
  have rearms (t : State) : Rearmed (told d t) := detectionTold_rearmed hd _ t
  have leaves := ownersLeave_detector d (Detector.armedFor (Polarity.leaving (s.counted.pins.level d)))
  have told_keeps (e : DetectorId) : Keeps Rearmed (told e) := by
    by_cases same : d = e
    · subst same
      exact fun t _ => rearms t
    · exact detectionTold_leaves leaves _ fun _ p t ht => (armDetector_get_ne same p 8 t).trans ht
  let events := tickEvents tellSuction s.expired s.detected s.tdu.runSecondFalls s.counted.pins
  have member : told d ∈ events :=
    List.mem_append_left _ (List.mem_append_right _ (List.mem_map.mpr ⟨d, h, rfl⟩))
  rw [tick_eq]
  exact foldl_reaches (I := Rearmed) (J := fun _ => True) (f := fun e => e) (fun _ _ _ _ => trivial)
    (fun e m => ownerEvent_keeps leaves (fun e _ => told_keeps e) ((arrange_perm _ _).mem_iff.mp m))
    ((arrange_perm _ _).mem_iff.mpr member) (fun t _ => rearms t) _ trivial

/-! ### A tick at a quiet link -/

theorem tick_line (s : State) : LineKept s.counted (tick tellSuction s) :=
  (show LineKept s.counted (moveLines s) by constructor <;> rfl).trans
    (tickAtLevels_moves lineKept_unitClosed (tellSuction_moves lineKept_closed) (moveLines s))

theorem step_quiet {s : State} (q : Quiet s) (pending : s.pending = []) : step s = .next (tick tellSuction s) := by
  have quiet : Quiet s.counted := ⟨q.awake, q.busy, q.still⟩
  rw [step_tick pending q.awake, settle_of_quiet (quiet.of_kept (tick_line s))]

/-- Settles O2: the tick in the model's own parts, each event as its command, and at a quiet link the values that no
order of the owners' events can move. -/
theorem idleStepsAndStoppedDomain : Obligations.IdleStepsAndStoppedDomain := by
  unfold Obligations.IdleStepsAndStoppedDomain
  refine ⟨fun s => ⟨step_tick, fun pending stopped => ?_, fun c main stopped => exec_asleep main stopped⟩, ?_⟩
  · rw [step_idle pending, idleStep, whileAwake, if_neg stopped]
  intro s pending awake clock lines counts counted shown measured sampled detects second u noExpiry
  have low : clock < 4000 := Nat.mod_lt _ (by decide)
  have counted_is (x : Timer) : counted x = x.counted clock := (counted_eq low x).symm
  have sampled_is (d : DetectorId) : sampled d = (s.tdu.detectors.get d).sampled (lines.level d) :=
    (sampled_eq _ _).symm
  have state : u = s.counted := by
    simp only [u, counted_is, sampled_is]
    rfl
  have expires (k : Idx4) : k ∈ s.expired ↔ counts (s.tdu.timers.get k) ∧ (s.tdu.timers.get k).count ≤ 1 :=
    mem_expired.trans (expiresAt_iff low _)
  have detected (d : DetectorId) : d ∈ s.detected ↔ detects d := mem_detected.trans (sampled_reached_iff _ _)
  have falls : s.tdu.runSecondFalls = true ↔ second := runSecondFalls_iff _
  have none_expires (h : noExpiry) : s.expired = [] := List.eq_nil_iff_forall_not_mem.mpr fun k m => by
    obtain ⟨counting, one⟩ := (expires k).mp m
    exact absurd (h k counting) (Nat.not_lt.mpr one)
  have none_detected (h : ∀ d, ¬detects d) : s.detected = [] :=
    List.eq_nil_iff_forall_not_mem.mpr fun d m => h d ((detected d).mp m)
  have no_second (h : ¬second) : s.tdu.runSecondFalls = false := Bool.eq_false_iff.mpr fun k => h (falls.mp k)
  rw [state, step_tick pending awake]
  refine ⟨fun d => by cases d <;> rfl, fun e d r => ?_, fun k counting one others d r => ?_, fun d h others e r => ?_,
    fun r e d => ?_, fun quiet => ?_⟩
  · rw [tick_alone (none_expires e) (none_detected d) (no_second r)]
  · have member : k ∈ s.expired := (expires k).mpr ⟨counting, one.le⟩
    have alone := expired_eq_one member fun j other m => by
      obtain ⟨counting, few⟩ := (expires j).mp m
      exact absurd (others j other counting) (Nat.not_lt.mpr few)
    rw [tick_expiry alone (none_detected d) (no_second r), exec_expiry_counted awake member]
  · have member : d ∈ s.detected := (detected d).mpr h
    have alone := detected_eq_one member fun j other m => others j other ((detected j).mp m)
    rw [tick_detection (none_expires e) alone (no_second r), exec_detection_counted awake member]
  · rw [tick_second (none_expires e) (none_detected d) (falls.mpr r), exec_second_counted awake (falls.mpr r)]
  · obtain ⟨clocked, entries, ms⟩ := tick_settings s
    have line := tick_line s
    rw [← step_tick pending awake]
    refine ⟨_, step_quiet quiet pending, line.pins, clocked, entries, ms, fun k unit => ⟨fun counting one => ?_,
      fun running => ?_⟩, fun d still => ?_, fun d moved other => ?_, fun moved => ?_⟩
    · rw [tick_timer unit, unitPart_expired ((expires k).mpr ⟨counting, one.le⟩)]
      rcases unit with rfl | rfl <;> rfl
    · have stays : k ∉ s.expired := fun m => by
        obtain ⟨counting, few⟩ := (expires k).mp m
        rcases running with stopped | more
        · exact stopped counting
        · exact absurd more (Nat.not_lt.mpr few)
      rw [tick_timer unit, unitPart_running stays, counted_timer, counted_is]
    · rw [tick_undetected fun m => still ((detected d).mp m), counted_detector, sampled_is]
      rfl
    · rw [tick_rearmed ((detected d).mpr moved) other]
      rfl
    · refine (tick_detected_d2 ((detected .d2).mpr moved)).trans ?_
      obtain ⟨-, polarity, debounce⟩ := sampled_armed (s.counted.pins.level .d2) (s.tdu.detectors.get .d2)
      rw [counted_detector]
      simp only [Detector.disarmed, polarity, debounce]
      rfl

end Sys2Proof.Machine
end

