-- ==== Sys2Proof/Proofs/KeepAliveSound.lean ====
section
/-! PROOF. PRESET entry 0 and the gauge's ranges through every step (R27, R164). The main domain's own operations leave
the keep-alive domain; what writes it does so in a few places, and each of them is a `SoundMove`. -/

namespace Sys2Proof.Machine

/-! ### Moves of the keep-alive domain that keep its soundness -/

/-- A move of the keep-alive domain that keeps PRESET entry 0 fixed and the gauge in its ranges. -/
structure SoundMove (a b : KeepAlive) : Prop where
  preset : StopPresetFixed a → StopPresetFixed b
  gauge : GaugeBounded a → GaugeBounded b

/-- A step between two states that is such a move. -/
def SoundStep (s t : State) : Prop := SoundMove s.ka t.ka

theorem SoundMove.refl (a : KeepAlive) : SoundMove a a := ⟨id, id⟩

theorem SoundMove.trans {a b c : KeepAlive} (h : SoundMove a b) (k : SoundMove b c) : SoundMove a c :=
  ⟨k.preset ∘ h.preset, k.gauge ∘ h.gauge⟩

theorem SoundMove.of_eq {a b : KeepAlive} (h : b = a) : SoundMove a b := h ▸ .refl a

/-- A move that leaves the presets, the design capacity and Q_full, and Q_rem too or within Q_full. -/
theorem SoundMove.of_same {a b : KeepAlive} (presets : b.presets = a.presets) (marker : b.marker = a.marker)
    (design : b.gauge.design = a.gauge.design) (full : b.gauge.qFull = a.gauge.qFull)
    (rem : b.qRem = a.qRem ∨ b.qRem ≤ a.gauge.qFull) : SoundMove a b where
  preset h m := by rw [presets]; exact h (marker ▸ m)
  gauge h m := by
    obtain ⟨within, low, high⟩ := h (marker ▸ m)
    rw [design, full]
    refine ⟨?_, low, high⟩
    rcases rem with same | held
    · rwa [same]
    · exact held

/-- With the marker lost nothing is asked. -/
theorem SoundMove.of_lost {a b : KeepAlive} (h : b.marker = false) : SoundMove a b :=
  ⟨fun _ m => absurd m (by simp [h]), fun _ m => absurd m (by simp [h])⟩

theorem soundMove_cold (a : KeepAlive) : SoundMove a KeepAlive.cold :=
  ⟨fun _ _ => rfl, fun _ _ => by decide⟩

theorem SoundStep.refl (s : State) : SoundStep s s := SoundMove.refl s.ka

theorem SoundStep.trans {s t u : State} (h : SoundStep s t) (k : SoundStep t u) : SoundStep s u :=
  SoundMove.trans h k

theorem soundStep_of_ka {s t : State} (h : t.ka = s.ka) : SoundStep s t := SoundMove.of_eq h

/-- A write of the keep-alive domain by its owner. -/
theorem soundStep_modKa {f : KeepAlive → KeepAlive} {s : State} (h : SoundMove s.ka (f s.ka)) :
    SoundStep s (s.modKa f) := h

/-- No operation of the main domain's own writes the keep-alive domain. -/
theorem soundStep_closed : MainClosed SoundStep where
  refl := .refl
  trans _ _ _ := .trans
  snc _ _ := soundStep_of_ka rfl
  chan _ _ := soundStep_of_ka rfl
  tdu _ _ := soundStep_of_ka rfl
  dsu _ _ := soundStep_of_ka rfl
  draws _ _ := soundStep_of_ka rfl
  notice _ _ := soundStep_of_ka rfl
  hit u s := soundStep_of_ka (recordHit_ka u s)
  wcu _ _ := soundStep_of_ka rfl
  pmg _ _ := soundStep_of_ka rfl
  dlc _ _ := soundStep_of_ka rfl
  reservation _ _ := soundStep_of_ka rfl
  bleed _ _ := soundStep_of_ka rfl
  timerNotice _ _ := soundStep_of_ka rfl
  detectorNotice _ _ _ := soundStep_of_ka rfl

theorem tellSuction_sound : Moves SoundStep tellSuction := tellSuction_moves soundStep_closed

variable {told : State → State}

/-! ### The gauge (R164 to R170) -/

/-- Q_full within 50 % to 110 % of the design capacity (R164). -/
def GaugeEntry.FullInRange (g : GaugeEntry) : Prop := qFullLow g.design ≤ g.qFull ∧ g.qFull ≤ qFullHigh g.design

theorem qFullLow_le_high (design : Nat) : qFullLow design ≤ qFullHigh design := by
  unfold qFullLow qFullHigh
  rcases design with _ | design <;> omega

theorem learnedQFull_inRange (run : Learning) (g : GaugeEntry) :
    GaugeEntry.FullInRange { g with qFull := learnedQFull run g } := by
  have ordered := qFullLow_le_high g.design
  unfold GaugeEntry.FullInRange learnedQFull clampInt
  dsimp only
  omega

theorem integrated_le (mean : Int) (k : KeepAlive) : integrated mean k ≤ k.gauge.qFull := by
  unfold integrated clampInt
  omega

theorem estimateOf_le (qFull : Nat) (lowest : Option Int) : estimateOf qFull lowest ≤ qFull := by
  unfold estimateOf
  split
  · exact Nat.zero_le _
  · next v =>
    split
    · exact Nat.zero_le _
    · split
      · exact Nat.le_refl _
      · have below : (qFull : Int) * (v - 3300) ≤ qFull * 850 := Int.mul_le_mul_of_nonneg_left (by omega) (by omega)
        omega

theorem learn_ka (s : State) : (learn s).ka = s.ka ∨
    ∃ run, (learn s).ka = { s.ka with gauge := { s.ka.gauge with qFull := learnedQFull run s.ka.gauge } } := by
  unfold learn
  split
  · exact .inl rfl
  · next run _ => exact .inr ⟨run, rfl⟩

/-- A learned Q_full may lie below Q_rem, until the end of the charge sets Q_rem to it (R170). -/
theorem doneGauge_sound : Moves SoundStep doneGauge := by
  intro s
  have filled (k : KeepAlive) : SoundMove k { k with qRem := k.gauge.qFull, trust := .calibrated } :=
    .of_same rfl rfl rfl rfl (.inr le_rfl)
  have done : (doneGauge s).ka = { (learn s).ka with qRem := (learn s).ka.gauge.qFull, trust := .calibrated } := rfl
  unfold SoundStep
  rw [done]
  rcases learn_ka s with same | ⟨run, learned⟩
  · rw [same]
    exact filled s.ka
  · rw [learned]
    exact ⟨id, fun _ _ => ⟨le_rfl, learnedQFull_inRange run s.ka.gauge⟩⟩

theorem takeEstimate_sound : Moves SoundStep takeEstimate := by
  intro s
  unfold takeEstimate
  split
  · exact soundStep_modKa (.of_same rfl rfl rfl rfl (.inr (estimateOf_le _ _)))
  · exact .refl _

theorem integrate_sound (mean : Int) : Moves SoundStep (integrate mean) := by
  intro s
  have h := soundStep_closed.toEvalClosed
  have counted : SoundStep s (s.modKa fun k => { k with qRem := integrated mean k }) :=
    soundStep_modKa (.of_same rfl rfl rfl rfl (.inr (integrated_le mean s.ka)))
  unfold integrate
  dsimp only
  split
  · exact counted.trans (.trans (reportIf_moves h _ _ _ _) (reportIf_moves h _ _ _ _))
  · exact counted

theorem countDischarge_sound (mean : Int) : Moves SoundStep (countDischarge mean) := by
  intro s
  unfold countDischarge
  dsimp only
  split
  · split <;> exact SoundMove.of_same rfl rfl rfl rfl (.inl rfl)
  · exact SoundMove.of_same rfl rfl rfl rfl (.inl rfl)

theorem gaugeCount_sound (mean : Int) : Moves SoundStep (gaugeCount mean) := by
  intro s
  have counted := (integrate_sound mean s).trans (countDischarge_sound mean _)
  unfold gaugeCount learnStep
  dsimp only
  split
  · exact .refl _
  · split
    · split <;> exact counted
    · exact counted

theorem gaugeSecond_sound (ht : Moves SoundStep told) : Moves SoundStep (gaugeSecond told) := by
  intro s
  have h := soundStep_closed
  have counted (n : Nat) (mean : Int) : SoundStep s
      (gaugeCount mean ((s.setDraws n).modKa fun k => { k with accSum := 0, accCount := 0 })) :=
    have emptied : SoundStep s ((s.setDraws n).modKa fun k => { k with accSum := 0, accCount := 0 }) :=
      SoundMove.of_same rfl rfl rfl rfl (.inl rfl)
    emptied.trans (gaugeCount_sound mean _)
  unfold gaugeSecond
  dsimp only
  split
  · refine h.trans _ _ _ (counted _ _) (h.trans _ _ _ (h.chan _ _) (h.trans _ _ _ (h.pmg _ _)
      (compareAmong_moves h (deliverOverride_moves h.toEvalClosed ht) _ _ _ (fun e m => ?_) _)))
    rw [List.mem_singleton.mp m]
    exact restOfSecond_moves h ht
  · exact counted _ _

/-! ### Samples -/

theorem packCell_sound (ht : Moves SoundStep told) : Moves SoundStep (packCell told) := by
  intro s
  have h := soundStep_closed
  refine (takeEstimate_sound s).trans ?_
  unfold packCell
  dsimp only
  generalize takeEstimate s = t
  cases t.pmg.state with
  | discharge => exact judgeLow_moves h ht t
  | protect | dockedWait =>
    dsimp only
    split
    · exact judgeGood_moves h ht t
    · exact .refl _
  | charging phase =>
    dsimp only
    split
    · exact cellPhase_moves h ht phase t
    · exact chargeFault_moves h ht .sense t
  | paused phase =>
    dsimp only
    split
    · exact .refl _
    · exact chargeFault_moves h ht .sense t
  | fault kind => exact .refl _

theorem enterDone_sound (ht : Moves SoundStep told) : Moves SoundStep (enterDone told) := fun s =>
  have h := soundStep_closed
  have asked := (takePackState_moves h (.charging .done) s).trans (askAnew_moves h _)
  (asked.trans (stopTimer_moves h.toEvalClosed .i1 _)).trans ((doneGauge_sound _).trans (announcePack_moves h ht _))

theorem packCurrent_sound (ht : Moves SoundStep told) : Moves SoundStep (packCurrent told) := by
  intro s
  unfold packCurrent
  split
  · split
    · split
      · exact enterDone_sound ht s
      · exact soundStep_of_ka rfl
    · exact soundStep_of_ka rfl
  · exact .refl s

theorem cellSampled_sound (ht : Moves SoundStep told) (cell : Six Reading) : Moves SoundStep (cellSampled told cell) :=
  fun s => sampleTold_moves soundStep_closed ht .cell (Six.toList cell) (packCell_sound ht)
    ((s.setBleedOut (Six.all false)).modChan fun c => { c with cell := cell })

theorem channelSampled_sound (ht : Moves SoundStep told) (c : Conversion) : Moves SoundStep (channelSampled told c) := by
  intro s
  have h := soundStep_closed
  have stored {owner : State → State} (ho : Moves SoundStep owner) (channel : ChannelId) (sample : List Reading)
      (f : Channels → Channels) : SoundStep s (sampleTold told channel sample owner (s.modChan f)) :=
    sampleTold_moves h ht channel sample ho (s.modChan f)
  cases c with
  | packI v =>
    have counted : SoundStep s (accumulate (packIOf v) (s.modChan fun c => { c with packI := packIOf v })) :=
      SoundMove.of_same rfl rfl rfl rfl (.inl rfl)
    exact counted.trans (sampleTold_moves h ht _ _ (packCurrent_sound ht) _)
  | packT v => exact stored (packTemperature_moves h ht) _ _ _
  | motorT v => exact stored (motorTTold_moves h.toEvalClosed ht) _ _ _
  | motorI v => exact stored (motorITold_moves h.toEvalClosed ht) _ _ _
  | speed v => exact stored (speedTold_moves h.toEvalClosed ht) _ _ _
  | dockV v => exact stored h.refl _ _ _

/-! ### Expiries, run time, the tick -/

theorem advanceQuiet_sound (level score : Nat) : Moves SoundStep (advanceQuiet level score) := by
  intro s
  unfold advanceQuiet
  split
  · split
    · exact SoundMove.of_same rfl rfl rfl rfl (.inl rfl)
    · exact soundStep_of_ka rfl
  · exact soundStep_of_ka rfl

theorem classifyWindow_sound (applied : Nat) : Moves SoundStep (classifyWindow applied) := by
  intro s
  have h := soundStep_closed
  unfold classifyWindow
  dsimp only
  exact h.trans _ _ _ (h.dsu _ s) (h.trans _ _ _ (advanceQuiet_sound _ _ _) (moveBoost_moves h.toEvalClosed _ _))

theorem closeClassified_sound (ht : Moves SoundStep told) : Moves SoundStep (closeClassified told) := by
  intro s
  have h := soundStep_closed
  have compared : SoundStep s
      (compareNow (deliverOverride id) .dirtNet [.valid (storeNet s).chan.dirtNet] (storeNet s)).1 :=
    h.trans _ _ _ (h.chan (fun c => { c with dirtNet := windowNet s }) s)
      (compareNow_moves h (deliverOverride_moves h.toEvalClosed h.refl) .dirtNet
        [.valid (storeNet s).chan.dirtNet] _)
  unfold closeClassified
  dsimp only
  generalize compareNow (deliverOverride id) .dirtNet [.valid (storeNet s).chan.dirtNet] (storeNet s) = c at compared
  have closed : SoundStep s (openWindow s.snc.applied (classifyWindow s.snc.applied c.1)) :=
    compared.trans (h.trans _ _ _ (classifyWindow_sound _ _) (h.dsu _ _))
  generalize openWindow s.snc.applied (classifyWindow s.snc.applied c.1) = u at closed
  have rested := closed.trans ((dirtStop_moves h.toEvalClosed h.refl u).trans (ht _))
  split <;> split
  · exact rested
  · exact closed
  · exact rested.trans (evaluate_moves h.toEvalClosed ht _)
  · exact closed.trans (evaluate_moves h.toEvalClosed ht _)

theorem windowClose_sound (ht : Moves SoundStep told) : Moves SoundStep (windowClose told) := by
  intro s
  unfold windowClose
  dsimp only
  split
  · exact soundStep_of_ka rfl
  · exact soundStep_of_ka rfl
  · exact closeClassified_sound ht s

theorem expiryTold_sound (ht : Moves SoundStep told) (k : Idx4) : Moves SoundStep (expiryTold told k) := by
  cases k with
  | i0 => exact windowClose_sound ht
  | i1 => exact safetyExpired_moves soundStep_closed ht
  | i2 => exact fun s => setBoostLevel_moves soundStep_closed.toEvalClosed ht _ s
  | i3 => exact soundStep_closed.refl

theorem addRunSecond_sound : Moves SoundStep addRunSecond := by
  intro s
  unfold addRunSecond
  dsimp only
  split <;> exact SoundMove.of_same rfl rfl rfl rfl (.inl rfl)

theorem tick_sound (ht : Moves SoundStep told) : Moves SoundStep (tick told) := by
  intro s
  have h := soundStep_closed
  have v := h.toEvalClosed
  unfold tick tickAtLevels
  dsimp only
  refine h.trans _ _ _ (soundStep_of_ka rfl : SoundStep s (moveLines s)) (h.trans _ _ _ (h.tdu _ _)
    (h.trans _ _ _ (foldl_steps v _ (expireTimer_moves h) _ _)
      (h.trans _ _ _ (foldl_steps v _ (fun d => detect_moves h d _) _ _) (inAnyOrder_moves v _ (fun e m => ?_) _))))
  rcases mem_tickEvents m with ⟨k, -, rfl⟩ | ⟨d, -, rfl⟩ | rfl
  · exact expiryTold_sound ht k
  · exact detectionTold_moves h ht d _
  · exact addRunSecond_sound

/-! ### Writes of sections (R24, R27, R29) -/

/-- A parsed value belongs to its section, and a GAUGE value has its Q_full in range (R24). -/
def EntryValue.Fits (sec : SectionId) : EntryValue → Prop
  | .preset _ => sec = .preset
  | .gauge e => sec = .gauge ∧ e.FullInRange
  | .suction _ | .dirt _ | .charge _ | .limits _ | .watch _ | .timer _ | .service _ | .notice _ _ => sec ≠ .gauge

theorem parseGauge_inRange (design qFull cycles : Nat) :
    ∃ p e, parseGauge design qFull cycles = some p ∧ p.value = .gauge e ∧ e.FullInRange := by
  refine ⟨_, _, rfl, rfl, ?_⟩
  have ordered := qFullLow_le_high (clampNat 3600000 36000000 design)
  unfold GaugeEntry.FullInRange
  unfold clampNat at *
  dsimp only
  omega

theorem parseEntry_fits {sec : SectionId} {b : List Byte} {p : Parsed} (h : parseEntry sec b = some p) :
    p.value.Fits sec := by
  have given {q : Parsed} (k : some q = some p) (fits : q.value.Fits sec) : p.value.Fits sec := Option.some.inj k ▸ fits
  have tested {c : Prop} [Decidable c] {q : Parsed} (k : (if c then some q else none) = some p)
      (fits : q.value.Fits sec) : p.value.Fits sec :=
    given (Option.ite_none_right_eq_some.mp k).2 fits
  unfold parseEntry at h
  split at h
  · exact given h rfl
  · exact tested h (nofun : SectionId.suction ≠ .gauge)
  · exact tested h (nofun : SectionId.dirt ≠ .gauge)
  · obtain ⟨q, e, parsed, value, range⟩ := parseGauge_inRange _ _ _
    refine given (parsed.symm.trans h) ?_
    rw [value]
    exact ⟨rfl, range⟩
  · exact tested h (nofun : SectionId.charge ≠ .gauge)
  · exact given h (nofun : SectionId.limits ≠ .gauge)
  · unfold parseWatch at h
    split at h
    · exact tested h (nofun : SectionId.watch ≠ .gauge)
    · cases h
  · unfold parseTimer at h
    split at h
    · exact given h (nofun : SectionId.timer ≠ .gauge)
    · cases h
  · exact given h (nofun : SectionId.service ≠ .gauge)
  · exact given h (nofun : SectionId.notice ≠ .gauge)
  · cases h

theorem parseAll_fits {sec : SectionId} {parts : List (List Byte)} {ps : List Parsed}
    (h : parseAll sec parts = some ps) : ps.length = parts.length ∧ ∀ p ∈ ps, p.value.Fits sec := by
  induction parts generalizing ps with
  | nil =>
    obtain rfl := Option.some.inj h
    exact ⟨rfl, fun _ m => absurd m List.not_mem_nil⟩
  | cons b rest ih =>
    unfold parseAll at h
    split at h
    · next p qs parsed restParsed =>
      obtain rfl := Option.some.inj h
      obtain ⟨length, fits⟩ := ih restParsed
      exact ⟨congrArg (· + 1) length, List.forall_mem_cons.mpr ⟨parseEntry_fits parsed, fits⟩⟩
    · cases h

theorem length_chunks (size count : Nat) (b : List Byte) : (chunks size count b).length = count := by
  induction count generalizing b with
  | zero => rfl
  | succ n ih => exact congrArg (· + 1) (ih _)

theorem presetAt_ne_p0 : ∀ n < 8, 1 ≤ n → presetAt n ≠ .p0 := by decide

/-- What the storing of entries of a section keeps, before its owner acts. -/
structure SoundStore (sec : SectionId) (a b : KeepAlive) : Prop where
  preset : StopPresetFixed a → StopPresetFixed b
  range : (a.marker = true → a.gauge.FullInRange) → b.marker = true → b.gauge.FullInRange
  gauge : sec ≠ .gauge → GaugeBounded a → GaugeBounded b

theorem SoundStore.of_same {sec : SectionId} {a b : KeepAlive} (presets : b.presets.p0 = a.presets.p0)
    (marker : b.marker = a.marker) (gauge : b.gauge = a.gauge) (rem : b.qRem = a.qRem) : SoundStore sec a b where
  preset h m := presets.trans (h (marker ▸ m))
  range h m := gauge ▸ h (marker ▸ m)
  gauge _ h m := by
    rw [gauge, rem]
    exact h (marker ▸ m)

theorem SoundStore.trans {sec : SectionId} {a b c : KeepAlive} (h : SoundStore sec a b) (k : SoundStore sec b c) :
    SoundStore sec a c :=
  ⟨k.preset ∘ h.preset, k.range ∘ h.range, fun other => k.gauge other ∘ h.gauge other⟩

theorem eight_set_p0 {α : Type} (f : Eight α) {p : PresetId} (h : p ≠ .p0) (a : α) : (f.set p a).p0 = f.p0 := by
  cases p with
  | p0 => exact absurd rfl h
  | p1 | p2 | p3 | p4 | p5 | p6 | p7 => rfl

theorem storeEntry_store {sec : SectionId} {n : Nat} {v : EntryValue} (fits : v.Fits sec)
    (later : sec = .preset → 1 ≤ n ∧ n < 8) (s : State) : SoundStore sec s.ka (storeEntry n v s).ka := by
  cases v with
  | preset e =>
    obtain ⟨first, last⟩ := later fits
    exact .of_same (eight_set_p0 _ (presetAt_ne_p0 n last first) e) rfl rfl rfl
  | gauge e =>
    obtain ⟨same, range⟩ := fits
    exact ⟨id, fun _ _ => range, fun other => absurd same other⟩
  | suction _ | dirt _ | charge _ | limits _ | watch _ | timer _ | service _ | notice _ _ =>
    exact .of_same rfl rfl rfl rfl

theorem storeEntries_store {sec : SectionId} {ps : List Parsed} (fits : ∀ p ∈ ps, p.value.Fits sec) {n : Nat}
    (later : sec = .preset → 1 ≤ n ∧ n + ps.length ≤ 8) (s : State) :
    SoundStore sec s.ka (storeEntries n ps s).ka := by
  induction ps generalizing n s with
  | nil => exact .of_same rfl rfl rfl rfl
  | cons p ps ih =>
    obtain ⟨here, rest⟩ := List.forall_mem_cons.mp fits
    have room (h : sec = .preset) : 1 ≤ n ∧ n + (ps.length + 1) ≤ 8 := later h
    exact (storeEntry_store here (fun h => by have := room h; omega) s).trans
      (ih rest (fun h => by have := room h; omega) _)

/-- No owner writes the keep-alive domain at a write but that of GAUGE, which holds Q_rem within Q_full (R29, R171). -/
theorem sectionWritten_ka (sec : SectionId) (first count : Nat) (before s : State) :
    (sectionWritten tellSuction sec first count before s).ka =
      if sec = .gauge then { s.ka with qRem := min s.ka.qRem s.ka.gauge.qFull } else s.ka := by
  have h := kaKept_closed
  have ht := tellSuction_moves h
  cases sec with
  | preset =>
    dsimp only [sectionWritten]
    split
    · exact evaluate_moves h.toEvalClosed ht s
    · rfl
  | suction => exact evaluate_moves h.toEvalClosed ht s
  | charge =>
    dsimp only [sectionWritten, chargeWritten]
    split
    · exact askChanged_moves h _ _ s
    · exact chargeEntryTest_moves h ht s
  | watch => exact tellCleared_moves h.toEvalClosed ht _ _ (clearComparisons (unitsOf first count) s)
  | gauge | dirt | limits | timer | service | notice => rfl

theorem applyWrite_sound {sec : SectionId} {first count : Nat} {ps : List Parsed} (fits : ∀ p ∈ ps, p.value.Fits sec)
    (later : sec = .preset → 1 ≤ first ∧ first + ps.length ≤ 8) :
    Moves SoundStep (applyWrite tellSuction sec first count ps) := by
  intro s
  obtain ⟨preset, range, gauge⟩ := storeEntries_store fits later s
  unfold SoundStep applyWrite
  rw [sectionWritten_ka]
  split
  · exact ⟨preset, fun h m => ⟨Nat.min_le_right _ _, range (fun k => (h k).2) m⟩⟩
  · next other => exact ⟨preset, gauge other⟩

theorem writeRange_sound {sec : SectionId} {first count : Nat} (within : first + count ≤ sec.entryCount)
    (conditional : Bool) (r : Option Reservation) (entries : List Byte) :
    Moves SoundStep fun s => (writeRange tellSuction sec first count conditional r entries s).state := by
  intro s
  dsimp only [writeRange]
  split
  · exact .refl s
  · next writable =>
    split
    · exact soundStep_of_ka rfl
    · split
      · exact .refl s
      · next ps parsed =>
        obtain ⟨length, fits⟩ := parseAll_fits parsed
        rw [length_chunks] at length
        split
        · exact .refl s
        · refine applyWrite_sound fits (fun preset => ?_) s
          have first : first ≠ 0 := fun zero => writable (.inl ⟨preset, zero⟩)
          subst preset
          exact ⟨Nat.one_le_iff_ne_zero.mpr first, length ▸ within⟩

theorem writeSection_sound (no first count conditional : Byte) (entries : List Byte) :
    Moves SoundStep fun s => (writeSection tellSuction no first count conditional entries s).state := by
  intro s
  have consumed : SoundStep s (if conditional = 0 then s else s.setReservation none) := by
    split <;> exact soundStep_of_ka rfl
  dsimp only [writeSection]
  generalize (if conditional = 0 then s else s.setReservation none) = t at consumed
  split
  · exact consumed
  · next sec _ =>
    split
    · exact consumed
    · next range =>
      obtain ⟨-, within⟩ := rangeExists_iff.mp (Bool.not_eq_false _ ▸ range)
      split
      · exact consumed
      · exact consumed.trans (writeRange_sound within _ _ _ t)

/-! ### Requests -/

theorem pushMarked_moves {R : State → State → Prop} (h : EvalClosed R) (ht : Moves R tellSuction) :
    Moves R pushMarked := by
  intro s
  exact foldl_steps h _ (fun src t => changeStack_moves h ht (t.snc.raised? src 0) t) (markedSources s.snc) s

theorem carryOut_sound (r : Request) (s : State) : SoundStep s (carryOut r s).state := by
  have h := soundStep_closed
  have v := h.toEvalClosed
  have ht := tellSuction_sound
  have still : SoundStep s s := .refl s
  have same {t : State} (k : t.ka = s.ka) : SoundStep s t := soundStep_of_ka k
  have evaluated {t : State} (k : t.ka = s.ka) : SoundStep s (evaluate tellSuction t) :=
    (same k).trans (evaluate_moves v ht t)
  unfold carryOut
  split
  · exact still
  · dsimp only [getStatus, answerOk]
    split <;> exact same rfl
  · unfold readChannels
    split
    · exact still
    · dsimp only
      split <;> exact still
  · unfold readSection
    split
    · exact still
    · split
      · dsimp only [answerOk]
        split <;> exact same rfl
      · exact still
  · exact writeSection_sound _ _ _ _ _ s
  · unfold selectPreset
    split
    · exact still
    · split
      · exact still
      · dsimp only [answerOk]
        split <;> exact evaluated rfl
  · unfold setBoost
    split
    · exact still
    · split <;> exact evaluated rfl
  · unfold resume
    split
    · exact commitSuction_moves v ht _ s
    all_goals exact still
  · unfold clearHalt
    split
    · exact still
    · split
      · exact still
      · split
        · exact still
        · exact v.trans _ _ _ (pushMarked_moves v ht s)
            (v.trans _ _ _ (commitSuction_moves v ht _ _) (evaluate_moves v ht _))
  · unfold pushOverride
    dsimp only
    split
    · exact still
    · split
      · exact still
      · split
        · exact still
        · exact stackChange_moves v ht _ s
  · unfold releaseOverride
    split
    · exact clearSoft_moves v ht _ s
    · exact still
  · exact still
  · unfold setSoftOverrides
    split <;> exact same rfl
  · exact same rfl
  · exact same rfl
  · unfold readDirtHistory
    split <;> exact still
  · unfold timerControl
    split
    · exact still
    · split
      · exact still
      · split
        · exact still
        · dsimp only [answerOk]
          split <;> exact same rfl
  · unfold armRequest
    split
    · exact still
    · split
      · exact still
      · split
        · exact still
        · split <;> exact same rfl
  · exact still
  · exact SoundMove.of_same rfl rfl rfl rfl (.inl rfl)
  · exact SoundMove.of_same rfl rfl rfl rfl (.inl rfl)
  · unfold clearChargeFault
    split
    · exact waitInDock_moves h ht s
    all_goals exact still
  · exact SoundMove.of_same rfl rfl rfl rfl (.inl rfl)
  · unfold sleepRequest
    split <;> exact same rfl
  · exact same rfl
  · exact still

/-! ### The link controller's turn and the receiver -/

theorem handNext_sound : Moves SoundStep handNext := by
  intro s
  unfold handNext
  split
  · exact .refl s
  · next r rest _ =>
    split
    · have handled : SoundStep s (handle r (s.modLink fun l => { l with queue := rest })).1 := by
        unfold handle
        split
        · dsimp only
          split
          · exact carryOut_sound r (s.modLink fun l => { l with queue := rest })
          · exact soundStep_of_ka rfl
        · exact soundStep_of_ka rfl
      exact handled
    · exact .refl s

theorem startFrame_ka (s : State) : (startFrame s).ka = s.ka := by
  unfold startFrame
  split
  · rfl
  · split
    · rfl
    · split
      · rfl
      · split <;> rfl

theorem settle_sound : Moves SoundStep settle := fun s =>
  (handNext_sound s).trans ((soundStep_of_ka (startFrame_ka _)).trans (handNext_sound _))

theorem whileAwake_sound {f : State → State} (hf : Moves SoundStep f) : Moves SoundStep (whileAwake f) := by
  intro s
  unfold whileAwake
  split
  · exact (hf s).trans (settle_sound _)
  · exact .refl s

theorem acceptRequest_ka (r : Request) (s : State) : (acceptRequest r s).ka = s.ka := by
  unfold acceptRequest
  split <;> rfl

theorem byteReceived_ka (b : Byte) (s : State) : (byteReceived b s).ka = s.ka := by
  unfold byteReceived
  split
  · split <;> rfl
  · split <;> rfl
  · rfl
  · unfold judgeFrame
    split
    · split
      · exact acceptRequest_ka _ _
      · rfl
    · rfl

theorem brokenByte_ka (s : State) : (brokenByte s).ka = s.ka := by
  unfold brokenByte
  split <;> rfl

theorem gapExpired_ka (s : State) : (gapExpired s).ka = s.ka := by
  unfold gapExpired
  split <;> rfl

theorem frameReceived_sound (bytes : List Byte) : Moves SoundStep (frameReceived bytes) := by
  refine foldl_steps soundStep_closed.toEvalClosed (fun b s => frameByte s b) (fun b s => ?_) bytes
  have received : SoundStep s (byteReceived b s) := soundStep_of_ka (byteReceived_ka b s)
  dsimp only [frameByte]
  split
  · exact received.trans (settle_sound _)
  all_goals exact received

/-! ### Starts and stops -/

theorem completeWarmStart_ka (cause : StartCause) (a b : Bool) (s : State) :
    (completeWarmStart cause a b s).ka = s.ka :=
  completeWarmStart_moves kaKept_closed cause a b s

theorem beginStart_ka (cause : StartCause) (a b : Bool) (s : State) : (beginStart cause a b s).ka = s.ka := by
  unfold beginStart
  split
  · rfl
  · exact completeWarmStart_ka cause a b s

theorem releaseHold_ka (a b : Bool) (s : State) : (releaseHold a b s).ka = s.ka := by
  unfold releaseHold
  split
  · split
    · rfl
    · exact completeWarmStart_ka _ a b s
  all_goals rfl

theorem holdMain_ka (cause : StartCause) (s : State) : (holdMain cause s).ka = s.ka := by
  unfold holdMain joinCauses
  split
  · rfl
  · rfl
  · split <;> rfl

theorem transmitEnd_sound (a b : Bool) : Moves SoundStep (transmitEnd a b) := by
  intro s
  have ended {t : State} (h : t.ka = s.ka) : SoundStep s (settle t) := (soundStep_of_ka h).trans (settle_sound t)
  unfold transmitEnd endOfSleepReply
  dsimp only
  split
  · exact .refl s
  · split
    · exact ended rfl
    · split
      · exact soundStep_of_ka rfl
      · exact ended (startFrame_ka _)
    · exact soundStep_of_ka (completeWarmStart_ka .restart a b _)

theorem coldStart_sound (a b : Bool) : Moves SoundStep (coldStart a b) := by
  intro s
  unfold coldStart
  split
  · exact .refl s
  · have begun := beginStart_ka .cold a b (s.modKa fun _ => KeepAlive.cold)
    unfold SoundStep
    rw [begun]
    exact soundMove_cold s.ka

/-! ### Every step -/

theorem exec_sound (c : Instr) {s t : State} (hst : exec c s = .next t) : SoundStep s t := by
  have h := soundStep_closed
  have ht := tellSuction_sound
  have main {f : State → State} (hf : Moves SoundStep f) (he : mainStep f s = .next t) : SoundStep s t :=
    Host.Outcome.next.inj he ▸ whileAwake_sound hf s
  have next {u : State} (hu : SoundStep s u) (he : Host.Outcome.next (φ := Fault) (ρ := Refusal) u = .next t) :
      SoundStep s t := Host.Outcome.next.inj he ▸ hu
  have linked {f : State → State} (hf : ∀ u, (f u).ka = u.ka) : Moves SoundStep f := fun u => soundStep_of_ka (hf u)
  have served (f : Dlc → Dlc) (u : State) : SoundStep u (serveLine (u.modDlc f)) := soundStep_of_ka rfl
  cases c
  case byteArrival byte stopError =>
    refine main (linked fun u => ?_) hst
    split
    · exact brokenByte_ka u
    · exact byteReceived_ka byte u
  case frameReceived => exact main (frameReceived_sound _) hst
  case gapTimeout => exact main (linked gapExpired_ka) hst
  case transmitEnd =>
    refine next ?_ hst
    split
    · exact transmitEnd_sound _ _ s
    · exact .refl s
  case wake =>
    refine next (soundStep_of_ka ?_) hst
    split
    · exact beginStart_ka _ _ _ s
    · rfl
  case dockWake =>
    refine next (soundStep_of_ka ?_) hst
    split
    · exact beginStart_ka _ _ _ s
    · rfl
  case resetAssert =>
    refine next (soundStep_of_ka ?_) hst
    split
    · rfl
    · exact holdMain_ka _ _
  case resetRelease | supplyReturn =>
    refine next (soundStep_of_ka ?_) hst
    split
    · exact releaseHold_ka _ _ _
    · rfl
  case supplyDip =>
    refine next (soundStep_of_ka ?_) hst
    split
    · rfl
    · split
      · rfl
      · exact holdMain_ka _ _
  case keepaliveLoss => exact next (SoundMove.of_lost rfl) hst
  case coldStart => exact next (coldStart_sound _ _ s) hst
  case cellSample => exact main (cellSampled_sound ht _) hst
  case channelSample => exact main (channelSampled_sound ht _) hst
  case keepaliveShuntSample =>
    refine next ?_ hst
    split
    · exact .refl s
    · exact SoundMove.of_same rfl rfl rfl rfl (.inl rfl)
  case gaugeSecond =>
    refine next ?_ hst
    split
    · exact (gaugeSecond_sound ht s).trans (settle_sound _)
    · exact gaugeSecond_sound ht s
  case timerExpiry timer =>
    refine main (fun u => ?_) hst
    split
    · exact (expireTimer_moves h timer u).trans (expiryTold_sound ht timer _)
    · exact .refl u
  case detection detector =>
    refine main (fun u => ?_) hst
    dsimp only
    split
    · have moved (level : Bool) : SoundStep u (u.modPins fun p => p.withLevel detector level) := soundStep_of_ka rfl
      exact (moved _).trans ((detect_moves h _ _ _).trans (detectionTold_moves h ht _ _ _))
    · exact .refl u
  case runSecond =>
    refine main (fun u => ?_) hst
    split
    · exact (h.tdu _ u).trans (addRunSecond_sound _)
    · exact .refl u
  case controlPeriod => exact main (controlPeriod_moves h.toEvalClosed ht) hst
  case impact => exact main (impactCounted_moves h.toEvalClosed _) hst
  case probeDue | keepDue | retryWaitEnd =>
    refine main (fun u => ?_) hst
    split
    · exact served _ u
    · exact .refl u
  case dockFrameSent => exact main (frameSent_moves h ht) hst
  case offerReceived | grantReceived | declineReceived | keepackReceived =>
    exact main (answerReceived_moves h ht _) hst
  case dockAnswerTimeout | invalidDockAnswer => exact main (exchangeMissed_moves h ht) hst
  all_goals exact main (linked (acceptRequest_ka _)) hst

theorem step_sound {s t : State} (hst : step s = .next t) : SoundStep s t := by
  unfold step at hst
  split at hst
  · obtain rfl := Host.Outcome.next.inj hst
    exact whileAwake_sound (tick_sound tellSuction_sound) s
  · next c rest _ => exact exec_sound c (s := s.setPending rest) hst

/-- Settles O26: every step is a sound move of the keep-alive domain. -/
theorem keepAliveStaysSound : Obligations.KeepAliveStaysSound := by
  unfold Obligations.KeepAliveStaysSound
  intro s t hst
  obtain ⟨preset, gauge⟩ := step_sound hst
  exact ⟨preset, gauge⟩

end Sys2Proof.Machine
end

