-- ==== Sys2Proof/Proofs/SettingsStore.lean ====
section
/-! PROOF. WriteSection by the order of its tests, clamped and refused entries, and what an owner does at the event of a
write (R23 to R31, R77, R89, R90, R184, R185). -/

namespace Sys2Proof.Machine

/-! ### The seven tests (R23, R31) -/

/-- The state that the tests see: a conditional write has consumed the reservation (R31). -/
def consumed (conditional : Byte) (s : State) : State := if conditional = 0 then s else s.setReservation none

theorem consumed_wcu (conditional : Byte) (s : State) : (consumed conditional s).wcu = s.wcu := by
  unfold consumed
  split <;> rfl

/-- A WriteSection at a ready link is answered by the settings store (R5). -/
theorem writeStep_answered {s : State} {no first count conditional : Byte} {entries : List Byte} {a : Answer}
    (ready : Ready s) (answer : writeSection tellSuction no first count conditional entries s = a) :
    writeStep no first count conditional entries s = .next (a.state.withReply (replyFrame 0x05 a.status a.body)) := by
  have listed : lengthAllowed 0x05 (no :: first :: count :: conditional :: entries).length = true := by
    simp [lengthAllowed]
  rw [← answer]
  exact requestStep_of_ready ready 0x05 (no :: first :: count :: conditional :: entries) rfl listed

section
variable {told : State → State} {s : State} {sec : SectionId} {first count conditional : Byte} {entries : List Byte}

theorem writeSection_badSection {no : Byte} (h : 10 ≤ no.toNat) :
    writeSection told no first count conditional entries s = refuse .badSection (consumed conditional s) := by
  simp only [writeSection, sectionOf?_none h]
  rfl

theorem writeSection_badIndex (h : count.toNat = 0 ∨ sec.entryCount < first.toNat + count.toNat) :
    writeSection told (sectionCode sec) first count conditional entries s =
      refuse .badIndex (consumed conditional s) := by
  have missing : rangeExists sec first count = false := by
    rw [Bool.eq_false_iff, ne_eq, rangeExists_iff]
    omega
  simp only [writeSection, sectionOf?_code, missing, if_true]
  rfl

theorem writeSection_length (some : 1 ≤ count.toNat) (within : first.toNat + count.toNat ≤ sec.entryCount)
    (wrong : entries.length ≠ count.toNat * sec.entrySize) :
    writeSection told (sectionCode sec) first count conditional entries s = refuse .length (consumed conditional s) := by
  have there : rangeExists sec first count = true := rangeExists_iff.mpr ⟨some, within⟩
  simp only [writeSection, sectionOf?_code, there, wrong, ne_eq, not_false_eq_true, reduceCtorEq, if_true, if_false]
  rfl

theorem writeSection_range (some : 1 ≤ count.toNat) (within : first.toNat + count.toNat ≤ sec.entryCount)
    (whole : entries.length = count.toNat * sec.entrySize) :
    writeSection told (sectionCode sec) first count conditional entries s =
      writeRange told sec first.toNat count.toNat (decide (conditional ≠ 0)) s.reservation entries
        (consumed conditional s) := by
  have there : rangeExists sec first count = true := rangeExists_iff.mpr ⟨some, within⟩
  simp only [writeSection, sectionOf?_code, there, whole, ne_eq, not_true_eq_false, reduceCtorEq, if_false]
  rfl

end

section
variable {told : State → State} {s : State} {sec : SectionId} {first count : Nat} {conditional : Bool}
  {r : Option Reservation} {entries : List Byte}

theorem writeRange_readOnly (h : (sec = .preset ∧ first = 0) ∨
    allReadOnlyKept sec s first (chunks sec.entrySize count entries) = false) :
    writeRange told sec first count conditional r entries s = refuse .readOnly s := if_pos h

section
variable (writable : ¬((sec = .preset ∧ first = 0) ∨
  allReadOnlyKept sec s first (chunks sec.entrySize count entries) = false))
include writable

theorem writeRange_held (held : (touchesClaim sec first count && s.wcu.claim.isSome) = true) :
    writeRange told sec first count conditional r entries s =
      refuse .held (s.modWcu fun w => { w with heldAccess := true }) := by
  simp only [writeRange, if_neg writable, held, if_true]

section
variable (unheld : (touchesClaim sec first count && s.wcu.claim.isSome) = false)
include unheld

theorem writeRange_range (broken : parseAll sec (chunks sec.entrySize count entries) = none) :
    writeRange told sec first count conditional r entries s = refuse .range s := by
  simp only [writeRange, if_neg writable, unheld, Bool.false_eq_true, if_false, broken]

variable {ps : List Parsed} (parsed : parseAll sec (chunks sec.entrySize count entries) = some ps)
include parsed

theorem writeRange_stale (stale : (conditional && !reservationAllows sec first count r) = true) :
    writeRange told sec first count conditional r entries s = refuse .stale s := by
  simp only [writeRange, if_neg writable, unheld, Bool.false_eq_true, if_false, parsed, stale, if_true]

theorem writeRange_applied (fresh : (conditional && !reservationAllows sec first count r) = false) :
    writeRange told sec first count conditional r entries s =
      { state := applyWrite told sec first count ps s
        status := if ps.any Parsed.clamped then .clamped else .ok
        body := [] } := by
  simp only [writeRange, if_neg writable, unheld, Bool.false_eq_true, if_false, parsed, fresh]

end
end
end

theorem reservationAllows_iff {sec : SectionId} {first count : Nat} {r : Option Reservation} :
    reservationAllows sec first count r = true ↔
      r = some { sectionId := sec, first := first, count := count, broken := false } := by
  rcases r with _ | ⟨id, f, c, broken⟩
  · simp [reservationAllows]
  · cases broken <;> simp [reservationAllows, and_assoc]

theorem stale_iff {sec : SectionId} {first count : Nat} {r : Option Reservation} {conditional : Byte} :
    (decide (conditional ≠ 0) && !reservationAllows sec first count r) = true ↔
      conditional ≠ 0 ∧ r ≠ some { sectionId := sec, first := first, count := count, broken := false } := by
  rw [Bool.and_eq_true, decide_eq_true_iff, Bool.not_eq_true', Bool.eq_false_iff, ne_eq, ne_eq, reservationAllows_iff]

theorem writeStep_ranged {s : State} {sec : SectionId} {first count conditional : Byte} {entries : List Byte} {a : Answer}
    (ready : Ready s) (some : 1 ≤ count.toNat) (within : first.toNat + count.toNat ≤ sec.entryCount)
    (whole : entries.length = count.toNat * sec.entrySize)
    (answer : writeRange tellSuction sec first.toNat count.toNat (decide (conditional ≠ 0)) s.reservation entries
      (consumed conditional s) = a) :
    writeStep (sectionCode sec) first count conditional entries s =
      .next (a.state.withReply (replyFrame 0x05 a.status a.body)) :=
  writeStep_answered ready ((writeSection_range some within whole).trans answer)

/-- Settles O14, test by test. -/
theorem writeTestsInOrder : Obligations.WriteTestsInOrder := by
  unfold Obligations.WriteTestsInOrder
  intro s first count conditional entries ready t
  refine ⟨fun no high => writeStep_answered ready (writeSection_badSection high), fun sec => ?_⟩
  intro parts stopped held stale outcome
  refine ⟨fun bad => writeStep_answered ready (writeSection_badIndex bad), fun some within => ⟨fun wrong =>
    writeStep_answered ready (writeSection_length some within wrong), fun whole => ?_⟩⟩
  have ranged {a : Answer} (h : writeRange tellSuction sec first.toNat count.toNat (decide (conditional ≠ 0))
      s.reservation entries t = a) : outcome = .next (a.state.withReply (replyFrame 0x05 a.status a.body)) :=
    writeStep_ranged ready some within whole h
  have zero : first = 0 ↔ first.toNat = 0 := BitVec.toNat_eq
  have stopped_iff : stopped ↔ (sec = .preset ∧ first.toNat = 0) ∨ allReadOnlyKept sec t first.toNat parts = false := by
    simp only [stopped, zero]
  have held_iff : held ↔ (touchesClaim sec first.toNat count.toNat && t.wcu.claim.isSome) = true := by
    rw [show t.wcu = s.wcu from consumed_wcu conditional s, Bool.and_eq_true]
  rw [stopped_iff, held_iff, Bool.not_eq_true]
  refine ⟨fun h => ranged (writeRange_readOnly h), fun writable h => ranged (writeRange_held writable h),
    fun writable unheld broken => ranged (writeRange_range writable unheld broken), fun writable unheld ps parsed =>
    ⟨fun h => ranged (writeRange_stale writable unheld parsed (stale_iff.mpr h)), fun h =>
      ranged (writeRange_applied writable unheld parsed ?_)⟩⟩
  rwa [Bool.eq_false_iff, ne_eq, stale_iff]

/-! ### Unconditional writes of one entry -/

theorem chunks_one {size : Nat} {entry : List Byte} (h : entry.length = size) : chunks size 1 entry = [entry] := by
  simp [chunks, ← h]

section
variable {s : State} {sec : SectionId} {no : Byte} {n : Nat} {entry : List Byte} (ready : Ready s)
  (number : no.toNat = n) (there : n < sec.entryCount) (size : entry.length = sec.entrySize)
include ready number there size

theorem writeStep_oneEntry {a : Answer} (answer : writeRange tellSuction sec n 1 false s.reservation entry s = a) :
    writeStep (sectionCode sec) no 1 0 entry s = .next (a.state.withReply (replyFrame 0x05 a.status a.body)) := by
  subst number
  exact writeStep_ranged ready le_rfl there (size.trans (Nat.one_mul _).symm) answer

theorem writeStep_readOnly (changed : readOnlyKept sec n entry s = false) :
    writeStep (sectionCode sec) no 1 0 entry s = .next (s.withReply (replyFrame 0x05 .readOnly [])) := by
  refine writeStep_oneEntry ready number there size (writeRange_readOnly (.inr ?_))
  rw [chunks_one size, allReadOnlyKept, changed, Bool.false_and]

variable (writable : ¬(sec = .preset ∧ n = 0)) (kept : readOnlyKept sec n entry s = true)
include writable kept

omit ready number there in
theorem entry_writable : ¬((sec = .preset ∧ n = 0) ∨
    allReadOnlyKept sec s n (chunks sec.entrySize 1 entry) = false) := by
  rw [chunks_one size]
  simp [allReadOnlyKept, kept, writable]

theorem writeStep_held (held : (touchesClaim sec n 1 && s.wcu.claim.isSome) = true) :
    writeStep (sectionCode sec) no 1 0 entry s =
      .next ((s.modWcu fun w => { w with heldAccess := true }).withReply (replyFrame 0x05 .held [])) :=
  writeStep_oneEntry ready number there size (writeRange_held (entry_writable size writable kept) held)

variable (unheld : (touchesClaim sec n 1 && s.wcu.claim.isSome) = false)
include unheld

theorem writeStep_refused (broken : parseEntry sec entry = none) :
    writeStep (sectionCode sec) no 1 0 entry s = .next (s.withReply (replyFrame 0x05 .range [])) := by
  refine writeStep_oneEntry ready number there size (writeRange_range (entry_writable size writable kept) unheld ?_)
  rw [chunks_one size, parseAll, broken]

theorem writeStep_parsed {v : EntryValue} {c : Bool} (parsed : parseEntry sec entry = some { value := v, clamped := c }) :
    writeStep (sectionCode sec) no 1 0 entry s =
      .next ((sectionWritten tellSuction sec n 1 s (breakReservation sec n 1 (storeEntry n v s))).withReply
        (replyFrame 0x05 (if c then .clamped else .ok) [])) := by
  have all : parseAll sec (chunks sec.entrySize 1 entry) = some [{ value := v, clamped := c }] := by
    simp only [chunks_one size, parseAll, parsed]
  have status : [({ value := v, clamped := c } : Parsed)].any Parsed.clamped = c := by simp
  have written := writeStep_oneEntry ready number there size
    (writeRange_applied (entry_writable size writable kept) unheld all (Bool.false_and _))
  rwa [status] at written

end

theorem toNat_unitNo (u : Idx4) : (byteOf (unitNo u)).toNat = unitNo u := by cases u <;> rfl

theorem unitNo_lt (u : Idx4) : unitNo u < 4 := by cases u <;> decide

/-- W2 and W3 are held while a claim stands, W0 and W1 never (R28). -/
theorem touchesClaim_watch (u : Idx4) : touchesClaim .watch (unitNo u) 1 = (decide (u = .i2) || decide (u = .i3)) := by
  cases u <;> rfl

theorem watch_unheld {s : State} {u : Idx4} (h : s.wcu.claim = none ∨ u = .i0 ∨ u = .i1) :
    (touchesClaim .watch (unitNo u) 1 && s.wcu.claim.isSome) = false := by
  rcases h with free | rfl | rfl
  · rw [free, Option.isSome_none, Bool.and_false]
  · rfl
  · rfl

/-! ### What may not be written (R27, R28) -/

/-- Settles O19. -/
theorem readOnlyAndHeld : Obligations.ReadOnlyAndHeld := by
  unfold Obligations.ReadOnlyAndHeld
  intro s ready
  have flag (b : Bool) : flagByte (!b) ≠ flagByte b := by cases b <;> decide
  refine ⟨fun count entries some within whole => ?_, fun k changed => ?_, fun e => ?_, fun u e => ?_,
    fun u entries claimed unit size => ?_⟩
  · have zero : (0 : Byte).toNat = 0 := rfl
    exact writeStep_ranged (sec := .preset) ready some (by rw [zero, Nat.zero_add]; exact within) whole
      (writeRange_readOnly (.inl ⟨rfl, rfl⟩))
  · refine writeStep_readOnly (sec := .gauge) ready rfl (by decide) rfl ?_
    have last (k : KeepAlive) : (gaugeBytes k).drop 10 = [trustCode k.trust] ++ bytes4 k.qRem := rfl
    simp only [readOnlyKept, last, changed, decide_false]
  · refine writeStep_readOnly (sec := .service) ready rfl (by decide) rfl ?_
    have last (e : ServiceEntry) (due : Bool) : (serviceBytes e due).drop 6 = [flagByte due] := rfl
    simp [readOnlyKept, entryBytes, last, flag]
  · refine writeStep_readOnly (sec := .timer) ready (toNat_unitNo u) (unitNo_lt u) rfl ?_
    have last (e : TimerEntry) (running : Bool) : (timerBytes e running).drop 5 = [flagByte running] := rfl
    simp [readOnlyKept, entryBytes, last, flag]
  · refine writeStep_held (sec := .watch) ready (toNat_unitNo u) (unitNo_lt u) size (by simp) rfl ?_
    rw [touchesClaim_watch, Option.isSome_iff_ne_none.mpr claimed]
    simpa using unit

/-! ### What an owner does at the event of a write (R77, R89, R90, R184, R185) -/

theorem toNat_presetNo (p : PresetId) : (byteOf (presetNo p)).toNat = presetNo p := by cases p <;> rfl

theorem presetNo_lt_count (p : PresetId) : presetNo p < 8 := by cases p <;> decide

@[simp] theorem presetAt_presetNo (p : PresetId) : presetAt (presetNo p) = p := by cases p <;> rfl

theorem presetNo_inj {p q : PresetId} (h : presetNo p = presetNo q) : p = q := by
  rw [← presetAt_presetNo p, h, presetAt_presetNo]

theorem preset_writable {p : PresetId} (h : p ≠ .p0) : ¬(SectionId.preset = .preset ∧ presetNo p = 0) :=
  fun ⟨_, zero⟩ => h (presetNo_inj (q := .p0) zero)

/-- The owner of PRESET evaluates at a write of the active preset (R89). -/
theorem sectionWritten_preset (told : State → State) (p : PresetId) (before s : State) :
    sectionWritten told .preset (presetNo p) 1 before s = if s.snc.preset = p then evaluate told s else s := by
  have active : (presetNo p ≤ presetNo s.snc.preset ∧ presetNo s.snc.preset < presetNo p + 1) ↔ s.snc.preset = p := by
    constructor
    · exact fun ⟨low, high⟩ => presetNo_inj (by omega)
    · rintro rfl
      omega
  simp only [sectionWritten, active]

theorem unitsOf_one (u : Idx4) : unitsOf (unitNo u) 1 = [u] := by cases u <;> rfl

/-- The clear told of one unit, if it was RAISED (R77). -/
theorem tellCleared_one (told : State → State) (u : Idx4) (before : Four Comparison) (s : State) :
    tellCleared told [u] before s = if (before.get u).raised then clearSoft told (.watch u) s else s := by
  cases raised : (before.get u).raised <;> simp [tellCleared, raised]

/-- Settles O17, section by section. -/
theorem settingsAreActedOn : Obligations.SettingsAreActedOn := by
  unfold Obligations.SettingsAreActedOn
  intro s ready ok
  refine ⟨fun p e notStop h => ?_, fun e h related => ?_, fun e h => ?_, fun u w h related free => ?_⟩
  · have written := writeStep_parsed (sec := .preset) ready (toNat_presetNo p) (presetNo_lt_count p) rfl
      (preset_writable notStop) rfl rfl (parse_preset h)
    rw [sectionWritten_preset] at written
    simp only [storeEntry, presetAt_presetNo] at written
    exact written
  · exact writeStep_parsed (sec := .suction) ready rfl (by decide) rfl (by simp) rfl rfl (parse_suction h related)
  · exact writeStep_parsed (sec := .charge) ready rfl (by decide) rfl (by simp) rfl rfl (parse_charge h)
  · have written := writeStep_parsed (sec := .watch) ready (toNat_unitNo u) (unitNo_lt u) rfl (by simp) rfl
      (watch_unheld free) (parse_watch h related)
    simp only [sectionWritten, unitsOf_one, tellCleared_one, storeEntry, unitAt_unitNo] at written
    exact written

end Sys2Proof.Machine
end

