-- ==== Sys2Proof/Proofs/ClampedWrites.lean ====
section
/-! PROOF. Writes of numbers outside their ranges, and of entries whose relations fail (R24, R26). -/

namespace Sys2Proof.Machine

/-! ### Numbers held at the nearer end (R24) -/

theorem clampNat_zero (hi v : Nat) : clampNat 0 hi v = min hi v := Nat.zero_max _

theorem outside_iff {lo hi v : Nat} (h : lo ≤ hi) : outside lo hi v = true ↔ ¬clampNat lo hi v = v := by
  unfold outside clampNat
  simp only [Bool.or_eq_true, decide_eq_true_iff]
  omega

theorem outsideInt_iff {lo hi v : Int} (h : lo ≤ hi) : outsideInt lo hi v = true ↔ ¬clampInt lo hi v = v := by
  unfold outsideInt clampInt
  simp only [Bool.or_eq_true, decide_eq_true_iff]
  omega

theorem clampNat_mem {lo hi : Nat} (h : lo ≤ hi) (v : Nat) : lo ≤ clampNat lo hi v ∧ clampNat lo hi v ≤ hi := by
  unfold clampNat
  omega

theorem clampInt_mem {lo hi : Int} (h : lo ≤ hi) (v : Int) : lo ≤ clampInt lo hi v ∧ clampInt lo hi v ≤ hi := by
  unfold clampInt
  omega

/-! ### The held entry of each section -/

def PresetEntry.held (e : PresetEntry) : PresetEntry :=
  { e with base := clampNat 0 1250 e.base, step := clampNat 0 250 e.step, ceiling := clampNat 0 500 e.ceiling }

def SuctionEntry.held (e : SuctionEntry) : SuctionEntry where
  kFan := clampNat 1 1000 e.kFan
  sMin := clampNat 100 600 e.sMin
  slewUp := clampNat 1 50 e.slewUp
  slewDown := clampNat 1 100 e.slewDown
  tKnee := clampInt 40 110 e.tKnee
  tCut := clampInt 50 125 e.tCut
  currentLimit := clampNat 10000 60000 e.currentLimit

def DirtEntry.held (e : DirtEntry) : DirtEntry where
  t1 := clampNat 1 20000 e.t1
  t2 := clampNat 1 20000 e.t2
  t3 := clampNat 1 20000 e.t3
  h := clampNat 0 500 e.h
  floor := clampNat 0 5000 e.floor
  floorMax := clampNat 0 5000 e.floorMax
  blank := clampNat 10 400 e.blank
  hold := e.hold

/-- The range of Q_full is that of the held design capacity. -/
def GaugeEntry.held (e : GaugeEntry) : GaugeEntry :=
  let design := clampNat 3600000 36000000 e.design
  { e with design := design, qFull := clampNat (qFullLow design) (qFullHigh design) e.qFull }

def ChargeEntry.held (e : ChargeEntry) : ChargeEntry where
  iCc := clampNat 200 4000 e.iCc
  vCv := clampNat 4100 4250 e.vCv
  iTerm := clampNat 50 500 e.iTerm
  iPre := clampNat 50 500 e.iPre
  windowLow := clampInt (-10) 20 e.windowLow
  windowHigh := clampInt 30 55 e.windowHigh
  cool := clampInt (-10) 25 e.cool

def LimitsEntry.held (e : LimitsEntry) : LimitsEntry where
  wPackMax := clampNat 50 600 e.wPackMax
  socKnee := clampNat 1 100 e.socKnee
  vSag := clampNat 3000 3700 e.vSag
  vCut := clampNat 2600 3300 e.vCut
  packHot := clampNat 45 75 e.packHot
  lowThreshold := clampNat 0 50 e.lowThreshold
  lowCap := clampNat 0 1250 e.lowCap

def WatchRecord.held (w : WatchRecord) : WatchRecord :=
  { w with resolution := clampNat 0 7 w.resolution, cap := clampNat 0 1250 w.cap }

def TimerEntry.held (e : TimerEntry) : TimerEntry := { e with preset := clampNat 1 4095 e.preset }

def ServiceEntry.held (e : ServiceEntry) : ServiceEntry := { e with minutes := clampNat 0 59 e.minutes }

/-! ### The held entry lies in its ranges -/

theorem PresetEntry.held_inRange (e : PresetEntry) : e.held.inRange :=
  ⟨(clampNat_mem (by decide) _).2, (clampNat_mem (by decide) _).2, (clampNat_mem (by decide) _).2⟩

theorem SuctionEntry.held_inRange (e : SuctionEntry) : e.held.inRange :=
  ⟨clampNat_mem (by decide) _, clampNat_mem (by decide) _, clampNat_mem (by decide) _, clampNat_mem (by decide) _,
    clampInt_mem (by decide) _, clampInt_mem (by decide) _, clampNat_mem (by decide) _⟩

theorem DirtEntry.held_inRange (e : DirtEntry) : e.held.inRange :=
  ⟨clampNat_mem (by decide) _, clampNat_mem (by decide) _, clampNat_mem (by decide) _,
    (clampNat_mem (by decide) _).2, (clampNat_mem (by decide) _).2, (clampNat_mem (by decide) _).2,
    clampNat_mem (by decide) _⟩

theorem GaugeEntry.held_inRange {e : GaugeEntry} (h : e.cycles < 65536) : e.held.inRange :=
  ⟨clampNat_mem (by decide) _, clampNat_mem (qFullLow_le_high _) _, Nat.le_of_lt_succ h⟩

theorem ChargeEntry.held_inRange (e : ChargeEntry) : e.held.inRange :=
  ⟨clampNat_mem (by decide) _, clampNat_mem (by decide) _, clampNat_mem (by decide) _, clampNat_mem (by decide) _,
    clampInt_mem (by decide) _, clampInt_mem (by decide) _, clampInt_mem (by decide) _⟩

theorem WatchRecord.held_inRange {w : WatchRecord} (low : -8388608 ≤ w.low ∧ w.low ≤ 8388607)
    (high : -8388608 ≤ w.high ∧ w.high ≤ 8388607) : w.held.inRange :=
  ⟨low, high, (clampNat_mem (by decide) _).2, (clampNat_mem (by decide) _).2⟩

theorem TimerEntry.held_inRange (e : TimerEntry) : e.held.inRange := clampNat_mem (by decide) _

theorem ServiceEntry.held_inRange {e : ServiceEntry} (h : e.hours < 65536) : e.held.inRange :=
  ⟨Nat.le_of_lt_succ h, (clampNat_mem (by decide) _).2⟩

/-! ### An entry of any numbers is parsed to the held one (R24 to R26) -/

theorem eq_not_decide {b : Bool} {p : Prop} [Decidable p] (h : b = true ↔ ¬p) : b = !decide p := by
  by_cases hp : p <;> simp_all

theorem preset_clamped (e : PresetEntry) :
    (outside 0 1250 e.base || outside 0 250 e.step || outside 0 500 e.ceiling) = !decide (e.held = e) := by
  obtain ⟨base, step, ceiling, notify⟩ := e
  refine eq_not_decide ?_
  simp only [Bool.or_eq_true, outside_iff (Nat.zero_le _), PresetEntry.held, PresetEntry.mk.injEq, not_and_or, or_assoc,
    not_true_eq_false, or_false]

theorem parse_preset_held {e : PresetEntry} (base : e.base < 65536) (step : e.step < 256) (ceiling : e.ceiling < 65536) :
    parseEntry .preset (presetBytes e) = some { value := .preset e.held, clamped := !decide (e.held = e) } := by
  show parsePreset (nat2 (byteOf e.base) (byteOf (e.base / 256))) (byteOf e.step).toNat
    (nat2 (byteOf e.ceiling) (byteOf (e.ceiling / 256))) (flagOf (flagByte e.notify)) = _
  simp (disch := assumption) only [nat2_bytes2, toNat_byteOf_self, flagOf_flagByte, parsePreset, preset_clamped]
  rfl

theorem suction_clamped (e : SuctionEntry) :
    (outside 1 1000 e.kFan || outside 100 600 e.sMin || outside 1 50 e.slewUp || outside 1 100 e.slewDown ||
      outsideInt 40 110 e.tKnee || outsideInt 50 125 e.tCut || outside 10000 60000 e.currentLimit) =
      !decide (e.held = e) := by
  obtain ⟨kFan, sMin, slewUp, slewDown, tKnee, tCut, currentLimit⟩ := e
  refine eq_not_decide ?_
  simp (disch := decide) only [Bool.or_eq_true, outside_iff, outsideInt_iff, SuctionEntry.held, SuctionEntry.mk.injEq,
    not_and_or, or_assoc]

theorem parse_suction_held {e : SuctionEntry} (kFan : e.kFan < 65536) (sMin : e.sMin < 65536) (up : e.slewUp < 256)
    (down : e.slewDown < 256) (knee : -128 ≤ e.tKnee ∧ e.tKnee ≤ 127) (cut : -128 ≤ e.tCut ∧ e.tCut ≤ 127)
    (limit : e.currentLimit < 65536) :
    parseEntry .suction (suctionBytes e) =
      if suctionRelated e.held then some { value := .suction e.held, clamped := !decide (e.held = e) } else none := by
  show parseSuction (nat2 (byteOf e.kFan) (byteOf (e.kFan / 256))) (nat2 (byteOf e.sMin) (byteOf (e.sMin / 256)))
    (byteOf e.slewUp).toNat (byteOf e.slewDown).toNat (int1 (byteOfInt e.tKnee)) (int1 (byteOfInt e.tCut))
    (nat2 (byteOf e.currentLimit) (byteOf (e.currentLimit / 256))) = _
  simp (disch := omega) only [nat2_bytes2, toNat_byteOf_self, int1_byteOfInt, parseSuction, suction_clamped]
  rfl

theorem dirt_clamped (e : DirtEntry) :
    (outside 1 20000 e.t1 || outside 1 20000 e.t2 || outside 1 20000 e.t3 || outside 0 500 e.h ||
      outside 0 5000 e.floor || outside 0 5000 e.floorMax || outside 10 400 e.blank) = !decide (e.held = e) := by
  obtain ⟨t1, t2, t3, h, floor, floorMax, blank, hold⟩ := e
  refine eq_not_decide ?_
  simp (disch := decide) only [Bool.or_eq_true, outside_iff, DirtEntry.held, DirtEntry.mk.injEq, not_and_or, or_assoc,
    not_true_eq_false, or_false]

theorem parse_dirt_held {e : DirtEntry} (t1 : e.t1 < 65536) (t2 : e.t2 < 65536) (t3 : e.t3 < 65536) (h : e.h < 65536)
    (floor : e.floor < 65536) (floorMax : e.floorMax < 65536) (blank : e.blank < 65536) :
    parseEntry .dirt (dirtBytes e) =
      if dirtRelated e.held then some { value := .dirt e.held, clamped := !decide (e.held = e) } else none := by
  show parseDirt (nat2 (byteOf e.t1) (byteOf (e.t1 / 256))) (nat2 (byteOf e.t2) (byteOf (e.t2 / 256)))
    (nat2 (byteOf e.t3) (byteOf (e.t3 / 256))) (nat2 (byteOf e.h) (byteOf (e.h / 256)))
    (nat2 (byteOf e.floor) (byteOf (e.floor / 256))) (nat2 (byteOf e.floorMax) (byteOf (e.floorMax / 256)))
    (nat2 (byteOf e.blank) (byteOf (e.blank / 256))) (flagOf (flagByte e.hold)) = _
  simp (disch := assumption) only [nat2_bytes2, flagOf_flagByte, parseDirt, dirt_clamped]
  rfl

theorem gauge_clamped (e : GaugeEntry) :
    (outside 3600000 36000000 e.design ||
      outside (qFullLow (clampNat 3600000 36000000 e.design)) (qFullHigh (clampNat 3600000 36000000 e.design)) e.qFull) =
      !decide (e.held = e) := by
  obtain ⟨design, qFull, cycles⟩ := e
  refine eq_not_decide ?_
  simp only [Bool.or_eq_true, outside_iff (qFullLow_le_high _), outside_iff (show 3600000 ≤ 36000000 by decide),
    GaugeEntry.held, GaugeEntry.mk.injEq, not_and_or, not_true_eq_false, or_false]

theorem parse_gauge_held {k : KeepAlive} (design : k.gauge.design < 4294967296) (full : k.gauge.qFull < 4294967296)
    (cycles : k.gauge.cycles < 65536) :
    parseEntry .gauge (gaugeBytes k) =
      some { value := .gauge k.gauge.held, clamped := !decide (k.gauge.held = k.gauge) } := by
  show parseGauge (nat4 (byteOf k.gauge.design) (byteOf (k.gauge.design / 256)) (byteOf (k.gauge.design / 65536))
    (byteOf (k.gauge.design / 16777216))) (nat4 (byteOf k.gauge.qFull) (byteOf (k.gauge.qFull / 256))
    (byteOf (k.gauge.qFull / 65536)) (byteOf (k.gauge.qFull / 16777216)))
    (nat2 (byteOf k.gauge.cycles) (byteOf (k.gauge.cycles / 256))) = _
  simp (disch := assumption) only [nat4_bytes4, nat2_bytes2, parseGauge, gauge_clamped]
  rfl

theorem charge_clamped (e : ChargeEntry) :
    (outside 200 4000 e.iCc || outside 4100 4250 e.vCv || outside 50 500 e.iTerm || outside 50 500 e.iPre ||
      outsideInt (-10) 20 e.windowLow || outsideInt 30 55 e.windowHigh || outsideInt (-10) 25 e.cool) =
      !decide (e.held = e) := by
  obtain ⟨iCc, vCv, iTerm, iPre, windowLow, windowHigh, cool⟩ := e
  refine eq_not_decide ?_
  simp (disch := decide) only [Bool.or_eq_true, outside_iff, outsideInt_iff, ChargeEntry.held, ChargeEntry.mk.injEq,
    not_and_or, or_assoc]

/-- The ranges of CHARGE keep its relation: no held window is empty (R26). -/
theorem ChargeEntry.held_related (e : ChargeEntry) : chargeRelated e.held = true := by
  obtain ⟨-, -, -, -, low, high, -⟩ := e.held_inRange
  simp only [chargeRelated, decide_eq_true_iff]
  omega

theorem parse_charge_held {e : ChargeEntry} (iCc : e.iCc < 65536) (vCv : e.vCv < 65536) (iTerm : e.iTerm < 65536)
    (iPre : e.iPre < 65536) (low : -128 ≤ e.windowLow ∧ e.windowLow ≤ 127)
    (high : -128 ≤ e.windowHigh ∧ e.windowHigh ≤ 127) (cool : -128 ≤ e.cool ∧ e.cool ≤ 127) :
    parseEntry .charge (chargeBytes e) = some { value := .charge e.held, clamped := !decide (e.held = e) } := by
  show parseCharge (nat2 (byteOf e.iCc) (byteOf (e.iCc / 256))) (nat2 (byteOf e.vCv) (byteOf (e.vCv / 256)))
    (nat2 (byteOf e.iTerm) (byteOf (e.iTerm / 256))) (nat2 (byteOf e.iPre) (byteOf (e.iPre / 256)))
    (int1 (byteOfInt e.windowLow)) (int1 (byteOfInt e.windowHigh)) (int1 (byteOfInt e.cool)) = _
  simp (disch := omega) only [nat2_bytes2, int1_byteOfInt, parseCharge, charge_clamped]
  exact if_pos e.held_related

theorem limits_clamped (e : LimitsEntry) :
    (outside 50 600 e.wPackMax || outside 1 100 e.socKnee || outside 3000 3700 e.vSag || outside 2600 3300 e.vCut ||
      outside 45 75 e.packHot || outside 0 50 e.lowThreshold || outside 0 1250 e.lowCap) = !decide (e.held = e) := by
  obtain ⟨wPackMax, socKnee, vSag, vCut, packHot, lowThreshold, lowCap⟩ := e
  refine eq_not_decide ?_
  simp (disch := decide) only [Bool.or_eq_true, outside_iff, LimitsEntry.held, LimitsEntry.mk.injEq, not_and_or,
    or_assoc]

theorem parse_limits_held {e : LimitsEntry} (pack : e.wPackMax < 65536) (knee : e.socKnee < 256) (sag : e.vSag < 65536)
    (cut : e.vCut < 65536) (hot : e.packHot < 256) (threshold : e.lowThreshold < 256) (cap : e.lowCap < 65536) :
    parseEntry .limits (limitsBytes e) = some { value := .limits e.held, clamped := !decide (e.held = e) } := by
  show parseLimits (nat2 (byteOf e.wPackMax) (byteOf (e.wPackMax / 256))) (byteOf e.socKnee).toNat
    (nat2 (byteOf e.vSag) (byteOf (e.vSag / 256))) (nat2 (byteOf e.vCut) (byteOf (e.vCut / 256)))
    (byteOf e.packHot).toNat (byteOf e.lowThreshold).toNat (nat2 (byteOf e.lowCap) (byteOf (e.lowCap / 256))) = _
  simp (disch := assumption) only [nat2_bytes2, toNat_byteOf_self, parseLimits, limits_clamped]
  rfl

theorem watch_clamped (w : WatchRecord) :
    (outside 0 7 w.resolution || outside 0 1250 w.cap) = !decide (w.held = w) := by
  obtain ⟨kind, channel, low, high, resolution, action, cap, report⟩ := w
  refine eq_not_decide ?_
  simp only [Bool.or_eq_true, outside_iff (Nat.zero_le _), WatchRecord.held, WatchRecord.mk.injEq, not_and_or,
    not_true_eq_false, or_false, false_or]

theorem parse_watch_held {w : WatchRecord} (low : -8388608 ≤ w.low ∧ w.low ≤ 8388607)
    (high : -8388608 ≤ w.high ∧ w.high ≤ 8388607) (resolution : w.resolution < 256) (cap : w.cap < 65536) :
    parseEntry .watch (watchBytes w) =
      if watchRelated w then some { value := .watch w.held, clamped := !decide (w.held = w) } else none := by
  show parseWatch (watchKindCode w.kind) (channelCode w.channel)
    (int3 ((BitVec.ofInt 24 w.low).extractLsb' 0 8) ((BitVec.ofInt 24 w.low).extractLsb' 8 8)
      ((BitVec.ofInt 24 w.low).extractLsb' 16 8))
    (int3 ((BitVec.ofInt 24 w.high).extractLsb' 0 8) ((BitVec.ofInt 24 w.high).extractLsb' 8 8)
      ((BitVec.ofInt 24 w.high).extractLsb' 16 8))
    (byteOf w.resolution).toNat (watchActionCode w.action) (nat2 (byteOf w.cap) (byteOf (w.cap / 256)))
    (flagOf (flagByte w.report)) = _
  simp (disch := omega) only [int3_bytes3s, nat2_bytes2, toNat_byteOf_self, flagOf_flagByte, parseWatch,
    watchKindOf?_code, channelOf?_code, watchActionOf?_code, watch_clamped]
  rfl

theorem timer_clamped (e : TimerEntry) : outside 1 4095 e.preset = !decide (e.held = e) := by
  obtain ⟨rate, preset, mode, notice⟩ := e
  refine eq_not_decide ?_
  simp (disch := decide) only [outside_iff, TimerEntry.held, TimerEntry.mk.injEq, true_and, and_true]

theorem parse_timer_held {e : TimerEntry} (preset : e.preset < 65536) (running : Bool) :
    parseEntry .timer (timerBytes e running) = some { value := .timer e.held, clamped := !decide (e.held = e) } := by
  show parseTimer (rateCode e.rate) (nat2 (byteOf e.preset) (byteOf (e.preset / 256))) (modeCode e.mode)
    (flagOf (flagByte e.notice)) = _
  simp (disch := assumption) only [nat2_bytes2, flagOf_flagByte, parseTimer, rateOf?_code, modeOf?_code, timer_clamped]
  rfl

theorem service_clamped (e : ServiceEntry) : outside 0 59 e.minutes = !decide (e.held = e) := by
  obtain ⟨hours, anyHours, minutes, anyMinutes, enable⟩ := e
  refine eq_not_decide ?_
  simp (disch := decide) only [outside_iff, ServiceEntry.held, ServiceEntry.mk.injEq, true_and, and_true]

theorem parse_service_held {e : ServiceEntry} (hours : e.hours < 65536) (minutes : e.minutes < 256) (due : Bool) :
    parseEntry .service (serviceBytes e due) = some { value := .service e.held, clamped := !decide (e.held = e) } := by
  show parseService (nat2 (byteOf e.hours) (byteOf (e.hours / 256))) (flagOf (flagByte e.anyHours))
    (byteOf e.minutes).toNat (flagOf (flagByte e.anyMinutes)) (flagOf (flagByte e.enable)) = _
  simp (disch := assumption) only [nat2_bytes2, toNat_byteOf_self, flagOf_flagByte, parseService, service_clamped]
  rfl

/-! ### The write goes on as that of the held entry -/

/-- A write does what the write of the held entry does, and is answered CLAMPED unless it is that write. -/
def GoesOnAs (s : State) (sec : SectionId) (no : Byte) (sent held : List Byte) (same : Bool) : Prop :=
  ∃ u : State, writeStep (sectionCode sec) no 1 0 held s = .next (u.withReply (replyFrame 0x05 .ok [])) ∧
    writeStep (sectionCode sec) no 1 0 sent s =
      .next (u.withReply (replyFrame 0x05 (if same then .ok else .clamped) []))

section
variable {s : State} {sec : SectionId} {no : Byte} {n : Nat} {sent held : List Byte} (ready : Ready s)
  (number : no.toNat = n) (there : n < sec.entryCount) (writable : ¬(sec = .preset ∧ n = 0))
  (unheld : (touchesClaim sec n 1 && s.wcu.claim.isSome) = false)
include ready number there writable unheld

theorem goesOnAs_of_parsed (size : sent.length = sec.entrySize) (size' : held.length = sec.entrySize)
    (kept : readOnlyKept sec n sent s = true) (kept' : readOnlyKept sec n held s = true) {v : EntryValue} {same : Bool}
    (parsed : parseEntry sec sent = some { value := v, clamped := !same })
    (parsed' : parseEntry sec held = some { value := v, clamped := false }) : GoesOnAs s sec no sent held same := by
  refine ⟨_, writeStep_parsed ready number there size' writable kept' unheld parsed', ?_⟩
  rw [writeStep_parsed ready number there size writable kept unheld parsed]
  cases same <;> rfl

end

theorem service_kept (e : ServiceEntry) (s : State) :
    readOnlyKept .service 0 (serviceBytes e s.ka.serviceDue) s = true := by
  simp [readOnlyKept, entryBytes, serviceBytes, bytes2]

theorem timer_kept (u : Idx4) (e : TimerEntry) (s : State) :
    readOnlyKept .timer (unitNo u) (timerBytes e (s.tdu.timers.get u).running) s = true := by
  simp [readOnlyKept, entryBytes, timerBytes, bytes2]

theorem gauge_kept (e : GaugeEntry) (s : State) :
    readOnlyKept .gauge 0 (gaugeBytes { s.ka with gauge := e }) s = true := by
  simp [readOnlyKept, gaugeBytes, bytes2, bytes4]

/-! ### Relations that fail (R26) -/

theorem suctionRelated_iff {e : SuctionEntry} : suctionRelated e = true ↔ e.tKnee + 10 < e.tCut := decide_eq_true_iff

theorem dirtRelated_iff {e : DirtEntry} : dirtRelated e = true ↔ e.t1 < e.t2 ∧ e.t2 < e.t3 ∧ e.floor ≤ e.floorMax := by
  simp [dirtRelated, and_assoc]

/-- What breaks the relations of WATCH. -/
def WatchRecord.Broken (w : WatchRecord) : Prop :=
  w.high < w.low ∨ (w.kind = .gate ∧ (w.channel ≠ .target ∨ w.action = .override)) ∨
    (w.kind = .trap ∧ (w.channel = .target ∨ w.action = .hold))

theorem watchRelated_iff {w : WatchRecord} : watchRelated w = true ↔ ¬w.Broken := by
  obtain ⟨kind, channel, low, high, resolution, action, cap, report⟩ := w
  cases kind <;> simp [watchRelated, WatchRecord.Broken]

section
variable {s : State} (ready : Ready s)
include ready

theorem suction_written {e : SuctionEntry} (kFan : e.kFan < 65536) (sMin : e.sMin < 65536) (up : e.slewUp < 256)
    (down : e.slewDown < 256) (knee : -128 ≤ e.tKnee ∧ e.tKnee ≤ 127) (cut : -128 ≤ e.tCut ∧ e.tCut ≤ 127)
    (limit : e.currentLimit < 65536) :
    (e.held.tKnee + 10 < e.held.tCut →
      GoesOnAs s .suction 0 (suctionBytes e) (suctionBytes e.held) (decide (e.held = e))) ∧
    (e.held.tCut ≤ e.held.tKnee + 10 →
      exec (.writeSuction 0 1 0 (suctionBytes e)) s = .next (s.withReply (replyFrame 0x05 .range []))) := by
  have parsed := parse_suction_held kFan sMin up down knee cut limit
  constructor
  · intro related
    rw [if_pos (suctionRelated_iff.mpr related)] at parsed
    exact goesOnAs_of_parsed ready rfl (by decide) (by simp) rfl rfl rfl rfl rfl parsed
      (parse_suction e.held_inRange related)
  · intro unrelated
    rw [if_neg (by rw [suctionRelated_iff]; omega)] at parsed
    exact writeStep_refused (sec := .suction) ready rfl (by decide) rfl (by simp) rfl rfl parsed

theorem dirt_written {e : DirtEntry} (t1 : e.t1 < 65536) (t2 : e.t2 < 65536) (t3 : e.t3 < 65536) (h : e.h < 65536)
    (floor : e.floor < 65536) (floorMax : e.floorMax < 65536) (blank : e.blank < 65536) :
    (e.held.t1 < e.held.t2 → e.held.t2 < e.held.t3 → e.held.floor ≤ e.held.floorMax →
      GoesOnAs s .dirt 0 (dirtBytes e) (dirtBytes e.held) (decide (e.held = e))) ∧
    (e.held.t2 ≤ e.held.t1 ∨ e.held.t3 ≤ e.held.t2 ∨ e.held.floorMax < e.held.floor →
      exec (.writeDirt 0 1 0 (dirtBytes e)) s = .next (s.withReply (replyFrame 0x05 .range []))) := by
  have parsed := parse_dirt_held t1 t2 t3 h floor floorMax blank
  constructor
  · intro low high floors
    rw [if_pos (dirtRelated_iff.mpr ⟨low, high, floors⟩)] at parsed
    exact goesOnAs_of_parsed ready rfl (by decide) (by simp) rfl rfl rfl rfl rfl parsed
      (parse_dirt e.held_inRange low high floors)
  · intro unrelated
    rw [if_neg (by rw [dirtRelated_iff]; omega)] at parsed
    exact writeStep_refused (sec := .dirt) ready rfl (by decide) rfl (by simp) rfl rfl parsed

theorem watch_written {u : Idx4} {w : WatchRecord} (low : -8388608 ≤ w.low ∧ w.low ≤ 8388607)
    (high : -8388608 ≤ w.high ∧ w.high ≤ 8388607) (resolution : w.resolution < 256) (cap : w.cap < 65536)
    (free : s.wcu.claim = none ∨ u = .i0 ∨ u = .i1) :
    (¬w.Broken → GoesOnAs s .watch (byteOf (unitNo u)) (watchBytes w) (watchBytes w.held) (decide (w.held = w))) ∧
    (w.Broken → exec (.writeWatch (byteOf (unitNo u)) 1 0 (watchBytes w)) s =
      .next (s.withReply (replyFrame 0x05 .range []))) := by
  have parsed := parse_watch_held low high resolution cap
  constructor
  · intro sound
    have related := watchRelated_iff.mpr sound
    rw [if_pos related] at parsed
    exact goesOnAs_of_parsed (sec := .watch) ready (toNat_unitNo u) (unitNo_lt u) (by simp) (watch_unheld free) rfl rfl rfl rfl parsed
      (parse_watch (WatchRecord.held_inRange low high) related)
  · intro broken
    rw [if_neg (by rw [watchRelated_iff]; exact not_not_intro broken)] at parsed
    exact writeStep_refused (sec := .watch) ready (toNat_unitNo u) (unitNo_lt u) rfl (by simp) rfl (watch_unheld free)
      parsed

end

/-! ### The entries that the statement spells out -/

theorem PresetEntry.held_eq (e : PresetEntry) :
    e.held = { e with base := min 1250 e.base, step := min 250 e.step, ceiling := min 500 e.ceiling } := by
  simp only [PresetEntry.held, clampNat_zero]

theorem DirtEntry.held_eq (e : DirtEntry) : e.held =
    { t1 := max 1 (min 20000 e.t1), t2 := max 1 (min 20000 e.t2), t3 := max 1 (min 20000 e.t3), h := min 500 e.h,
      floor := min 5000 e.floor, floorMax := min 5000 e.floorMax, blank := max 10 (min 400 e.blank),
      hold := e.hold } := by
  simp only [DirtEntry.held, clampNat_zero]
  rfl

theorem LimitsEntry.held_eq (e : LimitsEntry) : e.held =
    { wPackMax := max 50 (min 600 e.wPackMax), socKnee := max 1 (min 100 e.socKnee),
      vSag := max 3000 (min 3700 e.vSag), vCut := max 2600 (min 3300 e.vCut), packHot := max 45 (min 75 e.packHot),
      lowThreshold := min 50 e.lowThreshold, lowCap := min 1250 e.lowCap } := by
  simp only [LimitsEntry.held, clampNat_zero]
  rfl

theorem WatchRecord.held_eq (w : WatchRecord) :
    w.held = { w with resolution := min 7 w.resolution, cap := min 1250 w.cap } := by
  simp only [WatchRecord.held, clampNat_zero]

theorem ServiceEntry.held_eq (e : ServiceEntry) : e.held = { e with minutes := min 59 e.minutes } := by
  simp only [ServiceEntry.held, clampNat_zero]

theorem SuctionEntry.held_of_inRange {e : SuctionEntry} (h : e.inRange) : e.held = e := by
  obtain ⟨⟨f0, f1⟩, ⟨m0, m1⟩, ⟨u0, u1⟩, ⟨d0, d1⟩, ⟨k0, k1⟩, ⟨c0, c1⟩, l0, l1⟩ := h
  simp only [SuctionEntry.held, clampNat_self f0 f1, clampNat_self m0 m1, clampNat_self u0 u1, clampNat_self d0 d1,
    clampInt_self k0 k1, clampInt_self c0 c1, clampNat_self l0 l1]

theorem DirtEntry.held_of_inRange {e : DirtEntry} (h : e.inRange) : e.held = e := by
  obtain ⟨⟨a0, a1⟩, ⟨b0, b1⟩, ⟨c0, c1⟩, h1, f1, m1, t0, t1⟩ := h
  simp only [DirtEntry.held, clampNat_self a0 a1, clampNat_self b0 b1, clampNat_self c0 c1,
    clampNat_self (Nat.zero_le _) h1, clampNat_self (Nat.zero_le _) f1, clampNat_self (Nat.zero_le _) m1,
    clampNat_self t0 t1]

/-- The status of a write by whether the held entry is the one sent. -/
theorem status_eq (p : Prop) [Decidable p] : (if !decide p then Status.clamped else .ok) = if p then .ok else .clamped := by
  by_cases h : p <;> simp [h]

/-- Settles O18, section by section; an entry in its ranges is its own held entry. -/
theorem writesAreClampedOrRefused : Obligations.WritesAreClampedOrRefused := by
  unfold Obligations.WritesAreClampedOrRefused
  intro s ready
  refine ⟨fun e pack knee sag cut hot threshold cap => ?_,
    ⟨fun p e notStop base step ceiling => ?_, fun e kFan sMin up down k0 k1 c0 c1 limit => ?_,
      fun e t1 t2 t3 h floor floorMax blank => ?_, fun e design full cycles => ?_,
      fun e iCc vCv iTerm iPre l0 l1 h0 h1 c0 c1 => ?_, fun u w l0 l1 h0 h1 resolution cap free => ?_,
      fun u e preset => ?_, fun e hours minutes => ?_⟩,
    fun e range unrelated => ?_, fun e range unrelated => ?_, fun u w range free broken => ?_⟩
  · have written := writeStep_parsed (sec := .limits) (no := 0) ready rfl (by decide) rfl (by simp) rfl rfl
      (parse_limits_held pack knee sag cut hot threshold cap)
    rw [status_eq, LimitsEntry.held_eq] at written
    exact written
  · have written := goesOnAs_of_parsed (sec := .preset) ready (toNat_presetNo p) (presetNo_lt_count p)
      (preset_writable notStop) rfl rfl rfl rfl rfl (parse_preset_held base step ceiling) (parse_preset e.held_inRange)
    rw [PresetEntry.held_eq] at written
    exact written
  · exact suction_written ready kFan sMin up down ⟨k0, k1⟩ ⟨c0, c1⟩ limit
  · have written := dirt_written ready t1 t2 t3 h floor floorMax blank
    rw [DirtEntry.held_eq] at written
    exact written
  · exact goesOnAs_of_parsed (sec := .gauge) ready rfl (by decide) (by simp) rfl rfl rfl (gauge_kept e s)
      (gauge_kept e.held s) (parse_gauge_held (k := { s.ka with gauge := e }) design full cycles)
      (parse_gauge (k := { s.ka with gauge := e.held }) (GaugeEntry.held_inRange cycles))
  · exact goesOnAs_of_parsed (sec := .charge) ready rfl (by decide) (by simp) rfl rfl rfl rfl rfl
      (parse_charge_held iCc vCv iTerm iPre ⟨l0, l1⟩ ⟨h0, h1⟩ ⟨c0, c1⟩) (parse_charge e.held_inRange)
  · have written := watch_written ready (u := u) ⟨l0, l1⟩ ⟨h0, h1⟩ resolution cap free
    rw [WatchRecord.held_eq] at written
    exact written
  · exact goesOnAs_of_parsed (sec := .timer) ready (toNat_unitNo u) (unitNo_lt u) (by simp) rfl rfl rfl
      (timer_kept u e s) (timer_kept u e.held s) (parse_timer_held preset _) (parse_timer e.held_inRange _)
  · have written := goesOnAs_of_parsed (sec := .service) ready (no := 0) rfl (by decide) (by simp) rfl rfl rfl
      (service_kept e s) (service_kept e.held s) (parse_service_held hours minutes _)
      (parse_service (ServiceEntry.held_inRange hours) _)
    rw [ServiceEntry.held_eq] at written
    exact written
  · have same := SuctionEntry.held_of_inRange range
    obtain ⟨⟨f0, f1⟩, ⟨m0, m1⟩, ⟨u0, u1⟩, ⟨d0, d1⟩, ⟨k0, k1⟩, ⟨c0, c1⟩, l0, l1⟩ := range
    exact (suction_written ready (by omega) (by omega) (by omega) (by omega) ⟨by omega, by omega⟩ ⟨by omega, by omega⟩
      (by omega)).2 (by rwa [same])
  · have same := DirtEntry.held_of_inRange range
    obtain ⟨⟨a0, a1⟩, ⟨b0, b1⟩, ⟨c0, c1⟩, h1, f1, m1, t0, t1⟩ := range
    exact (dirt_written ready (by omega) (by omega) (by omega) (by omega) (by omega) (by omega) (by omega)).2
      (by rwa [same])
  · obtain ⟨low, high, resolution, cap⟩ := range
    exact (watch_written ready low high (by omega) (by omega) free).2 broken

end Sys2Proof.Machine
end

