-- ==== Sys2Proof/Proofs/GaugeAsleep.lean ====
section
/-! PROOF. The gauge second and the shunt samples while the main domain is off or held (R30, R48, R165, R167, R168). -/

namespace Sys2Proof.Machine

/-! ### Step 2: the discharge accumulator and the cycle count (R168) -/

theorem countsCycle_iff {mean : Int} {k : KeepAlive} :
    countsCycle mean k = true ↔ mean < 0 ∧ k.gauge.qFull ≤ k.discharged + (-mean).toNat := by
  simp only [countsCycle, Bool.and_eq_true, decide_eq_true_iff]
  rfl

/-- What step 2 makes of the keep-alive domain. -/
def KeepAlive.discharge (mean : Int) (k : KeepAlive) : KeepAlive :=
  if countsCycle mean k then
    { k with
      discharged := k.discharged + dischargeOf mean - k.gauge.qFull
      gauge := { k.gauge with cycles := min 65535 (k.gauge.cycles + 1) } }
  else { k with discharged := k.discharged + dischargeOf mean }

/-- Step 2: the cycle count is a part-made write, which breaks a reservation of GAUGE, unless it is saturated. -/
theorem countDischarge_eq (mean : Int) {s : State} (range : s.ka.gauge.cycles ≤ 65535) :
    countDischarge mean s =
      if countsCycle mean s.ka = true ∧ s.ka.gauge.cycles < 65535 then
        breakReservation .gauge 0 1 (s.modKa (KeepAlive.discharge mean))
      else s.modKa (KeepAlive.discharge mean) := by
  unfold countDischarge
  dsimp only
  by_cases counts : countsCycle mean s.ka = true
  · by_cases room : s.ka.gauge.cycles < 65535
    · have next : min 65535 (s.ka.gauge.cycles + 1) = s.ka.gauge.cycles + 1 := by omega
      simp only [counts, room, and_self, if_true, State.modKa, KeepAlive.discharge, next]
    · have full : min 65535 (s.ka.gauge.cycles + 1) = s.ka.gauge.cycles := by omega
      simp only [counts, room, and_false, if_true, if_false, State.modKa, KeepAlive.discharge, full]
  · simp only [counts, false_and, if_false, State.modKa, KeepAlive.discharge, Bool.false_eq_true]

/-- What step 2 leaves, and when it breaks the reservation. -/
structure DischargeCounted (mean : Int) (s t : State) : Prop where
  ka : t.ka = s.ka.discharge mean
  rest : { t with ka := s.ka, reservation := s.reservation } = s
  uncounted : t.ka.gauge.cycles = s.ka.gauge.cycles → t.reservation = s.reservation
  broken : t.reservation = s.reservation ∨
    t.reservation = s.reservation.map fun r => if r.touchedBy .gauge 0 1 then { r with broken := true } else r
  counted : t.ka.gauge.cycles ≠ s.ka.gauge.cycles →
    t.reservation = s.reservation.map fun r => if r.touchedBy .gauge 0 1 then { r with broken := true } else r

theorem countDischarge_counted (mean : Int) {s : State} (range : s.ka.gauge.cycles ≤ 65535) :
    DischargeCounted mean s (countDischarge mean s) := by
  rw [countDischarge_eq mean range]
  split
  · next counts =>
    have cycles : (s.ka.discharge mean).gauge.cycles = s.ka.gauge.cycles + 1 := by
      simp only [KeepAlive.discharge, if_pos counts.1]
      omega
    exact ⟨rfl, rfl, fun same => absurd (cycles.symm.trans same) (by omega), .inr rfl, fun _ => rfl⟩
  · next uncounted =>
    have cycles : (s.ka.discharge mean).gauge.cycles = s.ka.gauge.cycles := by
      unfold KeepAlive.discharge
      split
      · next counts =>
        show min 65535 (s.ka.gauge.cycles + 1) = s.ka.gauge.cycles
        have full := mt (And.intro counts) uncounted
        omega
      · rfl
    exact ⟨rfl, rfl, fun _ => rfl, .inl rfl, fun moved => absurd cycles moved⟩

/-! ### The second (R165, R167) -/

def KeepAlive.emptied (k : KeepAlive) : KeepAlive := { k with accSum := 0, accCount := 0 }

/-- The mean of the second put into Q_rem, and the accumulator emptied for the next one. -/
def KeepAlive.integratedSecond (k : KeepAlive) : KeepAlive :=
  { k.emptied with qRem := integrated (k.accSum.tdiv k.accCount) k }

/-- Steps 1 to 3 while the main domain does not run: nothing is reported and no charge put in (R165, R169). -/
theorem gaugeSecond_asleep {s : State} (asleep : s.domain ≠ .awake) (sampled : s.ka.accCount ≠ 0)
    (told : State → State) :
    gaugeSecond told s =
      if s.ka.estimatePending then s.modKa KeepAlive.emptied
      else
        countDischarge (s.ka.accSum.tdiv s.ka.accCount)
          (s.modKa KeepAlive.integratedSecond) := by
  have mean : meanOf s.ka.accSum s.ka.accCount s.draws = s.ka.accSum.tdiv s.ka.accCount := if_neg sampled
  unfold gaugeSecond
  simp only [if_neg sampled, if_neg asleep, mean]
  unfold gaugeCount integrate
  by_cases pending : s.ka.estimatePending = true
  · simp only [State.modKa_ka, State.setDraws_ka, pending, if_true]
    rfl
  · simp only [State.modKa_ka, State.setDraws_ka, State.modKa_domain, State.setDraws_domain, pending, if_neg asleep,
      Bool.false_eq_true, if_false]
    rfl

theorem exec_gaugeSecond_asleep {s : State} (asleep : s.domain ≠ .awake) :
    exec .gaugeSecond s = .next (gaugeSecond tellSuction s) := congrArg Host.Outcome.next (if_neg asleep)

/-- The integration with its clamps (R165). -/
theorem integrated_cast (mean : Int) (k : KeepAlive) :
    (integrated mean k : Int) = if (k.qRem : Int) + mean < 0 then 0
      else if (k.gauge.qFull : Int) < k.qRem + mean then (k.gauge.qFull : Int) else k.qRem + mean := by
  unfold integrated clampInt
  split
  · omega
  · split <;> omega

theorem gaugeCounted_discharge {k : KeepAlive} :
    GaugeCounted k (k.integratedSecond.discharge (k.accSum.tdiv k.accCount)) := by
  have rem := integrated_cast (k.accSum.tdiv k.accCount) k
  by_cases counts : k.accSum.tdiv k.accCount < 0 ∧
      k.gauge.qFull ≤ k.discharged + (-(k.accSum.tdiv k.accCount)).toNat
  · rw [show k.integratedSecond.discharge (k.accSum.tdiv k.accCount) = _ from if_pos (countsCycle_iff.2 counts)]
    refine ⟨rem, ?_, rfl⟩
    rw [if_pos counts]
    exact ⟨rfl, rfl⟩
  · rw [show k.integratedSecond.discharge (k.accSum.tdiv k.accCount) = _ from if_neg (mt countsCycle_iff.1 counts)]
    refine ⟨rem, ?_, rfl⟩
    rw [if_neg counts]
    exact ⟨rfl, rfl⟩

/-- Settles O24, by what the second makes of the keep-alive domain and when it counts a cycle. -/
theorem gaugeSecondAsleep : Obligations.GaugeSecondAsleep := by
  unfold Obligations.GaugeSecondAsleep
  refine ⟨fun s v => rfl, fun s asleep sampled pending => ?_, fun s range asleep sampled taken => ?_⟩
  · rw [exec_gaugeSecond_asleep asleep, gaugeSecond_asleep asleep sampled, if_pos pending]
    rfl
  · rw [exec_gaugeSecond_asleep asleep, gaugeSecond_asleep asleep sampled, if_neg (by simp [taken])]
    obtain ⟨ka, rest, uncounted, broken, counted⟩ := countDischarge_counted (s.ka.accSum.tdiv s.ka.accCount)
      (s := s.modKa KeepAlive.integratedSecond) range
    refine ⟨_, rfl, ?_, ?_, uncounted, fun empty => ?_, fun r hr =>
      ⟨fun other => ?_, fun moved same first covers => ?_⟩⟩
    · rw [ka]
      exact gaugeCounted_discharge
    · exact congrArg (fun t : State => { t with ka := s.ka }) rest
    · rcases broken with kept | broken
      · exact kept.trans empty
      · exact broken.trans (congrArg (Option.map _) empty)
    · have touched : r.touchedBy .gauge 0 1 = false := by simp [Reservation.touchedBy, other]
      rcases broken with kept | broken
      · exact kept.trans hr
      · refine broken.trans ((congrArg (Option.map _) hr).trans ?_)
        simp [touched]
    · have touched : r.touchedBy .gauge 0 1 = true := by
        simpa [Reservation.touchedBy, same, first] using Nat.lt_of_lt_of_le Nat.zero_lt_one covers
      refine (counted moved).trans ((congrArg (Option.map _) hr).trans ?_)
      simp [touched]

end Sys2Proof.Machine
end

