-- ==== Sys2Proof/Proofs/WindowClassified.lean ====
section
/-! PROOF. The close of a classified window in the dirt sensing unit, the boost level with T2, and the rest at OFF and
HALT (R145 to R155). -/

namespace Sys2Proof.Machine

/-! ### The boost level and T2 (R149, R150, R152) -/

/-- A boost level that is taken writes itself and asks for the notice. -/
theorem takeBoostLevel_frame (n : Nat) (s : State) :
    takeBoostLevel n s = { s with dsu := { s.dsu with boostLevel := n }, link := (takeBoostLevel n s).link } := by
  unfold takeBoostLevel
  split
  · next same => rw [same]
  · rfl

theorem takeBoostLevel_dsu (n : Nat) (s : State) : (takeBoostLevel n s).dsu = { s.dsu with boostLevel := n } :=
  congrArg State.dsu (takeBoostLevel_frame n s)

theorem takeBoostLevel_tdu (n : Nat) (s : State) : (takeBoostLevel n s).tdu = s.tdu := by
  rw [takeBoostLevel_frame]

theorem takeBoostLevel_same {n : Nat} {s : State} (h : n = s.dsu.boostLevel) : takeBoostLevel n s = s := if_pos h

/-- A change of the boost level asks for the DIRT notice (R152). -/
theorem takeBoostLevel_notice {n : Nat} {s : State} (changed : n ≠ s.dsu.boostLevel)
    (enabled : s.link.enables.dirt = true) : (takeBoostLevel n s).link.notices.dirt = true := by
  unfold takeBoostLevel
  rw [if_neg changed, askNotice_enabled (k := .dirt)]
  · rfl
  · exact enabled

/-- A dirt level that rises to the boost level or above it, or falls with boost hold off: the boost level follows and T2
stops. -/
def followLevel (s : State) : State := takeBoostLevel s.dsu.dirtLevel (stopTimer .i2 s)

theorem followLevel_notice {s : State} (changed : s.dsu.dirtLevel ≠ s.dsu.boostLevel)
    (enabled : s.link.enables.dirt = true) : (followLevel s).link.notices.dirt = true :=
  takeBoostLevel_notice (s := stopTimer .i2 s) changed enabled

theorem followLevel_boostLevel (s : State) : (followLevel s).dsu.boostLevel = s.dsu.dirtLevel :=
  congrArg Dsu.boostLevel (takeBoostLevel_dsu _ _)

theorem followLevel_stops (s : State) : ((followLevel s).tdu.timers.get .i2).running = false := by
  unfold followLevel
  rw [takeBoostLevel_tdu]
  rfl

theorem moveBoost_follows {before : Nat} {s : State}
    (h : before < s.dsu.dirtLevel ∧ s.dsu.boostLevel ≤ s.dsu.dirtLevel ∨
      s.dsu.dirtLevel < before ∧ s.ka.dirt.hold = false) : moveBoost before s = followLevel s := by
  unfold moveBoost
  rcases h with ⟨rise, reached⟩ | ⟨fall, hold⟩
  · rw [if_pos rise, if_pos reached]
    rfl
  · rw [if_neg (by omega), if_pos fall, if_neg (by simp [hold])]
    rfl

theorem moveBoost_holds {before : Nat} {s : State} (fall : s.dsu.dirtLevel < before) (hold : s.ka.dirt.hold = true) :
    moveBoost before s = startTimer .i2 s := by
  unfold moveBoost
  rw [if_neg (by omega), if_pos fall, if_pos hold]

theorem moveBoost_stays {before : Nat} {s : State}
    (h : before < s.dsu.dirtLevel ∧ s.dsu.dirtLevel < s.dsu.boostLevel ∨ before = s.dsu.dirtLevel) :
    moveBoost before s = s := by
  unfold moveBoost
  rcases h with ⟨rise, below⟩ | same
  · rw [if_pos rise, if_neg (by omega)]
  · rw [if_neg (by omega), if_neg (by omega)]

/-- What a close does to the boost level, said once. -/
theorem moveBoost_cases (before : Nat) (s : State) :
    moveBoost before s = followLevel s ∨ moveBoost before s = startTimer .i2 s ∨ moveBoost before s = s := by
  rcases Nat.lt_trichotomy before s.dsu.dirtLevel with rise | same | fall
  · by_cases reached : s.dsu.boostLevel ≤ s.dsu.dirtLevel
    · exact .inl (moveBoost_follows (.inl ⟨rise, reached⟩))
    · exact .inr (.inr (moveBoost_stays (.inl ⟨rise, by omega⟩)))
  · exact .inr (.inr (moveBoost_stays (.inr same)))
  · cases hold : s.ka.dirt.hold with
    | false => exact .inl (moveBoost_follows (.inr ⟨fall, hold⟩))
    | true => exact .inr (.inl (moveBoost_holds fall hold))

/-- The move of the boost level touches nothing but it, T2 and the notice. -/
theorem moveBoost_frame (before : Nat) (s : State) :
    ∃ level tdu link, moveBoost before s =
      { s with dsu := { s.dsu with boostLevel := level }, tdu := tdu, link := link } := by
  rcases moveBoost_cases before s with moved | moved | moved <;> rw [moved]
  · exact ⟨_, _, _, takeBoostLevel_frame _ _⟩
  · exact ⟨s.dsu.boostLevel, _, s.link, rfl⟩
  · exact ⟨s.dsu.boostLevel, s.tdu, s.link, rfl⟩

theorem moveBoost_notice {before : Nat} {s : State}
    (changed : (moveBoost before s).dsu.boostLevel ≠ s.dsu.boostLevel) (enabled : s.link.enables.dirt = true) :
    (moveBoost before s).link.notices.dirt = true := by
  rcases moveBoost_cases before s with moved | moved | moved <;> rw [moved] at changed ⊢
  · rw [followLevel_boostLevel] at changed
    exact followLevel_notice changed enabled
  · exact absurd rfl changed
  · exact absurd rfl changed

theorem moveBoost_link {before : Nat} {s : State} (same : (moveBoost before s).dsu.boostLevel = s.dsu.boostLevel) :
    (moveBoost before s).link = s.link := by
  rcases moveBoost_cases before s with moved | moved | moved <;> rw [moved] at same ⊢
  · rw [followLevel_boostLevel] at same
    rw [followLevel, takeBoostLevel_same (s := stopTimer .i2 s) same]
    rfl
  · rfl

/-! ### Record, quiet run and floor (R147, R148, R155) -/

theorem appendRecord_length {r : WindowRecord} {ring : List WindowRecord} (h : ring.length ≤ 16) :
    (appendRecord r ring).length = min 16 (ring.length + 1) := by
  unfold appendRecord
  split
  · simp only [List.length_append, List.length_drop, List.length_singleton]
    omega
  · simp only [List.length_append, List.length_singleton]
    omega

theorem appendRecord_newest (r : WindowRecord) (ring : List WindowRecord) :
    (appendRecord r ring).getLast? = some r := List.getLast?_concat

/-- The adapted floor is held between 0 and floor_max (R148). -/
theorem adaptedFloor_cast (e : DirtEntry) (score : Nat) :
    (adaptedFloor e score : Int) = max 0 (min (e.floorMax : Int) (e.floor + ((score : Int) - e.floor).tdiv 8)) :=
  Int.toNat_of_nonneg (le_max_left _ _)

theorem adaptedFloor_le (e : DirtEntry) (score : Nat) : adaptedFloor e score ≤ e.floorMax := by
  have cast := adaptedFloor_cast e score
  omega

/-- The eighth quiet window in a row adapts the floor; the count starts again there and at any other level (R147). -/
theorem advanceQuiet_adapts {level score : Nat} {s : State} (h : level = 0 ∧ s.dsu.quiet = 7) :
    advanceQuiet level score s = adaptFloor score (s.modDsu fun d => { d with quiet := 0 }) := by
  unfold advanceQuiet
  rw [if_pos h.1, if_pos (by omega)]

theorem advanceQuiet_counts {level score : Nat} {s : State} (bound : s.dsu.quiet ≤ 7)
    (h : ¬(level = 0 ∧ s.dsu.quiet = 7)) :
    advanceQuiet level score s = s.modDsu fun d => { d with quiet := if level = 0 then d.quiet + 1 else 0 } := by
  unfold advanceQuiet
  by_cases clean : level = 0
  · simp only [if_pos clean, if_neg (show ¬8 ≤ s.dsu.quiet + 1 by omega)]
  · simp only [if_neg clean]

/-- The state of a close before its quiet run. -/
def recorded (applied : Nat) (s : State) : State :=
  s.modDsu fun d =>
    { d with
      dirtLevel := nextDirtLevel s.ka.dirt d.dirtLevel (windowNet s)
      ring := appendRecord
        { fine := d.fine
          coarse := d.coarse
          applied := applied
          classified := some
            { score := windowScore d.fine d.coarse
              net := windowNet s
              level := nextDirtLevel s.ka.dirt d.dirtLevel (windowNet s) } } d.ring }

theorem classifyWindow_eq (applied : Nat) (s : State) :
    classifyWindow applied s =
      moveBoost s.dsu.dirtLevel (advanceQuiet (nextDirtLevel s.ka.dirt s.dsu.dirtLevel (windowNet s))
        (windowScore s.dsu.fine s.dsu.coarse) (recorded applied s)) := rfl

/-- What the move of the boost level leaves of a close. -/
theorem moveBoost_leaves (before : Nat) (s : State) :
    (moveBoost before s).chan = s.chan ∧ (moveBoost before s).ka = s.ka ∧
      (moveBoost before s).reservation = s.reservation ∧ (moveBoost before s).dsu.dirtLevel = s.dsu.dirtLevel ∧
      (moveBoost before s).dsu.ring = s.dsu.ring ∧ (moveBoost before s).dsu.quiet = s.dsu.quiet := by
  obtain ⟨level, tdu, link, moved⟩ := moveBoost_frame before s
  rw [moved]
  exact ⟨rfl, rfl, rfl, rfl, rfl, rfl⟩

/-- What the quiet run leaves of a close's record. -/
theorem advanceQuiet_leaves (level score : Nat) (s : State) :
    (advanceQuiet level score s).chan = s.chan ∧ (advanceQuiet level score s).dsu.dirtLevel = s.dsu.dirtLevel ∧
      (advanceQuiet level score s).dsu.ring = s.dsu.ring := by
  unfold advanceQuiet
  split
  · split <;> exact ⟨rfl, rfl, rfl⟩
  · exact ⟨rfl, rfl, rfl⟩

theorem advanceQuiet_quiet {level score : Nat} {s : State} (bound : s.dsu.quiet ≤ 7) :
    (advanceQuiet level score s).dsu.quiet = if level = 0 ∧ s.dsu.quiet ≠ 7 then s.dsu.quiet + 1 else 0 := by
  by_cases adapts : level = 0 ∧ s.dsu.quiet = 7
  · rw [advanceQuiet_adapts adapts, if_neg (fun counts => counts.2 adapts.2)]
    rfl
  · rw [advanceQuiet_counts bound adapts]
    by_cases clean : level = 0
    · rw [if_pos ⟨clean, fun last => adapts ⟨clean, last⟩⟩]
      exact if_pos clean
    · rw [if_neg (fun counts => clean counts.1)]
      exact if_neg clean

/-! ### The rest at OFF and HALT (R153) -/

/-- The dirt sensing unit at rest after a state `s`: its levels and quiet run at 0 and T2 stopped. -/
structure DirtRests (s t : State) : Prop where
  dsu : t.dsu = { s.dsu with dirtLevel := 0, boostLevel := 0, quiet := 0 }
  entry : t.tdu.entries.i2 = s.tdu.entries.i2
  timer : t.tdu.timers.i2 = Timer.reloadedFrom s.tdu.entries.i2 false

theorem DirtRests.of_same {s t u : State} (h : DirtRests s t) (dsu : u.dsu = t.dsu)
    (entry : u.tdu.entries.i2 = t.tdu.entries.i2) (timer : u.tdu.timers.i2 = t.tdu.timers.i2) : DirtRests s u :=
  ⟨dsu.trans h.dsu, entry.trans h.entry, timer.trans h.timer⟩

section
variable {s : State} {told : State → State}

theorem recordHit_dirtRests (u : Idx4) : Keeps (DirtRests s) (recordHit u) :=
  recordHit_keeps (fun _ _ _ h => h.of_same rfl rfl rfl) (fun _ _ h => h.of_same rfl rfl rfl) u

theorem askNotice_dirtRests (k : NoticeKind) : Keeps (DirtRests s) (askNotice k) := fun _ h => h.of_same rfl rfl rfl

theorem carried_dirtRests (f : Snc → Snc) : Keeps (DirtRests s) (carried f) := by
  intro t h
  unfold carried
  split <;> exact h.of_same rfl rfl rfl

theorem commitSuction_dirtRests (ht : Keeps (DirtRests s) told) (f : Snc → Snc) :
    Keeps (DirtRests s) (commitSuction told f) := fun t h =>
  commitSuction_keeps askNotice_dirtRests ht (carried_dirtRests f t h)

theorem takeTarget_dirtRests (ht : Keeps (DirtRests s) told) (target : Nat) :
    Keeps (DirtRests s) (takeTarget told target) := by
  intro t h
  have commit := commitSuction_dirtRests ht
  have hits := recordGateHits_keeps (I := DirtRests s) (fun _ _ _ h => h.of_same rfl rfl rfl)
    (fun _ _ h => h.of_same rfl rfl rfl) target t h
  unfold takeTarget
  dsimp only
  split
  · exact h
  · split <;> exact commit _ t h
  · split
    · exact commit _ t h
    · split <;> exact commit _ _ hits

theorem reportCondition_dirtRests (flag : ConditionFlag) (src : ConditionSource) :
    Keeps (DirtRests s) (reportCondition flag src) := by
  intro t h
  unfold reportCondition
  split
  · exact h
  · dsimp only
    split <;> exact h.of_same rfl rfl rfl

theorem evaluate_dirtRests (ht : Keeps (DirtRests s) told) : Keeps (DirtRests s) (evaluate told) := by
  intro t h
  have one := reportIf_keeps (I := DirtRests s) reportCondition_dirtRests
  unfold evaluate
  split
  · exact h
  · exact takeTarget_dirtRests ht _ _ (one _ _ _ _ (one _ _ _ _ (one _ _ _ _ (one _ _ _ t h))))

theorem changeStack_dirtRests (ht : Keeps (DirtRests s) told) (c : Option Snc) :
    Keeps (DirtRests s) (changeStack told c) := by
  intro t h
  cases c with
  | none => exact h
  | some c => exact evaluate_dirtRests ht _ (h.of_same rfl rfl rfl)

/-- The budget's way keeps the dirt sensing unit at rest. -/
theorem dirtRests_budgetKept (s : State) : BudgetKept (DirtRests s) where
  raiseSoft ht src cap t h := by
    unfold raiseSoft
    split
    · exact changeStack_dirtRests ht _ t h
    · exact h
  clearSoft ht src t h := changeStack_dirtRests ht _ t h
  tellBudget ht w t h := evaluate_dirtRests ht _ (h.of_same rfl rfl rfl)
  report := reportCondition_dirtRests
  compareBudget := compareKept (fun _ _ _ h => h.of_same rfl rfl rfl) (fun _ _ h => h.of_same rfl rfl rfl) .budget
  link _ _ _ h := h.of_same rfl rfl rfl
  chan _ _ _ h := h.of_same rfl rfl rfl
  budget _ _ h := h.of_same rfl rfl rfl
  draws _ _ h := h.of_same rfl rfl rfl

theorem announcePack_dirtRests : Keeps (DirtRests s) (announcePack id) :=
  announcePack_keeps (dirtRests_budgetKept s) id_keeps

/-- Where the unit rests, a further rest changes nothing. -/
theorem dirtStop_dirtRests : Keeps (DirtRests s) (dirtStop id) := by
  intro t h
  have dsu : { t.dsu with dirtLevel := 0, quiet := 0 } = t.dsu := by rw [h.dsu]
  have boost : 0 = t.dsu.boostLevel := by rw [h.dsu]
  have rested : DirtRests s (stopTimer .i2 (t.modDsu fun d => { d with dirtLevel := 0, quiet := 0 })) :=
    ⟨dsu.trans h.dsu, h.entry, congrArg (Timer.reloadedFrom · false) h.entry⟩
  unfold dirtStop setBoostLevel
  split
  · exact rested
  · next moved => exact absurd boost moved

theorem dirtTold_dirtRests : Keeps (DirtRests s) dirtTold := by
  intro t h
  unfold dirtTold
  split
  · exact dirtStop_dirtRests t h
  · exact dirtStop_dirtRests t h
  all_goals exact h

theorem takePackState_dirtRests (new : PackState) : Keeps (DirtRests s) (takePackState new) := by
  intro t h
  unfold takePackState
  dsimp only
  split <;> exact h.of_same rfl rfl rfl

theorem clearLowMark_dirtRests : Keeps (DirtRests s) (clearLowMark dirtTold) := by
  intro t h
  unfold clearLowMark clearHard
  split
  · split
    · exact changeStack_dirtRests dirtTold_dirtRests _ _ (h.of_same rfl rfl rfl)
    · exact h.of_same rfl rfl rfl
  · exact h

theorem claimWatches_dirtRests : Keeps (DirtRests s) (claimWatches dirtTold) := by
  intro t h
  have cleared : DirtRests s (tellCleared dirtTold [.i2, .i3] t.wcu.comparisons (clearComparisons [.i2, .i3] t)) :=
    inAnyOrder_keeps (fun _ _ h => h.of_same rfl rfl rfl) _ (fun e m => by
      obtain ⟨u, -, rfl⟩ := List.mem_map.mp m
      exact (dirtRests_budgetKept s).clearSoft dirtTold_dirtRests _) _ (h.of_same rfl rfl rfl)
  exact cleared.of_same rfl rfl rfl

theorem startTimer_i1_dirtRests : Keeps (DirtRests s) (startTimer .i1) := fun _ h => h.of_same rfl rfl rfl

theorem modPmg_dirtRests (f : Pmg → Pmg) : Keeps (DirtRests s) (State.modPmg f) := fun _ h => h.of_same rfl rfl rfl

theorem askAnew_dirtRests : Keeps (DirtRests s) askAnew := fun _ h => h.of_same rfl rfl rfl

theorem chargeEntry_dirtRests : Keeps (DirtRests s) (chargeEntry id) := fun t h =>
  have claimed := claimWatches_dirtRests _ (clearLowMark_dirtRests _ (modPmg_dirtRests _ t h))
  announcePack_dirtRests _ (askAnew_dirtRests _ (modPmg_dirtRests _ _
    (takePackState_dirtRests _ _ (startTimer_i1_dirtRests _ claimed))))

theorem entryFault_dirtRests (kind : ChargeFault) : Keeps (DirtRests s) (entryFault id kind) := fun t h =>
  announcePack_dirtRests _ ((takePackState_dirtRests (.fault kind) t h).of_same rfl rfl rfl)

theorem chargeEntryTest_dirtRests : Keeps (DirtRests s) (chargeEntryTest id) := by
  intro t h
  unfold chargeEntryTest
  split
  · split
    · exact h
    · split
      · exact entryFault_dirtRests _ t h
      · split
        · exact chargeEntry_dirtRests t h
        · exact entryFault_dirtRests _ t h
  · exact h

end

/-- The stop of the dirt sensing unit brings it to rest (R153). -/
theorem dirtStop_rests (s : State) : DirtRests s (dirtStop id s) := by
  unfold dirtStop setBoostLevel
  split
  · next low =>
    have boost : s.dsu.boostLevel = 0 := low.symm
    exact ⟨congrArg (fun n => { s.dsu with dirtLevel := 0, boostLevel := n, quiet := 0 }) boost, rfl, rfl⟩
  · exact evaluate_dirtRests id_keeps _
      ⟨takeBoostLevel_dsu _ _, by rw [takeBoostLevel_tdu]; rfl, by rw [takeBoostLevel_tdu]; rfl⟩

/-! ### The DIRT notice of the rest (R152) -/

theorem NoticeMarks.get_set_same (m : NoticeMarks) (k : NoticeKind) (b : Bool) : (m.set k b).get k = b := by
  cases k <;> rfl

theorem NoticeMarks.get_set_other (m : NoticeMarks) {j k : NoticeKind} (h : k ≠ j) (b : Bool) :
    (m.set j b).get k = m.get k := by
  cases j <;> cases k <;> simp_all [NoticeMarks.set, NoticeMarks.get]

/-- A request for a notice takes no mark away. -/
theorem NoticeMarks.get_set_true {m : NoticeMarks} {k j : NoticeKind} (h : m.get k = true) :
    (m.set j true).get k = true := by
  rcases eq_or_ne k j with rfl | other
  · exact m.get_set_same k true
  · exact (m.get_set_other other true).trans h

/-- No event of the main domain takes a notice's mark away while no notice is sent (R7). -/
theorem noticeStays_closed (k : NoticeKind) :
    MainClosed fun s t => s.link.notices.get k = true → t.link.notices.get k = true where
  refl _ h := h
  trans _ _ _ a b h := b (a h)
  snc _ _ h := h
  chan _ _ h := h
  tdu _ _ h := h
  dsu _ _ h := h
  draws _ _ h := h
  notice j s h := by
    simp only [askNotice, State.modLink]
    split
    · exact NoticeMarks.get_set_true h
    · exact h
  hit u s h := by
    unfold recordHit
    dsimp only
    split
    · simp only [askWatchNotice, State.modLink]
      split
      · exact NoticeMarks.get_set_true h
      · exact h
    · exact h
  wcu _ _ h := h
  pmg _ _ h := h
  dlc _ _ h := h
  reservation _ _ h := h
  bleed _ _ h := h
  timerNotice j s h := by
    simp only [askTimerNotice, State.modLink]
    split
    · exact NoticeMarks.get_set_true h
    · exact h
  detectorNotice d b s h := by
    simp only [askDetectorNotice, State.modLink]
    split
    · exact NoticeMarks.get_set_true h
    · exact h

theorem dirtStop_notice {s : State} (boosted : s.dsu.boostLevel ≠ 0) (enabled : s.link.enables.dirt = true) :
    (dirtStop id s).link.notices.dirt = true := by
  have closed := (noticeStays_closed .dirt).toEvalClosed
  unfold dirtStop setBoostLevel
  split
  · next low => exact absurd low.symm boosted
  · next changed => exact evaluate_moves closed closed.refl _ (takeBoostLevel_notice changed enabled)

/-! ### The telling of a suction state -/

/-- The telling of OFF or HALT: the stop of the dirt sensing unit, and at OFF the test of charge entry. -/
theorem tellSuction_stops {s : State} (h : s.snc.suction.reported = .off ∨ s.snc.suction.reported = .halt) :
    tellSuction s = chargeEntryTest id (dirtStop id s) ∨ tellSuction s = dirtStop id s := by
  unfold tellSuction suctionTold
  rcases h with off | halt
  · rw [off]
    exact .inl rfl
  · rw [halt]
    exact .inr rfl

theorem tellSuction_silent {s : State} (h : s.snc.suction.reported = .spinUp ∨ s.snc.suction.reported = .run ∨
    s.snc.suction.reported = .held ∨ s.snc.suction.reported = .brake) : tellSuction s = s := by
  unfold tellSuction suctionTold
  rcases h with state | state | state | state <;> rw [state]

/-! ### The obligation -/

/-- Settles O51: the close by its three parts, the boost level by its cases, the rest as what the charge entry keeps. -/
theorem windowIsClassified : Obligations.WindowIsClassified := by
  unfold Obligations.WindowIsClassified
  refine ⟨fun s ring quiet _ => ?_, fun before s => ?_, fun s => ⟨fun rests => ?_, tellSuction_silent⟩⟩
  · let level := nextDirtLevel s.ka.dirt s.dsu.dirtLevel (windowNet s)
    obtain ⟨chan, ka, reservation, dirtLevel, records, run⟩ := moveBoost_leaves s.dsu.dirtLevel
      (advanceQuiet level (windowScore s.dsu.fine s.dsu.coarse) (recorded s.snc.applied (storeNet s)))
    obtain ⟨chan', dirtLevel', records'⟩ := advanceQuiet_leaves level (windowScore s.dsu.fine s.dsu.coarse)
      (recorded s.snc.applied (storeNet s))
    have records := records.trans records'
    refine ⟨chan.trans chan', dirtLevel.trans dirtLevel', (congrArg List.length records).trans (appendRecord_length ring),
      (congrArg List.getLast? records).trans (appendRecord_newest _ _), run.trans (advanceQuiet_quiet quiet),
      fun counts => ?_, fun adapts => ?_⟩
    · have counted := advanceQuiet_counts (score := windowScore s.dsu.fine s.dsu.coarse)
        (s := recorded s.snc.applied (storeNet s)) quiet counts
      exact ⟨ka.trans (congrArg State.ka counted :), reservation.trans (congrArg State.reservation counted :)⟩
    · have adapted := advanceQuiet_adapts (score := windowScore s.dsu.fine s.dsu.coarse)
        (s := recorded s.snc.applied (storeNet s)) adapts
      have ka : (classifyWindow s.snc.applied (storeNet s)).ka = { s.ka with dirt := { s.ka.dirt with
          floor := adaptedFloor s.ka.dirt (windowScore s.dsu.fine s.dsu.coarse) } } :=
        ka.trans (congrArg State.ka adapted)
      have reservation := reservation.trans (congrArg State.reservation adapted)
      refine ⟨?_, ?_, ?_, fun reserved => reservation.trans ?_⟩
      · rw [ka]
      · rw [ka]
        exact adaptedFloor_le _ _
      · rw [ka]
        exact adaptedFloor_cast _ _
      · exact congrArg (Option.map _) reserved
  · refine ⟨fun rise reached => ?_, fun rise below => moveBoost_stays (.inl ⟨rise, below⟩), fun fall hold => ?_,
      fun fall hold => ?_, fun same => moveBoost_stays (.inr same), moveBoost_notice, moveBoost_link⟩
    · rw [moveBoost_follows (.inl ⟨rise, reached⟩)]
      exact ⟨followLevel_boostLevel s, followLevel_stops s⟩
    · rw [moveBoost_holds fall hold]
      exact ⟨rfl, rfl⟩
    · rw [moveBoost_follows (.inr ⟨fall, hold⟩)]
      exact ⟨followLevel_boostLevel s, followLevel_stops s⟩
  · have stopped := dirtStop_rests s
    rcases tellSuction_stops rests with told | told <;> rw [told]
    · obtain ⟨dsu, -, timer⟩ := chargeEntryTest_dirtRests _ stopped
      exact ⟨dsu, timer, fun boosted enabled => chargeEntryTest_moves (noticeStays_closed .dirt)
        (noticeStays_closed .dirt).refl _ (dirtStop_notice boosted enabled)⟩
    · exact ⟨stopped.dsu, stopped.timer, dirtStop_notice⟩

end Sys2Proof.Machine
end

section
/-! PROOF. The requests that only read (R47, R64, R136, R156). -/

namespace Sys2Proof.Machine

theorem exec_readChannels {s : State} (ready : Ready s) {ids : List Byte} (some : 1 ≤ ids.length)
    (few : ids.length ≤ 11) :
    exec (.readChannels ids) s =
      .next ((readChannels ids s).state.withReply
        (replyFrame 0x03 (readChannels ids s).status (readChannels ids s).body)) :=
  requestStep_of_ready ready 0x03 ids rfl (by simp [lengthAllowed, some, few])

/-- A number of channels that is not listed is refused before they are looked at (R5). -/
theorem exec_readChannels_unlisted {s : State} (ready : Ready s) {ids : List Byte}
    (unlisted : ids.length = 0 ∨ 12 ≤ ids.length) :
    exec (.readChannels ids) s = .next (s.withReply (replyFrame 0x03 .length [])) := by
  have refused : lengthAllowed 0x03 ids.length = false := by
    simp only [lengthAllowed, Bool.and_eq_false_iff, decide_eq_false_iff_not]
    omega
  obtain ⟨-, refusal⟩ := linkRefusals s 0x03 ids ready
  exact refusal (by decide) refused

theorem channelOf?_none {b : Byte} (h : 11 ≤ b.toNat) : channelOf? b = none := by
  unfold channelOf?
  split <;> first | rfl | (exfalso; omega)

theorem readChannels_unknown {ids : List Byte} (s : State) (unknown : ∃ b ∈ ids, 11 ≤ b.toNat) :
    readChannels ids s = refuse .badIndex s := by
  obtain ⟨b, mem, high⟩ := unknown
  exact if_pos (List.any_eq_true.mpr ⟨b, mem, by rw [channelOf?_none high]; rfl⟩)

/-- The codes of channels are read back as the channels in the order asked, and a body beyond 62 bytes leaves no room
for the status (R47). -/
theorem readChannels_codes (ids : List ChannelId) (s : State) :
    let body := (ids.map (channelRecord s.chan)).flatten
    readChannels (ids.map channelCode) s = if body.length ≤ 62 then answerOk s body else refuse .length s := by
  intro body
  have known : (ids.map channelCode).any (fun b => (channelOf? b).isNone) = false := by simp
  have asked : (ids.map channelCode).filterMap channelOf? = ids := by simp [List.filterMap_map]
  unfold readChannels
  rw [if_neg (by simp [known]), asked]
  change (if 63 < body.length + 1 then _ else answerOk s body) = _
  by_cases fits : body.length ≤ 62
  · rw [if_pos fits, if_neg (by omega)]
  · rw [if_neg fits, if_pos (by omega)]

theorem historyPage_eq (n : Nat) (ring : List WindowRecord) :
    historyPage n ring = (ring.drop (ring.length - n)).take 5 := by
  have oldest : ring.length - min n ring.length = ring.length - n := by omega
  exact congrArg (fun k => (ring.drop k).take 5) oldest

theorem readDirtHistory_refused {count : Byte} (s : State) (h : count.toNat = 0 ∨ 17 ≤ count.toNat) :
    readDirtHistory count s = refuse .badIndex s :=
  if_pos (h.imp BitVec.eq_of_toNat_eq id)

theorem readDirtHistory_page {count : Byte} (s : State) (low : 1 ≤ count.toNat) (high : count.toNat ≤ 16) :
    let page := (s.dsu.ring.drop (s.dsu.ring.length - count.toNat)).take 5
    readDirtHistory count s = answerOk s (byteOf page.length :: (page.map historyBytes).flatten) := by
  have listed : ¬(count = 0 ∨ 16 < count.toNat) := by
    rintro (rfl | above)
    · exact absurd low (by decide)
    · omega
  intro page
  rw [readDirtHistory, if_neg listed, historyPage_eq]

theorem exec_readDirtHistory {s : State} (ready : Ready s) (count : Byte) :
    exec (.readDirtHistory count) s =
      .next ((readDirtHistory count s).state.withReply
        (replyFrame 0x10 (readDirtHistory count s).status (readDirtHistory count s).body)) :=
  requestStep_of_ready ready 0x10 [count] rfl rfl

/-- Settles O21, request by request. -/
theorem requestsThatRead : Obligations.RequestsThatRead := by
  unfold Obligations.RequestsThatRead
  intro s ready
  refine ⟨?_, requestStep_of_ready ready 0x0C [] rfl rfl, fun count unlisted => ?_, fun count low high => ?_,
    fun ids unlisted => exec_readChannels_unlisted ready unlisted, fun ids some few unknown => ?_,
    fun ids some few => ?_⟩
  · refine (requestStep_of_ready ready 0x13 [] rfl rfl).trans ?_
    show Host.Outcome.next (s.withReply (replyFrame 0x13 .ok (runTimeBytes _ ++ runTimeBytes _))) = _
    simp only [runTimeBytes, List.append_assoc]
  · rw [exec_readDirtHistory ready, readDirtHistory_refused s unlisted]
    rfl
  · rw [exec_readDirtHistory ready, readDirtHistory_page s low high]
    rfl
  · rw [exec_readChannels ready some few, readChannels_unknown s unknown]
    rfl
  · dsimp only
    rw [exec_readChannels ready (by simpa using some) (by simpa using few), readChannels_codes]
    split <;> rfl

end Sys2Proof.Machine
end

section
/-! PROOF. The gauge second at which PRECHARGE_LIMIT releases a BUDGET trap (R84, R158, R166, R175, R188). -/

namespace Sys2Proof.Machine

variable {told : State → State}

/-- With nothing of another block to take, a trap's channel is compared, and the claimed hits are told. -/
theorem compareAmong_alone (deliver : Telling → State → State) (channel : ChannelId) (sample : List Reading) {s : State}
    (trapped : s.wcu.traps channel = true) :
    compareAmong deliver channel sample [] s =
      inAnyOrder ((watchEvent deliver channel sample (s.setDraws (s.draws + 1))).2.map deliver)
        (watchEvent deliver channel sample (s.setDraws (s.draws + 1))).1 := by
  unfold compareAmong
  rw [if_pos trapped]
  dsimp only
  split <;> rfl

/-- The record that the host wrote into W2 before the charge: a trap on a BUDGET of 0 that overrides with a cap of 300. -/
def budgetTrap : WatchRecord :=
  { WatchRecord.warm with kind := .trap, channel := .budget, action := .override, cap := 300 }

/-- The last second of a PRECHARGE with an empty pack: W2 and W3 are claimed, so no unit traps SOC or BUDGET, and the
DOCKED entry is the only one of the stack. -/
def lastPrechargeSecond : State :=
  { State.reset with
    ka := { KeepAlive.cold with accCount := 1, estimatePending := false }
    wcu := { Wcu.warm with
      entries := { Wcu.warm.entries with i2 := loadedW2 KeepAlive.cold.charge, i3 := loadedW3 KeepAlive.cold.charge }
      claim := some { w2 := budgetTrap, w3 := WatchRecord.warm } }
    snc := { Snc.warm with
      stack := [{ source := .docked, cap := 0, saved := true, released := false }]
      boostPermitted := false
      marks := { HardMarks.clear with docked := true } }
    pmg := { Pmg.warm with state := .charging .precharge, precharge := 1799 }
    dlc := { Dlc.warm with session := .active } }

/-- The second up to the precharge clock. -/
def beforeClock : State :=
  computeBudgetThen tellSuction (judgeLowCharge tellSuction)
    (foldbackStep 0 (storeSoc (gaugeCount 0 (lastPrechargeSecond.modKa KeepAlive.emptied))))

/-- The fault PRECHARGE_LIMIT, up to the budget that its announcement computes. -/
def beforeBudget : State :=
  askNotice .pack (leaveCharging (leaveOrder (takePackState (.fault .prechargeLimit)
    (beforeClock.modPmg fun p => { p with precharge := p.precharge + 1 }))))

/-- At the fault the release has put the trap back, and the announcement stores a BUDGET of 0 and compares it, though the
budget was 0 before. -/
theorem lastPrechargeSecond_faults : gaugeSecond tellSuction lastPrechargeSecond =
    balanceStep (trimStep (compareAmong (deliverOverride tellSuction) .budget [.valid 0] []
      (storeBudget beforeBudget))) := rfl

/-- So the watch unit's entry stands above the one of LOW_CHARGE. -/
theorem lastPrechargeSecond_stack :
    (gaugeSecond tellSuction lastPrechargeSecond).pmg.lowCharge = true ∧
      (gaugeSecond tellSuction lastPrechargeSecond).snc.stack.map OverrideEntry.source =
        [.watch .i2, .lowCharge, .docked] := by
  rw [lastPrechargeSecond_faults, compareAmong_alone _ _ _ (by decide)]
  decide

theorem exec_gaugeSecond_quiet {s : State} (q : Quiet s) :
    exec .gaugeSecond s = .next (gaugeSecond tellSuction s) := by
  have line := gaugeSecond_moves lineKept_unitClosed (tellSuction_moves lineKept_closed) s
  exact congrArg Host.Outcome.next ((if_pos q.awake).trans (settle_of_quiet (q.of_kept line)))

/-- Refutes O25: its stack clauses ask for no trap of SOC or BUDGET before the second, and at PRECHARGE_LIMIT the same
second releases one of BUDGET, whose unit pushes an entry above the one of LOW_CHARGE. -/
theorem not_gaugeSecondAwake : ¬ Obligations.GaugeSecondAwake := by
  unfold Obligations.GaugeSecondAwake
  intro h
  have q : Quiet lastPrechargeSecond := ⟨rfl, by decide, .inl rfl⟩
  obtain ⟨t, done, -, -, -, -, -, -, -, -, -, -, ⟨-, -, stack⟩, -⟩ := h _ q (by decide) (by decide) rfl
  obtain rfl : gaugeSecond tellSuction lastPrechargeSecond = t :=
    Host.Outcome.next.inj ((exec_gaugeSecond_quiet q).symm.trans done)
  obtain ⟨low, sources⟩ := lastPrechargeSecond_stack
  obtain ⟨pushed, -⟩ := stack rfl rfl (by decide)
  have top := (pushed ⟨low, rfl⟩ rfl (by decide)).1
  rw [top] at sources
  exact absurd sources (by decide)

end Sys2Proof.Machine
end

section
/-! PROOF. What the telling of a sample leaves: the channels that it did not store, the pack-current accumulator, and
the hard conditions of other owners (R36, R37, R44, R48, R103, R162). -/

namespace Sys2Proof.Machine

/-! ### What stands through a telling -/

/-- The hard sources that their own event alone raises and clears (R103). PACK_LOW is the other one: a charge entry clears
it too (R186). -/
def Source.lasts : Source → Bool
  | .binOpen | .docked | .motorHot | .packHot => true
  | .packLow | .watch _ | .lowCharge | .hostCap => false

/-- The channel table but for TARGET and BUDGET, which the suction controller and the pack manager store when they are
told (R45). -/
def Channels.measured (c : Channels) : Channels := { c with target := 0, budget := 0 }

/-- What only a sample itself, or the owner of the source `src`, moves. The hot mark goes with PACK_HOT (R162). -/
structure Standing where
  measured : Channels
  accSum : Int
  accCount : Nat
  marked : Bool
  inForce : Bool
  hot : Bool

def standing (src : Source) (s : State) : Standing where
  measured := s.chan.measured
  accSum := s.ka.accSum
  accCount := s.ka.accCount
  marked := s.snc.marks.get src
  inForce := s.snc.hasUnreleased src
  hot := decide (src = .packHot) && s.pmg.hotMark

/-- An operation that leaves it. -/
abbrev Leaves (src : Source) (f : State → State) : Prop := ∀ s, standing src (f s) = standing src s

variable {src : Source} {told : State → State}

theorem id_leaves : Leaves src id := fun _ => rfl

theorem Leaves.comp {f g : State → State} (hf : Leaves src f) (hg : Leaves src g) : Leaves src fun s => g (f s) :=
  fun s => (hg _).trans (hf s)

theorem inAnyOrder_leaves {events : List (State → State)} (he : ∀ e ∈ events, Leaves src e) :
    Leaves src (inAnyOrder events) := fun s =>
  inAnyOrder_keeps (I := fun t => standing src t = standing src s) (fun _ _ h => h) events
    (fun e m _ h => (he e m _).trans h) s rfl

/-! ### The drive -/

/-- A change of the suction controller that is one of the drive: the conditions and the stack stay. -/
def DriveMove (f : Snc → Snc) : Prop := ∀ c, (f c).marks = c.marks ∧ (f c).stack = c.stack

theorem hasUnreleased_congr {c d : Snc} (h : d.stack = c.stack) : d.hasUnreleased src = c.hasUnreleased src := by
  unfold Snc.hasUnreleased
  rw [h]

theorem standing_modSnc {f : Snc → Snc} {s : State} (marked : (f s.snc).marks.get src = s.snc.marks.get src)
    (inForce : (f s.snc).hasUnreleased src = s.snc.hasUnreleased src) :
    standing src (s.modSnc f) = standing src s := by
  simp only [standing, State.modSnc, marked, inForce]

theorem DriveMove.leaves {f : Snc → Snc} (hf : DriveMove f) : Leaves src (State.modSnc f) := fun s =>
  standing_modSnc (congrArg (HardMarks.get · src) (hf s.snc).1) (hasUnreleased_congr (hf s.snc).2)

theorem carried_leaves {f : Snc → Snc} (hf : DriveMove f) : Leaves src (carried f) := by
  intro s
  unfold carried
  split <;> exact hf.leaves s

theorem commitSuction_leaves (ht : Leaves src told) {f : Snc → Snc} (hf : DriveMove f) :
    Leaves src (commitSuction told f) := by
  intro s
  rw [commitSuction_eq]
  split
  · exact carried_leaves hf s
  · exact (ht _).trans (carried_leaves hf s)

theorem adoptInto_driveMove (target speed : Nat) (m : Motion) : DriveMove (Snc.adoptInto target speed m) := by
  intro c
  unfold Snc.adoptInto Snc.adopt
  split <;> exact ⟨rfl, rfl⟩

theorem halted_driveMove (cause : HaltCause) : DriveMove (Snc.halted cause) := by
  intro c
  unfold Snc.halted
  split <;> exact ⟨rfl, rfl⟩

theorem speedMoves_driveMove (speed : Nat) : DriveMove (Snc.speedMoves speed) := by
  intro c
  unfold Snc.speedMoves Snc.testSpinUp
  split
  · split <;> exact ⟨rfl, rfl⟩
  · split <;> exact ⟨rfl, rfl⟩
  · split <;> exact ⟨rfl, rfl⟩
  all_goals exact ⟨rfl, rfl⟩

theorem countStall_driveMove (speed : Nat) : DriveMove (Snc.countStall speed) := by
  intro c
  unfold Snc.countStall
  split <;> exact ⟨rfl, rfl⟩

theorem countOver_driveMove (current limit : Nat) : DriveMove (Snc.countOver current limit) := by
  intro c
  unfold Snc.countOver
  split <;> exact ⟨rfl, rfl⟩

theorem enterHalt_leaves (ht : Leaves src told) (cause : HaltCause) : Leaves src (enterHalt told cause) :=
  commitSuction_leaves ht (halted_driveMove cause)

/-! ### Evaluation -/

theorem recordGateHits_leaves (target : Nat) : Leaves src (recordGateHits target) := fun s =>
  recordGateHits_keeps (I := fun t => standing src t = standing src s) (fun _ _ _ h => h) (fun _ _ h => h) target s rfl

theorem takeTarget_leaves (ht : Leaves src told) (target : Nat) : Leaves src (takeTarget told target) := by
  intro s
  have pending (m : Motion) : DriveMove fun c => { c with suction := .held m target } := fun _ => ⟨rfl, rfl⟩
  have adopts (m : Motion) := commitSuction_leaves ht (adoptInto_driveMove target s.chan.speed m)
  have hits := recordGateHits_leaves (src := src) target s
  unfold takeTarget
  dsimp only
  split
  · rfl
  · split
    · exact commitSuction_leaves ht (pending _) s
    · exact adopts _ s
  · split
    · exact adopts _ s
    · split
      · exact (commitSuction_leaves ht (pending _) _).trans hits
      · exact (adopts _ _).trans hits

theorem reportCondition_leaves (flag : ConditionFlag) (source : ConditionSource) :
    Leaves src (reportCondition flag source) := by
  intro s
  unfold reportCondition
  split
  · rfl
  · dsimp only
    split <;> rfl

theorem reportIf_leaves (b : Bool) (flag : ConditionFlag) (source : ConditionSource) :
    Leaves src (reportIf b flag source) := by
  intro s
  unfold reportIf
  split
  · exact reportCondition_leaves flag source s
  · rfl

theorem evaluate_leaves (ht : Leaves src told) : Leaves src (evaluate told) := by
  intro s
  have reports (c : Computed) : Leaves src (reportComputed c) := fun s =>
    (reportIf_leaves _ _ _ _).trans ((reportIf_leaves _ _ _ _).trans
      ((reportIf_leaves _ _ _ _).trans (reportIf_leaves _ _ _ s)))
  unfold evaluate
  split
  · rfl
  · exact (takeTarget_leaves ht _ _).trans (reports _ s)

/-! ### Other sources come and go -/

theorem hasUnreleased_mapEntry {other : Source} (ne : other ≠ src) {f : OverrideEntry → OverrideEntry}
    (hf : ∀ e, (f e).source = e.source) (stack : List OverrideEntry) :
    (mapEntry other f stack).any (fun e => decide (e.source = src) && !e.released) =
      stack.any fun e => decide (e.source = src) && !e.released := by
  unfold mapEntry
  rw [List.any_map]
  refine congrArg (List.any stack) (funext fun e => ?_)
  by_cases same : e.source = other
  · simp [same, hf, ne]
  · simp [same]

/-- A pop chain takes released entries alone from under the entry that it pops. -/
theorem dropReleased_inForce (flag : Bool) (stack : List OverrideEntry) :
    (dropReleased stack flag).1.any (fun e => decide (e.source = src) && !e.released) =
      stack.any fun e => decide (e.source = src) && !e.released := by
  induction stack generalizing flag with
  | nil => rfl
  | cons e rest ih =>
    unfold dropReleased
    split
    · next released => simp [ih, released]
    · rfl

/-- The conditions and the entry of `src` are the same in two suction controllers. -/
def SameFor (src : Source) (c d : Snc) : Prop := d.marks = c.marks ∧ d.hasUnreleased src = c.hasUnreleased src

theorem raised?_other {other : Source} (ne : other ≠ src) {cap : Nat} {c d : Snc} (h : c.raised? other cap = some d) :
    SameFor src c d := by
  unfold Snc.raised? at h
  split at h
  · split at h
    · obtain rfl := Option.some.inj h
      exact ⟨rfl, hasUnreleased_mapEntry ne (f := fun e => { e with cap := cap, released := false }) (fun _ => rfl) _⟩
    · cases h
  · split at h
    · obtain rfl := Option.some.inj h
      exact ⟨rfl, by simp [Snc.hasUnreleased, Snc.push, ne]⟩
    · cases h

theorem cleared?_other {other : Source} (ne : other ≠ src) {c d : Snc} (h : c.cleared? other = some d) :
    SameFor src c d := by
  unfold Snc.cleared? at h
  split at h
  · split at h
    · next e rest stack =>
      split at h
      · next top =>
        obtain rfl := Option.some.inj h
        unfold Snc.popChain
        rw [stack]
        refine ⟨rfl, (dropReleased_inForce e.saved rest).trans ?_⟩
        simp [Snc.hasUnreleased, stack, top, ne]
      · obtain rfl := Option.some.inj h
        exact ⟨rfl, hasUnreleased_mapEntry ne (f := fun e => { e with released := true }) (fun _ => rfl) _⟩
    · cases h
  · cases h

theorem stackChange_leaves (ht : Leaves src told) {c : Snc} {s : State} (hc : SameFor src s.snc c) :
    standing src (stackChange told c s) = standing src s :=
  (evaluate_leaves ht _).trans (standing_modSnc (f := fun _ => c) (s := s) (congrArg (HardMarks.get · src) hc.1) hc.2)

theorem changeStack_leaves (ht : Leaves src told) {c : Option Snc} {s : State}
    (hc : ∀ d, c = some d → SameFor src s.snc d) : standing src (changeStack told c s) = standing src s := by
  cases c with
  | none => rfl
  | some d => exact stackChange_leaves ht (hc d rfl)

theorem raiseSoft_leaves (ht : Leaves src told) {other : Source} (ne : other ≠ src) (cap : Nat) :
    Leaves src (raiseSoft told other cap) := by
  intro s
  unfold raiseSoft
  split
  · exact changeStack_leaves ht fun _ => raised?_other ne
  · rfl

theorem clearSoft_leaves (ht : Leaves src told) {other : Source} (ne : other ≠ src) :
    Leaves src (clearSoft told other) := fun _ => changeStack_leaves ht fun _ => cleared?_other ne

theorem HardMarks.get_set_other {other : Source} (ne : other ≠ src) (m : HardMarks) (b : Bool) :
    (m.set other b).get src = m.get src := by
  cases other <;> cases src <;> first | rfl | exact absurd rfl ne

theorem setMark_leaves {other : Source} (ne : other ≠ src) (b : Bool) : Leaves src (setMark other b) := fun s =>
  standing_modSnc (HardMarks.get_set_other ne s.snc.marks b) rfl

theorem raiseHard_leaves (ht : Leaves src told) {other : Source} (ne : other ≠ src) :
    Leaves src (raiseHard told other) := by
  intro s
  have marked := setMark_leaves ne true s
  unfold raiseHard
  dsimp only
  split
  · rfl
  · split
    · exact (enterHalt_leaves ht _ _).trans marked
    · exact (changeStack_leaves ht fun _ => raised?_other ne).trans marked

theorem clearHard_leaves (ht : Leaves src told) {other : Source} (ne : other ≠ src) :
    Leaves src (clearHard told other) := by
  intro s
  unfold clearHard
  split
  · exact (changeStack_leaves ht fun _ => cleared?_other ne).trans (setMark_leaves ne false s)
  · rfl

/-! ### Dirt sensing -/

theorem dirtStop_leaves (ht : Leaves src told) : Leaves src (dirtStop told) := by
  intro s
  unfold dirtStop setBoostLevel
  split
  · rfl
  · next moved =>
    rw [takeBoostLevel, if_neg moved]
    exact evaluate_leaves ht _

theorem dirtTold_leaves : Leaves src dirtTold := by
  intro s
  unfold dirtTold
  split
  · exact dirtStop_leaves id_leaves s
  · exact dirtStop_leaves id_leaves s
  all_goals rfl

/-! ### The watch unit -/

theorem Source.watch_ne (lasting : src.lasts = true) (u : Idx4) : Source.watch u ≠ src := by
  rintro rfl
  cases lasting

theorem Source.packLow_ne (lasting : src.lasts = true) : Source.packLow ≠ src := by
  rintro rfl
  cases lasting

theorem watchEvent_leaves {deliver : Telling → State → State} (hd : ∀ t, Leaves src (deliver t)) (channel : ChannelId)
    (sample : List Reading) (s : State) : standing src (watchEvent deliver channel sample s).1 = standing src s := by
  have told (ts : List Telling) : ∀ e ∈ ts.map deliver, Leaves src e := by
    rintro _ m
    obtain ⟨t, -, rfl⟩ := List.mem_map.mp m
    exact hd t
  have compared := compareKept (I := fun t => standing src t = standing src s) (fun _ _ _ h => h) (fun _ _ h => h) channel
  exact (inAnyOrder_leaves (told _) _).trans (compareUnits_keeps compared sample allUnits s rfl)

theorem compareAmong_leaves {deliver : Telling → State → State} (hd : ∀ t, Leaves src (deliver t)) (channel : ChannelId)
    (sample : List Reading) {others : List (State → State)} (ho : ∀ e ∈ others, Leaves src e) :
    Leaves src (compareAmong deliver channel sample others) := by
  intro s
  have told (ts : List Telling) : ∀ e ∈ ts.map deliver, Leaves src e := by
    rintro _ m
    obtain ⟨t, -, rfl⟩ := List.mem_map.mp m
    exact hd t
  have watched := watchEvent_leaves hd channel sample
  unfold compareAmong
  dsimp only
  split
  · split
    · refine (inAnyOrder_leaves (fun e m => ?_) _).trans (watched _)
      exact (List.mem_append.mp m).elim (ho e) (told _ e)
    · exact (inAnyOrder_leaves (told _) _).trans ((watched _).trans (inAnyOrder_leaves ho _))
  · exact inAnyOrder_leaves ho s

theorem deliverOverride_leaves (lasting : src.lasts = true) (ht : Leaves src told) (t : Telling) :
    Leaves src (deliverOverride told t) := by
  cases t with
  | raised u cap => exact raiseSoft_leaves ht (Source.watch_ne lasting u) cap
  | stands u cap => exact raiseSoft_leaves ht (Source.watch_ne lasting u) cap
  | cleared u => exact clearSoft_leaves ht (Source.watch_ne lasting u)
  | claimedHit u => exact id_leaves

/-! ### The pack manager and the charge -/

theorem modPmg_leaves {f : Pmg → Pmg} (hot : ∀ p, (f p).hotMark = p.hotMark) : Leaves src (State.modPmg f) := fun s => by
  simp only [standing, State.modPmg, hot]

theorem takePackState_leaves (new : PackState) : Leaves src (takePackState new) := by
  intro s
  unfold takePackState
  dsimp only
  split <;> rfl

theorem storeBudget_leaves : Leaves src storeBudget := fun s => reportIf_leaves _ .inv .budget s

theorem announcePack_leaves (lasting : src.lasts = true) (ht : Leaves src told) : Leaves src (announcePack told) := by
  intro s
  refine (compareAmong_leaves (deliverOverride_leaves lasting ht) _ _ (fun e m => ?_) _).trans
    (storeBudget_leaves (askNotice .pack s))
  split at m
  · rw [List.mem_singleton.mp m]
    exact fun t => evaluate_leaves ht _
  · cases m

theorem changePack_leaves (lasting : src.lasts = true) (ht : Leaves src told) (new : PackState) :
    Leaves src (changePack told new) := (takePackState_leaves new).comp (announcePack_leaves lasting ht)

theorem askAnew_leaves : Leaves src askAnew := fun _ => rfl

theorem askChanged_leaves (voltage current : Nat) : Leaves src (askChanged voltage current) := by
  intro s
  unfold askChanged
  split <;> rfl

theorem leaveCharging_leaves : Leaves src leaveCharging := by
  intro s
  unfold leaveCharging releaseWatches
  split <;> rfl

theorem chargeFault_leaves (lasting : src.lasts = true) (ht : Leaves src told) (kind : ChargeFault) :
    Leaves src (chargeFault told kind) := by
  intro s
  unfold chargeFault
  split
  · exact (announcePack_leaves lasting ht _).trans ((leaveCharging_leaves _).trans (takePackState_leaves _ s))
  · rfl

theorem entryFault_leaves (lasting : src.lasts = true) (ht : Leaves src told) (kind : ChargeFault) :
    Leaves src (entryFault told kind) := fun s =>
  (announcePack_leaves lasting ht _).trans (takePackState_leaves _ s)

theorem clearLowMark_leaves (lasting : src.lasts = true) (ht : Leaves src told) : Leaves src (clearLowMark told) := by
  intro s
  unfold clearLowMark
  split
  · exact clearHard_leaves ht (Source.packLow_ne lasting) _
  · rfl

theorem claimWatches_leaves (lasting : src.lasts = true) (ht : Leaves src told) : Leaves src (claimWatches told) :=
  fun s => inAnyOrder_leaves (fun e m => by
    obtain ⟨u, -, rfl⟩ := List.mem_map.mp m
    exact clearSoft_leaves ht (Source.watch_ne lasting u)) (clearComparisons [.i2, .i3] s)

theorem chargeEntry_leaves (lasting : src.lasts = true) (ht : Leaves src told) : Leaves src (chargeEntry told) := by
  intro s
  have claimed := (claimWatches_leaves lasting dirtTold_leaves _).trans
    (clearLowMark_leaves lasting dirtTold_leaves (learningTest s))
  unfold chargeEntry
  dsimp only
  generalize claimWatches dirtTold (clearLowMark dirtTold (learningTest s)) = t at claimed ⊢
  exact (announcePack_leaves lasting ht _).trans ((askAnew_leaves _).trans ((modPmg_leaves (fun _ => rfl) _).trans
    ((takePackState_leaves _ (startTimer .i1 t)).trans claimed)))

theorem chargeEntryTest_leaves (lasting : src.lasts = true) (ht : Leaves src told) :
    Leaves src (chargeEntryTest told) := by
  intro s
  unfold chargeEntryTest
  split
  · split
    · rfl
    · split
      · exact entryFault_leaves lasting ht _ s
      · split
        · exact chargeEntry_leaves lasting ht s
        · exact entryFault_leaves lasting ht _ s
  · rfl

/-- The telling of a change of the suction state leaves the hard conditions of the lasting sources. -/
theorem tellSuction_leaves (lasting : src.lasts = true) : Leaves src tellSuction := by
  intro s
  have stopped := dirtStop_leaves (src := src) id_leaves s
  unfold tellSuction suctionTold
  split
  · exact (chargeEntryTest_leaves lasting id_leaves _).trans stopped
  · exact stopped
  all_goals rfl

/-! ### The charge's phases and the end of a charge -/

theorem changePhase_leaves (lasting : src.lasts = true) (ht : Leaves src told) (phase : Phase) :
    Leaves src (changePhase told phase) := fun s =>
  (announcePack_leaves lasting ht _).trans ((askChanged_leaves _ _ _).trans (takePackState_leaves _ s))

theorem recharge_leaves (lasting : src.lasts = true) (ht : Leaves src told) : Leaves src (recharge told) := fun s =>
  (announcePack_leaves lasting ht _).trans ((askAnew_leaves _).trans ((modPmg_leaves (fun _ => rfl) _).trans
    (takePackState_leaves (.charging .cc) s)))

theorem enterDone_leaves (lasting : src.lasts = true) (ht : Leaves src told) : Leaves src (enterDone told) := by
  intro s
  have learned : Leaves src doneGauge := by
    intro t
    unfold doneGauge learn
    split <;> rfl
  exact (announcePack_leaves lasting ht _).trans ((learned _).trans ((askAnew_leaves _).trans
    (takePackState_leaves (.charging .done) s)))

theorem cellPhase_leaves (lasting : src.lasts = true) (ht : Leaves src told) (phase : Phase) :
    Leaves src (cellPhase told phase) := by
  intro s
  cases phase <;> simp only [cellPhase]
  · split
    · exact changePhase_leaves lasting ht _ s
    · rfl
  · split
    · exact changePhase_leaves lasting ht _ s
    · rfl
  · split
    · exact recharge_leaves lasting ht s
    · rfl

theorem askInState_leaves (lasting : src.lasts = true) (ht : Leaves src told) (new : PackState) :
    Leaves src fun s => announcePack told (askAnew (takePackState new s)) := fun s =>
  (announcePack_leaves lasting ht _).trans ((askAnew_leaves _).trans (takePackState_leaves new s))

theorem chargeTemperature_leaves (lasting : src.lasts = true) (ht : Leaves src told) (degrees : Int) :
    Leaves src (chargeTemperature told degrees) := by
  intro s
  unfold chargeTemperature
  dsimp only
  split
  · split
    · exact askInState_leaves lasting ht _ s
    · exact askChanged_leaves _ _ s
  · split
    · exact askInState_leaves lasting ht _ s
    · rfl
  · exact chargeEntryTest_leaves lasting ht s
  all_goals rfl

/-! ### The owners of the samples -/

theorem enterProtect_leaves (lasting : src.lasts = true) (ht : Leaves src told) : Leaves src (enterProtect told) :=
  fun s => (announcePack_leaves lasting ht _).trans
    ((raiseHard_leaves ht (Source.packLow_ne lasting) _).trans (takePackState_leaves .protect s))

theorem judgeLow_leaves (lasting : src.lasts = true) (ht : Leaves src told) : Leaves src (judgeLow told) := by
  intro s
  unfold judgeLow
  split
  · split
    · exact enterProtect_leaves lasting ht s
    · rfl
  · rfl

theorem judgeGood_leaves (lasting : src.lasts = true) (ht : Leaves src told) : Leaves src (judgeGood told) := by
  intro s
  have cleared := clearHard_leaves ht (Source.packLow_ne lasting)
    (s.modPmg fun p => { p with lowMark := false, recoveryCount := 0 })
  unfold judgeGood recover
  dsimp only
  split
  · split
    · split
      · exact (changePack_leaves lasting ht _ _).trans cleared
      · exact cleared
    · rfl
  · rfl

theorem packCell_leaves (lasting : src.lasts = true) (ht : Leaves src told) : Leaves src (packCell told) := by
  intro s
  have estimated : standing src (takeEstimate s) = standing src s := by
    unfold takeEstimate
    split <;> rfl
  refine Eq.trans ?_ estimated
  unfold packCell
  dsimp only
  split
  · exact judgeLow_leaves lasting ht _
  · split
    · exact judgeGood_leaves lasting ht _
    · rfl
  · split
    · exact judgeGood_leaves lasting ht _
    · rfl
  · split
    · exact cellPhase_leaves lasting ht _ _
    · exact chargeFault_leaves lasting ht _ _
  · split
    · rfl
    · exact chargeFault_leaves lasting ht _ _
  · rfl

theorem packCurrent_leaves (lasting : src.lasts = true) (ht : Leaves src told) : Leaves src (packCurrent told) := by
  intro s
  unfold packCurrent
  split
  · split
    · split
      · exact enterDone_leaves lasting ht s
      · rfl
    · rfl
  · rfl

/-- PACK_HOT belongs to the PACK_T sample (R162). -/
theorem judgeHot_leaves (ht : Leaves src told) (other : Source.packHot ≠ src) (degrees : Int) :
    Leaves src (judgeHot told degrees) := by
  intro s
  have marked (b : Bool) : standing src (s.modPmg fun p => { p with hotMark := b }) = standing src s := by
    simp [standing, other.symm]
  unfold judgeHot
  split
  · split
    · exact (clearHard_leaves ht other _).trans (marked false)
    · rfl
  · split
    · exact (raiseHard_leaves ht other _).trans (marked true)
    · rfl

theorem packTemperature_leaves (lasting : src.lasts = true) (ht : Leaves src told) (other : Source.packHot ≠ src) :
    Leaves src (packTemperature told) := by
  intro s
  unfold packTemperature
  split
  · exact (chargeTemperature_leaves lasting ht _ _).trans (judgeHot_leaves ht other _ s)
  · exact chargeFault_leaves lasting ht _ s

/-- MOTOR_HOT belongs to the MOTOR_T sample (R103). -/
theorem motorTTold_leaves (ht : Leaves src told) (other : Source.motorHot ≠ src) : Leaves src (motorTTold told) := by
  intro s
  unfold motorTTold
  split
  · rfl
  · split
    · split
      · exact clearHard_leaves ht other s
      · rfl
    · split
      · exact raiseHard_leaves ht other s
      · rfl

theorem speedTold_leaves (ht : Leaves src told) : Leaves src (speedTold told) := by
  intro s
  have counted := (countStall_driveMove s.chan.speed).leaves (src := src) s
  unfold speedTold
  dsimp only
  split
  · split
    · exact (enterHalt_leaves ht _ _).trans counted
    · exact counted
  · exact commitSuction_leaves ht (speedMoves_driveMove _) s

theorem motorITold_leaves (ht : Leaves src told) : Leaves src (motorITold told) := by
  intro s
  have counted := (countOver_driveMove s.chan.motorI s.ka.suction.currentLimit).leaves (src := src) s
  unfold motorITold
  dsimp only
  split
  · exact (enterHalt_leaves ht _ _).trans counted
  · exact counted

theorem sampleTold_leaves (lasting : src.lasts = true) (ht : Leaves src told) (channel : ChannelId)
    (sample : List Reading) {owner : State → State} (ho : Leaves src owner) :
    Leaves src (sampleTold told channel sample owner) := by
  refine compareAmong_leaves (fun t => ?_) channel sample fun e m => by
    rw [List.mem_singleton.mp m]
    exact ho
  cases t with
  | claimedHit u =>
    cases u with
    | i0 | i1 => exact id_leaves
    | i2 | i3 => exact chargeFault_leaves lasting ht _
  | raised u cap => exact deliverOverride_leaves lasting ht (.raised u cap)
  | stands u cap => exact deliverOverride_leaves lasting ht (.stands u cap)
  | cleared u => exact deliverOverride_leaves lasting ht (.cleared u)

end Sys2Proof.Machine
end

section
/-! PROOF. The samples as they are stored, and the hot conditions of the motor and of the pack (R36 to R43, R48, R103,
R162). -/

namespace Sys2Proof.Machine

variable {src : Source} {told : State → State}

/-! ### What a sample stores -/

theorem chan_of_standing {t u : State} (h : standing src t = standing src u) :
    { t.chan with target := u.chan.target, budget := u.chan.budget } = u.chan :=
  congrArg (fun x : Standing => { x.measured with target := u.chan.target, budget := u.chan.budget }) h

theorem exec_channelSample {s : State} (q : Quiet s) (c : Conversion) :
    exec (.channelSample c) s = .next (channelSampled tellSuction c s) :=
  mainStep_of_quiet q (channelSampled_moves lineKept_unitClosed (tellSuction_moves lineKept_closed) c s)

theorem exec_cellSample {s : State} (q : Quiet s) (tapOpen : Six Bool) (mv : Six Int) :
    exec (.cellSample tapOpen mv) s = .next (cellSampled tellSuction (cellsOf tapOpen mv) s) :=
  mainStep_of_quiet q (cellSampled_moves lineKept_unitClosed (tellSuction_moves lineKept_closed) _ s)

/-- The state of a sample before it is told: the record stored, and a PACK_I sample accumulated (R44, R48). -/
def sampleStored (c : Conversion) (s : State) : State :=
  match c with
  | .packI v => accumulate (packIOf v) (s.modChan fun c => { c with packI := packIOf v })
  | .packT v => s.modChan fun c => { c with packT := temperatureOf v }
  | .motorT v => s.modChan fun c => { c with motorT := temperatureOf v }
  | .motorI v => s.modChan fun c => { c with motorI := motorIOf v }
  | .speed v => s.modChan fun c => { c with speed := speedOf v }
  | .dockV v => s.modChan fun c => { c with dockV := dockVOf v }

/-- What is stored stands through the telling. The DOCKED condition is no owner's of a sample. -/
theorem channelSampled_stored (c : Conversion) (s : State) :
    standing .docked (channelSampled tellSuction c s) = standing .docked (sampleStored c s) := by
  have ht : Leaves .docked tellSuction := tellSuction_leaves rfl
  cases c with
  | packI v => exact sampleTold_leaves rfl ht _ _ (packCurrent_leaves rfl ht) _
  | packT v => exact sampleTold_leaves rfl ht _ _ (packTemperature_leaves rfl ht nofun) _
  | motorT v => exact sampleTold_leaves rfl ht _ _ (motorTTold_leaves ht nofun) _
  | motorI v => exact sampleTold_leaves rfl ht _ _ (motorITold_leaves ht) _
  | speed v => exact sampleTold_leaves rfl ht _ _ (speedTold_leaves ht) _
  | dockV v => exact sampleTold_leaves rfl ht _ _ id_leaves _

theorem cellSampled_stored (cell : Six Reading) (s : State) :
    standing .docked (cellSampled tellSuction cell s) =
      standing .docked (s.modChan fun c => { c with cell := cell }) :=
  have ht : Leaves .docked tellSuction := tellSuction_leaves rfl
  sampleTold_leaves rfl ht .cell (Six.toList cell) (packCell_leaves rfl ht)
    ((s.setBleedOut (Six.all false)).modChan fun c => { c with cell := cell })

/-! ### Rounding and ranges (R38, R40 to R43) -/

theorem cellOf_eq (below above : Bool) (v : Int) :
    cellOf below above v =
      if below = false ∧ above = false ∧ 0 ≤ v ∧ v ≤ 5000 then .valid v else .noReading := by
  cases below <;> cases above <;> simp [cellOf]

theorem roundHalfAway_nearest {v r : Int} (nearest : NearestWhole v r) : roundHalfAway v = r := by
  unfold roundHalfAway
  unfold NearestWhole at nearest
  split <;> omega

theorem temperatureOf_nearest {v r : Int} (nearest : NearestWhole v r) :
    temperatureOf v = if -40 ≤ r ∧ r ≤ 125 then .valid r else .noReading := by
  unfold temperatureOf
  rw [roundHalfAway_nearest nearest]

theorem speedOf_eq (v : Nat) : speedOf v = if v < 30 then 0 else if 1250 < v then 1250 else v := by
  unfold speedOf
  split
  · rfl
  · split <;> omega

theorem dockVOf_cast {v : Int} (h : 0 ≤ v) :
    (dockVOf v : Int) = if 32000 < v / 1000 then 32000 else v / 1000 := by
  unfold dockVOf
  rw [Int.tdiv_eq_ediv_of_nonneg h]
  split <;> omega

/-- Settles O23: the record stands through its telling, and the bleed outputs are driven last. -/
theorem cellSampleIsStored : Obligations.CellSampleIsStored := by
  unfold Obligations.CellSampleIsStored
  intro s tapOpen mv q
  have stored := chan_of_standing (cellSampled_stored (cellsOf tapOpen mv) s)
  have cells : (cellSampled tellSuction (cellsOf tapOpen mv) s).chan.cell = cellsOf tapOpen mv :=
    congrArg Channels.cell stored
  refine ⟨_, exec_cellSample q tapOpen mv, rfl,
    congrArg (fun c : Channels => { c with cell := s.chan.cell }) stored, ?_⟩
  rw [cells]
  exact ⟨cellOf_eq _ _ _, cellOf_eq _ _ _, cellOf_eq _ _ _, cellOf_eq _ _ _, cellOf_eq _ _ _, cellOf_eq _ _ _⟩

/-! ### A hard source at its own event (R103, R125, R126, R129) -/

theorem HardMarks.get_set_same (hard : src.isHard = true) (m : HardMarks) (b : Bool) : (m.set src b).get src = b := by
  cases src with
  | binOpen | docked | motorHot | packHot | packLow => rfl
  | watch _ | lowCharge | hostCap => cases hard

/-- A raise that changes the stack puts the source in force, and one that does not finds it there or the stack full. -/
theorem raised?_inForce {c d : Snc} {cap : Nat} (h : c.raised? src cap = some d) :
    d.marks = c.marks ∧ d.hasUnreleased src = true := by
  unfold Snc.raised? at h
  split at h
  · next e found =>
    split at h
    · obtain rfl := Option.some.inj h
      have mem := List.mem_of_find?_eq_some found
      have own : e.source = src := by simpa using List.find?_some found
      exact ⟨rfl, List.any_eq_true.mpr ⟨_, List.mem_map_of_mem mem, by simp [own]⟩⟩
    · cases h
  · split at h
    · obtain rfl := Option.some.inj h
      exact ⟨rfl, by simp [Snc.hasUnreleased, Snc.push]⟩
    · cases h

theorem raised?_none {c : Snc} {cap : Nat} (h : c.raised? src cap = none) (room : c.stack.length < 4) :
    c.hasUnreleased src = true := by
  unfold Snc.raised? at h
  split at h
  · next e found =>
    split at h
    · cases h
    · next unreleased =>
      have own : e.source = src := by simpa using List.find?_some found
      exact List.any_eq_true.mpr ⟨e, List.mem_of_find?_eq_some found, by simp [own, unreleased]⟩
  · rw [if_pos room] at h
    cases h

theorem not_hasUnreleased_of_absent {c : Snc} (absent : ∀ e ∈ c.stack, e.source ≠ src) : c.hasUnreleased src = false :=
  List.any_eq_false.mpr fun e m => by simp [absent e m]

theorem mem_dropReleased {e : OverrideEntry} {flag : Bool} {stack : List OverrideEntry}
    (m : e ∈ (dropReleased stack flag).1) : e ∈ stack := by
  induction stack generalizing flag with
  | nil => exact m
  | cons a rest ih =>
    unfold dropReleased at m
    split at m
    · exact List.mem_cons_of_mem a (ih m)
    · exact m

/-- A clear leaves the source out of force, where no source stands twice (R122). -/
theorem cleared?_outOfForce {c d : Snc} (nodup : (c.stack.map OverrideEntry.source).Nodup)
    (h : c.cleared? src = some d) : d.hasUnreleased src = false := by
  unfold Snc.cleared? at h
  split at h
  · split at h
    · next e rest stack =>
      split at h
      · next top =>
        obtain rfl := Option.some.inj h
        rw [stack, List.map_cons, List.nodup_cons] at nodup
        unfold Snc.popChain
        rw [stack]
        refine not_hasUnreleased_of_absent fun f m same => nodup.1 ?_
        exact List.mem_map.mpr ⟨f, mem_dropReleased m, same.trans top.symm⟩
      · obtain rfl := Option.some.inj h
        refine List.any_eq_false.mpr fun f m => ?_
        obtain ⟨g, -, rfl⟩ := List.mem_map.mp m
        by_cases own : g.source = src <;> simp [own]
    · cases h
  · cases h

theorem cleared?_marks {c d : Snc} {other : Source} (h : c.cleared? other = some d) : d.marks = c.marks := by
  unfold Snc.cleared? at h
  split at h
  · split at h
    · split at h
      · obtain rfl := Option.some.inj h
        unfold Snc.popChain
        split <;> rfl
      · obtain rfl := Option.some.inj h
        rfl
    · cases h
  · cases h

theorem cleared?_none {c : Snc} (h : c.cleared? src = none) : c.hasUnreleased src = false := by
  unfold Snc.cleared? at h
  split at h
  · next inForce =>
    split at h
    · split at h <;> cases h
    · next empty => simp [Snc.hasUnreleased, empty] at inForce
  · next outOfForce => simpa using outOfForce

theorem marked_of_standing {t u : State} (h : standing src t = standing src u) :
    t.snc.marks.get src = u.snc.marks.get src := congrArg Standing.marked h

theorem inForce_of_standing {t u : State} (h : standing src t = standing src u) :
    t.snc.hasUnreleased src = u.snc.hasUnreleased src := congrArg Standing.inForce h

/-- A stack change by the source's own event stands through what it hands on. -/
theorem stackChange_stands (ht : Leaves src told) (c : Snc) (s : State) :
    (stackChange told c s).snc.marks.get src = c.marks.get src ∧
      (stackChange told c s).snc.hasUnreleased src = c.hasUnreleased src :=
  have h := evaluate_leaves ht (askNotice .override (s.modSnc fun _ => c))
  ⟨marked_of_standing h, inForce_of_standing h⟩

theorem raiseHard_marks (hard : src.isHard = true) (ht : Leaves src told) (s : State) :
    (raiseHard told src s).snc.marks.get src = true := by
  have set : (setMark src true s).snc.marks.get src = true := HardMarks.get_set_same hard _ _
  unfold raiseHard
  split
  · next marked => exact marked
  · dsimp only
    split
    · exact (marked_of_standing (enterHalt_leaves ht _ _)).trans set
    · cases raised : (setMark src true s).snc.raised? src 0 with
      | none => exact set
      | some c => exact (stackChange_stands ht c _).1.trans ((congrArg (HardMarks.get · src) (raised?_inForce raised).1).trans set)

/-- With room in the stack a raise puts the source in force. -/
theorem raiseHard_inForce (ht : Leaves src told) {s : State} (unmarked : s.snc.marks.get src = false)
    (room : s.snc.stack.length < 4) : (raiseHard told src s).snc.hasUnreleased src = true := by
  have room' : (setMark src true s).snc.stack.length < 4 := room
  unfold raiseHard
  rw [if_neg (by simp [unmarked])]
  dsimp only
  rw [if_neg (fun full => absurd full.2 (by omega))]
  cases raised : (setMark src true s).snc.raised? src 0 with
  | none => exact raised?_none raised room'
  | some c => exact (stackChange_stands ht c _).2.trans (raised?_inForce raised).2

theorem clearHard_marks (hard : src.isHard = true) (ht : Leaves src told) (s : State) :
    (clearHard told src s).snc.marks.get src = false := by
  have set : (setMark src false s).snc.marks.get src = false := HardMarks.get_set_same hard _ _
  unfold clearHard
  split
  · cases cleared : (setMark src false s).snc.cleared? src with
    | none =>
      dsimp only
      rw [cleared]
      exact set
    | some c =>
      dsimp only
      rw [cleared]
      exact (stackChange_stands ht c _).1.trans ((congrArg (HardMarks.get · src) (cleared?_marks cleared)).trans set)
  · next unmarked => simpa using unmarked

theorem clearHard_outOfForce (ht : Leaves src told) {s : State} (marked : s.snc.marks.get src = true)
    (sound : StackSound s.snc) : (clearHard told src s).snc.hasUnreleased src = false := by
  unfold clearHard
  rw [if_pos marked]
  dsimp only
  cases cleared : (setMark src false s).snc.cleared? src with
  | none => exact cleared?_none cleared
  | some c => exact (stackChange_stands ht c _).2.trans (cleared?_outOfForce (c := (setMark src false s).snc) sound.sources cleared)

/-! ### MOTOR_HOT (R103) -/

theorem motorTTold_noReading {s : State} (h : s.chan.motorT = .noReading) : motorTTold told s = s := by
  simp only [motorTTold, h]

theorem motorTTold_raises {s : State} {r : Int} (h : s.chan.motorT = .valid r) (cool : ¬s.snc.marks.motorHot = true)
    (cut : s.ka.suction.tCut ≤ r) :
    let t := motorTTold tellSuction s
    t.snc.marks.motorHot = true ∧ (s.snc.stack.length < 4 → t.snc.hasUnreleased .motorHot = true) := by
  have told : Leaves .motorHot tellSuction := tellSuction_leaves rfl
  simp only [motorTTold, h, if_neg cool, if_pos cut]
  exact ⟨raiseHard_marks rfl told s, raiseHard_inForce told (Bool.eq_false_iff.mpr cool)⟩

theorem motorTTold_clears {s : State} {r : Int} (h : s.chan.motorT = .valid r) (hot : s.snc.marks.motorHot = true)
    (knee : r ≤ s.ka.suction.tKnee) :
    let t := motorTTold tellSuction s
    t.snc.marks.motorHot = false ∧ (StackSound s.snc → t.snc.hasUnreleased .motorHot = false) := by
  have told : Leaves .motorHot tellSuction := tellSuction_leaves rfl
  simp only [motorTTold, h, if_pos hot, if_pos knee]
  exact ⟨clearHard_marks rfl told s, clearHard_outOfForce told hot⟩

theorem motorTTold_stays {s : State} {r : Int} (h : s.chan.motorT = .valid r)
    (between : (¬s.snc.marks.motorHot = true ∧ r < s.ka.suction.tCut) ∨
      (s.snc.marks.motorHot = true ∧ s.ka.suction.tKnee < r)) : motorTTold told s = s := by
  rcases between with ⟨cool, below⟩ | ⟨hot, above⟩
  · simp only [motorTTold, h, if_neg cool, if_neg (Int.not_le.mpr below)]
  · simp only [motorTTold, h, if_pos hot, if_neg (Int.not_le.mpr above)]

theorem channelSampled_motorT {s : State} (untrapped : s.wcu.traps .motorT = false) (v : Int) :
    channelSampled told (.motorT v) s = motorTTold told (sampleStored (.motorT v) s) :=
  compareAmong_untrapped (s := sampleStored (.motorT v) s) untrapped

/-! ### PACK_HOT (R162) -/

theorem channelSampled_packT {s : State} (untrapped : s.wcu.traps .packT = false) (v : Int) :
    channelSampled told (.packT v) s = packTemperature told (sampleStored (.packT v) s) :=
  compareAmong_untrapped (s := sampleStored (.packT v) s) untrapped

theorem packTemperature_noReading {s : State} (h : s.chan.packT = .noReading) :
    packTemperature told s = chargeFault told .sense s := by simp only [packTemperature, h]

theorem packTemperature_valid {s : State} {r : Int} (h : s.chan.packT = .valid r) :
    packTemperature told s = chargeTemperature told r (judgeHot told r s) := by simp only [packTemperature, h]

/-- The states in which the pack feeds the motor, or would. -/
def PackState.Feeds (p : PackState) : Prop := p = .discharge ∨ p = .protect

theorem chargeTemperature_feeding {s : State} (feeding : s.pmg.state.Feeds) (r : Int) :
    chargeTemperature told r s = s := by
  rcases feeding with h | h <;> simp only [chargeTemperature, h]

theorem judgeHot_raises {s : State} {r : Int} (cool : ¬s.pmg.hotMark = true) (feeding : s.pmg.state.Feeds)
    (hot : (s.ka.limits.packHot : Int) ≤ r) :
    judgeHot told r s = raiseHard told .packHot (s.modPmg fun p => { p with hotMark := true }) := by
  unfold judgeHot
  rw [if_neg cool]
  exact if_pos ⟨feeding, hot⟩

theorem judgeHot_clears {s : State} {r : Int} (marked : s.pmg.hotMark = true)
    (cool : r ≤ (s.ka.limits.packHot : Int) - 5) :
    judgeHot told r s = clearHard told .packHot (s.modPmg fun p => { p with hotMark := false }) := by
  unfold judgeHot
  rw [if_pos marked, if_pos cool]

theorem judgeHot_stays {s : State} {r : Int}
    (between : (¬s.pmg.hotMark = true ∧ (¬s.pmg.state.Feeds ∨ r < (s.ka.limits.packHot : Int))) ∨
      (s.pmg.hotMark = true ∧ (s.ka.limits.packHot : Int) - 5 < r)) : judgeHot told r s = s := by
  unfold judgeHot
  rcases between with ⟨cool, idle⟩ | ⟨marked, above⟩
  · rw [if_neg cool]
    refine if_neg fun hot => idle.elim (· hot.1) fun below => ?_
    exact absurd hot.2 (Int.not_le.mpr below)
  · rw [if_pos marked, if_neg (Int.not_le.mpr above)]

/-- An evaluation writes neither the pack manager nor the dock line. -/
theorem packKept_closed (p : Pmg) (d : Dlc) :
    EvalClosed fun s t => s.pmg = p ∧ s.dlc = d → t.pmg = p ∧ t.dlc = d where
  refl _ h := h
  trans _ _ _ a b h := b (a h)
  snc _ _ h := h
  chan _ _ h := h
  tdu _ _ h := h
  dsu _ _ h := h
  draws _ _ h := h
  notice _ _ h := h
  hit u s h := by
    unfold recordHit
    dsimp only
    split <;> exact h

/-- While no charge may be entered the pack manager takes nothing from a report of the suction state. -/
theorem tellSuction_packKept {s : State} (shut : Shut s) :
    Keeps (fun t => t.pmg = s.pmg ∧ t.dlc = s.dlc) tellSuction := by
  intro t h
  have stopped : (dirtStop id t).pmg = s.pmg ∧ (dirtStop id t).dlc = s.dlc :=
    dirtStop_moves (packKept_closed s.pmg s.dlc) (fun _ h => h) t h
  unfold tellSuction suctionTold
  split
  · rw [chargeEntryTest_closed (by rw [stopped.1, stopped.2]; exact shut)]
    exact stopped
  · exact stopped
  all_goals exact h

theorem PackState.Feeds.shut {s : State} (feeding : s.pmg.state.Feeds) : Shut s :=
  .inr fun waits => by rcases feeding with h | h <;> rw [h] at waits <;> cases waits

theorem raiseHard_pmg {s : State} (shut : Shut s) (source : Source) : (raiseHard tellSuction source s).pmg = s.pmg :=
  (raiseHard_moves (packKept_closed s.pmg s.dlc) (tellSuction_packKept shut) source s ⟨rfl, rfl⟩).1

theorem clearHard_pmg {s : State} (shut : Shut s) (source : Source) : (clearHard tellSuction source s).pmg = s.pmg :=
  (clearHard_moves (packKept_closed s.pmg s.dlc) (tellSuction_packKept shut) source s ⟨rfl, rfl⟩).1

theorem hotMark_of_standing {t u : State} (h : standing .packHot t = standing .packHot u) :
    t.pmg.hotMark = u.pmg.hotMark := by
  simpa [standing] using congrArg Standing.hot h

/-- The hot mark is the pack manager's own: a clear of the source PACK_HOT leaves it. -/
theorem clearHard_hotMark (ht : Leaves .packHot told) (s : State) :
    (clearHard told .packHot s).pmg.hotMark = s.pmg.hotMark := by
  unfold clearHard
  split
  · dsimp only
    cases (setMark .packHot false s).snc.cleared? .packHot with
    | none => rfl
    | some c =>
      have evaluated := evaluate_leaves ht (askNotice .override ((setMark .packHot false s).modSnc fun _ => c))
      exact (hotMark_of_standing evaluated :)
  · rfl

/-- A raise of PACK_HOT at a PACK_T sample in DISCHARGE or PROTECT. -/
theorem packTemperature_raises {s : State} {r : Int} (h : s.chan.packT = .valid r) (cool : ¬s.pmg.hotMark = true)
    (feeding : s.pmg.state.Feeds) (hot : (s.ka.limits.packHot : Int) ≤ r) :
    let t := packTemperature tellSuction s
    t.pmg = { s.pmg with hotMark := true } ∧ t.snc.marks.packHot = true ∧
      (s.snc.marks.packHot = false → s.snc.stack.length < 4 → t.snc.hasUnreleased .packHot = true) := by
  intro t
  have told : Leaves .packHot tellSuction := tellSuction_leaves rfl
  let marked := s.modPmg fun p => { p with hotMark := true }
  have pmg : (raiseHard tellSuction .packHot marked).pmg = marked.pmg :=
    raiseHard_pmg (PackState.Feeds.shut (s := marked) feeding) _
  have taken : t = raiseHard tellSuction .packHot marked := by
    show packTemperature tellSuction s = _
    rw [packTemperature_valid h, judgeHot_raises cool feeding hot]
    exact chargeTemperature_feeding (by rw [pmg]; exact feeding) r
  rw [taken]
  exact ⟨pmg, raiseHard_marks rfl told marked, raiseHard_inForce (s := marked) told⟩

/-- Its clear 5 °C below, in any pack state. -/
theorem packTemperature_clears {s : State} {r : Int} (h : s.chan.packT = .valid r) (hot : s.pmg.hotMark = true)
    (cool : r ≤ (s.ka.limits.packHot : Int) - 5) :
    let t := packTemperature tellSuction s
    t.pmg.hotMark = false ∧ t.snc.marks.packHot = false ∧
      (s.pmg.state.Feeds → t.pmg = { s.pmg with hotMark := false }) := by
  intro t
  have told : Leaves .packHot tellSuction := tellSuction_leaves rfl
  let unmarked := s.modPmg fun p => { p with hotMark := false }
  have taken : t = chargeTemperature tellSuction r (clearHard tellSuction .packHot unmarked) := by
    show packTemperature tellSuction s = _
    rw [packTemperature_valid h, judgeHot_clears hot cool]
  have later := chargeTemperature_leaves rfl told r (clearHard tellSuction .packHot unmarked)
  rw [taken]
  refine ⟨(hotMark_of_standing later).trans (clearHard_hotMark told unmarked),
    (marked_of_standing later).trans (clearHard_marks rfl told unmarked), fun feeding => ?_⟩
  · have pmg := clearHard_pmg (PackState.Feeds.shut (s := unmarked) feeding) .packHot
    rw [chargeTemperature_feeding (by rw [pmg]; exact feeding)]
    exact pmg

/-- A PACK_T sample without a reading, or one between the two bounds, leaves both marks in every pack state. -/
theorem packTemperature_keepsMarks {s : State}
    (kept : s.chan.packT = .noReading ∨ ∃ r, s.chan.packT = .valid r ∧
      ((¬s.pmg.hotMark = true ∧ (¬s.pmg.state.Feeds ∨ r < (s.ka.limits.packHot : Int))) ∨
        (s.pmg.hotMark = true ∧ (s.ka.limits.packHot : Int) - 5 < r))) :
    let t := packTemperature tellSuction s
    t.pmg.hotMark = s.pmg.hotMark ∧ t.snc.marks.packHot = s.snc.marks.packHot := by
  have told : Leaves .packHot tellSuction := tellSuction_leaves rfl
  have stands : standing .packHot (packTemperature tellSuction s) = standing .packHot s := by
    rcases kept with none | ⟨r, valid, between⟩
    · rw [packTemperature_noReading none]
      exact chargeFault_leaves rfl told _ s
    · rw [packTemperature_valid valid, judgeHot_stays between]
      exact chargeTemperature_leaves rfl told r s
  exact ⟨hotMark_of_standing stands, marked_of_standing stands⟩

/-- In DISCHARGE and PROTECT a sample between the bounds is stored and no more. -/
theorem packTemperature_stays {s : State} {r : Int} (h : s.chan.packT = .valid r) (feeding : s.pmg.state.Feeds)
    (between : (¬s.pmg.hotMark = true ∧ r < (s.ka.limits.packHot : Int)) ∨
      (s.pmg.hotMark = true ∧ (s.ka.limits.packHot : Int) - 5 < r)) : packTemperature told s = s := by
  rw [packTemperature_valid h, judgeHot_stays (between.imp_left (And.imp_right .inr)), chargeTemperature_feeding feeding]

/-! ### The obligation -/

theorem temperatureOf_inRange {v r : Int} (nearest : NearestWhole v r) (low : -40 ≤ r) (high : r ≤ 125) :
    temperatureOf v = .valid r := by
  rw [temperatureOf_nearest nearest, if_pos ⟨low, high⟩]

theorem temperatureOf_outOfRange {v r : Int} (nearest : NearestWhole v r) (out : r < -40 ∨ 125 < r) :
    temperatureOf v = .noReading := by
  rw [temperatureOf_nearest nearest, if_neg (by omega)]

/-- Settles O22: the record stands through its telling, and the two hot conditions go by the cases of R103 and R162. -/
theorem convertedChannels : Obligations.ConvertedChannels := by
  unfold Obligations.ConvertedChannels
  intro s q
  have stored (c : Conversion) := channelSampled_stored c s
  have chan (c : Conversion) := chan_of_standing (stored c)
  refine ⟨fun v => ?packI, fun v r nearest => ?packT, fun v r nearest => ?motorT, fun v => ?motorI, fun v => ?speed,
    fun v nonneg => ?dockV, fun v r nearest untrapped => ?motorHot, fun v r nearest untrapped => ?packHot⟩
  case packI =>
    have packI : _ = packIOf v := congrArg Channels.packI (chan (.packI v))
    refine ⟨_, exec_channelSample q _, packI, ?_, congrArg Standing.accCount (stored (.packI v)),
      congrArg (fun c : Channels => { c with packI := s.chan.packI }) (chan (.packI v))⟩
    rw [packI]
    exact congrArg Standing.accSum (stored (.packI v))
  case packT =>
    exact ⟨_, exec_channelSample q _,
      (congrArg Channels.packT (chan (.packT v))).trans (temperatureOf_nearest nearest),
      congrArg (fun c : Channels => { c with packT := s.chan.packT }) (chan (.packT v))⟩
  case motorT =>
    exact ⟨_, exec_channelSample q _,
      (congrArg Channels.motorT (chan (.motorT v))).trans (temperatureOf_nearest nearest),
      congrArg (fun c : Channels => { c with motorT := s.chan.motorT }) (chan (.motorT v))⟩
  case motorI =>
    exact ⟨_, exec_channelSample q _, congrArg Channels.motorI (chan (.motorI v)),
      congrArg (fun c : Channels => { c with motorI := s.chan.motorI }) (chan (.motorI v))⟩
  case speed =>
    exact ⟨_, exec_channelSample q _, (congrArg Channels.speed (chan (.speed v))).trans (speedOf_eq v),
      congrArg (fun c : Channels => { c with speed := s.chan.speed }) (chan (.speed v))⟩
  case dockV =>
    exact ⟨_, exec_channelSample q _,
      (congrArg (fun c : Channels => (c.dockV : Int)) (chan (.dockV v))).trans (dockVOf_cast nonneg),
      congrArg (fun c : Channels => { c with dockV := s.chan.dockV }) (chan (.dockV v))⟩
  case motorHot =>
    rw [← temperatureOf_nearest nearest]
    refine ⟨_, exec_channelSample q _, ?_⟩
    rw [channelSampled_motorT untrapped]
    refine ⟨fun out => motorTTold_noReading (temperatureOf_outOfRange nearest out), fun low high => ?_⟩
    have valid : (sampleStored (.motorT v) s).chan.motorT = .valid r := temperatureOf_inRange nearest low high
    exact ⟨motorTTold_raises valid, motorTTold_clears valid, motorTTold_stays valid⟩
  case packHot =>
    rw [← temperatureOf_nearest nearest]
    refine ⟨_, exec_channelSample q _, ?_⟩
    rw [channelSampled_packT untrapped]
    refine ⟨fun out => ?_, fun low high => ?_⟩
    · have none : (sampleStored (.packT v) s).chan.packT = .noReading := temperatureOf_outOfRange nearest out
      obtain ⟨hotMark, mark⟩ := packTemperature_keepsMarks (.inl none)
      refine ⟨hotMark, mark, fun idle => ?_⟩
      rw [packTemperature_noReading none]
      exact if_neg (Bool.eq_false_iff.mp idle)
    have valid : (sampleStored (.packT v) s).chan.packT = .valid r := temperatureOf_inRange nearest low high
    exact ⟨packTemperature_raises valid, packTemperature_clears valid, packTemperature_stays valid,
      fun between => packTemperature_keepsMarks (.inr ⟨r, valid, between⟩)⟩

end Sys2Proof.Machine
end

section
/-! PROOF. TimerControl, ArmDetector and the run second (R52, R54, R56, R61 to R65). -/

namespace Sys2Proof.Machine

/-! ### TimerControl and ArmDetector (R56, R61) -/

theorem exec_timerControl {s : State} (ready : Ready s) (timer action : Byte) :
    exec (.timerControl timer action) s =
      .next ((timerControl timer action s).state.withReply
        (replyFrame 0x11 (timerControl timer action s).status (timerControl timer action s).body)) :=
  requestStep_of_ready ready 0x11 [timer, action] rfl rfl

theorem exec_armDetector {s : State} (ready : Ready s) (detector polarity debounce : Byte) :
    exec (.armDetector detector polarity debounce) s =
      .next ((armRequest detector polarity debounce s).state.withReply
        (replyFrame 0x12 (armRequest detector polarity debounce s).status
          (armRequest detector polarity debounce s).body)) :=
  requestStep_of_ready ready 0x12 [detector, polarity, debounce] rfl rfl

theorem unitOf?_none {n : Nat} (h : 4 ≤ n) : unitOf? n = none := by
  unfold unitOf?
  split
  case h_5 => rfl
  all_goals exact absurd h (by decide)

theorem unitOf?_some {n : Nat} (h : n < 4) : ∃ k, unitOf? n = some k := by
  interval_cases n <;> exact ⟨_, rfl⟩

theorem unitOf?_unitNo (k : Idx4) : unitOf? (byteOf (unitNo k)).toNat = some k := by cases k <;> rfl

/-- The actions that R56 lists: 0, the stop, and 1, the start. -/
theorem action_listed {action : Byte} : action.toNat < 2 ↔ ¬(action ≠ 0 ∧ action ≠ 1) := by
  constructor
  · rintro low ⟨stop, start⟩
    have : action.toNat ≠ 0 := fun h => stop (BitVec.eq_of_toNat_eq h)
    have : action.toNat ≠ 1 := fun h => start (BitVec.eq_of_toNat_eq h)
    omega
  · intro listed
    by_cases stop : action = 0
    · rw [stop]
      decide
    · by_cases start : action = 1
      · rw [start]
        decide
      · exact absurd ⟨stop, start⟩ listed

section
variable {timer action : Byte} {s : State} {k : Idx4}

theorem timerControl_badIndex (h : 4 ≤ timer.toNat) : timerControl timer action s = refuse .badIndex s := by
  rw [timerControl, unitOf?_none h]

theorem timerControl_range (unit : unitOf? timer.toNat = some k) (h : 2 ≤ action.toNat) :
    timerControl timer action s = refuse .range s := by
  have unlisted : action ≠ 0 ∧ action ≠ 1 := by
    by_contra listed
    exact absurd (action_listed.mpr listed) (by omega)
  simp only [timerControl, unit, if_pos unlisted]

theorem timerControl_held (unit : unitOf? timer.toNat = some k) (h : action.toNat < 2) (held : k = .i1 ∨ k = .i2) :
    timerControl timer action s = refuse .held s := by
  simp only [timerControl, unit, if_neg (action_listed.mp h), if_pos held]

theorem timerControl_passes (unit : unitOf? timer.toNat = some k) (h : action.toNat < 2) (free : k = .i0 ∨ k = .i3) :
    timerControl timer action s = answerOk (setTimerRunning k (decide (action = 1)) s) [] := by
  have unheld : ¬(k = .i1 ∨ k = .i2) := by rcases free with rfl | rfl <;> decide
  simp only [timerControl, unit, if_neg (action_listed.mp h), if_neg unheld]
  by_cases start : action = 1
  · rw [if_pos start, decide_eq_true start]
    rfl
  · rw [if_neg start, decide_eq_false start]
    rfl

end

section
variable {detector polarity debounce : Byte} {s : State}

theorem armRequest_badIndex (h : 3 ≤ detector.toNat) :
    armRequest detector polarity debounce s = refuse .badIndex s := if_pos h

theorem armRequest_held (h : detector.toNat < 2) : armRequest detector polarity debounce s = refuse .held s := by
  rw [armRequest, if_neg (by omega), if_pos h]

theorem armRequest_range (h : 3 ≤ polarity.toNat) : armRequest 2 polarity debounce s = refuse .range s := by
  rw [armRequest, if_neg (by decide), if_neg (by decide), if_pos h]

theorem armRequest_disarms : armRequest 2 2 debounce s = answerOk (disarmDetector .d2 s) [] := by
  rw [armRequest, if_neg (by decide), if_neg (by decide), if_neg (by decide), if_pos rfl]

theorem armRequest_arms (h : polarity.toNat < 2) :
    armRequest 2 polarity debounce s =
      { state := armDetector .d2 (if polarity = 1 then .rising else .falling) (min 15 debounce.toNat) s
        status := if 15 < debounce.toNat then .clamped else .ok
        body := [] } := by
  have disarm : polarity ≠ 2 := by
    rintro rfl
    exact absurd h (by decide)
  rw [armRequest, if_neg (by decide), if_neg (by decide), if_neg (by omega), if_neg disarm]

end

/-- Settles O28, test by test. -/
theorem timerControlAndArmDetector : Obligations.TimerControlAndArmDetector := by
  unfold Obligations.TimerControlAndArmDetector
  intro s ready
  refine ⟨fun timer action => ⟨fun high => ?_, fun low high => ?_, fun held low => ?_, fun k free low => ?_⟩,
    fun detector polarity debounce => ⟨fun high => ?_, fun low => ?_, ?_, ?_, ?_⟩⟩
  · rw [exec_timerControl ready, timerControl_badIndex high]
    rfl
  · obtain ⟨k, unit⟩ := unitOf?_some low
    rw [exec_timerControl ready, timerControl_range unit high]
    rfl
  · rcases held with rfl | rfl
    · rw [exec_timerControl ready, timerControl_held (timer := 1) (unitOf?_unitNo .i1) low (.inl rfl)]
      rfl
    · rw [exec_timerControl ready, timerControl_held (timer := 2) (unitOf?_unitNo .i2) low (.inr rfl)]
      rfl
  · rw [exec_timerControl ready, timerControl_passes (unitOf?_unitNo k) low free]
    rfl
  · rw [exec_armDetector ready, armRequest_badIndex high]
    rfl
  · rw [exec_armDetector ready, armRequest_held low]
    rfl
  · rintro rfl high
    rw [exec_armDetector ready, armRequest_range high]
    rfl
  · rintro rfl rfl
    rw [exec_armDetector ready, armRequest_disarms]
    rfl
  · rintro rfl low
    rw [exec_armDetector ready, armRequest_arms low]
    rfl

/-! ### The run second (R62 to R65) -/

/-- A counter as R63 writes it. -/
def RunTime.InRange (r : RunTime) : Prop := r.hours ≤ 65535 ∧ r.minutes ≤ 59 ∧ r.seconds ≤ 59

/-- A run second carries seconds into minutes and minutes into hours, and a saturated counter stays (R63). -/
theorem RunTime.addSecond_counts {r : RunTime} (range : r.InRange) :
    r.addSecond.total = min 235929599 (r.total + 1) ∧ r.addSecond.minutes ≤ 59 ∧ r.addSecond.seconds ≤ 59 := by
  obtain ⟨hours, minutes, seconds⟩ := range
  unfold RunTime.addSecond
  split
  · refine ⟨?_, minutes, ?_⟩ <;> simp only [RunTime.total] <;> omega
  · split
    · refine ⟨?_, ?_, ?_⟩ <;> simp only [RunTime.total] <;> omega
    · split
      · refine ⟨?_, ?_, ?_⟩ <;> simp only [RunTime.total] <;> omega
      · refine ⟨?_, minutes, seconds⟩
        simp only [RunTime.total]
        omega

/-- A rollover is a second that carries: the seconds stand at their end and the counter is not saturated (R63). -/
theorem RunTime.rollsOver_iff {r : RunTime} (range : r.InRange) :
    r.rollsOver = true ↔ r.seconds = 59 ∧ r.addSecond ≠ r := by
  obtain ⟨hours, minutes, seconds⟩ := range
  obtain ⟨h, m, x⟩ := r
  simp only at hours minutes seconds
  simp only [RunTime.rollsOver, RunTime.addSecond, Bool.and_eq_true, Bool.or_eq_true, decide_eq_true_eq]
  constructor
  · rintro ⟨full, carries⟩
    refine ⟨by omega, ?_⟩
    rw [if_neg (by omega)]
    split
    · simp only [ne_eq, RunTime.mk.injEq]
      omega
    · rw [if_pos (by omega)]
      simp only [ne_eq, RunTime.mk.injEq]
      omega
  · rintro ⟨rfl, moved⟩
    refine ⟨Nat.le_refl _, ?_⟩
    by_contra full
    exact moved (by rw [if_neg (by omega), if_neg (by omega), if_neg (by omega)])

theorem serviceMatches_iff {e : ServiceEntry} {filter : RunTime} :
    serviceMatches e filter = true ↔ e.enable = true ∧ (e.anyHours = true ∨ e.hours = filter.hours) ∧
      (e.anyMinutes = true ∨ e.minutes = filter.minutes) := by
  simp [serviceMatches, and_assoc]

/-- Both counters after a run second, and nothing else. -/
def State.secondCounted (s : State) : State :=
  s.modKa fun k => { k with motorTotal := k.motorTotal.addSecond, filter := k.filter.addSecond }

theorem addRunSecond_due {s : State}
    (h : s.ka.filter.rollsOver = true ∧ serviceMatches s.ka.service s.ka.filter.addSecond = true) :
    addRunSecond s = askNotice .service (s.secondCounted.modKa fun k => { k with serviceDue := true }) :=
  if_pos ((Bool.and_eq_true _ _).mpr h)

theorem addRunSecond_undue {s : State}
    (h : ¬(s.ka.filter.rollsOver = true ∧ serviceMatches s.ka.service s.ka.filter.addSecond = true)) :
    addRunSecond s = s.secondCounted :=
  if_neg fun due => h ((Bool.and_eq_true _ _).mp due)

theorem exec_runSecond {s : State} (q : Quiet s) :
    exec .runSecond s =
      .next (if s.tdu.runMark then addRunSecond (s.modTdu fun u => { u with runMs := 0 }) else s) :=
  mainStep_of_quiet q (runSecond_counting s).line

/-- A request for an enabled notice is granted (R7). -/
theorem askNotice_marks {k : NoticeKind} {s : State} (enabled : s.link.enables.get k = true) :
    (askNotice k s).link.notices.get k = true := by
  rw [askNotice_enabled enabled]
  exact NoticeMarks.get_set_same _ k true

/-- Settles O31: the counters by their carries, SERVICE_DUE by whether the rollover meets the match. -/
theorem runSecondCounts : Obligations.RunSecondCounts := by
  unfold Obligations.RunSecondCounts
  intro s q
  refine ⟨fun stopped => ?_, fun runs motor filter => ?_⟩
  · rw [exec_runSecond q, if_neg (by simp [stopped])]
  rw [exec_runSecond q, if_pos runs]
  obtain ⟨motorTotal, motorParts⟩ := RunTime.addSecond_counts motor
  obtain ⟨filterTotal, filterParts⟩ := RunTime.addSecond_counts filter
  have agrees := (and_congr (RunTime.rollsOver_iff filter)
    (serviceMatches_iff (e := s.ka.service) (filter := s.ka.filter.addSecond)))
  by_cases due : s.ka.filter.rollsOver = true ∧ serviceMatches s.ka.service s.ka.filter.addSecond = true
  · rw [addRunSecond_due (s := s.modTdu fun u => { u with runMs := 0 }) due]
    refine ⟨_, rfl, rfl, motorTotal, motorParts, filterTotal, filterParts,
      ⟨fun _ => ⟨rfl, askNotice_marks (k := .service)⟩, fun undue => absurd (agrees.mp due) undue⟩, rfl⟩
  · rw [addRunSecond_undue (s := s.modTdu fun u => { u with runMs := 0 }) due]
    exact ⟨_, rfl, rfl, motorTotal, motorParts, filterTotal, filterParts,
      ⟨fun met => absurd (agrees.mpr met) due, fun _ => ⟨rfl, rfl⟩⟩, rfl⟩

end Sys2Proof.Machine
end

section
/-! PROOF. What an evaluation and the budget's way to the suction controller leave of the other blocks, field by field
(R91, R93, R105, R115, R137, R153, R158, R174). -/

namespace Sys2Proof.Machine

variable {I : State → Prop} {told : State → State}

/-! ### What an evaluation leaves -/

/-- What a change of the drive leaves of the suction controller. -/
structure DriveOnly (c d : Snc) : Prop where
  stack : d.stack = c.stack
  marks : d.marks = c.marks
  boost : d.boostPermitted = c.boostPermitted
  halt : d.suction.isHalt = c.suction.isHalt

/-- What an evaluation leaves until it hands a change of the state on. It writes the drive, the condition record, the run
mark, TARGET and the hits of gates, and asks for notices. -/
structure Driven (s t : State) : Prop where
  ka : t.ka = s.ka
  reservation : t.reservation = s.reservation
  pmg : t.pmg = s.pmg
  dlc : t.dlc = s.dlc
  dsu : t.dsu = s.dsu
  tdu : { t.tdu with runMark := s.tdu.runMark } = s.tdu
  wcu : { t.wcu with hits := s.wcu.hits } = s.wcu
  chan : { t.chan with target := s.chan.target } = s.chan
  snc : DriveOnly s.snc t.snc
  accTimer : t.link.accTimer = s.link.accTimer
  accDetector : t.link.accDetector = s.link.accDetector

/-- An invariant that an evaluation cannot break until it hands a change on. -/
abbrev DriveKeeps (I : State → Prop) : Prop := ∀ s t, Driven s t → I s → I t

theorem DriveOnly.refl (c : Snc) : DriveOnly c c := ⟨rfl, rfl, rfl, rfl⟩

theorem Driven.refl (s : State) : Driven s s := ⟨rfl, rfl, rfl, rfl, rfl, rfl, rfl, rfl, .refl _, rfl, rfl⟩

theorem askNotice_driven (k : NoticeKind) (s : State) : Driven s (askNotice k s) := by
  refine ⟨rfl, rfl, rfl, rfl, rfl, rfl, rfl, rfl, .refl _, ?_, ?_⟩ <;> simp only [askNotice, State.modLink_link] <;> split <;> rfl

theorem recordHit_driven (u : Idx4) (s : State) : Driven s (recordHit u s) := by
  unfold recordHit askWatchNotice
  dsimp only
  split
  · refine ⟨rfl, rfl, rfl, rfl, rfl, rfl, rfl, rfl, .refl _, ?_, ?_⟩ <;> simp only [State.modLink_link] <;> split <;> rfl
  · exact ⟨rfl, rfl, rfl, rfl, rfl, rfl, rfl, rfl, .refl _, rfl, rfl⟩

theorem carried_driven {f : Snc → Snc} {s : State} (h : DriveOnly s.snc (f s.snc)) : Driven s (carried f s) := by
  unfold carried
  split <;> exact ⟨rfl, rfl, rfl, rfl, rfl, rfl, rfl, rfl, h, rfl, rfl⟩

theorem reportCondition_driven (flag : ConditionFlag) (src : ConditionSource) (s : State) :
    Driven s (reportCondition flag src s) := by
  unfold reportCondition
  split
  · exact .refl s
  · dsimp only
    split
    · have noted := askNotice_driven .condition (s.modSnc fun c => { c with conditions := c.conditions.set flag src })
      exact ⟨noted.ka, noted.reservation, noted.pmg, noted.dlc, noted.dsu, noted.tdu, noted.wcu, noted.chan,
        ⟨rfl, rfl, rfl, rfl⟩, noted.accTimer, noted.accDetector⟩
    · exact ⟨rfl, rfl, rfl, rfl, rfl, rfl, rfl, rfl, ⟨rfl, rfl, rfl, rfl⟩, rfl, rfl⟩

theorem adoptInto_driveOnly {c : Snc} (awake : c.suction.isHalt = false) (target speed : Nat) (m : Motion) :
    DriveOnly c (c.adoptInto target speed m) := by
  unfold Snc.adoptInto Snc.adopt
  split <;> exact ⟨rfl, rfl, rfl, awake.symm⟩

theorem hold_driveOnly {c : Snc} (awake : c.suction.isHalt = false) (m : Motion) (target : Nat) :
    DriveOnly c { c with suction := .held m target } := ⟨rfl, rfl, rfl, awake.symm⟩

/-! ### An invariant through what an evaluation hands on -/

theorem commitSuction_drive (drive : DriveKeeps I) (ht : Keeps I told) {f : Snc → Snc} {s : State}
    (h : DriveOnly s.snc (f s.snc)) (hs : I s) : I (commitSuction told f s) :=
  commitSuction_keeps (fun k t => drive t _ (askNotice_driven k t)) ht (drive _ _ (carried_driven h) hs)

theorem recordGateHits_drive (drive : DriveKeeps I) (target : Nat) : Keeps I (recordGateHits target) := fun s =>
  foldl_steps_keep (fun u t =>
    if gateMatches target (s.wcu.entries.get u) && !s.wcu.isClaimed u then recordHit u t else t)
    (fun u t h => by
      dsimp only
      split
      · exact drive _ _ (recordHit_driven u t) h
      · exact h) allUnits s

theorem takeTarget_drive (drive : DriveKeeps I) (ht : Keeps I told) (target : Nat) : Keeps I (takeTarget told target) := by
  intro s h
  have hits := recordGateHits_drive drive target s h
  have snc := recordGateHits_snc target s
  unfold takeTarget
  dsimp only
  split
  · exact h
  · next m _ state =>
    have awake : s.snc.suction.isHalt = false := by rw [state]; rfl
    split
    · exact commitSuction_drive drive ht (hold_driveOnly awake _ _) h
    · exact commitSuction_drive drive ht (adoptInto_driveOnly awake _ _ _) h
  · next m state =>
    have awake : s.snc.suction.isHalt = false := by rw [state]; rfl
    split
    · exact commitSuction_drive drive ht (adoptInto_driveOnly awake _ _ _) h
    · split
      · exact commitSuction_drive drive ht (by rw [snc]; exact hold_driveOnly awake _ _) hits
      · exact commitSuction_drive drive ht (by rw [snc]; exact adoptInto_driveOnly awake _ _ _) hits

theorem evaluate_drive (drive : DriveKeeps I) (ht : Keeps I told) : Keeps I (evaluate told) := by
  intro s h
  have one := reportIf_keeps (I := I) fun flag src t => drive t _ (reportCondition_driven flag src t)
  unfold evaluate
  split
  · exact h
  · exact takeTarget_drive drive ht _ _ (one _ _ _ _ (one _ _ _ _ (one _ _ _ _ (one _ _ _ s h))))

theorem evaluate_halt {s : State} (halt : s.snc.suction.isHalt = true) : evaluate told s = s := if_pos halt

/-- The stop of the dirt sensing unit, for an invariant that does not speak of it. -/
theorem dirtStop_drive (drive : DriveKeeps I) (dsu : ∀ f, Keeps I (State.modDsu f)) (t2 : Keeps I (stopTimer .i2)) :
    Keeps I (dirtStop id) := by
  intro s h
  have stopped := t2 _ (dsu (fun d => { d with dirtLevel := 0, quiet := 0 }) s h)
  unfold dirtStop setBoostLevel
  split
  · exact stopped
  · next moved =>
    rw [takeBoostLevel, if_neg moved]
    exact evaluate_drive drive id_keeps _ (drive _ _ (askNotice_driven .dirt _) (dsu _ _ stopped))

theorem chargeEntryTest_barred {s : State} (barred : mayCharge s = false) : chargeEntryTest told s = s := by
  simp [chargeEntryTest, barred]

/-- A report of the suction state while no charge may be entered reaches the dirt sensing unit alone. -/
theorem tellSuction_drive (drive : DriveKeeps I) (dsu : ∀ f, Keeps I (State.modDsu f)) (t2 : Keeps I (stopTimer .i2))
    (barred : ∀ s, I s → mayCharge s = false) : Keeps I tellSuction := by
  intro s h
  have stopped := dirtStop_drive drive dsu t2 s h
  unfold tellSuction suctionTold
  split
  · rw [chargeEntryTest_barred (barred _ stopped)]
    exact stopped
  · exact stopped
  all_goals exact h

theorem mayCharge_shut {s : State} (shut : Shut s) : mayCharge s = false := by
  unfold mayCharge
  rcases shut with session | state
  · simp [session]
  · simp [state]

theorem mayCharge_undocked {s : State} (undocked : s.snc.hasUnreleased .docked = false) : mayCharge s = false := by
  simp [mayCharge, undocked]

/-! ### The budget's way -/

/-- An invariant of the budget's way from the pack manager through the watch unit to the suction controller, which may
speak of the accumulation sets and of the timers too. -/
structure BudgetWayKeeps (I : State → Prop) : Prop where
  drive : DriveKeeps I
  stack : ∀ s c src, ((∃ cap, s.snc.raised? src cap = some c) ∨ s.snc.cleared? src = some c) → I s →
    I (s.modSnc fun _ => c)
  copy : ∀ w, Keeps I (State.modSnc fun c => { c with budget := w })
  comparison : ∀ u c, Keeps I (setComparison u c)
  draws : ∀ n, Keeps I (State.setDraws n)

namespace BudgetWayKeeps

variable (h : BudgetWayKeeps I)
include h

theorem changeStack (ht : Keeps I told) {s : State} {c : Option Snc} {src : Source}
    (change : (∃ cap, s.snc.raised? src cap = c) ∨ s.snc.cleared? src = c) (hs : I s) :
    I (changeStack told c s) := by
  cases c with
  | none => exact hs
  | some c =>
    exact evaluate_drive h.drive ht _ (h.drive _ _ (askNotice_driven .override _) (h.stack s c src change hs))

theorem deliverOverride (ht : Keeps I told) (t : Telling) : Keeps I (deliverOverride told t) := by
  have raises (src : Source) (cap : Nat) : Keeps I (raiseSoft told src cap) := by
    intro s hs
    unfold raiseSoft
    split
    · exact h.changeStack ht (.inl ⟨cap, rfl⟩) hs
    · exact hs
  cases t with
  | raised u cap => exact raises _ cap
  | stands u cap => exact raises _ cap
  | cleared u => exact fun s hs => h.changeStack ht (.inr rfl) hs
  | claimedHit u => exact id_keeps

theorem compareUnit (channel : ChannelId) : CompareKept I channel := by
  intro sample u s hs
  have hit := h.drive _ _ (recordHit_driven u s) hs
  simp only [Machine.compareUnit, trapHit, trapMiss]
  split
  · split
    · exact hs
    · split
      · split
        · exact h.comparison _ _ _ hit
        · exact hit
      · split
        · split <;> exact h.comparison _ _ s hs
        · exact hs
  · exact hs

theorem watchEvent (ht : Keeps I told) (channel : ChannelId) (sample : List Reading) :
    Keeps I fun s => (watchEvent (Machine.deliverOverride told) channel sample s).1 := fun s hs =>
  inAnyOrder_keeps h.draws _ (tellings_keep (h.deliverOverride ht) _) _
    (compareUnits_keeps (h.compareUnit channel) sample allUnits s hs)

theorem compareAmong (ht : Keeps I told) (channel : ChannelId) (sample : List Reading) {others : List (State → State)}
    (ho : ∀ e ∈ others, Keeps I e) : Keeps I (compareAmong (Machine.deliverOverride told) channel sample others) := by
  intro s hs
  have tellings := tellings_keep (h.deliverOverride ht)
  have drawn := h.draws (s.draws + 1) s hs
  unfold Machine.compareAmong
  dsimp only
  split
  · split
    · refine inAnyOrder_keeps h.draws _ (fun e m => ?_) _ (h.watchEvent ht channel sample _ drawn)
      exact (List.mem_append.mp m).elim (ho e) (tellings _ e)
    · exact inAnyOrder_keeps h.draws _ (tellings _) _
        (h.watchEvent ht channel sample _ (inAnyOrder_keeps h.draws _ ho _ drawn))
  · exact inAnyOrder_keeps h.draws _ ho s hs

/-- The announcement of a pack state, from the storing of its budget on. -/
theorem announcePack (ht : Keeps I told) {s : State} (stored : I (storeBudget (askNotice .pack s))) :
    I (announcePack told s) := by
  refine h.compareAmong ht _ _ (fun e m => ?_) _ stored
  split at m
  · rw [List.mem_singleton.mp m]
    exact fun t ht' => evaluate_drive h.drive ht _ (h.copy _ t ht')
  · cases m

end BudgetWayKeeps

/-- Storing a budget reports, and writes BUDGET and the pack manager's copy. -/
theorem storeBudget_pmg (s : State) : (storeBudget s).pmg = { s.pmg with budget := budgetOf s } := by
  have reported : (reportIf (decide (s.pmg.state = .discharge) && packBlind s.chan) .inv .budget s).pmg = s.pmg := by
    unfold reportIf
    split
    · exact (reportCondition_driven _ _ s).pmg
    · rfl
  exact congrArg (fun p : Pmg => { p with budget := budgetOf s }) reported

/-- For an invariant that does not speak of the budget, storing it is an evaluation's report. -/
theorem storeBudget_keeps_of (drive : DriveKeeps I) (chan : ∀ w, Keeps I (State.modChan fun c => { c with budget := w }))
    (pmg : ∀ w, Keeps I (State.modPmg fun p => { p with budget := w })) : Keeps I storeBudget := by
  intro s hs
  have reported := reportIf_keeps (I := I) fun flag src t => drive t _ (reportCondition_driven flag src t)
  exact pmg _ _ (chan _ _ (reported _ _ _ s hs))

end Sys2Proof.Machine
end

section
/-! PROOF. The timers and the detectors that wait to be named in a notice: an expiry and a detection name their own, and
no owner's event names another (R7, R53, R58). -/

namespace Sys2Proof.Machine

variable {told : State → State}

/-- The accumulation sets of the TIMER and the DETECTOR notice. -/
def named (s : State) : Four Bool × Three (Option Bool) := (s.link.accTimer, s.link.accDetector)

/-- An operation that names no timer and no detector. -/
abbrev NamesNone (f : State → State) : Prop := Moves (fun s t => named t = named s) f

theorem named_driven {s t : State} (h : Driven s t) : named t = named s := Prod.ext h.accTimer h.accDetector

theorem named_closed : EvalClosed fun s t => named t = named s where
  refl _ := rfl
  trans _ _ _ a b := b.trans a
  snc _ _ := rfl
  chan _ _ := rfl
  tdu _ _ := rfl
  dsu _ _ := rfl
  draws _ _ := rfl
  notice k s := named_driven (askNotice_driven k s)
  hit u s := named_driven (recordHit_driven u s)

theorem named_budgetWay (s : State) : BudgetWayKeeps fun t => named t = named s where
  drive _ _ driven h := (named_driven driven).trans h
  stack _ _ _ _ h := h
  copy _ _ h := h
  comparison _ _ _ h := h
  draws _ _ h := h

theorem takePackState_named (new : PackState) : NamesNone (takePackState new) := by
  intro s
  unfold takePackState
  dsimp only
  split <;> rfl

theorem announcePack_named (ht : NamesNone told) : NamesNone (announcePack told) := by
  intro s
  have stored : named (storeBudget (askNotice .pack s)) = named s :=
    (reportIf_moves named_closed _ _ _ _).trans (named_closed.notice .pack s)
  exact (named_budgetWay s).announcePack (fun t h => (ht t).trans h) stored

theorem releaseWatches_named : NamesNone releaseWatches := by
  intro s
  unfold releaseWatches
  split <;> rfl

theorem chargeFault_named (ht : NamesNone told) (kind : ChargeFault) : NamesNone (chargeFault told kind) := by
  intro s
  unfold chargeFault
  split
  · exact (announcePack_named ht _).trans ((releaseWatches_named _).trans (takePackState_named _ s))
  · rfl

theorem entryFault_named (ht : NamesNone told) (kind : ChargeFault) : NamesNone (entryFault told kind) := fun s =>
  (announcePack_named ht _).trans (takePackState_named _ s)

theorem dirtTold_named : NamesNone dirtTold := dirtTold_moves named_closed

theorem clearLowMark_named (ht : NamesNone told) : NamesNone (clearLowMark told) := by
  intro s
  unfold clearLowMark
  split
  · exact clearHard_moves named_closed ht .packLow (s.modPmg fun p => { p with lowMark := false })
  · rfl

theorem claimWatches_named (ht : NamesNone told) : NamesNone (claimWatches told) := fun s =>
  tellCleared_moves named_closed ht [.i2, .i3] s.wcu.comparisons (clearComparisons [.i2, .i3] s)

theorem modPmg_named (f : Pmg → Pmg) : NamesNone (State.modPmg f) := fun _ => rfl

theorem askAnew_named : NamesNone askAnew := fun _ => rfl

theorem chargeEntry_named (ht : NamesNone told) : NamesNone (chargeEntry told) := fun s =>
  have claimed := (startTimer_moves named_closed .i1 _).trans ((claimWatches_named dirtTold_named _).trans
    ((clearLowMark_named dirtTold_named _).trans (modPmg_named _ s)))
  (announcePack_named ht _).trans ((askAnew_named _).trans ((modPmg_named _ _).trans
    ((takePackState_named _ _).trans claimed)))

theorem chargeEntryTest_named (ht : NamesNone told) : NamesNone (chargeEntryTest told) := by
  intro s
  unfold chargeEntryTest
  split
  · split
    · rfl
    · split
      · exact entryFault_named ht _ s
      · split
        · exact chargeEntry_named ht s
        · exact entryFault_named ht _ s
  · rfl

theorem tellSuction_named : NamesNone tellSuction := by
  intro s
  have stopped := dirtStop_moves named_closed named_closed.refl s
  unfold tellSuction suctionTold
  split
  · exact (chargeEntryTest_named named_closed.refl _).trans stopped
  · exact stopped
  all_goals rfl

/-! ### The owners of the timers -/

theorem advanceQuiet_named (level score : Nat) : NamesNone (advanceQuiet level score) := by
  intro s
  unfold advanceQuiet
  split
  · split <;> rfl
  · rfl

theorem classifyWindow_named (applied : Nat) : NamesNone (classifyWindow applied) := fun s =>
  (moveBoost_moves named_closed _ _).trans (advanceQuiet_named _ _ (recorded applied s))

theorem compareNow_named (channel : ChannelId) (sample : List Reading) :
    NamesNone fun s => (compareNow (deliverOverride id) channel sample s).1 := by
  intro s
  dsimp only
  rw [compareNow_fst]
  split
  · exact (named_budgetWay s).watchEvent id_keeps channel sample s rfl
  · rfl

theorem storeNet_named : NamesNone storeNet := fun _ => rfl

theorem openWindow_named (applied : Nat) : NamesNone (openWindow applied) := fun _ => rfl

theorem closeClassified_named : NamesNone (closeClassified tellSuction) := by
  intro s
  have compared := compareNow_named .dirtNet [.valid (storeNet s).chan.dirtNet] (storeNet s)
  have closed := (openWindow_named s.snc.applied _).trans ((classifyWindow_named s.snc.applied _).trans
    (compared.trans (storeNet_named s)))
  have rested (x : State) : named (tellSuction (dirtStop id x)) = named x :=
    (tellSuction_named _).trans (dirtStop_moves named_closed named_closed.refl x)
  have evaluated := evaluate_moves named_closed tellSuction_named
  unfold closeClassified
  dsimp only
  split <;> split
  · exact (rested _).trans closed
  · exact closed
  · exact (evaluated _).trans ((rested _).trans closed)
  · exact (evaluated _).trans closed

theorem expiryTold_named (k : Idx4) : NamesNone (expiryTold tellSuction k) := by
  intro s
  cases k with
  | i0 =>
    show named (windowClose tellSuction s) = named s
    unfold windowClose
    dsimp only
    split
    · rfl
    · rfl
    · exact closeClassified_named s
  | i1 =>
    show named (safetyExpired tellSuction s) = named s
    have fault := chargeFault_named tellSuction_named .timeout s
    unfold safetyExpired
    split
    · exact fault
    · exact fault
    · exact fault
    · exact fault
    all_goals rfl
  | i2 => exact setBoostLevel_moves named_closed tellSuction_named _ s
  | i3 => rfl

end Sys2Proof.Machine
end

section
/-! PROOF. A detection of D1 and of D2: the BIN_OPEN entry, the full stack, the release and the pop
(R58, R59, R103, R125 to R130). -/

namespace Sys2Proof.Machine

variable {told : State → State} {src : Source}

/-! ### The detection in the unit (R58) -/

/-- The unit's own part of a detection: the line stands at its new level, the detector is disarmed and named. -/
def State.seen (d : DetectorId) (level : Bool) (s : State) : State :=
  detect d level (s.modPins fun p => p.withLevel d level)

theorem seen_line (d : DetectorId) (level : Bool) (s : State) :
    LineKept (s.modPins fun p => p.withLevel d level) (detectionTold tellSuction d level (s.seen d level)) :=
  (detect_moves lineKept_closed d level _).trans
    (detectionTold_moves lineKept_closed (tellSuction_moves lineKept_closed) d level _)

theorem exec_detection_disarmed {s : State} (q : Quiet s) {d : DetectorId}
    (disarmed : (s.tdu.detectors.get d).armed = false) : exec (.detection d) s = .next s := by
  refine (mainStep_awake q.awake _).trans ?_
  dsimp only
  rw [if_neg (by simp [disarmed]), settle_of_quiet q]

theorem exec_detection {s : State} (q : Quiet s) {d : DetectorId} {level : Bool}
    (armed : (s.tdu.detectors.get d).armed = true) (newLevel : (s.tdu.detectors.get d).polarity.newLevel = level) :
    exec (.detection d) s = .next (detectionTold tellSuction d level (s.seen d level)) := by
  have moved : Quiet (s.modPins fun p => p.withLevel d level) := ⟨q.awake, q.busy, q.still⟩
  refine (mainStep_awake q.awake _).trans ?_
  dsimp only
  rw [if_pos armed, newLevel]
  exact congrArg Host.Outcome.next (settle_of_quiet (moved.of_kept (seen_line d level s)))

theorem seen_notice {s : State} {d : DetectorId} {level : Bool} (enabled : s.link.enables.detector = true) :
    (s.seen d level).link.notices.detector = true ∧ (s.seen d level).link.accDetector.get d = some level := by
  obtain ⟨-, -, -, granted⟩ := noticesAndTransmitter
  obtain ⟨-, -, -, -, -, -, names, -⟩ := granted (disarmDetector d (s.modPins fun p => p.withLevel d level))
  obtain ⟨notices, acc⟩ := names d level enabled
  exact ⟨congrArg NoticeMarks.detector notices,
    (congrArg (Three.get · d) acc).trans (three_get_set _ d (some level))⟩

/-- A detection asks for no other notice, and the enables stay. -/
theorem seen_others (d : DetectorId) (level : Bool) (s : State) :
    (s.seen d level).link.enables = s.link.enables ∧
      ∀ k, k ≠ .detector → (s.seen d level).link.notices.get k = s.link.notices.get k := by
  simp only [State.seen, detect, askDetectorNotice, State.modLink_link]
  split
  · exact ⟨rfl, fun k other => NoticeMarks.get_set_other _ other true⟩
  · exact ⟨rfl, fun _ _ => rfl⟩

theorem detectionTold_notice {s : State} {d : DetectorId} {level : Bool} (enabled : s.link.enables.detector = true) :
    (detectionTold tellSuction d level (s.seen d level)).link.notices.detector = true :=
  detectionTold_moves (noticeStays_closed .detector) (tellSuction_moves (noticeStays_closed .detector)) d level _
    (seen_notice enabled).1

theorem binDetected_named (level : Bool) : NamesNone (binDetected tellSuction level) :=
  binDetected_moves named_closed tellSuction_named level

/-- A detection of D1 asks for the DETECTOR notice and names D1 with its level (R58). -/
theorem binDetected_notice {s : State} {level : Bool} (enabled : s.link.enables.detector = true) :
    (binDetected tellSuction level (s.seen .d1 level)).link.notices.detector = true ∧
      (binDetected tellSuction level (s.seen .d1 level)).link.accDetector.d1 = some level := by
  refine ⟨detectionTold_notice (d := .d1) enabled, ?_⟩
  have names := binDetected_named level (s.seen .d1 level)
  exact (congrArg (fun x : Four Bool × Three (Option Bool) => x.2.d1) names).trans (seen_notice (d := .d1) enabled).2

/-! ### A raise that finds an entry, and one that finds the stack full (R126, R128) -/

theorem raised?_none_of_entry {c : Snc} {cap : Nat} (h : c.raised? src cap = none) (entry : findEntry src c.stack ≠ none) :
    c.hasUnreleased src = true := by
  unfold Snc.raised? at h
  split at h
  · next e found =>
    split at h
    · cases h
    · next unreleased =>
      have own : e.source = src := by simpa using List.find?_some found
      exact List.any_eq_true.mpr ⟨e, List.mem_of_find?_eq_some found, by simp [own, unreleased]⟩
  · next absent => exact absurd absent entry

/-- An entry of the source is reactivated or stands (R126). -/
theorem raiseHard_inForce_of_entry (ht : Leaves src told) {s : State} (unmarked : s.snc.marks.get src = false)
    (entry : findEntry src s.snc.stack ≠ none) : (raiseHard told src s).snc.hasUnreleased src = true := by
  unfold raiseHard
  rw [if_neg (by simp [unmarked])]
  dsimp only
  rw [if_neg (fun full => absurd full.1 entry)]
  cases raised : (setMark src true s).snc.raised? src 0 with
  | none => exact raised?_none_of_entry raised entry
  | some c => exact (stackChange_stands ht c _).2.trans (raised?_inForce raised).2

theorem raiseHard_marked {s : State} (marked : s.snc.marks.get src = true) : raiseHard told src s = s := if_pos marked

theorem clearHard_unmarked {s : State} (unmarked : s.snc.marks.get src = false) : clearHard told src s = s :=
  if_neg (by simp [unmarked])

theorem raiseHard_full {s : State} (unmarked : s.snc.marks.get src = false) (absent : findEntry src s.snc.stack = none)
    (full : 4 ≤ s.snc.stack.length) : raiseHard told src s = enterHalt told .stackFull (setMark src true s) := by
  unfold raiseHard
  rw [if_neg (by simp [unmarked])]
  exact if_pos ⟨absent, full⟩

theorem askNotice_get_other {j k : NoticeKind} (h : k ≠ j) (s : State) :
    (askNotice j s).link.notices.get k = s.link.notices.get k := by
  simp only [askNotice, State.modLink_link]
  split
  · exact NoticeMarks.get_set_other _ h true
  · rfl

/-- In HALT the stop of the dirt sensing unit makes no evaluation (R91, R153). -/
theorem dirtStop_halt {s : State} (halt : s.snc.suction.isHalt = true) :
    dirtStop id s = takeBoostLevel 0 (stopTimer .i2 (s.modDsu fun d => { d with dirtLevel := 0, quiet := 0 })) := by
  unfold dirtStop setBoostLevel
  split
  · next low => exact (takeBoostLevel_same low).symm
  · refine evaluate_halt ?_
    rw [takeBoostLevel_frame]
    exact halt

theorem takeBoostLevel_get_other (n : Nat) {k : NoticeKind} (h : k ≠ .dirt) (s : State) :
    (takeBoostLevel n s).link.notices.get k = s.link.notices.get k := by
  unfold takeBoostLevel
  split
  · rfl
  · exact askNotice_get_other h _

theorem halted_halt (cause : HaltCause) (c : Snc) : (c.halted cause).suction.isHalt = true := by
  unfold Snc.halted
  split
  · assumption
  · rfl

theorem isHalt_reported {x : Suction} : x.reported = .halt ↔ x.isHalt = true := by
  cases x with
  | moving m => cases m <;> simp [Suction.reported, Suction.isHalt]
  | held m p => simp [Suction.reported, Suction.isHalt]
  | halt c => simp [Suction.reported, Suction.isHalt]

/-- An entry to HALT writes the drive, and asks for the SUCTION and the DIRT notice alone (R102, R105, R153). -/
theorem enterHalt_enters {s : State} (cause : HaltCause) (running : s.snc.suction.isHalt = false) :
    (enterHalt tellSuction cause s).snc = s.snc.halted cause ∧
      (∀ k, k ≠ .suction → k ≠ .dirt →
        (enterHalt tellSuction cause s).link.notices.get k = s.link.notices.get k) ∧
      (s.link.enables.suction = true → (enterHalt tellSuction cause s).link.notices.suction = true) := by
  have snc : (askNotice .suction (carried (Snc.halted cause) s)).snc = s.snc.halted cause := carried_snc _ s
  have line := carried_line (Snc.halted cause) s
  have notices : (carried (Snc.halted cause) s).link.notices = s.link.notices := by
    unfold carried
    split <;> rfl
  have halt := halted_halt cause s.snc
  have changed : ¬(s.snc.halted cause).suction.reported = s.snc.suction.reported := by
    rw [isHalt_reported.mpr halt]
    intro same
    rw [isHalt_reported.mp same.symm] at running
    cases running
  have told : enterHalt tellSuction cause s = dirtStop id (askNotice .suction (carried (Snc.halted cause) s)) := by
    rw [enterHalt, commitSuction_eq, if_neg changed]
    unfold tellSuction suctionTold
    rw [snc, isHalt_reported.mpr halt]
  rw [told, dirtStop_halt (by rw [snc]; exact halt)]
  refine ⟨?_, fun k suction dirt => ?_, fun enabled => ?_⟩
  · rw [takeBoostLevel_frame]
    exact snc
  · exact (takeBoostLevel_get_other 0 dirt _).trans ((askNotice_get_other suction _).trans (by rw [notices]))
  · refine (takeBoostLevel_get_other 0 (k := .suction) (by decide) _).trans ?_
    exact askNotice_marks (k := .suction) (by rw [line.enables]; exact enabled)

/-- A further cause in HALT changes nothing that is told (R102). -/
theorem enterHalt_again {s : State} (cause : HaltCause) (halt : s.snc.suction.isHalt = true) :
    (enterHalt told cause s).snc = s.snc ∧ (enterHalt told cause s).link = s.link := by
  have same : s.snc.halted cause = s.snc := if_pos halt
  rw [enterHalt, commitSuction_eq, if_pos (by rw [same]), carried_snc, same]
  refine ⟨rfl, ?_⟩
  unfold carried
  split <;> rfl

/-- A raise that finds the stack full: the stack and the flag stay, HALT is entered with STACK_FULL, and a HALT keeps its
cause (R128). -/
theorem raiseHard_overflows {s : State} (unmarked : s.snc.marks.get src = false)
    (absent : findEntry src s.snc.stack = none) (full : 4 ≤ s.snc.stack.length) :
    let t := raiseHard tellSuction src s
    t.snc.stack = s.snc.stack ∧ t.snc.boostPermitted = s.snc.boostPermitted ∧
      t.link.notices.override = s.link.notices.override ∧
      (s.snc.suction.isHalt = false → t.snc.suction = .halt .stackFull ∧ t.snc.adopted = 0 ∧ t.snc.applied = 0 ∧
        (s.link.enables.suction = true → t.link.notices.suction = true)) ∧
      (s.snc.suction.isHalt = true → t.snc.suction = s.snc.suction) := by
  rw [raiseHard_full unmarked absent full]
  cases halt : s.snc.suction.isHalt with
  | true =>
    obtain ⟨snc, link⟩ := enterHalt_again (s := setMark src true s) (told := tellSuction) .stackFull halt
    simp only [snc, link]
    exact ⟨rfl, rfl, rfl, fun running => (by cases running), fun _ => rfl⟩
  | false =>
    obtain ⟨snc, others, suction⟩ := enterHalt_enters (s := setMark src true s) .stackFull halt
    have entered : (setMark src true s).snc.halted .stackFull = { (setMark src true s).snc with
        suction := .halt .stackFull, adopted := 0, applied := 0, spinUpCount := 0, stallCount := 0, overCount := 0 } :=
      if_neg (by rw [show (setMark src true s).snc.suction.isHalt = false from halt]; decide)
    rw [entered] at snc
    dsimp only
    rw [snc]
    exact ⟨rfl, rfl, others .override (by decide) (by decide), fun _ => ⟨rfl, rfl, rfl, suction⟩, fun h => by cases h⟩

/-! ### A clear on the stack (R129, R130) -/

theorem dropReleased_stack (stack : List OverrideEntry) (flag : Bool) :
    (dropReleased stack flag).1 = stack.dropWhile OverrideEntry.released := by
  induction stack generalizing flag with
  | nil => rfl
  | cons e rest ih =>
    unfold dropReleased
    rw [List.dropWhile_cons]
    split
    · exact ih _
    · rfl

section
variable {c : Snc} {e : OverrideEntry} {upper lower : List OverrideEntry}

theorem hasUnreleased_of_entry (stack : c.stack = upper ++ e :: lower) (own : e.source = src)
    (unreleased : e.released = false) : c.hasUnreleased src = true :=
  List.any_eq_true.mpr ⟨e, by simp [stack], by simp [own, unreleased]⟩

/-- A clear of the top entry pops it with the released ones that it uncovers. -/
theorem cleared?_pops (stack : c.stack = e :: lower) (own : e.source = src) (unreleased : e.released = false) :
    ∃ d, c.cleared? src = some d ∧ d.stack = lower.dropWhile OverrideEntry.released := by
  have inForce := hasUnreleased_of_entry (upper := []) stack own unreleased
  refine ⟨c.popChain, ?_, ?_⟩
  · simp only [Snc.cleared?, inForce, stack, if_pos own, if_true]
  · unfold Snc.popChain
    rw [stack]
    exact dropReleased_stack _ _

theorem mapEntry_split (f : OverrideEntry → OverrideEntry)
    (nodup : ((upper ++ e :: lower).map OverrideEntry.source).Nodup) (own : e.source = src) :
    mapEntry src f (upper ++ e :: lower) = upper ++ f e :: lower := by
  rw [List.map_append, List.map_cons, List.nodup_append, List.nodup_cons] at nodup
  obtain ⟨-, ⟨below, -⟩, apart⟩ := nodup
  have others {l : List OverrideEntry} (h : ∀ x ∈ l, x.source ≠ src) :
      l.map (fun x => if x.source = src then f x else x) = l :=
    (List.map_congr_left fun x m => if_neg (h x m)).trans (List.map_id l)
  unfold mapEntry
  rw [List.map_append, List.map_cons, if_pos own, others, others]
  · exact fun x m same => below (List.mem_map.mpr ⟨x, m, same.trans own.symm⟩)
  · exact fun x m same => apart _ (List.mem_map_of_mem m) _ (List.mem_cons_self ..) (same.trans own.symm)

/-- A clear of an entry below the top marks it released. -/
theorem cleared?_releases (nodup : (c.stack.map OverrideEntry.source).Nodup) (stack : c.stack = upper ++ e :: lower)
    (covered : upper ≠ []) (own : e.source = src) (unreleased : e.released = false) :
    ∃ d, c.cleared? src = some d ∧ d.stack = upper ++ { e with released := true } :: lower := by
  have inForce := hasUnreleased_of_entry stack own unreleased
  obtain ⟨top, rest, rfl⟩ := List.exists_cons_of_ne_nil covered
  have other : top.source ≠ src := by
    rw [stack] at nodup
    intro same
    refine (List.nodup_cons.mp nodup).1 (List.mem_map.mpr ⟨e, by simp, own.trans same.symm⟩)
  refine ⟨c.markReleased src, ?_, ?_⟩
  · simp only [Snc.cleared?, inForce, stack, List.cons_append, if_neg other, if_true]
  · show mapEntry src _ c.stack = _
    rw [stack] at nodup ⊢
    exact mapEntry_split _ nodup own

end

theorem stack_driveKeeps (stack : List OverrideEntry) :
    DriveKeeps fun t => t.snc.stack = stack ∧ t.pmg.state ≠ .dockedWait := fun _ _ driven h =>
  ⟨driven.snc.stack.trans h.1, by rw [driven.pmg]; exact h.2⟩

/-- Outside DOCKED_WAIT the evaluation of a stack change, and what it hands on, leave the stack. -/
theorem clearHard_stack {s : State} {c : Snc} (marked : s.snc.marks.get src = true)
    (waits : s.pmg.state ≠ .dockedWait) (cleared : (setMark src false s).snc.cleared? src = some c) :
    (clearHard tellSuction src s).snc.stack = c.stack := by
  have drive := stack_driveKeeps c.stack
  have told : Keeps (fun t => t.snc.stack = c.stack ∧ t.pmg.state ≠ .dockedWait) tellSuction :=
    tellSuction_drive drive (fun _ _ h => h) (fun _ h => h) fun _ h => mayCharge_shut (.inr h.2)
  unfold clearHard
  rw [if_pos marked]
  dsimp only
  rw [cleared]
  exact (evaluate_drive drive told _ (drive ((setMark src false s).modSnc fun _ => c) _ (askNotice_driven .override _)
    ⟨rfl, waits⟩)).1

/-! ### The obligation -/

/-- The bin opens (R103, R125, R126, R128). -/
theorem binOpens (s : State) :
    let t := binDetected tellSuction true (s.seen .d1 true)
    t.snc.marks.binOpen = true ∧ t.tdu.detectors.d1 = Detector.armedFor .falling ∧
      (s.snc.marks.binOpen = false → s.snc.stack.length < 4 → t.snc.hasUnreleased .binOpen = true) ∧
      (s.snc.marks.binOpen = false → findEntry .binOpen s.snc.stack ≠ none → t.snc.hasUnreleased .binOpen = true) ∧
      (s.snc.marks.binOpen = true → t.snc = s.snc) := by
  have told : Leaves .binOpen tellSuction := tellSuction_leaves rfl
  exact ⟨raiseHard_marks rfl told _, detectionTold_rearmed (d := .d1) (by decide) true _,
    fun unmarked room => raiseHard_inForce told unmarked room,
    fun unmarked entry => raiseHard_inForce_of_entry told unmarked entry,
    fun marked => (congrArg State.snc (raiseHard_marked (src := .binOpen) (told := tellSuction)
      (s := armDetector .d1 .falling 8 (s.seen .d1 true)) marked) :)⟩

/-- The bin closes (R103, R129, R130). -/
theorem binCloses (s : State) :
    let t := binDetected tellSuction false (s.seen .d1 false)
    t.snc.marks.binOpen = false ∧ t.tdu.detectors.d1 = Detector.armedFor .rising ∧
      (s.snc.marks.binOpen = false → t.snc = s.snc) ∧
      (s.snc.marks.binOpen = true → StackSound s.snc → t.snc.hasUnreleased .binOpen = false) ∧
      (s.snc.marks.binOpen = true → ∀ e upper lower, e.source = .binOpen → e.released = false →
        s.snc.stack = upper ++ e :: lower → s.pmg.state ≠ .dockedWait → StackSound s.snc →
        (upper ≠ [] → t.snc.stack = upper ++ { e with released := true } :: lower) ∧
        (upper = [] → t.snc.stack = lower.dropWhile OverrideEntry.released)) := by
  have told : Leaves .binOpen tellSuction := tellSuction_leaves rfl
  refine ⟨clearHard_marks rfl told _, detectionTold_rearmed (d := .d1) (by decide) false _,
    fun unmarked => (congrArg State.snc (clearHard_unmarked (src := .binOpen) (told := tellSuction)
      (s := armDetector .d1 .rising 8 (s.seen .d1 false)) unmarked) :),
    fun marked sound => clearHard_outOfForce told marked sound,
    fun marked e upper lower own unreleased stack waits sound => ⟨fun covered => ?_, ?_⟩⟩
  · obtain ⟨c, cleared, left⟩ := cleared?_releases (c := { s.snc with marks := s.snc.marks.set .binOpen false })
      sound.sources stack covered own unreleased
    exact (clearHard_stack (src := .binOpen) (s := armDetector .d1 .rising 8 (s.seen .d1 false)) marked waits cleared).trans left
  · rintro rfl
    obtain ⟨c, cleared, left⟩ := cleared?_pops (c := { s.snc with marks := s.snc.marks.set .binOpen false })
      stack own unreleased
    exact (clearHard_stack (src := .binOpen) (s := armDetector .d1 .rising 8 (s.seen .d1 false)) marked waits cleared).trans left

/-- Settles O29: the unit's part of the detection, then D1's owner on the stack. -/
theorem detections : Obligations.Detections := by
  unfold Obligations.Detections
  refine fun s q => ⟨fun d => exec_detection_disarmed q, fun armed => ?_, fun armed rising => ?_, fun armed falling => ?_⟩
  · exact exec_detection q (d := .d2) armed (newLevel_eq _)
  · refine ⟨_, exec_detection q (d := .d1) (level := true) armed (by simp only [Three.get, rising]; rfl),
      (seen_line .d1 true s).pins, ?_⟩
    obtain ⟨marked, rearmed, room, entry, stays⟩ := binOpens s
    refine ⟨marked, rearmed, room, entry, fun unmarked absent full => ?_, stays, binDetected_notice⟩
    obtain ⟨enables, others⟩ := seen_others .d1 true s
    obtain ⟨stack, boost, override, enters, again⟩ := raiseHard_overflows (src := .binOpen)
      (s := armDetector .d1 .falling 8 (s.seen .d1 true)) unmarked absent full
    refine ⟨stack, boost, override.trans (others .override (by decide)), fun running => ?_, again⟩
    obtain ⟨suction, adopted, applied, notice⟩ := enters running
    exact ⟨suction, adopted, applied, fun enabled => notice ((congrArg NoticeMarks.suction enables).trans enabled)⟩
  · refine ⟨_, exec_detection q (d := .d1) (level := false) armed (by simp only [Three.get, falling]; rfl),
      (seen_line .d1 false s).pins, ?_⟩
    obtain ⟨unmarked, rearmed, stays, outOfForce, stack⟩ := binCloses s
    exact ⟨unmarked, rearmed, stays, outOfForce, stack, binDetected_notice⟩

end Sys2Proof.Machine
end

section
/-! PROOF. An announcement of the pack manager while no charge may be entered: the pack manager's block, T1 and the PACK
notice; and the departures from the charging states (R84, R158, R174, R192, R193, R195). -/

namespace Sys2Proof.Machine

variable {told : State → State}

theorem budgetOf_idle {s : State} (idle : s.pmg.state ≠ .discharge) : budgetOf s = 0 := if_neg idle

theorem packKept_budgetWay (p : Pmg) (d : Dlc) : BudgetWayKeeps fun t => t.pmg = p ∧ t.dlc = d where
  drive _ _ driven h := ⟨driven.pmg.trans h.1, driven.dlc.trans h.2⟩
  stack _ _ _ _ h := h
  copy _ _ h := h
  comparison _ _ _ h := h
  draws _ _ h := h

theorem storeBudget_dlc (s : State) : (storeBudget s).dlc = s.dlc :=
  storeBudget_keeps_of (I := fun t => t.dlc = s.dlc) (fun _ _ driven h => driven.dlc.trans h) (fun _ _ h => h)
    (fun _ _ h => h) s rfl

/-- While no charge may be entered an announcement writes the budget alone of the pack manager. -/
theorem announcePack_pmg {s : State} (shut : Shut s) :
    (announcePack tellSuction s).pmg = { s.pmg with budget := budgetOf s } := by
  have pmg := storeBudget_pmg (askNotice .pack s)
  have stored : Shut (storeBudget (askNotice .pack s)) := by
    unfold Shut
    rw [pmg, storeBudget_dlc]
    exact shut
  exact ((packKept_budgetWay _ _).announcePack (tellSuction_packKept stored) ⟨rfl, rfl⟩).1.trans pmg

theorem timers_of_driven {s t : State} (h : Driven s t) : t.tdu.timers = s.tdu.timers :=
  (congrArg Tdu.timers h.tdu :)

theorem entries_of_driven {s t : State} (h : Driven s t) : t.tdu.entries = s.tdu.entries :=
  (congrArg Tdu.entries h.tdu :)

/-- T1 through the events that stop T2 alone: outside DOCKED_WAIT no charge is entered. -/
def SafetyTimer (x : Timer) (t : State) : Prop := t.tdu.timers.i1 = x ∧ t.pmg.state ≠ .dockedWait

theorem safetyTimer_drive (x : Timer) : DriveKeeps (SafetyTimer x) := fun _ _ driven h =>
  ⟨(congrArg Four.i1 (timers_of_driven driven)).trans h.1, by rw [driven.pmg]; exact h.2⟩

theorem safetyTimer_budgetWay (x : Timer) : BudgetWayKeeps (SafetyTimer x) where
  drive := safetyTimer_drive x
  stack _ _ _ _ h := h
  copy _ _ h := h
  comparison _ _ _ h := h
  draws _ _ h := h

theorem tellSuction_safetyTimer (x : Timer) : Keeps (SafetyTimer x) tellSuction :=
  tellSuction_drive (safetyTimer_drive x) (fun _ _ h => h) (fun _ h => h) fun _ h => mayCharge_shut (.inr h.2)

theorem announcePack_safetyTimer (x : Timer) : Keeps (SafetyTimer x) (announcePack tellSuction) := fun s h =>
  (safetyTimer_budgetWay x).announcePack (tellSuction_safetyTimer x)
    (storeBudget_keeps_of (safetyTimer_drive x) (fun _ _ h => h) (fun _ _ h => h) _
      (safetyTimer_drive x _ _ (askNotice_driven .pack s) h))

/-- Every announcement asks for the PACK notice (R158). -/
theorem announcePack_notice {s : State} (enabled : s.link.enables.pack = true) :
    (announcePack tellSuction s).link.notices.pack = true :=
  computeBudget_moves (noticeStays_closed .pack) (tellSuction_moves (noticeStays_closed .pack)) false _
    (askNotice_marks (k := .pack) enabled)

/-- The pack manager after a pack state outside CV and DONE is taken. -/
def Pmg.took (new : PackState) (p : Pmg) : Pmg :=
  { p with state := new, lowCount := 0, recoveryCount := 0, taper := 0, bleedSet := Six.all false }

theorem takePackState_frame {new : PackState} (dark : new.bleeds = false) (s : State) :
    takePackState new s = { s with pmg := s.pmg.took new, bleedOut := Six.all false } := by
  rw [takePackState_closed dark]
  rfl

/-- The pack manager after a departure from the charging states (R193, R195). -/
def Pmg.departed (new : PackState) (p : Pmg) : Pmg := { p.took new with askedCurrent := 0, learning := none }

theorem releaseWatches_tdu (s : State) : (releaseWatches s).tdu = s.tdu := by
  unfold releaseWatches
  split <;> rfl

/-- A change of the pack state while no charge may be entered in the new one. -/
theorem changePack_pmg {s : State} {new : PackState} (dark : new.bleeds = false)
    (shut : s.dlc.session ≠ .offered ∨ new ≠ .dockedWait) :
    (changePack tellSuction new s).pmg = { s.pmg.took new with budget := budgetOf (takePackState new s) } := by
  have taken := takePackState_frame dark s
  have closed : Shut (takePackState new s) := by
    rw [taken]
    exact shut
  refine (announcePack_pmg closed).trans ?_
  rw [taken]

theorem changePack_notice {s : State} {new : PackState} (dark : new.bleeds = false)
    (enabled : s.link.enables.pack = true) : (changePack tellSuction new s).link.notices.pack = true :=
  announcePack_notice (by rw [takePackState_frame dark]; exact enabled)

theorem leaveCharging_pmg (s : State) : (leaveCharging s).pmg = { s.pmg with askedCurrent := 0, learning := none } :=
  congrArg (fun p : Pmg => { p with askedCurrent := 0, learning := none }) (releaseWatches_same s).2

theorem leaveCharging_safetyTimer {s : State} (outside : s.pmg.state ≠ .dockedWait) :
    SafetyTimer (Timer.reloadedFrom s.tdu.entries.i1 false) (leaveCharging s) := by
  refine ⟨congrArg (fun u : Tdu => Timer.reloadedFrom u.entries.i1 false) (releaseWatches_tdu s), ?_⟩
  rw [leaveCharging_pmg]
  exact outside

/-- A departure from the charging states, told: the pack manager's block, the release, T1, the dock line and the notice. -/
structure Departed (new : PackState) (s t : State) : Prop where
  pmg : t.pmg = { s.pmg.departed new with budget := t.pmg.budget }
  idle : new ≠ .discharge → t.pmg.budget = 0
  released : Released s t
  safety : t.tdu.timers.i1 = Timer.reloadedFrom s.tdu.entries.i1 false
  notice : s.link.enables.pack = true → t.link.notices.pack = true

/-- What the two departures share: the new state is taken, perhaps an order to leave goes to the dock, and the charge is
left. -/
theorem departed_of_taken {s u : State} {new : PackState} (outside : new ≠ .dockedWait)
    (pmg : u.pmg = s.pmg.took new) (wcu : u.wcu = s.wcu) (tdu : u.tdu = s.tdu) (reservation : u.reservation = s.reservation)
    (enables : u.link.enables = s.link.enables) : Departed new s (announcePack tellSuction (leaveCharging u)) := by
  have left : (leaveCharging u).pmg = s.pmg.departed new := by
    rw [leaveCharging_pmg, pmg]
    rfl
  have state : (leaveCharging u).pmg.state = new := by
    rw [left]
    rfl
  have shut : Shut (leaveCharging u) := .inr (by rw [state]; exact outside)
  have told := announcePack_pmg shut
  obtain ⟨-, -, wcu', reservation'⟩ := leaveCharging_facts u
  have released : Released s (leaveCharging u) :=
    (releaseWatches_released u).of_wcu wcu.symm reservation.symm wcu' reservation'
  have stopped := leaveCharging_safetyTimer (s := u) (by rw [pmg]; exact outside)
  refine ⟨?_, fun idle => ?_, released.through (announcePack_undisturbed shut),
    (announcePack_safetyTimer _ _ stopped).1.trans (by rw [tdu]), fun enabled => announcePack_notice ?_⟩
  · rw [told, left]
  · rw [told, budgetOf_idle (by rw [state]; exact idle)]
  · rw [(leaveCharging_moves lineKept_closed u).enables, enables]
    exact enabled

theorem stopCharge_departed {s : State} {new : PackState} (dark : new.bleeds = false) (outside : new ≠ .dockedWait) :
    Departed new s (stopCharge tellSuction new s) := by
  have taken := takePackState_frame dark s
  exact departed_of_taken outside (by rw [taken]) (by rw [taken]) (by rw [taken]) (by rw [taken]) (by rw [taken])

theorem chargeFault_departed {s : State} (kind : ChargeFault) (charging : s.pmg.state.isCharging = true) :
    Departed (.fault kind) s (chargeFault tellSuction kind s) ∧ (chargeFault tellSuction kind s).dlc.askDue = false := by
  have taken := takePackState_frame (new := .fault kind) rfl s
  have fault : chargeFault tellSuction kind s =
      announcePack tellSuction (leaveCharging (leaveOrder (takePackState (.fault kind) s))) := if_pos charging
  have outside : PackState.fault kind ≠ .dockedWait := by simp
  rw [fault]
  refine ⟨departed_of_taken outside (u := leaveOrder (takePackState (.fault kind) s))
    (by rw [taken]; rfl) (by rw [taken]; rfl) (by rw [taken]; rfl) (by rw [taken]; rfl) (by rw [taken]; rfl), ?_⟩
  obtain ⟨-, -, -, -, due⟩ := leaveOrder_dlc (takePackState (.fault kind) s)
  obtain ⟨dlc, state, -, -⟩ := leaveCharging_facts (leaveOrder (takePackState (.fault kind) s))
  have shut : Shut (leaveCharging (leaveOrder (takePackState (.fault kind) s))) := .inr (by
    rw [state, taken]
    exact outside)
  rw [(announcePack_undisturbed shut).dlc, dlc]
  exact due

end Sys2Proof.Machine
end

section
/-! PROOF. The expiries: the reload and the TIMER notice, the close of a dirt window at T0, the charge fault at T1, the
end of the boost hold at T2 (R53, R55, R105, R142 to R145, R151 to R153, R192). -/

namespace Sys2Proof.Machine

variable {told : State → State}

/-! ### The expiry in the unit (R53, R55) -/

theorem exec_timerExpiry {s : State} (q : Quiet s) (k : Idx4) :
    exec (.timerExpiry k) s =
      .next (if (s.tdu.timers.get k).running then expiryTold tellSuction k (expireTimer k s) else s) :=
  mainStep_of_quiet q (timerExpiry_counting k s).line

theorem repeatsAtExpiry_eq (k : Idx4) (mode : TimerMode) :
    repeatsAtExpiry k mode = decide ((k = .i0 ∨ k = .i3) ∧ mode = .repeats) := by
  cases k with
  | i0 => simp [repeatsAtExpiry]
  | i1 => simp [repeatsAtExpiry]
  | i2 => simp [repeatsAtExpiry]
  | i3 => simp [repeatsAtExpiry]

theorem reload_eq (k : Idx4) (e : TimerEntry) :
    e.reload k = { rate := e.rate, count := e.preset, running := decide ((k = .i0 ∨ k = .i3) ∧ e.mode = .repeats) } :=
  congrArg (Timer.reloadedFrom e) (repeatsAtExpiry_eq k e.mode)

theorem expireTimer_eq (k : Idx4) (s : State) :
    expireTimer k s =
      let reloaded := s.modTdu fun x => { x with timers := x.timers.set k ((s.tdu.entries.get k).reload k) }
      if (s.tdu.entries.get k).notice = true then askTimerNotice k reloaded else reloaded := rfl

/-- The unit's part of an expiry writes the timer and the TIMER notice alone. -/
theorem expireTimer_frame (k : Idx4) (s : State) :
    expireTimer k s = { s with tdu := (expireTimer k s).tdu, link := (expireTimer k s).link } := by
  rw [expireTimer_eq]
  dsimp only
  split <;> rfl

theorem expireTimer_notice {k : Idx4} {s : State} (named : (s.tdu.entries.get k).notice = true)
    (enabled : s.link.enables.timer = true) :
    (expireTimer k s).link.notices.timer = true ∧
      (expireTimer k s).link.accTimer = s.link.accTimer.set k true := by
  obtain ⟨-, -, -, granted⟩ := noticesAndTransmitter
  obtain ⟨-, -, -, -, names, -⟩ := granted (s.modTdu fun x =>
    { x with timers := x.timers.set k ((s.tdu.entries.get k).reload k) })
  obtain ⟨notices, acc⟩ := names k enabled
  rw [expireTimer_eq]
  dsimp only
  rw [if_pos named]
  exact ⟨congrArg NoticeMarks.timer notices, acc⟩

theorem expireTimer_unnamed {k : Idx4} {s : State} (unnamed : (s.tdu.entries.get k).notice = false) :
    (expireTimer k s).link.accTimer = s.link.accTimer := by
  rw [expireTimer_eq]
  dsimp only
  rw [if_neg (by simp [unnamed])]
  rfl

theorem noticeStays_unitClosed (k : NoticeKind) :
    UnitClosed fun s t => s.link.notices.get k = true → t.link.notices.get k = true where
  toMainClosed := noticeStays_closed k
  ka _ _ h := h

theorem expiryTold_notice {k : Idx4} {s : State} (h : s.link.notices.timer = true) :
    (expiryTold tellSuction k s).link.notices.timer = true :=
  expiryTold_moves (noticeStays_unitClosed .timer) (tellSuction_moves (noticeStays_closed .timer)) k s h

theorem expiryTold_accTimer (k : Idx4) (s : State) :
    (expiryTold tellSuction k s).link.accTimer = s.link.accTimer := congrArg Prod.fst (expiryTold_named k s)

/-- A part of the unit that the owners leave stands through an expiry's owner. -/
theorem expiryTold_leaves {P : Tdu → Prop} (h : OwnersLeave P) (k : Idx4) :
    Keeps (fun s => P s.tdu) (expiryTold tellSuction k) :=
  have kept := (driveKept_of_tdu h).toDockKept.toControlKept
  expiryTold_keeps kept (tellSuction_keeps kept) k

theorem expiryTold_entries (k : Idx4) (s : State) : (expiryTold tellSuction k s).tdu.entries = s.tdu.entries :=
  expiryTold_leaves (P := fun t => t.entries = s.tdu.entries) ⟨fun _ _ h => h, fun _ _ h => h, fun _ _ h => h⟩ k s rfl

/-! ### T1 (R192) -/

theorem safetyExpired_faults {s : State} (h : (∃ left, s.pmg.state = .paused left) ∨
    ∃ phase, s.pmg.state = .charging phase ∧ phase ≠ .done) :
    s.pmg.state.isCharging = true ∧ safetyExpired told s = chargeFault told .timeout s := by
  rcases h with ⟨left, state⟩ | ⟨phase, state, undone⟩
  · exact ⟨by rw [state]; rfl, by simp only [safetyExpired, state]⟩
  · refine ⟨by rw [state]; rfl, ?_⟩
    cases phase with
    | precharge => simp only [safetyExpired, state]
    | cc => simp only [safetyExpired, state]
    | cv => simp only [safetyExpired, state]
    | done => exact absurd rfl undone

theorem safetyExpired_passes {s : State} (h : s.pmg.state = .charging .done ∨ s.pmg.state.isCharging = false) :
    safetyExpired told s = s := by
  unfold safetyExpired
  rcases h with done | outside
  · rw [done]
  · generalize s.pmg.state = p at outside
    cases p with
    | charging _ => cases outside
    | paused _ => cases outside
    | _ => rfl

/-- T1 stands stopped after its expiry: the owner's act can only stop it again. -/
theorem safetyExpired_timer {s : State} (stopped : s.tdu.timers.i1 = Timer.reloadedFrom s.tdu.entries.i1 false) :
    (safetyExpired tellSuction s).tdu.timers.i1 = Timer.reloadedFrom s.tdu.entries.i1 false := by
  by_cases h : s.pmg.state = .charging .done ∨ s.pmg.state.isCharging = false
  · rw [safetyExpired_passes h]
    exact stopped
  · have faults : (∃ left, s.pmg.state = .paused left) ∨ ∃ phase, s.pmg.state = .charging phase ∧ phase ≠ .done := by
      rw [not_or] at h
      obtain ⟨undone, charging⟩ := h
      cases state : s.pmg.state with
      | charging phase => exact .inr ⟨phase, rfl, fun done => undone (by rw [state, done])⟩
      | paused left => exact .inl ⟨left, rfl⟩
      | discharge | protect | dockedWait | fault _ => exact absurd (by rw [state]; rfl) charging
    obtain ⟨charging, expired⟩ := safetyExpired_faults (told := tellSuction) faults
    rw [expired]
    exact (chargeFault_departed .timeout charging).1.safety

/-! ### T2 (R151) -/

/-- T2 stopped and reloaded. -/
def HoldStopped (t : State) : Prop := t.tdu.timers.i2 = Timer.reloadedFrom t.tdu.entries.i2 false

theorem holdStopped_of_rests {s t : State} (h : DirtRests s t) : HoldStopped t := by
  unfold HoldStopped
  rw [h.timer, h.entry]

theorem tellSuction_rests (s : State) : tellSuction s = s ∨ DirtRests s (tellSuction s) := by
  cases state : s.snc.suction.reported with
  | off =>
    have stops := tellSuction_stops (.inl state)
    exact .inr (stops.elim (fun h => by rw [h]; exact chargeEntryTest_dirtRests _ (dirtStop_rests s))
      fun h => by rw [h]; exact dirtStop_rests s)
  | halt =>
    have stops := tellSuction_stops (.inr state)
    exact .inr (stops.elim (fun h => by rw [h]; exact chargeEntryTest_dirtRests _ (dirtStop_rests s))
      fun h => by rw [h]; exact dirtStop_rests s)
  | spinUp => exact .inl (tellSuction_silent (.inl state))
  | run => exact .inl (tellSuction_silent (.inr (.inl state)))
  | held => exact .inl (tellSuction_silent (.inr (.inr (.inl state))))
  | brake => exact .inl (tellSuction_silent (.inr (.inr (.inr state))))

theorem tellSuction_holdStopped : Keeps HoldStopped tellSuction := by
  intro s h
  rcases tellSuction_rests s with same | rests
  · rw [same]
    exact h
  · exact holdStopped_of_rests rests

theorem holdStopped_drive : DriveKeeps HoldStopped := fun _ _ driven h => by
  unfold HoldStopped
  rw [timers_of_driven driven, entries_of_driven driven]
  exact h

theorem boostHoldEnd_same {s : State} (same : s.dsu.boostLevel = s.dsu.dirtLevel) : boostHoldEnd told s = s :=
  if_pos same.symm

theorem boostHoldEnd_moves {s : State} (moves : s.dsu.boostLevel ≠ s.dsu.dirtLevel) :
    boostHoldEnd told s =
      evaluate told (askNotice .dirt (s.modDsu fun d => { d with boostLevel := d.dirtLevel })) := by
  unfold boostHoldEnd setBoostLevel takeBoostLevel
  rw [if_neg (Ne.symm moves), if_neg (Ne.symm moves)]
  rfl

theorem boostHoldEnd_holdStopped : Keeps HoldStopped (boostHoldEnd tellSuction) := by
  intro s h
  by_cases same : s.dsu.boostLevel = s.dsu.dirtLevel
  · rw [boostHoldEnd_same same]
    exact h
  · rw [boostHoldEnd_moves same]
    exact evaluate_drive holdStopped_drive tellSuction_holdStopped _
      (holdStopped_drive (s.modDsu fun d => { d with boostLevel := d.dirtLevel }) _ (askNotice_driven .dirt _) h)

/-- The timer that has expired stands reloaded after its owner's act too. -/
theorem expiryTold_timer (k : Idx4) (s : State) :
    (expiryTold tellSuction k (expireTimer k s)).tdu.timers.get k = (s.tdu.entries.get k).reload k := by
  have expired := expireTimer_timer k s
  have entries : (expireTimer k s).tdu.entries = s.tdu.entries :=
    (congrArg Tdu.entries (expireTimer_tdu k s) :)
  cases k with
  | i0 =>
    exact expiryTold_leaves (P := fun t => t.timers.i0 = s.tdu.entries.i0.reload .i0)
      ⟨fun _ _ h => h, fun _ _ h => h, fun _ _ h => h⟩ .i0 _ expired
  | i1 =>
    have stopped : (expireTimer .i1 s).tdu.timers.i1 = Timer.reloadedFrom (expireTimer .i1 s).tdu.entries.i1 false := by
      rw [entries]
      exact expired
    exact (safetyExpired_timer stopped).trans (by rw [entries]; rfl)
  | i2 =>
    have stopped : HoldStopped (expireTimer .i2 s) := by
      unfold HoldStopped
      rw [entries]
      exact expired
    have after := boostHoldEnd_holdStopped _ stopped
    unfold HoldStopped at after
    exact after.trans (congrArg (fun e : Four TimerEntry => Timer.reloadedFrom e.i2 false)
      ((expiryTold_entries .i2 _).trans entries))
  | i3 => exact expired

/-! ### T0: the fate of the window (R142 to R144) -/

theorem windowClose_discards {s : State} (h : s.snc.suction.reported = .off ∨ s.snc.suction.reported = .brake ∨
    s.snc.suction.reported = .halt) : windowClose told s = openWindow s.snc.applied s := by
  unfold windowClose
  rcases h with state | state | state <;> rw [state] <;> rfl

/-- The applied speed has changed beyond the blank threshold since the window opened. -/
def State.leapt (s : State) : Prop := s.ka.dirt.blank < ((s.snc.applied : Int) - s.dsu.opening).natAbs

theorem leapt_iff {s : State} : s.leapt ↔
    s.ka.dirt.blank < s.snc.applied - s.dsu.opening ∨ s.ka.dirt.blank < s.dsu.opening - s.snc.applied := by
  unfold State.leapt
  omega

theorem windowFate_driving {s : State} (h : s.snc.suction.reported = .run ∨ s.snc.suction.reported = .held) :
    windowFate s.snc.suction.reported s.snc.applied s.dsu.opening s.ka.dirt.blank =
      if s.ka.dirt.blank < s.snc.applied - s.dsu.opening ∨ s.ka.dirt.blank < s.dsu.opening - s.snc.applied then .blanked
      else .classified := by
  rcases h with state | state <;> rw [state] <;> rfl

theorem windowClose_blanks {s : State} (h : s.snc.suction.reported = .spinUp ∨
    (s.snc.suction.reported = .run ∨ s.snc.suction.reported = .held) ∧ s.leapt) :
    windowClose told s = openWindow s.snc.applied (closeBlanked s) := by
  unfold windowClose
  rcases h with state | ⟨driving, leapt⟩
  · rw [state]
    rfl
  · dsimp only
    rw [windowFate_driving driving, if_pos (leapt_iff.mp leapt)]

theorem windowClose_classifies {s : State} (h : s.snc.suction.reported = .run ∨ s.snc.suction.reported = .held)
    (steady : ¬s.leapt) : windowClose told s = closeClassified told s := by
  unfold windowClose
  dsimp only
  rw [windowFate_driving h, if_neg (fun leapt => steady (leapt_iff.mpr leapt))]

/-! ### T0: the classified close (R105, R145) -/

/-- The comparison of the stored net, with whether it led to OFF or HALT. -/
def comparedNet (s : State) : State × Bool :=
  compareNow (deliverOverride id) .dirtNet [.valid (storeNet s).chan.dirtNet] (storeNet s)

/-- The window after the comparison, closed, and the next one open. -/
def closedWindow (s : State) : State :=
  openWindow s.snc.applied (classifyWindow s.snc.applied (comparedNet s).1)

/-- The close after the rest that the comparison led to has been told. -/
def restTold (told : State → State) (s : State) : State :=
  if (comparedNet s).2 then told (dirtStop id (closedWindow s)) else closedWindow s

theorem closeClassified_eq (s : State) :
    closeClassified told s = if (closedWindow s).dsu.boostLevel = s.dsu.boostLevel then restTold told s
      else evaluate told (restTold told s) := rfl

theorem entersRest_iff {a b : State} : entersRest a b = true ↔
    b.snc.suction.reported ≠ a.snc.suction.reported ∧
      (b.snc.suction.reported = .off ∨ b.snc.suction.reported = .halt) := by
  unfold entersRest Snc.rests
  cases b.snc.suction.reported <;> simp

/-- The comparison leads to OFF or HALT where one of its tellings, after those before it, enters it. -/
theorem comparedNet_noted (s : State) :
    let hit := compareSample .dirtNet [.valid (storeNet s).chan.dirtNet] (storeNet s)
    let order := arrange hit.1.draws ((hit.2.filter Telling.isOverride).map (deliverOverride id))
    (comparedNet s).2 = true ↔
      s.wcu.traps .dirtNet = true ∧ ∃ before event after, order.1 = before ++ event :: after ∧
        let x := before.foldl (fun y e => e y) (hit.1.setDraws order.2)
        (event x).snc.suction.reported ≠ x.snc.suction.reported ∧
          ((event x).snc.suction.reported = .off ∨ (event x).snc.suction.reported = .halt) := by
  intro hit order
  have traps : (storeNet s).wcu.traps .dirtNet = s.wcu.traps .dirtNet := rfl
  unfold comparedNet compareNow
  rw [traps]
  cases s.wcu.traps .dirtNet with
  | false => simp
  | true =>
    rw [if_pos rfl, takeNotingRest_noted]
    simp only [entersRest_iff, true_and]
    exact Iff.rfl

theorem compareSample_snc (channel : ChannelId) (sample : List Reading) (s : State) :
    (compareSample channel sample s).1.snc = s.snc :=
  compareUnits_keeps (compareKept (I := fun t => t.snc = s.snc) (fun _ _ _ h => h) (fun _ _ h => h) channel) sample
    allUnits s rfl

theorem rests_iff {c : Snc} : c.rests = true ↔ c.suction.reported = .off ∨ c.suction.reported = .halt := by
  unfold Snc.rests
  cases c.suction.reported <;> simp

/-- A comparison that begins outside OFF and HALT and ends in one of them is noted. -/
theorem compareNow_rests {deliver : Telling → State → State} {channel : ChannelId} {sample : List Reading} {s : State}
    (moving : s.snc.rests = false) (rests : (compareNow deliver channel sample s).1.snc.rests = true) :
    (compareNow deliver channel sample s).2 = true := by
  unfold compareNow at rests ⊢
  split
  · next trapped =>
    rw [if_pos trapped] at rests
    refine takeNotingRest_rests _ _ ?_ rests
    rw [State.setDraws_snc, compareSample_snc]
    exact moving
  · next untrapped =>
    rw [if_neg untrapped] at rests
    exact absurd (rests.symm.trans moving) (by decide)

theorem comparedNet_rests {s : State} (driving : s.snc.suction.reported = .run ∨ s.snc.suction.reported = .held)
    (rests : (comparedNet s).1.snc.suction.reported = .off ∨ (comparedNet s).1.snc.suction.reported = .halt) :
    (comparedNet s).2 = true := by
  have moving : (storeNet s).snc.rests = false := by
    show s.snc.rests = false
    unfold Snc.rests
    rcases driving with state | state <;> rw [state]
  exact compareNow_rests moving (rests_iff.mpr rests)

/-- The unit's levels and quiet run put aside. -/
def Dsu.rested (d : Dsu) : Dsu := { d with dirtLevel := 0, boostLevel := 0, quiet := 0 }

/-- What the telling of a rest and the evaluation leave of the window: its counters and opening speed, the ring, and the
stored net. -/
def WindowStands (w t : State) : Prop := t.dsu.rested = w.dsu.rested ∧ standing .docked t = standing .docked w

theorem windowStands_rests {w t : State} (h : DirtRests w t) : t.dsu.rested = w.dsu.rested :=
  (congrArg Dsu.rested h.dsu :)

theorem dsu_rested_evaluate (w : State) : (evaluate tellSuction w).dsu.rested = w.dsu.rested :=
  evaluate_drive (I := fun t => t.dsu.rested = w.dsu.rested) (fun _ _ driven h => (congrArg Dsu.rested driven.dsu).trans h)
    (fun t h => (tellSuction_rests t).elim (fun same => by rw [same]; exact h)
      fun rests => (windowStands_rests rests).trans h) w rfl

theorem evaluate_windowStands (w : State) : WindowStands w (evaluate tellSuction w) :=
  ⟨dsu_rested_evaluate w, evaluate_leaves (tellSuction_leaves rfl) w⟩

theorem tellSuction_windowStands (w : State) : WindowStands w (tellSuction w) :=
  ⟨(tellSuction_rests w).elim (fun same => by rw [same]) windowStands_rests, tellSuction_leaves rfl w⟩

theorem dirtStop_windowStands (w : State) : WindowStands w (dirtStop id w) :=
  ⟨windowStands_rests (dirtStop_rests w), dirtStop_leaves id_leaves w⟩

theorem WindowStands.refl (w : State) : WindowStands w w := ⟨rfl, rfl⟩

theorem WindowStands.trans {w t u : State} (a : WindowStands w t) (b : WindowStands t u) : WindowStands w u :=
  ⟨b.1.trans a.1, b.2.trans a.2⟩

/-- What is told after the close leaves the next window open and the records as the close made them. -/
theorem closeClassified_stands (s : State) : WindowStands (closedWindow s) (closeClassified tellSuction s) := by
  have rested : WindowStands (closedWindow s) (restTold tellSuction s) := by
    unfold restTold
    split
    · exact (dirtStop_windowStands _).trans (tellSuction_windowStands _)
    · exact .refl _
  rw [closeClassified_eq]
  split
  · exact rested
  · exact rested.trans (evaluate_windowStands _)

theorem WindowStands.window {w t : State} (h : WindowStands w t) :
    t.dsu.fine = w.dsu.fine ∧ t.dsu.coarse = w.dsu.coarse ∧ t.dsu.opening = w.dsu.opening ∧
      t.chan.dirtNet = w.chan.dirtNet ∧ t.dsu.ring = w.dsu.ring := by
  obtain ⟨dsu, stands⟩ := h
  exact ⟨(congrArg Dsu.fine dsu :), (congrArg Dsu.coarse dsu :), (congrArg Dsu.opening dsu :),
    (congrArg (fun x : Standing => x.measured.dirtNet) stands :), (congrArg Dsu.ring dsu :)⟩

theorem tellSuction_dirtRests {s : State} : Keeps (DirtRests s) tellSuction := by
  intro t h
  have stopped := dirtStop_dirtRests t h
  unfold tellSuction suctionTold
  split
  · exact chargeEntryTest_dirtRests _ stopped
  · exact stopped
  all_goals exact h

/-- A rest that the comparison led to holds at the end of the close, also where the evaluation leaves OFF again. -/
theorem closeClassified_rests {s : State} (noted : (comparedNet s).2 = true) :
    DirtRests (closedWindow s) (closeClassified tellSuction s) := by
  have rested : DirtRests (closedWindow s) (restTold tellSuction s) := by
    rw [restTold, if_pos noted]
    exact tellSuction_dirtRests _ (dirtStop_rests _)
  rw [closeClassified_eq]
  split
  · exact rested
  · exact evaluate_dirtRests tellSuction_dirtRests _ rested

theorem comparedNet_untrapped {s : State} (untrapped : s.wcu.traps .dirtNet = false) : (comparedNet s).2 = false := by
  have traps : (storeNet s).wcu.traps .dirtNet = false := untrapped
  unfold comparedNet compareNow
  rw [if_neg (by simp [traps])]

section
variable {s : State}

theorem restTold_silent (silent : ¬(comparedNet s).2 = true) : restTold told s = closedWindow s := if_neg silent

theorem restTold_noted (noted : (comparedNet s).2 = true) :
    restTold told s = told (dirtStop id (closedWindow s)) := if_pos noted

theorem closeClassified_same (same : (closedWindow s).dsu.boostLevel = s.dsu.boostLevel) :
    closeClassified told s = restTold told s := (closeClassified_eq s).trans (if_pos same)

theorem closeClassified_moved (moved : (closedWindow s).dsu.boostLevel ≠ s.dsu.boostLevel) :
    closeClassified told s = evaluate told (restTold told s) := (closeClassified_eq s).trans (if_neg moved)

end

/-- The fault TIMEOUT, at a state that the unit's part has left as `s` but for the timers and the notices. -/
theorem safetyExpired_timeout {s x : State} (pmg : x.pmg = s.pmg) (wcu : x.wcu = s.wcu)
    (reservation : x.reservation = s.reservation) (enables : x.link.enables = s.link.enables)
    (charging : (∃ left, s.pmg.state = .paused left) ∨ ∃ phase, s.pmg.state = .charging phase ∧ phase ≠ .done) :
    let t := safetyExpired tellSuction x
    t.pmg.state = .fault .timeout ∧ t.pmg.askedCurrent = 0 ∧ t.pmg.learning = none ∧ t.pmg.budget = 0 ∧ Released s t ∧
      t.dlc.askDue = false ∧ (s.link.enables.pack = true → t.link.notices.pack = true) := by
  rw [← pmg] at charging
  obtain ⟨charges, expired⟩ := safetyExpired_faults (told := tellSuction) charging
  obtain ⟨left, due⟩ := chargeFault_departed .timeout charges
  rw [expired]
  refine ⟨?_, ?_, ?_, left.idle (by simp), left.released.of_wcu wcu.symm reservation.symm rfl rfl, due,
    fun enabled => left.notice (by rw [enables]; exact enabled)⟩
  all_goals
    rw [left.pmg]
    rfl

/-! ### The obligation -/

/-- Settles O27: the unit's part of the expiry, then the owner of each timer. -/
theorem timerExpires : Obligations.TimerExpires := by
  unfold Obligations.TimerExpires
  refine fun s k q => ⟨fun stopped => ?_, fun runs => ?_, fun runs => ?_⟩
  · rw [exec_timerExpiry q, if_neg (by simp [stopped])]
  · refine ⟨expiryTold tellSuction k (expireTimer k s), by rw [exec_timerExpiry q, if_pos runs],
      (expiryTold_timer k s).trans (reload_eq k _),
      (expiryTold_entries k _).trans (congrArg Tdu.entries (expireTimer_tdu k s) :), fun named enabled => ?_,
      fun unnamed => (expiryTold_accTimer k _).trans (expireTimer_unnamed unnamed)⟩
    obtain ⟨notice, acc⟩ := expireTimer_notice named enabled
    exact ⟨expiryTold_notice notice, (expiryTold_accTimer k _).trans acc⟩
  · intro e reloaded fired outcome
    obtain ⟨tdu, link, framed⟩ : ∃ tdu link, expireTimer k s = { s with tdu := tdu, link := link } :=
      ⟨_, _, expireTimer_frame k s⟩
    have enables : link.enables = s.link.enables := by
      have line := (expireTimer_moves lineKept_closed k s).enables
      rw [framed] at line
      exact line
    have unit : fired = { s with tdu := tdu, link := link } := by
      rw [← framed, expireTimer_eq, reload_eq]
    have done : outcome = .next (expiryTold tellSuction k { s with tdu := tdu, link := link }) := by
      rw [← framed]
      exact (exec_timerExpiry q k).trans (by rw [if_pos runs])
    let x : State := { s with tdu := tdu, link := link }
    refine ⟨?_, ?_, ?_, ?_⟩
    · rintro rfl applied state change opened appended stored compared w moved hit order stops stopped
      have storedNet : stored = storeNet x := congrArg (State.modChan fun c => { c with dirtNet := windowNet s }) unit
      have comparison : compared = (comparedNet x).1 :=
        (congrArg (fun y : State => if s.wcu.traps .dirtNet then
          (watchEvent (deliverOverride id) .dirtNet [.valid y.chan.dirtNet] y).1 else y) storedNet).trans
          (compareNow_fst _ _ _ (storeNet x)).symm
      have closed : w = closedWindow x := congrArg (fun y => opened (classifyWindow applied y)) comparison
      have noted : stops ↔ (comparedNet x).2 = true := by
        have iff := comparedNet_noted x
        rw [← storedNet] at iff
        exact iff.symm
      have same : ¬moved → (closedWindow x).dsu.boostLevel = x.dsu.boostLevel := fun h => by
        rw [← closed]
        exact not_not.mp h
      have changed : moved → (closedWindow x).dsu.boostLevel ≠ x.dsu.boostLevel := fun h => by
        rw [← closed]
        exact h
      refine ⟨fun rests => ?_, fun blanks => ?_, fun driving steady => ?_⟩
      · rw [done, unit]
        exact congrArg Host.Outcome.next (windowClose_discards (s := x) rests)
      · rw [done, unit]
        exact congrArg Host.Outcome.next (windowClose_blanks (s := x) blanks)
      · have close : outcome = .next (closeClassified tellSuction x) :=
          done.trans (congrArg Host.Outcome.next (windowClose_classifies (s := x) driving (Nat.not_lt.mpr steady)))
        have silent (h : ¬stops) : restTold tellSuction x = w :=
          (restTold_silent fun told => h (noted.mpr told)).trans closed.symm
        have told (h : stops) : restTold tellSuction x = stopped :=
          (restTold_noted (noted.mp h)).trans (congrArg (fun y => tellSuction (dirtStop id y)) closed.symm)
        have kept (h : ¬moved) : outcome = .next (restTold tellSuction x) :=
          close.trans (congrArg Host.Outcome.next (closeClassified_same (same h)))
        have evaluated (h : moved) : outcome = .next (evaluate tellSuction (restTold tellSuction x)) :=
          close.trans (congrArg Host.Outcome.next (closeClassified_moved (changed h)))
        have untold (h : s.wcu.traps .dirtNet = false) : ¬stops := fun stop => by
          rw [noted, comparedNet_untrapped (s := x) h] at stop
          cases stop
        refine ⟨?_, fun still stay => by rw [kept stay, silent still], fun still move => by rw [evaluated move, silent still],
          fun stop stay => by rw [kept stay, told stop], fun stop move => by rw [evaluated move, told stop],
          fun stop => ?_, fun rests => ?_, fun untrapped => ⟨fun stay => ?_, fun move => ?_⟩⟩
        · obtain ⟨fine, coarse, opening, net, ring⟩ := (closeClassified_stands x).window
          rw [closed]
          exact ⟨_, close, fine, coarse, opening, net, ring⟩
        · have rested := closeClassified_rests (noted.mp stop)
          refine ⟨_, close, ?_, ?_, ?_, ?_⟩
          · rw [rested.dsu]
          · rw [rested.dsu]
          · rw [rested.dsu]
          · rw [rested.timer]
            rfl
        · rw [comparison] at rests
          exact noted.mpr (comparedNet_rests (s := x) driving rests)
        · rw [kept (not_not.mpr stay), silent (untold untrapped)]
        · rw [evaluated move, silent (untold untrapped)]
    · rintro rfl
      refine ⟨fun charging => ⟨_, done, safetyExpired_timeout (s := s) (x := x) rfl rfl rfl enables charging⟩,
        fun passes => ?_⟩
      rw [done, unit]
      exact congrArg Host.Outcome.next (safetyExpired_passes (s := x) passes)
    · rintro rfl
      rw [done, unit]
      exact ⟨fun level => congrArg Host.Outcome.next (boostHoldEnd_same (s := x) level),
        fun level => congrArg Host.Outcome.next (boostHoldEnd_moves (s := x) level)⟩
    · rintro rfl
      rw [done, unit]
      rfl

end Sys2Proof.Machine
end

section
/-! PROOF. A detection of D0: the insertion with its first PROBE and the wait in the dock, the removal with the end of the
session and of the charge (R58, R125, R128, R129, R159, R177 to R180, R194, R195). -/

namespace Sys2Proof.Machine

variable {told : State → State}

/-! ### The owners of D0, in either order -/

theorem packInserted_leaves {src : Source} (lasting : src.lasts = true) (ht : Leaves src told) :
    Leaves src (packInserted told) := by
  intro s
  have waits : standing src (waitInDock told s) = standing src s :=
    (chargeEntryTest_leaves lasting ht _).trans (changePack_leaves lasting ht .dockedWait s)
  unfold packInserted
  split
  · exact waits
  · exact waits
  all_goals rfl

theorem stopCharge_leaves {src : Source} (lasting : src.lasts = true) (ht : Leaves src told) (new : PackState) :
    Leaves src (stopCharge told new) := fun s =>
  (announcePack_leaves lasting ht _).trans ((leaveCharging_leaves _).trans (takePackState_leaves new s))

theorem packRemoved_leaves {src : Source} (lasting : src.lasts = true) (ht : Leaves src told) :
    Leaves src (packRemoved told) := by
  intro s
  have changed := changePack_leaves lasting ht (outOfDock s.pmg) s
  have stopped := stopCharge_leaves lasting ht .discharge s
  unfold packRemoved
  split
  · exact changed
  · exact changed
  · exact stopped
  · exact stopped
  all_goals rfl

theorem raiseHard_packKept {s : State} (shut : Shut s) (src : Source) :
    (raiseHard tellSuction src s).pmg = s.pmg ∧ (raiseHard tellSuction src s).dlc = s.dlc :=
  raiseHard_moves (packKept_closed s.pmg s.dlc) (tellSuction_packKept shut) src s ⟨rfl, rfl⟩

theorem raiseHard_undisturbed {s : State} (shut : Shut s) (src : Source) : Undisturbed s (raiseHard tellSuction src s) :=
  raiseHard_moves (undisturbed_closed s) (tellSuction_undisturbed shut) src s (.refl s)

theorem clearHard_undisturbed {s : State} (shut : Shut s) (src : Source) : Undisturbed s (clearHard tellSuction src s) :=
  clearHard_moves (undisturbed_closed s) (tellSuction_undisturbed shut) src s (.refl s)

theorem raiseHard_enables (src : Source) (s : State) : (raiseHard tellSuction src s).link.enables = s.link.enables :=
  (raiseHard_moves lineKept_closed.toEvalClosed (tellSuction_moves lineKept_closed) src s).enables

theorem clearHard_enables (src : Source) (s : State) : (clearHard tellSuction src s).link.enables = s.link.enables :=
  (clearHard_moves lineKept_closed.toEvalClosed (tellSuction_moves lineKept_closed) src s).enables

theorem raiseHard_notice (src : Source) (k : NoticeKind) :
    Keeps (fun t => t.link.notices.get k = true) (raiseHard tellSuction src) :=
  raiseHard_moves (noticeStays_closed k).toEvalClosed (tellSuction_moves (noticeStays_closed k)) src

theorem clearHard_notice (src : Source) (k : NoticeKind) :
    Keeps (fun t => t.link.notices.get k = true) (clearHard tellSuction src) :=
  clearHard_moves (noticeStays_closed k).toEvalClosed (tellSuction_moves (noticeStays_closed k)) src

/-- What holds after two owners' events in either order. -/
theorem inAnyOrder_two_of {P : State → Prop} {f g : State → State} {s : State}
    (first : ∀ n, P (g (f (s.setDraws n)))) (second : ∀ n, P (f (g (s.setDraws n)))) : P (inAnyOrder [f, g] s) := by
  obtain ⟨n, order | order⟩ := inAnyOrder_two f g s <;> rw [order]
  · exact first n
  · exact second n

/-! ### The pack manager at an insertion (R159) -/

/-- The pack manager after an insertion without a session. -/
def Pmg.inserted (p : Pmg) : Pmg :=
  if p.state = .discharge ∨ p.state = .protect then { p.took .dockedWait with budget := 0 } else p

section
variable {s : State}

theorem waitInDock_unoffered (unoffered : s.dlc.session ≠ .offered) :
    waitInDock tellSuction s = changePack tellSuction .dockedWait s := by
  have shut : Shut (takePackState .dockedWait s) := .inl (by
    rw [takePackState_frame rfl]
    exact unoffered)
  have kept := (announcePack_undisturbed shut).dlc
  refine chargeEntryTest_closed (.inl ?_)
  rw [changePack, kept, takePackState_frame rfl]
  exact unoffered

theorem packInserted_waits (unoffered : s.dlc.session ≠ .offered)
    (feeding : s.pmg.state = .discharge ∨ s.pmg.state = .protect) :
    packInserted tellSuction s = changePack tellSuction .dockedWait s := by
  rw [← waitInDock_unoffered unoffered]
  unfold packInserted
  rcases feeding with state | state <;> rw [state]

theorem packInserted_stays (elsewhere : ¬(s.pmg.state = .discharge ∨ s.pmg.state = .protect)) :
    packInserted told s = s := by
  unfold packInserted
  split
  · next state => exact absurd (.inl state) elsewhere
  · next state => exact absurd (.inr state) elsewhere
  all_goals rfl

theorem changePack_undisturbed {new : PackState} (dark : new.bleeds = false)
    (shut : s.dlc.session ≠ .offered ∨ new ≠ .dockedWait) :
    (changePack tellSuction new s).dlc = s.dlc ∧ (changePack tellSuction new s).wcu.entries = s.wcu.entries := by
  have closed : Shut (takePackState new s) := by
    rw [takePackState_frame dark]
    exact shut
  have kept := announcePack_undisturbed closed
  rw [changePack, kept.dlc, kept.entries, takePackState_frame dark]
  exact ⟨rfl, rfl⟩

/-- The pack manager waits in the dock from DISCHARGE and PROTECT, and stays elsewhere. -/
theorem packInserted_pmg (unoffered : s.dlc.session ≠ .offered) :
    (packInserted tellSuction s).pmg = s.pmg.inserted ∧ (packInserted tellSuction s).dlc = s.dlc := by
  unfold Pmg.inserted
  by_cases feeding : s.pmg.state = .discharge ∨ s.pmg.state = .protect
  · rw [packInserted_waits unoffered feeding, if_pos feeding, changePack_pmg rfl (.inl unoffered), budgetOf_idle]
    · exact ⟨rfl, (changePack_undisturbed rfl (.inl unoffered)).1⟩
    · rw [takePackState_frame rfl]
      exact fun h => by cases h
  · rw [packInserted_stays feeding, if_neg feeding]
    exact ⟨rfl, rfl⟩

theorem packInserted_notice (unoffered : s.dlc.session ≠ .offered)
    (feeding : s.pmg.state = .discharge ∨ s.pmg.state = .protect) (enabled : s.link.enables.pack = true) :
    (packInserted tellSuction s).link.notices.pack = true := by
  rw [packInserted_waits unoffered feeding]
  exact changePack_notice rfl enabled

theorem reportCondition_suction (flag : ConditionFlag) (src : ConditionSource) (s : State) :
    (reportCondition flag src s).snc.suction = s.snc.suction := by
  unfold reportCondition
  split
  · rfl
  · dsimp only
    split <;> rfl

theorem storeBudget_suction (s : State) : (storeBudget s).snc.suction = s.snc.suction :=
  reportIf_keeps (I := fun t => t.snc.suction = s.snc.suction)
    (fun flag src t h => (reportCondition_suction flag src t).trans h) _ _ _ s rfl

/-- With no trap on BUDGET an announcement tells the suction controller at most. -/
theorem announcePack_untrapped (untrapped : s.wcu.traps .budget = false) :
    announcePack told s = storeBudget (askNotice .pack s) ∨
      announcePack told s = tellBudget told (budgetOf s) (storeBudget (askNotice .pack s)) := by
  have entries : (storeBudget (askNotice .pack s)).wcu.entries = s.wcu.entries :=
    storeBudget_keeps_of (I := fun t => t.wcu.entries = s.wcu.entries)
      (fun _ _ driven h => (congrArg Wcu.entries driven.wcu :).trans h) (fun _ _ h => h) (fun _ _ h => h) _ rfl
  have traps : (storeBudget (askNotice .pack s)).wcu.traps .budget = false := by
    unfold Wcu.traps at untrapped ⊢
    rw [entries]
    exact untrapped
  unfold announcePack computeBudget
  dsimp only
  rw [compareAmong_untrapped traps]
  split
  · exact .inr (inAnyOrder_one _ _)
  · exact .inl (inAnyOrder_nil _)

/-- The stack and HALT, where no session is offered. -/
def StackStands (stack : List OverrideEntry) (halt : Bool) (t : State) : Prop :=
  t.snc.stack = stack ∧ t.snc.suction.isHalt = halt ∧ t.dlc.session ≠ .offered

theorem stackStands_drive (stack : List OverrideEntry) (halt : Bool) : DriveKeeps (StackStands stack halt) :=
  fun _ _ driven h => ⟨driven.snc.stack.trans h.1, driven.snc.halt.trans h.2.1, by rw [driven.dlc]; exact h.2.2⟩

theorem tellSuction_stackStands (stack : List OverrideEntry) (halt : Bool) : Keeps (StackStands stack halt) tellSuction :=
  tellSuction_drive (stackStands_drive stack halt) (fun _ _ h => h) (fun _ h => h) fun _ h => mayCharge_shut (.inl h.2.2)

/-- With no trap on BUDGET the wait in the dock leaves the stack, and neither enters nor leaves HALT. -/
theorem packInserted_stackStands (unoffered : s.dlc.session ≠ .offered) (untrapped : s.wcu.traps .budget = false) :
    StackStands s.snc.stack s.snc.suction.isHalt (packInserted tellSuction s) := by
  by_cases feeding : s.pmg.state = .discharge ∨ s.pmg.state = .protect
  · have drive := stackStands_drive s.snc.stack s.snc.suction.isHalt
    have taken : StackStands s.snc.stack s.snc.suction.isHalt (takePackState .dockedWait s) := by
      rw [takePackState_frame rfl]
      exact ⟨rfl, rfl, unoffered⟩
    have stored := storeBudget_keeps_of drive (fun _ _ h => h) (fun _ _ h => h) _
      (drive _ _ (askNotice_driven .pack _) taken)
    rw [packInserted_waits unoffered feeding, changePack]
    rcases announcePack_untrapped (told := tellSuction) (s := takePackState .dockedWait s)
      (by rw [takePackState_frame rfl]; exact untrapped) with told | told <;> rw [told]
    · exact stored
    · exact evaluate_drive drive (tellSuction_stackStands _ _)
        ((storeBudget (askNotice .pack (takePackState .dockedWait s))).modSnc fun c => { c with budget := _ }) stored
  · rw [packInserted_stays feeding]
    exact ⟨rfl, rfl, unoffered⟩

/-- In HALT the wait in the dock leaves the state of the suction controller with its cause. -/
theorem packInserted_halt (unoffered : s.dlc.session ≠ .offered) (untrapped : s.wcu.traps .budget = false)
    (halt : s.snc.suction.isHalt = true) : (packInserted tellSuction s).snc.suction = s.snc.suction := by
  by_cases feeding : s.pmg.state = .discharge ∨ s.pmg.state = .protect
  · have stored : (storeBudget (askNotice .pack (takePackState .dockedWait s))).snc.suction = s.snc.suction := by
      rw [storeBudget_suction, takePackState_frame rfl]
      rfl
    rw [packInserted_waits unoffered feeding, changePack]
    rcases announcePack_untrapped (told := tellSuction) (s := takePackState .dockedWait s)
      (by rw [takePackState_frame rfl]; exact untrapped) with told | told <;> rw [told]
    · exact stored
    · rw [tellBudget, evaluate_halt]
      · exact stored
      · exact (congrArg Suction.isHalt stored).trans halt
  · rw [packInserted_stays feeding]

end

/-! ### The insertion -/

/-- The first PROBE of a session that was absent (R179, R180). -/
theorem serve_firstProbe (d : Dlc) :
    let t := Dlc.serve { Dlc.enter .probing d.abandon with probeDue := true }
    t.probes = 1 ∧ t.offer = none ∧
      t.exchange = some { frame := .probe, awaiting := false, newer := false, ordered := false } := by
  simp [Dlc.serve, Dlc.enter, Dlc.abandon, Dlc.clearAsk, Dlc.send, Session.asks, Session.probes]

/-- The two owners of an insertion, in a free order. -/
def ownersInserted (s : State) : State :=
  inAnyOrder [raiseHard tellSuction .docked, packInserted tellSuction] (armDetector .d0 .falling 8 s)

section
variable {s : State}

theorem ownersInserted_pmg (absent : s.dlc.session = .absent) :
    (ownersInserted s).pmg = s.pmg.inserted ∧ (ownersInserted s).dlc = s.dlc := by
  have unoffered : s.dlc.session ≠ .offered := by simp [absent]
  refine inAnyOrder_two_of (P := fun t => t.pmg = s.pmg.inserted ∧ t.dlc = s.dlc) (fun n => ?_) (fun n => ?_)
  · obtain ⟨pmg, dlc⟩ := raiseHard_packKept (s := (armDetector .d0 .falling 8 s).setDraws n) (.inl unoffered) .docked
    obtain ⟨pmg', dlc'⟩ := packInserted_pmg
      (s := raiseHard tellSuction .docked ((armDetector .d0 .falling 8 s).setDraws n)) (by rw [dlc]; exact unoffered)
    exact ⟨pmg'.trans (congrArg Pmg.inserted pmg), dlc'.trans dlc⟩
  · obtain ⟨pmg, dlc⟩ := packInserted_pmg (s := (armDetector .d0 .falling 8 s).setDraws n) unoffered
    obtain ⟨pmg', dlc'⟩ := raiseHard_packKept (s := packInserted tellSuction ((armDetector .d0 .falling 8 s).setDraws n))
      (.inl (by rw [dlc]; exact unoffered)) .docked
    exact ⟨pmg'.trans pmg, dlc'.trans dlc⟩

theorem ownersInserted_notice (absent : s.dlc.session = .absent)
    (feeding : s.pmg.state = .discharge ∨ s.pmg.state = .protect) (enabled : s.link.enables.pack = true) :
    (ownersInserted s).link.notices.pack = true := by
  have unoffered : s.dlc.session ≠ .offered := by simp [absent]
  refine inAnyOrder_two_of (P := fun t => t.link.notices.pack = true) (fun n => ?_) (fun n => ?_)
  · obtain ⟨pmg, dlc⟩ := raiseHard_packKept (s := (armDetector .d0 .falling 8 s).setDraws n) (.inl unoffered) .docked
    exact packInserted_notice (by rw [dlc]; exact unoffered) (by rw [pmg]; exact feeding)
      (by rw [raiseHard_enables]; exact enabled)
  · exact raiseHard_notice .docked .pack _ (packInserted_notice (s := (armDetector .d0 .falling 8 s).setDraws n)
      unoffered feeding enabled)

theorem ownersInserted_marked (s : State) : (ownersInserted s).snc.marks.docked = true := by
  have told : Leaves .docked tellSuction := tellSuction_leaves rfl
  refine inAnyOrder_two_of (P := fun t => t.snc.marks.docked = true) (fun n => ?_) (fun n => ?_)
  · exact (marked_of_standing (packInserted_leaves (src := .docked) rfl told _)).trans (raiseHard_marks rfl told _)
  · exact raiseHard_marks (src := .docked) rfl told _

/-- With room or an entry the insertion puts DOCKED in force (R125, R126). -/
theorem ownersInserted_inForce (absent : s.dlc.session = .absent) (unmarked : s.snc.marks.docked = false)
    (untrapped : s.wcu.traps .budget = false)
    (takes : s.snc.stack.length < 4 ∨ findEntry .docked s.snc.stack ≠ none) :
    (ownersInserted s).snc.hasUnreleased .docked = true := by
  have told : Leaves .docked tellSuction := tellSuction_leaves rfl
  have unoffered : s.dlc.session ≠ .offered := by simp [absent]
  have raised {x : State} (unmarked : x.snc.marks.docked = false) (stack : x.snc.stack = s.snc.stack) :
      (raiseHard tellSuction .docked x).snc.hasUnreleased .docked = true := by
    rcases takes with room | entry
    · exact raiseHard_inForce told unmarked (by rw [stack]; exact room)
    · exact raiseHard_inForce_of_entry told unmarked (by rw [stack]; exact entry)
  refine inAnyOrder_two_of (P := fun t => t.snc.hasUnreleased .docked = true) (fun n => ?_) (fun n => ?_)
  · exact (inForce_of_standing (packInserted_leaves rfl told _)).trans
      (raised (x := (armDetector .d0 .falling 8 s).setDraws n) unmarked rfl)
  · have marks := marked_of_standing (packInserted_leaves (src := .docked) rfl told
      ((armDetector .d0 .falling 8 s).setDraws n))
    exact raised (marks.trans unmarked)
      (packInserted_stackStands (s := (armDetector .d0 .falling 8 s).setDraws n) unoffered untrapped).1

/-- On a full stack without an entry the insertion leads to HALT (R128). -/
theorem ownersInserted_overflows (absent : s.dlc.session = .absent) (unmarked : s.snc.marks.docked = false)
    (untrapped : s.wcu.traps .budget = false) (missing : findEntry .docked s.snc.stack = none)
    (full : 4 ≤ s.snc.stack.length) :
    (ownersInserted s).snc.stack = s.snc.stack ∧
      (s.snc.suction.isHalt = false → (ownersInserted s).snc.suction = .halt .stackFull) := by
  have told : Leaves .docked tellSuction := tellSuction_leaves rfl
  have unoffered : s.dlc.session ≠ .offered := by simp [absent]
  refine inAnyOrder_two_of (P := fun t => t.snc.stack = s.snc.stack ∧
    (s.snc.suction.isHalt = false → t.snc.suction = .halt .stackFull)) (fun n => ?_) (fun n => ?_)
  · let x := (armDetector .d0 .falling 8 s).setDraws n
    obtain ⟨stack, -, -, enters, -⟩ := raiseHard_overflows (src := .docked) (s := x) unmarked missing full
    have kept := raiseHard_undisturbed (s := x) (.inl unoffered) .docked
    have unoffered' : (raiseHard tellSuction .docked x).dlc.session ≠ .offered := by
      rw [kept.dlc]
      exact unoffered
    have untrapped' : (raiseHard tellSuction .docked x).wcu.traps .budget = false := by
      unfold Wcu.traps at untrapped ⊢
      rw [kept.entries]
      exact untrapped
    refine ⟨(packInserted_stackStands unoffered' untrapped').1.trans stack, fun running => ?_⟩
    have halt := (enters running).1
    exact (packInserted_halt unoffered' untrapped' (by rw [halt]; rfl)).trans halt
  · let x := (armDetector .d0 .falling 8 s).setDraws n
    obtain ⟨stack, halt, -⟩ := packInserted_stackStands (s := x) unoffered untrapped
    have marks := marked_of_standing (packInserted_leaves (src := .docked) rfl told x)
    obtain ⟨stack', -, -, enters, -⟩ := raiseHard_overflows (src := .docked) (s := packInserted tellSuction x)
      (marks.trans unmarked) (by rw [stack]; exact missing) (by rw [stack]; exact full)
    exact ⟨stack'.trans stack, fun running => (enters (halt.trans running)).1⟩

end

end Sys2Proof.Machine
end

section
/-! PROOF. The dock line controller at an insertion, and the owners of D0 at a removal (R58, R129, R179, R194, R195). -/

namespace Sys2Proof.Machine

variable {told : State → State} {s : State}

/-- The dock line controller leaves the pack manager as the insertion made it, and sends the first PROBE (R179, R180). -/
theorem dockInserted_line (absent : s.dlc.session = .absent) :
    (dockInserted tellSuction s).dlc.probes = 1 ∧ (dockInserted tellSuction s).dlc.offer = none ∧
      (dockInserted tellSuction s).dlc.exchange =
        some { frame := .probe, awaiting := false, newer := false, ordered := false } := by
  have owners : dockInserted tellSuction s = serveLine ((setSession .probing
      ((ownersInserted s).modDlc Dlc.abandon)).modDlc fun d => { d with probeDue := true }) := rfl
  have moves : ((ownersInserted s).modDlc Dlc.abandon).dlc.session ≠ .probing := by
    show (ownersInserted s).dlc.session ≠ .probing
    rw [(ownersInserted_pmg absent).2, absent]
    decide
  rw [owners, setSession_changes moves]
  exact serve_firstProbe (ownersInserted s).dlc

theorem dockInserted_notice (k : NoticeKind) (asked : (ownersInserted s).link.notices.get k = true) :
    (dockInserted tellSuction s).link.notices.get k = true := by
  have closed := noticeStays_closed k
  have owners : dockInserted tellSuction s = serveLine ((setSession .probing
      ((ownersInserted s).modDlc Dlc.abandon)).modDlc fun d => { d with probeDue := true }) := rfl
  rw [owners]
  exact serveLine_moves closed _ (setSession_moves closed .probing ((ownersInserted s).modDlc Dlc.abandon) asked)

/-! ### The pack manager at a removal (R159, R194, R195) -/

/-- The pack states that wait for the removal, or for the host after a charge fault. -/
def PackState.Waits (p : PackState) : Prop := p = .dockedWait ∨ ∃ kind, p = .fault kind

theorem PackState.removal_cases (p : PackState) : p.isCharging = true ∨ p.Waits ∨ p.Feeds := by
  cases p with
  | charging _ => exact .inl rfl
  | paused _ => exact .inl rfl
  | dockedWait => exact .inr (.inl (.inl rfl))
  | fault kind => exact .inr (.inl (.inr ⟨kind, rfl⟩))
  | discharge => exact .inr (.inr (.inl rfl))
  | protect => exact .inr (.inr (.inr rfl))

theorem packRemoved_charging (charging : s.pmg.state.isCharging = true) :
    packRemoved told s = stopCharge told .discharge s := by
  unfold packRemoved
  generalize s.pmg.state = p at charging
  cases p with
  | charging _ => rfl
  | paused _ => rfl
  | _ => cases charging

theorem packRemoved_waits (waits : s.pmg.state.Waits) : packRemoved told s = changePack told (outOfDock s.pmg) s := by
  unfold packRemoved
  rcases waits with state | ⟨kind, state⟩ <;> rw [state]

theorem packRemoved_feeds (feeding : s.pmg.state.Feeds) : packRemoved told s = s := by
  unfold packRemoved
  rcases feeding with state | state <;> rw [state]

theorem outOfDock_feeds (p : Pmg) : (outOfDock p).Feeds := by
  unfold outOfDock
  split
  · exact .inr rfl
  · exact .inl rfl

theorem PackState.Feeds.outside {p : PackState} (feeding : p.Feeds) : p.bleeds = false ∧ p ≠ .dockedWait := by
  rcases feeding with rfl | rfl <;> decide

theorem outOfDock_state (s : State) : (changePack tellSuction (outOfDock s.pmg) s).pmg.state = outOfDock s.pmg := by
  obtain ⟨dark, outside⟩ := (outOfDock_feeds s.pmg).outside
  rw [changePack_pmg dark (.inr outside)]
  rfl

/-- After a removal the pack feeds, whatever it did before. -/
theorem packRemoved_state (s : State) : (packRemoved tellSuction s).pmg.state.Feeds := by
  rcases s.pmg.state.removal_cases with charging | waits | feeding
  · rw [packRemoved_charging charging, (stopCharge_departed (new := .discharge) rfl (by decide)).pmg]
    exact .inl rfl
  · rw [packRemoved_waits waits, outOfDock_state]
    exact outOfDock_feeds s.pmg
  · rw [packRemoved_feeds feeding]
    exact feeding

/-! ### No source twice, through the budget's way (R122) -/

/-- No source stands twice in the stack, and no charge may be entered. -/
def SourcesOnce (t : State) : Prop :=
  (t.snc.stack.map OverrideEntry.source).Nodup ∧ t.pmg.state ≠ .dockedWait

theorem mapEntry_sources {src : Source} {f : OverrideEntry → OverrideEntry} (own : ∀ e, (f e).source = e.source)
    (stack : List OverrideEntry) : (mapEntry src f stack).map OverrideEntry.source = stack.map OverrideEntry.source := by
  unfold mapEntry
  rw [List.map_map]
  refine List.map_congr_left fun e _ => ?_
  show (if e.source = src then f e else e).source = e.source
  split
  · exact own e
  · rfl

theorem raised?_nodup {c d : Snc} {src : Source} {cap : Nat} (nodup : (c.stack.map OverrideEntry.source).Nodup)
    (raised : c.raised? src cap = some d) : (d.stack.map OverrideEntry.source).Nodup := by
  unfold Snc.raised? at raised
  split at raised
  · split at raised
    · obtain rfl := Option.some.inj raised
      have same := mapEntry_sources (src := src) (f := fun e => { e with cap := cap, released := false })
        (fun _ => rfl) c.stack
      exact same ▸ nodup
    · cases raised
  · next missing =>
    split at raised
    · obtain rfl := Option.some.inj raised
      refine List.nodup_cons.mpr ⟨fun m => ?_, nodup⟩
      obtain ⟨e, mem, own⟩ := List.mem_map.mp m
      exact absurd (decide_eq_true own) (List.find?_eq_none.mp missing e mem)
    · cases raised

theorem cleared?_nodup {c d : Snc} {src : Source} (nodup : (c.stack.map OverrideEntry.source).Nodup)
    (cleared : c.cleared? src = some d) : (d.stack.map OverrideEntry.source).Nodup := by
  unfold Snc.cleared? at cleared
  split at cleared
  · split at cleared
    · next e lower stack =>
      split at cleared
      · obtain rfl := Option.some.inj cleared
        unfold Snc.popChain
        rw [stack] at nodup ⊢
        dsimp only
        rw [dropReleased_stack]
        exact (List.nodup_cons.mp nodup).2.sublist ((List.dropWhile_sublist _).map _)
      · obtain rfl := Option.some.inj cleared
        have same := mapEntry_sources (src := src) (f := fun e => { e with released := true }) (fun _ => rfl) c.stack
        exact same ▸ nodup
    · cases cleared
  · cases cleared

theorem sourcesOnce_drive : DriveKeeps SourcesOnce := fun _ _ driven once =>
  ⟨by rw [driven.snc.stack]; exact once.1, by rw [driven.pmg]; exact once.2⟩

theorem sourcesOnce_budgetWay : BudgetWayKeeps SourcesOnce where
  drive := sourcesOnce_drive
  stack _ _ _ change once := by
    rcases change with ⟨cap, raised⟩ | cleared
    · exact ⟨raised?_nodup once.1 raised, once.2⟩
    · exact ⟨cleared?_nodup once.1 cleared, once.2⟩
  copy _ _ once := once
  comparison _ _ _ once := once
  draws _ _ once := once

theorem announcePack_sourcesOnce : Keeps SourcesOnce (announcePack tellSuction) := fun s once =>
  sourcesOnce_budgetWay.announcePack
    (tellSuction_drive sourcesOnce_drive (fun _ _ h => h) (fun _ h => h) fun _ h => mayCharge_shut (.inr h.2))
    (storeBudget_keeps_of sourcesOnce_drive (fun _ _ h => h) (fun _ _ h => h) _
      (sourcesOnce_drive _ _ (askNotice_driven .pack s) once))

theorem releaseWatches_snc (s : State) : (releaseWatches s).snc = s.snc := by
  unfold releaseWatches
  split <;> rfl

theorem packRemoved_nodup (nodup : (s.snc.stack.map OverrideEntry.source).Nodup) :
    ((packRemoved tellSuction s).snc.stack.map OverrideEntry.source).Nodup := by
  rcases s.pmg.state.removal_cases with charging | waits | feeding
  · have left : SourcesOnce (leaveCharging (takePackState .discharge s)) := by
      refine ⟨?_, ?_⟩
      · show (((releaseWatches (takePackState .discharge s)).snc.stack).map OverrideEntry.source).Nodup
        rw [releaseWatches_snc, takePackState_frame rfl]
        exact nodup
      · rw [leaveCharging_pmg, takePackState_frame rfl]
        exact fun h => by cases h
    rw [packRemoved_charging charging]
    exact (announcePack_sourcesOnce _ left).1
  · obtain ⟨dark, outside⟩ := (outOfDock_feeds s.pmg).outside
    have taken : SourcesOnce (takePackState (outOfDock s.pmg) s) := by
      rw [takePackState_frame dark]
      exact ⟨nodup, outside⟩
    rw [packRemoved_waits waits]
    exact (announcePack_sourcesOnce _ taken).1
  · rw [packRemoved_feeds feeding]
    exact nodup

/-! ### The clear of DOCKED -/

/-- A clear leaves the source out of force, where no source stands twice. -/
theorem clearHard_outOfForce_of_nodup {src : Source} (ht : Leaves src told) (marked : s.snc.marks.get src = true)
    (nodup : (s.snc.stack.map OverrideEntry.source).Nodup) :
    (clearHard told src s).snc.hasUnreleased src = false := by
  unfold clearHard
  rw [if_pos marked]
  dsimp only
  cases cleared : (setMark src false s).snc.cleared? src with
  | none => exact cleared?_none cleared
  | some c =>
    exact (stackChange_stands ht c _).2.trans
      (cleared?_outOfForce (c := (setMark src false s).snc) nodup cleared)

/-- The pack manager is `p` and DOCKED is out of force. -/
def PackUndocked (p : Pmg) (t : State) : Prop := t.pmg = p ∧ t.snc.hasUnreleased .docked = false

theorem packUndocked_drive (p : Pmg) : DriveKeeps (PackUndocked p) := fun _ _ driven h =>
  ⟨driven.pmg.trans h.1, by simpa only [Snc.hasUnreleased, driven.snc.stack] using h.2⟩

/-- With DOCKED out of force no charge is entered, so that the pack manager stands through what the clear hands on. -/
theorem clearHard_docked_pmg (nodup : (s.snc.stack.map OverrideEntry.source).Nodup) :
    (clearHard tellSuction .docked s).pmg = s.pmg := by
  have drive := packUndocked_drive s.pmg
  have told : Keeps (PackUndocked s.pmg) tellSuction :=
    tellSuction_drive drive (fun _ _ h => h) (fun _ h => h) fun _ h => mayCharge_undocked h.2
  unfold clearHard
  split
  · dsimp only
    cases cleared : (setMark .docked false s).snc.cleared? .docked with
    | none => rfl
    | some c =>
      have out : PackUndocked s.pmg ((setMark .docked false s).modSnc fun _ => c) :=
        ⟨rfl, cleared?_outOfForce (c := (setMark .docked false s).snc) nodup cleared⟩
      exact (evaluate_drive drive told _ (drive _ _ (askNotice_driven .override _) out)).1
  · rfl

theorem clearHard_safetyTimer (x : Timer) (src : Source) : Keeps (SafetyTimer x) (clearHard tellSuction src) := by
  intro s h
  unfold clearHard
  split
  · exact (safetyTimer_budgetWay x).changeStack (tellSuction_safetyTimer x) (s := setMark src false s) (.inr rfl) h
  · exact h

/-! ### The end of a charge, in either order with the clear -/

/-- What a removal from a charge leads to (R84, R195). -/
structure ChargeEnded (s t : State) : Prop where
  state : t.pmg.state = .discharge
  current : t.pmg.askedCurrent = 0
  learning : t.pmg.learning = none
  bleedSet : t.pmg.bleedSet = Six.all false
  released : Released s t
  stopped : (t.tdu.timers.get .i1).running = false
  notice : s.link.enables.pack = true → t.link.notices.pack = true

theorem Departed.ended {t : State} (h : Departed .discharge s t) : ChargeEnded s t where
  state := by rw [h.pmg]; rfl
  current := by rw [h.pmg]; rfl
  learning := by rw [h.pmg]; rfl
  bleedSet := by rw [h.pmg]; rfl
  released := h.released
  stopped := (congrArg Timer.running h.safety :)
  notice := h.notice

theorem Undisturbed.releases {u t : State} (same : Undisturbed s u) (h : Released u t) : Released s t where
  claim := h.claim
  entries c claimed := by rw [← same.entries]; exact h.entries c (same.claim.trans claimed)
  w2 c claimed := h.w2 c (same.claim.trans claimed)
  w3 c claimed := h.w3 c (same.claim.trans claimed)
  reservation claimed r reserved :=
    h.reservation (by rw [same.claim]; exact claimed) r (same.reservation.trans reserved)

theorem packRemoved_ended (charging : s.pmg.state.isCharging = true) : ChargeEnded s (packRemoved tellSuction s) := by
  rw [packRemoved_charging charging]
  exact (stopCharge_departed rfl (by decide)).ended

theorem shut_of_charging (charging : s.pmg.state.isCharging = true) : Shut s :=
  .inr fun waits => by rw [waits] at charging; cases charging

/-- The charge ends after the clear. -/
theorem packRemoved_ended_after_clear (charging : s.pmg.state.isCharging = true) (src : Source) :
    ChargeEnded s (packRemoved tellSuction (clearHard tellSuction src s)) := by
  have shut := shut_of_charging charging
  have ended := packRemoved_ended (s := clearHard tellSuction src s) (by rw [clearHard_pmg shut]; exact charging)
  exact { ended with
    released := (clearHard_undisturbed shut src).releases ended.released
    notice := fun enabled => ended.notice (by rw [clearHard_enables]; exact enabled) }

/-- The clear after the end of the charge leaves what the end led to. -/
theorem ChargeEnded.clearHard {t : State} (h : ChargeEnded s t) (src : Source) :
    ChargeEnded s (clearHard tellSuction src t) := by
  have shut : Shut t := .inr (by rw [h.state]; decide)
  have pmg := clearHard_pmg shut src
  have timer := clearHard_safetyTimer _ src t ⟨rfl, by rw [h.state]; decide⟩
  exact {
    state := by rw [pmg]; exact h.state
    current := by rw [pmg]; exact h.current
    learning := by rw [pmg]; exact h.learning
    bleedSet := by rw [pmg]; exact h.bleedSet
    released := h.released.through (clearHard_undisturbed shut src)
    stopped := (congrArg Timer.running timer.1 :).trans h.stopped
    notice := fun enabled => clearHard_notice src .pack t (h.notice enabled) }

/-! ### The two owners of a removal, in a free order -/

def ownersRemoved (s : State) : State :=
  inAnyOrder [clearHard tellSuction .docked, packRemoved tellSuction] (armDetector .d0 .rising 8 s)

theorem ownersRemoved_unmarked (s : State) : (ownersRemoved s).snc.marks.docked = false := by
  have told : Leaves .docked tellSuction := tellSuction_leaves rfl
  refine inAnyOrder_two_of (P := fun t => t.snc.marks.docked = false) (fun n => ?_) (fun n => ?_)
  · exact (marked_of_standing (packRemoved_leaves (src := .docked) rfl told _)).trans (clearHard_marks rfl told _)
  · exact clearHard_marks (src := .docked) rfl told _

theorem ownersRemoved_feeds (s : State) : (ownersRemoved s).pmg.state.Feeds := by
  refine inAnyOrder_two_of (P := fun t => t.pmg.state.Feeds) (fun n => packRemoved_state _) (fun n => ?_)
  have feeding := packRemoved_state ((armDetector .d0 .rising 8 s).setDraws n)
  rw [clearHard_pmg feeding.shut]
  exact feeding

theorem ownersRemoved_outOfForce (marked : s.snc.marks.docked = true) (sound : StackSound s.snc) :
    (ownersRemoved s).snc.hasUnreleased .docked = false := by
  have told : Leaves .docked tellSuction := tellSuction_leaves rfl
  refine inAnyOrder_two_of (P := fun t => t.snc.hasUnreleased .docked = false) (fun n => ?_) (fun n => ?_)
  · exact (inForce_of_standing (packRemoved_leaves rfl told _)).trans
      (clearHard_outOfForce (s := (armDetector .d0 .rising 8 s).setDraws n) told marked sound)
  · have marks := marked_of_standing (packRemoved_leaves (src := .docked) rfl told
      ((armDetector .d0 .rising 8 s).setDraws n))
    exact clearHard_outOfForce_of_nodup told (marks.trans marked)
      (packRemoved_nodup (s := (armDetector .d0 .rising 8 s).setDraws n) sound.sources)

theorem ownersRemoved_ended (charging : s.pmg.state.isCharging = true) : ChargeEnded s (ownersRemoved s) := by
  have armed (n : Nat) : Undisturbed s ((armDetector .d0 .rising 8 s).setDraws n) := .of_same rfl rfl rfl rfl
  refine inAnyOrder_two_of (P := ChargeEnded s) (fun n => ?_) (fun n => ?_)
  · have ended := packRemoved_ended_after_clear (s := (armDetector .d0 .rising 8 s).setDraws n) charging .docked
    exact { ended with released := (armed n).releases ended.released }
  · have ended := packRemoved_ended (s := (armDetector .d0 .rising 8 s).setDraws n) charging
    exact { ended with released := (armed n).releases ended.released : ChargeEnded s _ }.clearHard .docked

/-- From DOCKED_WAIT and CHARGE_FAULT the removal leads on by the low mark. -/
theorem ownersRemoved_leftDock (waits : s.pmg.state.Waits) (sound : StackSound s.snc) :
    (ownersRemoved s).pmg.state = outOfDock s.pmg ∧
      (s.link.enables.pack = true → (ownersRemoved s).link.notices.pack = true) := by
  obtain ⟨dark, -⟩ := (outOfDock_feeds s.pmg).outside
  refine inAnyOrder_two_of (P := fun t => t.pmg.state = outOfDock s.pmg ∧
    (s.link.enables.pack = true → t.link.notices.pack = true)) (fun n => ?_) (fun n => ?_)
  · have pmg := clearHard_docked_pmg (s := (armDetector .d0 .rising 8 s).setDraws n) sound.sources
    have same : (clearHard tellSuction .docked ((armDetector .d0 .rising 8 s).setDraws n)).pmg = s.pmg := pmg
    rw [packRemoved_waits (by rw [same]; exact waits), outOfDock_state, same]
    exact ⟨rfl, fun enabled => changePack_notice dark (by rw [clearHard_enables]; exact enabled)⟩
  · have moved := packRemoved_waits (told := tellSuction) (s := (armDetector .d0 .rising 8 s).setDraws n) waits
    have state := outOfDock_state ((armDetector .d0 .rising 8 s).setDraws n)
    have shut : Shut (packRemoved tellSuction ((armDetector .d0 .rising 8 s).setDraws n)) :=
      (packRemoved_state _).shut
    refine ⟨?_, fun enabled => clearHard_notice .docked .pack _ ?_⟩
    · rw [clearHard_pmg shut, moved]
      exact state
    · rw [moved]
      exact changePack_notice (s := (armDetector .d0 .rising 8 s).setDraws n) dark enabled

theorem ownersRemoved_feeding (feeding : s.pmg.state.Feeds) : (ownersRemoved s).pmg = s.pmg := by
  refine inAnyOrder_two_of (P := fun t => t.pmg = s.pmg) (fun n => ?_) (fun n => ?_)
  · have pmg := clearHard_pmg (PackState.Feeds.shut (s := (armDetector .d0 .rising 8 s).setDraws n) feeding) .docked
    rw [packRemoved_feeds (by rw [pmg]; exact feeding)]
    exact pmg
  · rw [packRemoved_feeds (s := (armDetector .d0 .rising 8 s).setDraws n) feeding]
    exact clearHard_pmg (PackState.Feeds.shut (s := (armDetector .d0 .rising 8 s).setDraws n) feeding) .docked

end Sys2Proof.Machine
end

section
/-! PROOF. A detection of D0 as a whole: the dock line controller at a removal, and the two levels (R58, R179). -/

namespace Sys2Proof.Machine

variable {s : State}

/-! ### The removal -/

/-- A session change writes the dock line controller and asks for a notice. -/
theorem setSession_frame (new : Session) (s : State) :
    (setSession new s).pmg = s.pmg ∧ (setSession new s).snc = s.snc ∧ (setSession new s).wcu = s.wcu ∧
      (setSession new s).reservation = s.reservation ∧ (setSession new s).tdu = s.tdu := by
  unfold setSession
  split <;> exact ⟨rfl, rfl, rfl, rfl, rfl⟩

theorem setSession_exchange (new : Session) (s : State) :
    (setSession new s).dlc.exchange = s.dlc.exchange ∧ (setSession new s).dlc.offer = s.dlc.offer ∧
      (setSession new s).dlc.askDue = s.dlc.askDue := by
  unfold setSession
  split <;> exact ⟨rfl, rfl, rfl⟩

theorem dockRemoved_owners (s : State) :
    dockRemoved tellSuction s = setSession .absent ((ownersRemoved s).modDlc Dlc.abandon) := rfl

/-- The dock line controller at a removal (R179). -/
theorem dockRemoved_line (s : State) :
    (dockRemoved tellSuction s).dlc.session = .absent ∧ (dockRemoved tellSuction s).dlc.exchange = none ∧
      (dockRemoved tellSuction s).dlc.offer = none ∧ (dockRemoved tellSuction s).dlc.askDue = false := by
  rw [dockRemoved_owners]
  exact ⟨setSession_session _ _, setSession_exchange .absent ((ownersRemoved s).modDlc Dlc.abandon)⟩

/-- The session and the line leave what the owners made. -/
theorem dockRemoved_frame (s : State) :
    (dockRemoved tellSuction s).pmg = (ownersRemoved s).pmg ∧ (dockRemoved tellSuction s).snc = (ownersRemoved s).snc ∧
      (dockRemoved tellSuction s).wcu = (ownersRemoved s).wcu ∧
      (dockRemoved tellSuction s).reservation = (ownersRemoved s).reservation ∧
      (dockRemoved tellSuction s).tdu = (ownersRemoved s).tdu :=
  setSession_frame .absent ((ownersRemoved s).modDlc Dlc.abandon)

theorem dockRemoved_notice (k : NoticeKind) (asked : (ownersRemoved s).link.notices.get k = true) :
    (dockRemoved tellSuction s).link.notices.get k = true :=
  setSession_moves (noticeStays_closed k) .absent ((ownersRemoved s).modDlc Dlc.abandon) asked

theorem dockRemoved_ended (charging : s.pmg.state.isCharging = true) : ChargeEnded s (dockRemoved tellSuction s) := by
  have ended := ownersRemoved_ended charging
  obtain ⟨pmg, -, wcu, reservation, tdu⟩ := dockRemoved_frame s
  exact {
    state := by rw [pmg]; exact ended.state
    current := by rw [pmg]; exact ended.current
    learning := by rw [pmg]; exact ended.learning
    bleedSet := by rw [pmg]; exact ended.bleedSet
    released := ended.released.of_wcu rfl rfl wcu reservation
    stopped := by rw [tdu]; exact ended.stopped
    notice := fun enabled => dockRemoved_notice .pack (ended.notice enabled) }

/-! ### The obligation -/

theorem Pmg.inserted_facts (p : Pmg) :
    (p.state = .discharge ∨ p.state = .protect → p.inserted.state = .dockedWait ∧ p.inserted.budget = 0) ∧
      (p.state ≠ .discharge → p.state ≠ .protect → p.inserted.state = p.state) ∧ p.inserted.lowMark = p.lowMark := by
  unfold Pmg.inserted
  split
  · next feeding => exact ⟨fun _ => ⟨rfl, rfl⟩, fun d p => absurd feeding (by simp [d, p]), rfl⟩
  · next elsewhere => exact ⟨fun feeding => absurd feeding elsewhere, fun _ _ => rfl, rfl⟩

/-- An insertion in ABSENT, for the state in which the detector has been seen. -/
theorem dockInserted_absent (absent : s.dlc.session = .absent) :
    let t := dockInserted tellSuction s
    t.dlc.session = .probing ∧ t.dlc.probes = 1 ∧ t.dlc.offer = none ∧
      t.dlc.exchange = some { frame := .probe, awaiting := false, newer := false, ordered := false } ∧
      t.snc.marks.docked = true ∧
      (s.pmg.state = .discharge ∨ s.pmg.state = .protect → t.pmg.state = .dockedWait ∧
        t.pmg.budget = 0 ∧ (s.link.enables.pack = true → t.link.notices.pack = true)) ∧
      (s.pmg.state ≠ .discharge → s.pmg.state ≠ .protect → t.pmg.state = s.pmg.state) ∧
      t.pmg.lowMark = s.pmg.lowMark ∧
      (s.snc.marks.docked = false → s.wcu.traps .budget = false →
        (s.snc.stack.length < 4 ∨ findEntry .docked s.snc.stack ≠ none →
          t.snc.hasUnreleased .docked = true) ∧
        (findEntry .docked s.snc.stack = none → 4 ≤ s.snc.stack.length →
          t.snc.stack = s.snc.stack ∧
          (s.snc.suction.isHalt = false → t.snc.suction = .halt .stackFull))) := by
  obtain ⟨probes, offer, exchange⟩ := dockInserted_line absent
  have owners : (dockInserted tellSuction s).pmg = (ownersInserted s).pmg ∧
      (dockInserted tellSuction s).snc = (ownersInserted s).snc := dockInserted_owners s
  obtain ⟨pmg, snc⟩ := owners
  have inserted := pmg.trans (ownersInserted_pmg absent).1
  obtain ⟨waits, stays, low⟩ := s.pmg.inserted_facts
  dsimp only
  rw [inserted, snc]
  refine ⟨dockInserted_session s, probes, offer, exchange, ownersInserted_marked s, fun feeding => ?_, stays, low,
    fun unmarked untrapped => ⟨ownersInserted_inForce absent unmarked untrapped,
      ownersInserted_overflows absent unmarked untrapped⟩⟩
  obtain ⟨state, budget⟩ := waits feeding
  exact ⟨state, budget, fun enabled => dockInserted_notice .pack (ownersInserted_notice absent feeding enabled)⟩

/-- A removal, for the state in which the detector has been seen. -/
theorem dockRemoved_facts (s : State) :
    let t := dockRemoved tellSuction s
    t.snc.marks.docked = false ∧ (t.pmg.state = .discharge ∨ t.pmg.state = .protect) ∧
      (s.snc.marks.docked = true → StackSound s.snc → t.snc.hasUnreleased .docked = false) ∧
      (s.pmg.state = .dockedWait ∨ (∃ kind, s.pmg.state = .fault kind) → StackSound s.snc →
        t.pmg.state = (if s.pmg.lowMark then .protect else .discharge) ∧
        (s.link.enables.pack = true → t.link.notices.pack = true)) ∧
      (s.pmg.state = .discharge ∨ s.pmg.state = .protect → t.pmg = s.pmg) := by
  obtain ⟨pmg, snc, -⟩ := dockRemoved_frame s
  dsimp only
  rw [pmg, snc]
  refine ⟨ownersRemoved_unmarked s, ownersRemoved_feeds s, ownersRemoved_outOfForce, fun waits sound => ?_,
    ownersRemoved_feeding⟩
  obtain ⟨state, notice⟩ := ownersRemoved_leftDock waits sound
  exact ⟨state, fun enabled => dockRemoved_notice .pack (notice enabled)⟩

/-- Settles O30: the owners of D0 in either order, then the session. -/
theorem dockInsertionAndRemoval : Obligations.DockInsertionAndRemoval := by
  unfold Obligations.DockInsertionAndRemoval
  intro s q armed
  refine ⟨fun polarity absent => ?_, fun polarity => ?_⟩
  · let x := s.seen .d0 true
    have seen := (seen_others .d0 true s).1
    have pins := (seen_line .d0 true s).pins
    obtain ⟨session, probes, offer, exchange, marks, waits, rest⟩ := dockInserted_absent (s := x) absent
    refine ⟨dockInserted tellSuction x, exec_detection (level := true) q armed (congrArg Polarity.newLevel polarity),
      (congrArg Pins.dockSense pins :), detectionTold_rearmed (d := .d0) (by decide) true x, session, probes, offer,
      exchange, marks, fun feeding => ?_, rest⟩
    obtain ⟨state, budget, notice⟩ := waits feeding
    exact ⟨state, budget, fun enabled => notice (by rw [seen]; exact enabled)⟩
  · let x := s.seen .d0 false
    have seen := (seen_others .d0 false s).1
    have pins := (seen_line .d0 false s).pins
    obtain ⟨session, exchange, offer, due⟩ := dockRemoved_line x
    obtain ⟨marks, feeds, outOfForce, waits, stays⟩ := dockRemoved_facts x
    refine ⟨dockRemoved tellSuction x, exec_detection (level := false) q armed (congrArg Polarity.newLevel polarity),
      (congrArg Pins.dockSense pins :), detectionTold_rearmed (d := .d0) (by decide) false x, session, exchange, offer,
      due, marks, feeds, outOfForce, fun charging => ?_, fun waiting sound => ?_, stays⟩
    · have ended := dockRemoved_ended (s := x) charging
      exact ⟨ended.state, ended.current, ended.learning, ended.bleedSet, ended.released.of_wcu rfl rfl rfl rfl,
        ended.stopped, fun enabled => ended.notice (by rw [seen]; exact enabled)⟩
    · obtain ⟨state, notice⟩ := waits waiting sound
      exact ⟨state, fun enabled => notice (by rw [seen]; exact enabled)⟩

end Sys2Proof.Machine
end

section
/-! PROOF. The band comparison by quantised values (R70). -/

namespace Sys2Proof.Machine

theorem quantise_eq_shift (r : Nat) (v : Int) : quantise r v = v >>> r := by
  rw [Int.shiftRight_eq_div_pow]
  rfl

/-- A step is at most the quantised value where its lower end is at most the value. -/
theorem le_quantise_iff (r : Nat) (q v : Int) : q ≤ quantise r v ↔ q * 2 ^ r ≤ v :=
  Int.le_ediv_iff_mul_le (by positivity)

theorem quantise_le_iff (r : Nat) (q v : Int) : quantise r v ≤ q ↔ v < (q + 1) * 2 ^ r := by
  rw [← Int.lt_add_one_iff]
  exact Int.ediv_lt_iff_lt_mul (by positivity)

theorem quantise_zero (v : Int) : quantise 0 v = v := Int.ediv_one v

theorem inBand_iff (w : WatchRecord) (v : Int) :
    inBand w v = true ↔ quantise w.resolution w.low ≤ quantise w.resolution v ∧
      quantise w.resolution v ≤ quantise w.resolution w.high := by
  simp [inBand]

/-- Settles O32: both ends of the band and of a step are read through the rounding down. -/
theorem bandComparison : Obligations.BandComparison := by
  unfold Obligations.BandComparison
  intro w v r
  refine ⟨quantise_eq_shift r v, fun q => ?_, ?_, fun whole => ?_⟩
  · rw [← le_quantise_iff, ← quantise_le_iff, Int.le_antisymm_iff]
  · rw [inBand_iff, le_quantise_iff, quantise_le_iff, Int.le_sub_one_iff]
  · have exact : w.resolution = 0 := whole
    rw [inBand_iff, exact, quantise_zero, quantise_zero, quantise_zero]

end Sys2Proof.Machine
end

section
/-! PROOF. An unclaimed OVERRIDE trap at a stored sample: the units that compare, what they tell, and what the suction
controller makes of it (R72 to R76, R124, R125, R129). -/

namespace Sys2Proof.Machine

variable {I : State → Prop} {told : State → State}

/-! ### An evaluation, for an invariant that may speak of hits -/

/-- An invariant that an evaluation keeps until it hands a change on. Where `DriveKeeps` lets the hits of gates go, this
one may name a hit that no gate writes. -/
structure EvaluationKeeps (I : State → Prop) : Prop where
  notice : ∀ k, Keeps I (askNotice k)
  report : ∀ flag src, Keeps I (reportCondition flag src)
  gates : ∀ target, Keeps I (recordGateHits target)
  carry : ∀ f s, DriveOnly s.snc (f s.snc) → I s → I (carried f s)

theorem DriveKeeps.evaluation (drive : DriveKeeps I) : EvaluationKeeps I where
  notice k s := drive s _ (askNotice_driven k s)
  report flag src s := drive s _ (reportCondition_driven flag src s)
  gates := recordGateHits_drive drive
  carry _ s only := drive s _ (carried_driven only)

namespace EvaluationKeeps

variable (h : EvaluationKeeps I)
include h

theorem commit (ht : Keeps I told) {f : Snc → Snc} {s : State} (only : DriveOnly s.snc (f s.snc)) (hs : I s) :
    I (commitSuction told f s) := commitSuction_keeps h.notice ht (h.carry f s only hs)

theorem takeTarget (ht : Keeps I told) (target : Nat) : Keeps I (takeTarget told target) := by
  intro s hs
  have hits := h.gates target s hs
  have snc := recordGateHits_snc target s
  unfold Machine.takeTarget
  dsimp only
  split
  · exact hs
  · next m _ state =>
    have awake : s.snc.suction.isHalt = false := by rw [state]; rfl
    split
    · exact h.commit ht (hold_driveOnly awake _ _) hs
    · exact h.commit ht (adoptInto_driveOnly awake _ _ _) hs
  · next m state =>
    have awake : s.snc.suction.isHalt = false := by rw [state]; rfl
    split
    · exact h.commit ht (adoptInto_driveOnly awake _ _ _) hs
    · split
      · exact h.commit ht (by rw [snc]; exact hold_driveOnly awake _ _) hits
      · exact h.commit ht (by rw [snc]; exact adoptInto_driveOnly awake _ _ _) hits

theorem evaluate (ht : Keeps I told) : Keeps I (evaluate told) := by
  intro s hs
  have one := reportIf_keeps h.report
  unfold Machine.evaluate
  split
  · exact hs
  · exact h.takeTarget ht _ _ (one _ _ _ _ (one _ _ _ _ (one _ _ _ _ (one _ _ _ s hs))))

theorem dirtStop (dsu : ∀ f, Keeps I (State.modDsu f)) (t2 : Keeps I (stopTimer .i2)) : Keeps I (dirtStop id) := by
  intro s hs
  have stopped := t2 _ (dsu (fun d => { d with dirtLevel := 0, quiet := 0 }) s hs)
  unfold Machine.dirtStop setBoostLevel
  split
  · exact stopped
  · next moved =>
    rw [takeBoostLevel, if_neg moved]
    exact h.evaluate id_keeps _ (h.notice .dirt _ (dsu _ _ stopped))

/-- A report of the suction state while no charge may be entered reaches the dirt sensing unit alone. -/
theorem tellSuction (dsu : ∀ f, Keeps I (State.modDsu f)) (t2 : Keeps I (stopTimer .i2))
    (barred : ∀ s, I s → mayCharge s = false) : Keeps I tellSuction := by
  intro s hs
  have stopped := h.dirtStop dsu t2 s hs
  unfold Machine.tellSuction suctionTold
  split
  · rw [chargeEntryTest_barred (barred _ stopped)]
    exact stopped
  · exact stopped
  all_goals exact hs

end EvaluationKeeps

/-! ### A telling on the stack -/

theorem changeStack_keeps (evaluated : Keeps I (evaluate told)) (noted : Keeps I (askNotice .override)) {c : Option Snc}
    {s : State} (changed : ∀ d, c = some d → I (s.modSnc fun _ => d)) (hs : I s) : I (changeStack told c s) := by
  cases c with
  | none => exact hs
  | some d => exact evaluated _ (noted _ (changed d rfl))

/-- A telling of the watch unit keeps an invariant that an evaluation keeps and that the telling's own change of the stack
does not break. -/
theorem deliverOverride_keeps_of (evaluated : Keeps I (evaluate told)) (noted : Keeps I (askNotice .override)) {t : Telling}
    (raises : ∀ u cap, t = .raised u cap ∨ t = .stands u cap → ∀ s c, s.snc.raised? (.watch u) cap = some c → I s →
      I (s.modSnc fun _ => c))
    (clears : ∀ u, t = .cleared u → ∀ s c, s.snc.cleared? (.watch u) = some c → I s → I (s.modSnc fun _ => c)) :
    Keeps I (deliverOverride told t) := by
  have raised (u : Idx4) (cap : Nat) (own : t = .raised u cap ∨ t = .stands u cap) :
      Keeps I (raiseSoft told (.watch u) cap) := by
    intro s hs
    unfold raiseSoft
    split
    · exact changeStack_keeps evaluated noted (fun d change => raises u cap own s d change hs) hs
    · exact hs
  cases t with
  | raised u cap => exact raised u cap (.inl rfl)
  | stands u cap => exact raised u cap (.inr rfl)
  | cleared u => exact fun s hs => changeStack_keeps evaluated noted (fun d change => clears u rfl s d change hs) hs
  | claimedHit u => exact id_keeps

/-! ### One unit's comparison (R72, R74 to R76, R82) -/

/-- The unit that a telling is of. -/
def Telling.unit : Telling → Idx4
  | .raised u _ | .stands u _ | .cleared u | .claimedHit u => u

/-- A unit is a trap of a channel. -/
def Wcu.trapsAt (w : Wcu) (channel : ChannelId) (u : Idx4) : Prop :=
  (w.entries.get u).kind = .trap ∧ (w.entries.get u).channel = channel

theorem traps_of_trapsAt {w : Wcu} {channel : ChannelId} {u : Idx4} (trap : w.trapsAt channel u) :
    w.traps channel = true :=
  List.any_eq_true.mpr ⟨u, by cases u <;> simp [allUnits], by simp [trap.1, trap.2]⟩

section
variable {channel : ChannelId} {sample : List Reading} {u : Idx4} {s : State}

theorem compareUnit_idle (idle : ¬s.wcu.trapsAt channel u) : compareUnit channel sample u s = (s, []) := if_neg idle

theorem compareUnit_claimed (trap : s.wcu.trapsAt channel u) (claimed : s.wcu.isClaimed u = true) :
    compareUnit channel sample u s =
      (s, if sampleMatches (s.wcu.entries.get u) sample then [.claimedHit u] else []) :=
  (if_pos trap).trans (if_pos claimed)

theorem compareUnit_hit (trap : s.wcu.trapsAt channel u) (free : s.wcu.isClaimed u = false)
    (inside : sampleMatches (s.wcu.entries.get u) sample = true) : compareUnit channel sample u s = trapHit u s :=
  (if_pos trap).trans ((if_neg (by simp [free])).trans (if_pos inside))

theorem compareUnit_miss (trap : s.wcu.trapsAt channel u) (free : s.wcu.isClaimed u = false)
    (outside : sampleMatches (s.wcu.entries.get u) sample = false) : compareUnit channel sample u s = trapMiss u s :=
  (if_pos trap).trans ((if_neg (by simp [free])).trans (if_neg (by simp [outside])))

theorem trapHit_override (override : (s.wcu.entries.get u).action = .override) :
    trapHit u s = (setComparison u { raised := true, outside := 0 } (recordHit u s),
      [if (s.wcu.comparisons.get u).raised then .stands u (s.wcu.entries.get u).cap
        else .raised u (s.wcu.entries.get u).cap]) := if_pos override

theorem trapMiss_clear (clear : (s.wcu.comparisons.get u).raised = false) : trapMiss u s = (s, []) :=
  if_neg (by simp [clear])

theorem trapMiss_counts (raised : (s.wcu.comparisons.get u).raised = true) (few : (s.wcu.comparisons.get u).outside < 7) :
    trapMiss u s = (setComparison u { raised := true, outside := (s.wcu.comparisons.get u).outside + 1 } s,
      [.stands u (s.wcu.entries.get u).cap]) := by
  unfold trapMiss
  dsimp only
  rw [if_pos raised, if_neg (by omega), raised]

theorem trapMiss_clears (raised : (s.wcu.comparisons.get u).raised = true) (many : 7 ≤ (s.wcu.comparisons.get u).outside) :
    trapMiss u s = (setComparison u { raised := false, outside := 0 } s, [.cleared u]) := by
  unfold trapMiss
  dsimp only
  rw [if_pos raised, if_pos (by omega)]
  rfl

end

/-- What a comparison leaves of the watch unit, and of the blocks that it tells nothing. -/
structure Comparing (s t : State) : Prop where
  entries : t.wcu.entries = s.wcu.entries
  claim : t.wcu.claim = s.wcu.claim
  snc : t.snc = s.snc
  pmg : t.pmg = s.pmg
  enables : t.link.enables = s.link.enables

theorem Comparing.refl (s : State) : Comparing s s := ⟨rfl, rfl, rfl, rfl, rfl⟩

theorem Comparing.trans {s t u : State} (a : Comparing s t) (b : Comparing t u) : Comparing s u :=
  ⟨b.entries.trans a.entries, b.claim.trans a.claim, b.snc.trans a.snc, b.pmg.trans a.pmg, b.enables.trans a.enables⟩

/-- The comparison state and the hit of a unit stay. -/
def SameUnit (u : Idx4) (s t : State) : Prop :=
  t.wcu.comparisons.get u = s.wcu.comparisons.get u ∧ t.wcu.hits.get u = s.wcu.hits.get u

theorem SameUnit.trans {u : Idx4} {s t x : State} (a : SameUnit u s t) (b : SameUnit u t x) : SameUnit u s x :=
  ⟨b.1.trans a.1, b.2.trans a.2⟩

theorem recordHit_comparing (v : Idx4) (s : State) :
    Comparing s (recordHit v s) ∧ ∀ u, u ≠ v → SameUnit u s (recordHit v s) := by
  unfold recordHit
  dsimp only
  split
  · refine ⟨⟨rfl, rfl, rfl, rfl, ?_⟩, fun u other => ⟨rfl, four_get_set_ne _ other true⟩⟩
    simp only [askWatchNotice, State.modLink_link]
    split <;> rfl
  · exact ⟨⟨rfl, rfl, rfl, rfl, rfl⟩, fun u other => ⟨rfl, four_get_set_ne _ other true⟩⟩

theorem setComparison_comparing (v : Idx4) (c : Comparison) (s : State) :
    Comparing s (setComparison v c s) ∧ ∀ u, u ≠ v → SameUnit u s (setComparison v c s) :=
  ⟨⟨rfl, rfl, rfl, rfl, rfl⟩, fun _ other => ⟨four_get_set_ne _ other c, rfl⟩⟩

/-- The comparison of one unit is its own: it writes its comparison state and its hit, and tells of itself. -/
theorem compareUnit_own (channel : ChannelId) (sample : List Reading) (v : Idx4) (s : State) :
    Comparing s (compareUnit channel sample v s).1 ∧
      (∀ u, u ≠ v → SameUnit u s (compareUnit channel sample v s).1) ∧
      ∀ t ∈ (compareUnit channel sample v s).2, t.unit = v ∧ s.wcu.trapsAt channel v ∧
        (t.isOverride = true ↔ s.wcu.isClaimed v = false) := by
  have none : Comparing s s ∧ ∀ u, u ≠ v → SameUnit u s s := ⟨.refl s, fun _ _ => ⟨rfl, rfl⟩⟩
  obtain ⟨hit, hitOther⟩ := recordHit_comparing v s
  have stored (c : Comparison) := setComparison_comparing v c s
  by_cases trap : s.wcu.trapsAt channel v
  · cases claimed : s.wcu.isClaimed v with
    | true =>
      rw [compareUnit_claimed trap claimed]
      refine ⟨none.1, none.2, fun t m => ?_⟩
      dsimp only at m
      split at m
      · rw [List.mem_singleton.mp m]
        exact ⟨rfl, trap, by simp [Telling.isOverride]⟩
      · cases m
    | false =>
      cases inside : sampleMatches (s.wcu.entries.get v) sample with
      | true =>
        rw [compareUnit_hit trap claimed inside]
        unfold trapHit
        dsimp only
        split
        · obtain ⟨set, setOther⟩ := setComparison_comparing v { raised := true, outside := 0 } (recordHit v s)
          refine ⟨hit.trans set, fun u other => (hitOther u other).trans (setOther u other), fun t m => ?_⟩
          rw [List.mem_singleton.mp m]
          split <;> exact ⟨rfl, trap, by simp [Telling.isOverride]⟩
        · exact ⟨hit, hitOther, fun t m => nomatch m⟩
      | false =>
        rw [compareUnit_miss trap claimed inside]
        unfold trapMiss
        dsimp only
        split
        · split
          · refine ⟨(stored _).1, (stored _).2, fun t m => ?_⟩
            rw [List.mem_singleton.mp m]
            exact ⟨rfl, trap, by simp [Telling.isOverride]⟩
          · refine ⟨(stored _).1, (stored _).2, fun t m => ?_⟩
            rw [List.mem_singleton.mp m]
            exact ⟨rfl, trap, by simp [Telling.isOverride]⟩
        · exact ⟨none.1, none.2, fun t m => nomatch m⟩
  · rw [compareUnit_idle trap]
    exact ⟨none.1, none.2, fun t m => nomatch m⟩

/-! ### The units in turn -/

theorem Comparing.trapsAt {s t : State} (h : Comparing s t) {channel : ChannelId} {u : Idx4} :
    t.wcu.trapsAt channel u ↔ s.wcu.trapsAt channel u := by
  unfold Wcu.trapsAt
  rw [h.entries]

theorem Comparing.isClaimed {s t : State} (h : Comparing s t) (u : Idx4) : t.wcu.isClaimed u = s.wcu.isClaimed u := by
  unfold Wcu.isClaimed
  rw [h.claim]

theorem compareUnits_own (channel : ChannelId) (sample : List Reading) (us : List Idx4) (s : State) :
    Comparing s (compareUnits channel sample us s).1 ∧
      (∀ u, u ∉ us → SameUnit u s (compareUnits channel sample us s).1) ∧
      ∀ t ∈ (compareUnits channel sample us s).2, t.unit ∈ us ∧ s.wcu.trapsAt channel t.unit ∧
        (t.isOverride = true ↔ s.wcu.isClaimed t.unit = false) := by
  induction us generalizing s with
  | nil => exact ⟨.refl s, fun _ _ => ⟨rfl, rfl⟩, fun _ m => nomatch m⟩
  | cons v us ih =>
    obtain ⟨here, hereOther, hereTold⟩ := compareUnit_own channel sample v s
    obtain ⟨rest, restOther, restTold⟩ := ih (compareUnit channel sample v s).1
    refine ⟨here.trans rest, fun u other => ?_, fun t m => ?_⟩
    · rw [List.mem_cons, not_or] at other
      exact (hereOther u other.1).trans (restOther u other.2)
    · rcases List.mem_append.mp m with m | m
      · obtain ⟨unit, trap, override⟩ := hereTold t m
        rw [unit]
        exact ⟨List.mem_cons_self .., trap, override⟩
      · obtain ⟨unit, trap, override⟩ := restTold t m
        exact ⟨List.mem_cons_of_mem v unit, here.trapsAt.mp trap, by rw [override, here.isClaimed]⟩

theorem compareUnits_append (channel : ChannelId) (sample : List Reading) (us vs : List Idx4) (s : State) :
    compareUnits channel sample (us ++ vs) s =
      ((compareUnits channel sample vs (compareUnits channel sample us s).1).1,
        (compareUnits channel sample us s).2 ++
          (compareUnits channel sample vs (compareUnits channel sample us s).1).2) := by
  induction us generalizing s with
  | nil => rfl
  | cons v us ih =>
    simp only [List.cons_append, compareUnits]
    rw [ih]
    simp only [List.append_assoc]

theorem allUnits_split (u : Idx4) : ∃ before after, allUnits = before ++ u :: after ∧ u ∉ before ∧ u ∉ after := by
  cases u
  · exact ⟨[], [.i1, .i2, .i3], rfl, by decide, by decide⟩
  · exact ⟨[.i0], [.i2, .i3], rfl, by decide, by decide⟩
  · exact ⟨[.i0, .i1], [.i3], rfl, by decide, by decide⟩
  · exact ⟨[.i0, .i1, .i2], [], rfl, by decide, by decide⟩

/-- The comparison of a sample, seen from one unit: the units before it, itself at a state `x`, and the units after it,
which leave its part, up to a state `z`. -/
structure SeenFrom (u : Idx4) (channel : ChannelId) (sample : List Reading) (s x z : State) : Prop where
  before : Comparing s x
  same : SameUnit u s x
  after : Comparing (compareUnit channel sample u x).1 z
  kept : SameUnit u (compareUnit channel sample u x).1 z
  /-- a mark that only grows is not lost after the unit's own comparison -/
  stays : ∀ I, CompareKept I channel → I (compareUnit channel sample u x).1 → I z

theorem compareSample_seenFrom (u : Idx4) (channel : ChannelId) (sample : List Reading) (s : State) :
    ∃ x ts us, SeenFrom u channel sample s x (compareSample channel sample s).1 ∧
      (compareSample channel sample s).2 = ts ++ (compareUnit channel sample u x).2 ++ us ∧
      ∀ t, t ∈ ts ∨ t ∈ us → t.unit ≠ u ∧ s.wcu.trapsAt channel t.unit := by
  obtain ⟨before, after, all, below, above⟩ := allUnits_split u
  obtain ⟨first, firstOther, firstTold⟩ := compareUnits_own channel sample before s
  let x := (compareUnits channel sample before s).1
  obtain ⟨own, -, -⟩ := compareUnit_own channel sample u x
  obtain ⟨rest, restOther, restTold⟩ := compareUnits_own channel sample after (compareUnit channel sample u x).1
  have compared : compareSample channel sample s =
      ((compareUnits channel sample after (compareUnit channel sample u x).1).1,
        (compareUnits channel sample before s).2 ++ ((compareUnit channel sample u x).2 ++
          (compareUnits channel sample after (compareUnit channel sample u x).1).2)) := by
    unfold compareSample
    rw [all, compareUnits_append]
    rfl
  rw [compared]
  refine ⟨x, _, _, ⟨first, firstOther u below, rest, restOther u above,
    fun I kept hx => compareUnits_keeps kept sample after _ hx⟩, (List.append_assoc ..).symm, fun t m => ?_⟩
  rcases m with m | m
  · obtain ⟨unit, trap, -⟩ := firstTold t m
    exact ⟨fun same => below (same ▸ unit), trap⟩
  · obtain ⟨unit, trap, -⟩ := restTold t m
    exact ⟨fun same => above (same ▸ unit), (first.trans own).trapsAt.mp trap⟩

/-! ### The watch unit's event where no unit is claimed -/

theorem isClaimed_none {w : Wcu} (free : w.claim = none) (u : Idx4) : w.isClaimed u = false := by
  simp [Wcu.isClaimed, free]

/-- The tellings of the watch unit to the suction controller, whoever takes the others. -/
theorem watchEvent_fst (told : State → State) (channel : ChannelId) (sample : List Reading) (s : State) :
    watchEvent (deliverTelling told) channel sample s = watchEvent (deliverOverride told) channel sample s := by
  have same : ((compareSample channel sample s).2.filter Telling.isOverride).map (deliverTelling told) =
      ((compareSample channel sample s).2.filter Telling.isOverride).map (deliverOverride told) := by
    refine List.map_congr_left fun t m => ?_
    have override := (List.mem_filter.mp m).2
    cases t with
    | claimedHit u => cases override
    | raised _ _ | stands _ _ | cleared _ => rfl
  exact congrArg (fun events => (inAnyOrder events (compareSample channel sample s).1,
    (compareSample channel sample s).2.filter fun t => !t.isOverride)) same

theorem watchEvent_unclaimed {channel : ChannelId} {sample : List Reading} {s : State} (free : s.wcu.claim = none) :
    watchEvent (deliverTelling told) channel sample s =
      (inAnyOrder ((compareSample channel sample s).2.map (deliverOverride told)) (compareSample channel sample s).1, []) := by
  obtain ⟨-, -, tells⟩ := compareUnits_own channel sample allUnits s
  have override : ∀ t ∈ (compareSample channel sample s).2, t.isOverride = true := fun t m =>
    (tells t m).2.2.mpr (isClaimed_none free _)
  rw [watchEvent_fst]
  unfold watchEvent
  dsimp only
  rw [List.filter_eq_self.mpr override, List.filter_eq_nil_iff.mpr (by simpa using override)]

/-- A sample without an owner, where a trap names the channel: the watch unit's event is the whole of it. -/
theorem sampleTold_unowned {channel : ChannelId} {sample : List Reading} {s : State}
    (trapped : s.wcu.traps channel = true) (free : s.wcu.claim = none) :
    ∃ n, sampleTold told channel sample id s = (watchEvent (deliverTelling told) channel sample (s.setDraws n)).1 := by
  have none := watchEvent_unclaimed (told := told) (channel := channel) (sample := sample)
    (s := s.setDraws (s.draws + 1)) free
  refine ⟨s.draws + 1, ?_⟩
  unfold sampleTold compareAmong
  rw [if_pos trapped]
  dsimp only
  rw [inAnyOrder_one, id, none]
  exact ite_self _

/-! ### What the suction controller makes of the tellings, outside DOCKED_WAIT -/

/-- An invariant that what the watch unit tells the suction controller keeps, while no charge may be entered. -/
structure TellingKeeps (I : State → Prop) : Prop extends EvaluationKeeps I where
  dsu : ∀ f, Keeps I (State.modDsu f)
  t2 : Keeps I (stopTimer .i2)
  draws : ∀ n, Keeps I (State.setDraws n)
  stack : ∀ u s c, (∃ cap, s.snc.raised? (.watch u) cap = some c) ∨ s.snc.cleared? (.watch u) = some c → I s →
    I (s.modSnc fun _ => c)
  barred : ∀ s, I s → mayCharge s = false

namespace TellingKeeps

variable (h : TellingKeeps I)
include h

theorem evaluation : Keeps I (Machine.evaluate Machine.tellSuction) :=
  h.toEvaluationKeeps.evaluate (h.tellSuction h.dsu h.t2 h.barred)

theorem delivery (t : Telling) : Keeps I (deliverOverride Machine.tellSuction t) :=
  deliverOverride_keeps_of h.evaluation (h.notice .override) (fun u cap _ s c raised => h.stack u s c (.inl ⟨cap, raised⟩))
    (fun u _ s c cleared => h.stack u s c (.inr cleared))

theorem allTold (ts : List Telling) : Keeps I (inAnyOrder (ts.map (deliverOverride Machine.tellSuction))) :=
  inAnyOrder_keeps h.draws _ (tellings_keep h.delivery ts)

end TellingKeeps

/-- The watch records, and one unit's comparison state and hit, outside DOCKED_WAIT. -/
def UnitStands (u : Idx4) (entries : Four WatchRecord) (c : Comparison) (hit : Bool) (t : State) : Prop :=
  t.wcu.entries = entries ∧ t.wcu.comparisons.get u = c ∧ t.wcu.hits.get u = hit ∧ t.pmg.state ≠ .dockedWait

/-- A gate that the trap `u` is not hits itself alone, and nothing else that an evaluation does touches the watch unit. -/
theorem unitStands_tellings {u : Idx4} {entries : Four WatchRecord} (trap : (entries.get u).kind = .trap) (c : Comparison)
    (hit : Bool) : TellingKeeps (UnitStands u entries c hit) where
  notice _ _ h := h
  report flag src s h := by
    unfold reportCondition
    split
    · exact h
    · dsimp only
      split <;> exact h
  gates target s h := by
    have same := h.1
    refine foldl_steps_keep (fun v t =>
      if gateMatches target (s.wcu.entries.get v) && !s.wcu.isClaimed v then recordHit v t else t) (fun v t ht => ?_)
      allUnits s h
    dsimp only
    split
    · next gate =>
      have other : u ≠ v := by
        rintro rfl
        rw [same] at gate
        simp [gateMatches, trap] at gate
      obtain ⟨left, others⟩ := recordHit_comparing v t
      obtain ⟨comparison, hits⟩ := others u other
      obtain ⟨he, hc, hh, hs⟩ := ht
      exact ⟨left.entries.trans he, comparison.trans hc, hits.trans hh, by rw [left.pmg]; exact hs⟩
    · exact ht
  carry f s _ h := by
    unfold carried
    split <;> exact h
  dsu _ _ h := h
  t2 _ h := h
  draws _ _ h := h
  stack _ _ _ _ h := h
  barred _ h := mayCharge_shut (.inr h.2.2.2)

/-- The stack with its flag, outside DOCKED_WAIT, through an evaluation. -/
theorem stackFlag_driveKeeps (stack : List OverrideEntry) (flag : Bool) :
    DriveKeeps fun t => t.snc.stack = stack ∧ t.snc.boostPermitted = flag ∧ t.pmg.state ≠ .dockedWait :=
  fun _ _ driven h => ⟨driven.snc.stack.trans h.1, driven.snc.boost.trans h.2.1, by rw [driven.pmg]; exact h.2.2⟩

/-- A soft source without an entry that is raised where there is room is pushed (R125), and stands so through what the
push hands on. -/
theorem raiseSoft_pushes {src : Source} {cap : Nat} {s : State} (on : s.snc.softOverrides = true)
    (absent : findEntry src s.snc.stack = none) (room : s.snc.stack.length < 4) (waits : s.pmg.state ≠ .dockedWait) :
    (raiseSoft tellSuction src cap s).snc.stack =
        { source := src, cap := cap, saved := s.snc.boostPermitted, released := false } :: s.snc.stack ∧
      (raiseSoft tellSuction src cap s).snc.boostPermitted = false := by
  have drive := stackFlag_driveKeeps
    ({ source := src, cap := cap, saved := s.snc.boostPermitted, released := false } :: s.snc.stack) false
  have told := tellSuction_drive drive (fun _ _ h => h) (fun _ h => h) fun _ h => mayCharge_shut (.inr h.2.2)
  have pushed : s.snc.raised? src cap = some (s.snc.push src cap) := by
    unfold Snc.raised?
    rw [absent]
    exact if_pos room
  have stands := evaluate_drive drive told (askNotice .override (s.modSnc fun _ => s.snc.push src cap)) ⟨rfl, rfl, waits⟩
  unfold raiseSoft
  rw [if_pos on, pushed]
  exact ⟨stands.1, stands.2.1⟩

/-- A unit's entry out of force, no source twice, outside DOCKED_WAIT. -/
def UnitOut (u : Idx4) (t : State) : Prop := t.snc.hasUnreleased (.watch u) = false ∧ SourcesOnce t

theorem sourcesOnce_tellings : TellingKeeps SourcesOnce where
  toEvaluationKeeps := sourcesOnce_drive.evaluation
  dsu _ _ h := h
  t2 _ h := h
  draws _ _ h := h
  stack u s c change h := sourcesOnce_budgetWay.stack s c (.watch u) change h
  barred _ h := mayCharge_shut (.inr h.2)

theorem unitOut_drive (u : Idx4) : DriveKeeps (UnitOut u) := fun s t driven h =>
  ⟨(hasUnreleased_congr driven.snc.stack).trans h.1, sourcesOnce_drive s t driven h.2⟩

theorem unitOut_told (u : Idx4) : Keeps (UnitOut u) tellSuction :=
  tellSuction_drive (unitOut_drive u) (fun _ _ h => h) (fun _ h => h) fun _ h => mayCharge_shut (.inr h.2.2)

/-- Only a raise of the unit itself puts its entry in force. -/
theorem deliver_keeps_unitOut {u : Idx4} {t : Telling} (silent : t.unit = u → t = .cleared u) :
    Keeps (UnitOut u) (deliverOverride tellSuction t) := by
  refine deliverOverride_keeps_of (evaluate_drive (unitOut_drive u) (unitOut_told u))
    (fun s => unitOut_drive u s _ (askNotice_driven .override s)) (fun v cap own s c raised h => ?_)
    (fun v _ s c cleared h => ⟨?_, sourcesOnce_budgetWay.stack s c _ (.inr cleared) h.2⟩)
  · have other : Source.watch v ≠ .watch u := by
      rintro same
      cases same
      rcases own with rfl | rfl <;> cases silent rfl
    exact ⟨(raised?_other other raised).2.trans h.1, sourcesOnce_budgetWay.stack s c _ (.inl ⟨cap, raised⟩) h.2⟩
  · by_cases same : v = u
    · subst same
      exact cleared?_outOfForce h.2.1 cleared
    · exact (cleared?_other (fun k => same (Source.watch.inj k)) cleared).2.trans h.1

theorem deliver_clears (u : Idx4) {s : State} (once : SourcesOnce s) :
    UnitOut u (deliverOverride tellSuction (.cleared u) s) := by
  show UnitOut u (changeStack tellSuction (s.snc.cleared? (.watch u)) s)
  cases cleared : s.snc.cleared? (.watch u) with
  | none => exact ⟨cleared?_none cleared, once⟩
  | some c =>
    exact evaluate_drive (unitOut_drive u) (unitOut_told u) _ (unitOut_drive u _ _ (askNotice_driven .override _)
      ⟨cleared?_outOfForce once.1 cleared, sourcesOnce_budgetWay.stack s c _ (.inr cleared) once⟩)

/-- A clear of the unit, told among tellings of other units, leaves its entry out of force. -/
theorem allTold_clears {u : Idx4} {ts : List Telling} (mem : .cleared u ∈ ts) (silent : ∀ t ∈ ts, t.unit = u → t = .cleared u)
    {s : State} (once : SourcesOnce s) : UnitOut u (inAnyOrder (ts.map (deliverOverride tellSuction)) s) := by
  have same {e : State → State} := (arrange_perm s.draws (ts.map (deliverOverride tellSuction))).mem_iff (a := e)
  refine foldl_reaches (J := SourcesOnce) (I := UnitOut u) (f := fun e => e) (fun e m => ?_) (fun e m => ?_)
    (same.mpr (List.mem_map_of_mem mem)) (fun _ => deliver_clears u) _ once
  · exact tellings_keep sourcesOnce_tellings.delivery ts e (same.mp m)
  · obtain ⟨t, told, rfl⟩ := List.mem_map.mp (same.mp m)
    exact deliver_keeps_unitOut (silent t told)

/-! ### The WATCH notice (R7, R74) -/

/-- The WATCH notice is pending and names the unit. -/
def WatchNamed (u : Idx4) (t : State) : Prop := t.link.notices.watch = true ∧ t.link.accWatch.get u = true

theorem recordHit_hits (u : Idx4) (s : State) : (recordHit u s).wcu.hits.get u = true := by
  unfold recordHit
  dsimp only
  split <;> exact four_get_set _ u true

theorem recordHit_named {u : Idx4} {s : State} (reports : (s.wcu.entries.get u).report = true)
    (enabled : s.link.enables.watch = true) : WatchNamed u (recordHit u s) := by
  unfold recordHit
  dsimp only
  rw [if_pos reports]
  unfold WatchNamed
  rw [askWatchNotice, State.modLink_link, State.modWcu_link, if_pos enabled]
  exact ⟨rfl, four_get_set _ u true⟩

theorem four_get_set_true {f : Four Bool} {u : Idx4} (h : f.get u = true) (v : Idx4) : (f.set v true).get u = true := by
  by_cases same : u = v
  · subst same
    exact four_get_set f u true
  · exact (four_get_set_ne f same true).trans h

/-- No event of the main domain takes the name away while no notice is sent. -/
theorem watchNamed_closed (u : Idx4) : MainClosed fun s t => WatchNamed u s → WatchNamed u t where
  refl _ h := h
  trans _ _ _ a b h := b (a h)
  snc _ _ h := h
  chan _ _ h := h
  tdu _ _ h := h
  dsu _ _ h := h
  draws _ _ h := h
  notice j s h := by
    refine ⟨(noticeStays_closed .watch).notice j s h.1, ?_⟩
    simp only [askNotice, State.modLink]
    split <;> exact h.2
  hit v s h := by
    refine ⟨(noticeStays_closed .watch).hit v s h.1, ?_⟩
    unfold recordHit
    dsimp only
    split
    · simp only [askWatchNotice, State.modLink]
      split
      · exact four_get_set_true h.2 v
      · exact h.2
    · exact h.2
  wcu _ _ h := h
  pmg _ _ h := h
  dlc _ _ h := h
  reservation _ _ h := h
  bleed _ _ h := h
  timerNotice j s h := by
    refine ⟨(noticeStays_closed .watch).timerNotice j s h.1, ?_⟩
    simp only [askTimerNotice, State.modLink]
    split <;> exact h.2
  detectorNotice d b s h := by
    refine ⟨(noticeStays_closed .watch).detectorNotice d b s h.1, ?_⟩
    simp only [askDetectorNotice, State.modLink]
    split <;> exact h.2

/-! ### The obligation -/

theorem sampleMatches_one (w : WatchRecord) (v : Int) : sampleMatches w [.valid v] = inBand w v := by
  simp [sampleMatches]

section
variable {s : State} {u : Idx4} {v : Int}

theorem channelSampled_dockV (v : Int) (s : State) : channelSampled told (.dockV v) s =
    sampleTold told .dockV [.valid (dockVOf v)] id (s.modChan fun c => { c with dockV := dockVOf v }) := rfl

/-- A sample of a trapped channel without an owner as the unit `u` sees it: the units before it, itself at `x`, the units
after it up to `z`, and then what all of them tell. -/
theorem sampleTold_seenFrom {channel : ChannelId} {sample : List Reading} (trap : s.wcu.trapsAt channel u)
    (free : s.wcu.claim = none) :
    ∃ x z ts us, sampleTold tellSuction channel sample id s =
        inAnyOrder ((ts ++ (compareUnit channel sample u x).2 ++ us).map (deliverOverride tellSuction)) z ∧
      SeenFrom u channel sample s x z ∧ ∀ t, t ∈ ts ∨ t ∈ us → t.unit ≠ u ∧ s.wcu.trapsAt channel t.unit := by
  obtain ⟨n, event⟩ := sampleTold_unowned (told := tellSuction) (sample := sample) (traps_of_trapsAt trap) free
  obtain ⟨x, ts, us, seen, tells, others⟩ := compareSample_seenFrom u channel sample (s.setDraws n)
  obtain ⟨⟨entries, claim, snc, pmg, enables⟩, same, after, kept, stays⟩ := seen
  refine ⟨x, _, ts, us, ?_, ⟨⟨entries, claim, snc, pmg, enables⟩, same, after, kept, stays⟩, others⟩
  rw [← tells, event, watchEvent_unclaimed (s := s.setDraws n) free]

/-- What the unit's comparison leaves at it stands through what all units tell. -/
theorem SeenFrom.stands {x z : State} {sample : List Reading} {ts : List Telling}
    (seen : SeenFrom u .dockV sample s x z) (trap : s.wcu.trapsAt .dockV u) (waits : s.pmg.state ≠ .dockedWait) :
    let t := inAnyOrder (ts.map (deliverOverride tellSuction)) z
    t.wcu.entries = s.wcu.entries ∧
      t.wcu.comparisons.get u = (compareUnit .dockV sample u x).1.wcu.comparisons.get u ∧
      t.wcu.hits.get u = (compareUnit .dockV sample u x).1.wcu.hits.get u := by
  have through := (seen.before.trans (compareUnit_own .dockV sample u x).1).trans seen.after
  obtain ⟨entries, comparison, hit, -⟩ := (unitStands_tellings (u := u) trap.1 _ _).allTold ts z
    ⟨through.entries, seen.kept.1, seen.kept.2, by rw [through.pmg]; exact waits⟩
  exact ⟨entries, comparison, hit⟩

/-- Where no other unit traps the channel, the unit alone tells. -/
theorem others_silent {x : State} {ts us : List Telling} {channel : ChannelId}
    (others : ∀ t, t ∈ ts ∨ t ∈ us → t.unit ≠ u ∧ x.wcu.trapsAt channel t.unit)
    (alone : ∀ k, k ≠ u → ¬x.wcu.trapsAt channel k) : ts = [] ∧ us = [] :=
  ⟨List.eq_nil_iff_forall_not_mem.mpr fun t m => alone _ (others t (.inl m)).1 (others t (.inl m)).2,
    List.eq_nil_iff_forall_not_mem.mpr fun t m => alone _ (others t (.inr m)).1 (others t (.inr m)).2⟩

/-- A WATCH notice that the unit's hit asks for stands through what follows. -/
theorem SeenFrom.named {x z : State} {channel : ChannelId} {sample : List Reading} {ts : List Telling}
    (seen : SeenFrom u channel sample s x z) (hit : WatchNamed u (compareUnit channel sample u x).1) :
    WatchNamed u (inAnyOrder (ts.map (deliverOverride tellSuction)) z) :=
  have closed := watchNamed_closed u
  inAnyOrder_moves closed.toEvalClosed _ (tellings_move
    (deliverOverride_moves closed.toEvalClosed (tellSuction_moves closed)) ts) z
    (seen.stays (WatchNamed u) (fun sample v t => compareUnit_moves closed channel sample v t) hit)

end

/-- Settles O33: the unit compares between the others, and what all of them tell leaves its comparison and its hit. -/
theorem trapOverride : Obligations.TrapOverride := by
  unfold Obligations.TrapOverride
  intro s u v q w c sample kind channel action free waits
  have trap : s.wcu.trapsAt .dockV u := ⟨kind, channel⟩
  obtain ⟨x, z, ts, us, done, seen, others⟩ := sampleTold_seenFrom (sample := [.valid sample])
    (s := s.modChan fun c => { c with dockV := dockVOf v }) trap free
  obtain ⟨entries, comparison, hit⟩ := seen.stands (ts := ts ++ (compareUnit .dockV [.valid sample] u x).2 ++ us) trap waits
  have through := (seen.before.trans (compareUnit_own .dockV [.valid sample] u x).1).trans seen.after
  have waitsZ : z.pmg.state ≠ .dockedWait := by rw [through.pmg]; exact waits
  have trapX : x.wcu.trapsAt .dockV u := seen.before.trapsAt.mpr trap
  have freeX : x.wcu.isClaimed u = false := isClaimed_none (seen.before.claim.trans free) u
  have record : x.wcu.entries.get u = w := congrArg (Four.get · u) seen.before.entries
  have state : x.wcu.comparisons.get u = c := seen.same.1
  have inside (h : inBand w sample = true) : compareUnit .dockV [.valid sample] u x =
      (setComparison u { raised := true, outside := 0 } (recordHit u x),
        [if c.raised then .stands u w.cap else .raised u w.cap]) := by
    rw [compareUnit_hit trapX freeX (by rw [sampleMatches_one, record]; exact h),
      trapHit_override (by rw [record]; exact action), state, record]
  have outside (h : inBand w sample = false) : compareUnit .dockV [.valid sample] u x = trapMiss u x :=
    compareUnit_miss trapX freeX (by rw [sampleMatches_one, record]; exact h)
  refine ⟨_, (exec_channelSample q (.dockV v)).trans (congrArg Host.Outcome.next ((channelSampled_dockV v s).trans done)),
    entries, fun h => ?hits, fun h raised few => ?counts, fun h raised many => ?clears, fun h clear => ?stays,
    fun h => ?unhit⟩
  case hits =>
    have own := inside h
    rw [own] at comparison hit ⊢
    refine ⟨comparison.trans (four_get_set _ u _), hit.trans (recordHit_hits u x), fun reports enabled => ?_,
      fun on alone absent room => ?_⟩
    · refine seen.named ?_
      rw [own]
      exact recordHit_named (s := x) (by rw [record]; exact reports) (by rw [seen.before.enables]; exact enabled)
    · obtain ⟨rfl, rfl⟩ := others_silent others alone
      have snc : z.snc = s.snc := through.snc
      have pushed := raiseSoft_pushes (src := .watch u) (cap := w.cap) (s := z) (by rw [snc]; exact on)
        (by rw [snc]; exact absent) (by rw [snc]; exact room) waitsZ
      rw [snc] at pushed
      cases c.raised <;> exact pushed
  case counts =>
    have own := (outside h).trans (trapMiss_counts (by rw [state]; exact raised) (by rw [state]; exact few))
    rw [own] at comparison ⊢
    rw [state] at comparison
    exact comparison.trans (four_get_set _ u _)
  case clears =>
    have own := (outside h).trans (trapMiss_clears (by rw [state]; exact raised) (by rw [state]; exact many))
    rw [own] at comparison ⊢
    refine ⟨comparison.trans (four_get_set _ u _), fun sound => (allTold_clears (by simp) (fun t m own => ?_) ⟨?_, waitsZ⟩).1⟩
    · simp only [List.mem_append, List.mem_singleton] at m
      rcases m with (m | m) | m
      · exact absurd own (others t (.inl m)).1
      · exact m
      · exact absurd own (others t (.inr m)).1
    · rw [show z.snc = s.snc from through.snc]
      exact sound.sources
  case stays =>
    have own := (outside h).trans (trapMiss_clear (by rw [state]; exact clear))
    rw [own] at comparison ⊢
    exact comparison.trans state
  case unhit =>
    refine hit.trans (Eq.trans ?_ seen.same.2)
    rw [outside h]
    unfold trapMiss
    dsimp only
    split
    · split <;> rfl
    · rfl

end Sys2Proof.Machine
end

section
/-! PROOF. The suction controller at rest under an unreleased DOCKED entry: what the pack manager announces and what the
charge entry makes of the watch unit leave it there (R80, R81, R91, R93, R113, R131, R158, R174, R185, R186). -/

namespace Sys2Proof.Machine

variable {I : State → Prop} {told : State → State}

/-! ### An evaluation under a cap of 0 -/

/-- OFF with nothing adopted, under an unreleased DOCKED entry whose cap is 0 as that of every hard entry (R123). -/
structure DockedRest (c : Snc) : Prop where
  off : c.suction = .moving .off
  adopted : c.adopted = 0
  docked : c.hasUnreleased .docked = true
  caps : HardCapsZero c

theorem effectiveCap_foldl_le (stack : List OverrideEntry) (n : Nat) :
    stack.foldl (fun c e => if e.released then c else min c e.cap) n ≤ n ∧
      ∀ e ∈ stack, e.released = false →
        stack.foldl (fun c e => if e.released then c else min c e.cap) n ≤ e.cap := by
  induction stack generalizing n with
  | nil => exact ⟨Nat.le_refl n, fun _ m => nomatch m⟩
  | cons a stack ih =>
    obtain ⟨start, entries⟩ := ih (if a.released then n else min n a.cap)
    rw [List.foldl_cons]
    refine ⟨start.trans (by split <;> omega), fun e m unreleased => ?_⟩
    rcases List.mem_cons.mp m with rfl | m
    · exact start.trans (by simp [unreleased])
    · exact entries e m unreleased

/-- An unreleased DOCKED entry caps at 0 (R123, R131). -/
theorem DockedRest.cap {c : Snc} (h : DockedRest c) : effectiveCap c.stack = 0 := by
  obtain ⟨e, mem, own⟩ := List.any_eq_true.mp h.docked
  simp only [Bool.and_eq_true, decide_eq_true_eq, Bool.not_eq_true'] at own
  have zero : e.cap = 0 := h.caps e mem (by rw [own.1]; rfl)
  have below := (effectiveCap_foldl_le c.stack 1250).2 e mem own.2
  unfold effectiveCap
  omega

theorem pipeline_capped {i : PipelineInputs} (cap : i.cap = 0) : (pipeline i).target = 0 := by
  have s5 : stage5 i = 0 := by simp [stage5, cap]
  simp [pipeline, s5]

theorem reportComputed_snc (c : Computed) (s : State) :
    { (reportComputed c s).snc with conditions := s.snc.conditions } = s.snc := by
  have one := reportIf_keeps (I := fun t => { t.snc with conditions := s.snc.conditions } = s.snc) fun flag src t h => by
    unfold reportCondition
    split
    · exact h
    · dsimp only
      split <;> exact h
  exact one _ _ _ _ (one _ _ _ _ (one _ _ _ _ (one _ _ _ s rfl)))

theorem DockedRest.of_conditions {c d : Snc} (h : DockedRest c) (same : { d with conditions := c.conditions } = c) :
    DockedRest d where
  off := (congrArg Snc.suction same :).trans h.off
  adopted := (congrArg Snc.adopted same :).trans h.adopted
  docked := (congrArg (Snc.hasUnreleased .docked) same :).trans h.docked
  caps e m := h.caps e (by rw [← same]; exact m)

/-- At rest under DOCKED an evaluation reports and no more: nothing is told, whoever would be. -/
theorem evaluate_docked {s : State} (h : DockedRest s.snc) :
    evaluate told s = setRunMark (reportComputed (pipeline (pipelineInputs s)) s) := by
  let t := reportComputed (pipeline (pipelineInputs s)) s
  have rest : DockedRest t.snc := h.of_conditions (reportComputed_snc _ s)
  have target : (pipeline (pipelineInputs s)).target = 0 := pipeline_capped h.cap
  have same : t.snc.adoptInto 0 t.chan.speed .off = t.snc := adoptInto_atRest rest.off rest.adopted _
  have unmoved : t.modSnc (Snc.adoptInto 0 t.chan.speed .off) = t := by rw [State.modSnc, same]
  have unhalted : ¬s.snc.suction.isHalt = true := by simp [h.off, Suction.isHalt]
  have taken : takeTarget told 0 t = commitSuction told (Snc.adoptInto 0 t.chan.speed .off) t := by
    unfold takeTarget
    simp only [rest.off, Nat.zero_le, if_true]
  have evaluated : evaluate told s = takeTarget told (pipeline (pipelineInputs s)).target t := if_neg unhalted
  rw [evaluated, target, taken, commitSuction_eq, if_pos (by rw [same]), carried, if_pos (by rw [same]), unmoved]

/-! ### What stays at rest -/

/-- The suction controller rests under DOCKED, and the blocks that the pack manager and the charge entry read are those
of `s`: the timers, the channels of the pack, the watch records with the claim, the dock line and the enables too. -/
structure Resting (s t : State) : Prop where
  rest : DockedRest t.snc
  ka : t.ka = s.ka
  pmg : t.pmg = s.pmg
  dlc : t.dlc = s.dlc
  tdu : { t.tdu with runMark := s.tdu.runMark } = s.tdu
  entries : t.wcu.entries = s.wcu.entries
  claim : t.wcu.claim = s.wcu.claim
  cell : t.chan.cell = s.chan.cell
  packT : t.chan.packT = s.chan.packT
  enables : t.link.enables = s.link.enables

theorem Resting.refl {s : State} (rest : DockedRest s.snc) : Resting s s :=
  ⟨rest, rfl, rfl, rfl, rfl, rfl, rfl, rfl, rfl, rfl⟩

theorem Resting.driven {s t u : State} (h : Resting s t) (driven : Driven t u) (rest : DockedRest u.snc)
    (enables : u.link.enables = t.link.enables) : Resting s u where
  rest := rest
  ka := driven.ka.trans h.ka
  pmg := driven.pmg.trans h.pmg
  dlc := driven.dlc.trans h.dlc
  tdu := (congrArg (fun x : Tdu => { x with runMark := s.tdu.runMark }) driven.tdu :).trans h.tdu
  entries := (congrArg Wcu.entries driven.wcu :).trans h.entries
  claim := (congrArg Wcu.claim driven.wcu :).trans h.claim
  cell := (congrArg Channels.cell driven.chan :).trans h.cell
  packT := (congrArg Channels.packT driven.chan :).trans h.packT
  enables := enables.trans h.enables

theorem Resting.noted {s t : State} (h : Resting s t) (k : NoticeKind) : Resting s (askNotice k t) :=
  h.driven (askNotice_driven k t) h.rest (LineKept.askNotice k t).enables

theorem Resting.reported {s t : State} (h : Resting s t) (flag : ConditionFlag) (src : ConditionSource) :
    Resting s (reportCondition flag src t) := by
  refine h.driven (reportCondition_driven flag src t) (h.rest.of_conditions ?_)
    (reportCondition_moves lineKept_closed.toEvalClosed flag src t).enables
  unfold reportCondition
  split
  · rfl
  · dsimp only
    split <;> rfl

theorem Resting.evaluated {s t : State} (h : Resting s t) : Resting s (evaluate told t) := by
  have one := reportIf_keeps (I := Resting s) fun flag src t h => h.reported flag src
  have reported : Resting s (reportComputed (pipeline (pipelineInputs t)) t) :=
    one _ _ _ _ (one _ _ _ _ (one _ _ _ _ (one _ _ _ t h)))
  rw [evaluate_docked h.rest]
  exact { reported with }

/-! ### The stack under an unreleased DOCKED entry -/

theorem raised?_caps {c d : Snc} {src : Source} {cap : Nat} (soft : src.isHard = false) (caps : HardCapsZero c)
    (raised : c.raised? src cap = some d) : HardCapsZero d := by
  unfold Snc.raised? at raised
  split at raised
  · split at raised
    · obtain rfl := Option.some.inj raised
      intro e mem hard
      obtain ⟨a, m, rfl⟩ := List.mem_map.mp mem
      dsimp only at hard ⊢
      split at hard
      · next own =>
        rw [show ({ a with cap := cap, released := false } : OverrideEntry).source = src from own, soft] at hard
        cases hard
      · next other =>
        rw [if_neg other]
        exact caps a m hard
    · cases raised
  · split at raised
    · obtain rfl := Option.some.inj raised
      intro e mem hard
      rcases List.mem_cons.mp mem with rfl | m
      · rw [show ({ source := src, cap := cap, saved := c.boostPermitted, released := false } :
          OverrideEntry).source = src from rfl, soft] at hard
        cases hard
      · exact caps e m hard
    · cases raised

theorem cleared?_caps {c d : Snc} {src : Source} (caps : HardCapsZero c) (cleared : c.cleared? src = some d) :
    HardCapsZero d := by
  unfold Snc.cleared? at cleared
  split at cleared
  · split at cleared
    · next top lower stack =>
      split at cleared
      · obtain rfl := Option.some.inj cleared
        unfold Snc.popChain
        rw [stack]
        exact fun e m => caps e (by rw [stack]; exact List.mem_cons_of_mem top (mem_dropReleased m))
      · obtain rfl := Option.some.inj cleared
        intro e mem hard
        obtain ⟨a, m, rfl⟩ := List.mem_map.mp mem
        dsimp only at hard ⊢
        split at hard
        · next own =>
          rw [if_pos own]
          exact caps a m hard
        · next other =>
          rw [if_neg other]
          exact caps a m hard
    · cases cleared
  · cases cleared

theorem DockedRest.cleared {c d : Snc} {src : Source} (h : DockedRest c) (other : src ≠ .docked)
    (cleared : c.cleared? src = some d) : DockedRest d :=
  have drive := cleared?_drive cleared
  ⟨drive.1.trans h.off, drive.2.trans h.adopted, (cleared?_other other cleared).2.trans h.docked, cleared?_caps h.caps cleared⟩

theorem DockedRest.raised {c d : Snc} {u : Idx4} {cap : Nat} (h : DockedRest c)
    (raised : c.raised? (.watch u) cap = some d) : DockedRest d :=
  have drive := raised?_drive raised
  ⟨drive.1.trans h.off, drive.2.trans h.adopted, (raised?_other (by simp) raised).2.trans h.docked,
    raised?_caps rfl h.caps raised⟩

theorem Resting.withSnc {s t : State} (h : Resting s t) {c : Snc} (rest : DockedRest c) :
    Resting s (t.modSnc fun _ => c) := { h with rest := rest }

/-! ### The budget's way, for an invariant of the units' tellings alone -/

/-- An invariant that the tellings of the watch unit and of a budget to the suction controller keep. Where
`BudgetWayKeeps` lets any source come and go, the sources here are the units, so that it may speak of DOCKED. -/
structure UnitWayKeeps (told : State → State) (I : State → Prop) : Prop where
  evaluate : Keeps I (evaluate told)
  noted : Keeps I (askNotice .override)
  stack : ∀ u s c, (∃ cap, s.snc.raised? (.watch u) cap = some c) ∨ s.snc.cleared? (.watch u) = some c → I s →
    I (s.modSnc fun _ => c)
  copy : ∀ w, Keeps I (State.modSnc fun c => { c with budget := w })
  hit : ∀ u, Keeps I (recordHit u)
  comparison : ∀ u c, Keeps I (setComparison u c)
  draws : ∀ n, Keeps I (State.setDraws n)

namespace UnitWayKeeps

variable (h : UnitWayKeeps told I)
include h

theorem delivered (t : Telling) : Keeps I (deliverOverride told t) :=
  deliverOverride_keeps_of h.evaluate h.noted (fun u cap _ s c raised => h.stack u s c (.inl ⟨cap, raised⟩))
    (fun u _ s c cleared => h.stack u s c (.inr cleared))

theorem compared (channel : ChannelId) : CompareKept I channel := by
  intro sample u s hs
  have hit := h.hit u s hs
  dsimp only
  by_cases trap : s.wcu.trapsAt channel u
  · cases claimed : s.wcu.isClaimed u with
    | true =>
      rw [compareUnit_claimed trap claimed]
      exact hs
    | false =>
      cases inside : sampleMatches (s.wcu.entries.get u) sample with
      | true =>
        rw [compareUnit_hit trap claimed inside]
        unfold trapHit
        dsimp only
        split
        · exact h.comparison _ _ _ hit
        · exact hit
      | false =>
        rw [compareUnit_miss trap claimed inside]
        unfold trapMiss
        dsimp only
        split
        · split <;> exact h.comparison _ _ s hs
        · exact hs
  · rw [compareUnit_idle trap]
    exact hs

theorem watched (channel : ChannelId) (sample : List Reading) :
    Keeps I fun s => (watchEvent (deliverOverride told) channel sample s).1 := fun s hs =>
  inAnyOrder_keeps h.draws _ (tellings_keep h.delivered _) _
    (compareUnits_keeps (h.compared channel) sample allUnits s hs)

/-- The announcement of a pack state, from the storing of its budget on. -/
theorem announced {s : State} (stored : I (storeBudget (askNotice .pack s))) : I (announcePack told s) := by
  have tellings := tellings_keep h.delivered
  have others : ∀ e ∈ (if false || decide (budgetOf (askNotice .pack s) ≠ (askNotice .pack s).pmg.budget) then
      [tellBudget told (budgetOf (askNotice .pack s))] else []), Keeps I e := by
    intro e m
    split at m
    · rw [List.mem_singleton.mp m]
      exact fun t ht => h.evaluate _ (h.copy _ t ht)
    · cases m
  unfold announcePack computeBudget
  dsimp only
  generalize storeBudget (askNotice .pack s) = t at stored ⊢
  have drawn := h.draws (t.draws + 1) t stored
  unfold compareAmong
  dsimp only
  split
  · split
    · refine inAnyOrder_keeps h.draws _ (fun e m => ?_) _ (h.watched _ _ _ drawn)
      exact (List.mem_append.mp m).elim (others e) (tellings _ e)
    · exact inAnyOrder_keeps h.draws _ (tellings _) _ (h.watched _ _ _ (inAnyOrder_keeps h.draws _ others _ drawn))
  · exact inAnyOrder_keeps h.draws _ others _ stored

end UnitWayKeeps

/-! ### What the pack manager makes at rest -/

theorem resting_unitWay (s : State) : UnitWayKeeps told (Resting s) where
  evaluate _ h := h.evaluated
  noted _ h := h.noted .override
  stack u t c change h := h.withSnc (by
    rcases change with ⟨cap, raised⟩ | cleared
    · exact h.rest.raised raised
    · exact h.rest.cleared (by simp) cleared)
  copy _ _ h := { h with rest := ⟨h.rest.off, h.rest.adopted, h.rest.docked, h.rest.caps⟩ }
  hit u t h := h.driven (recordHit_driven u t) (by rw [recordHit_snc]; exact h.rest) (recordHit_comparing u t).1.enables
  comparison _ _ _ h := { h with }
  draws _ _ h := { h with }

/-- An announcement at rest, of a state with no budget, writes the budget alone of what is spoken of here. -/
theorem Resting.announced {s t : State} (h : Resting s t) (idle : s.pmg.state ≠ .discharge) :
    Resting (s.modPmg fun p => { p with budget := 0 }) (announcePack told t) := by
  refine (resting_unitWay _).announced ?_
  have noted := h.noted .pack
  have reported : Resting s (reportIf (decide ((askNotice .pack t).pmg.state = .discharge) &&
      packBlind (askNotice .pack t).chan) .inv .budget (askNotice .pack t)) :=
    reportIf_keeps (I := Resting s) (fun flag src t h => h.reported flag src) _ _ _ _ noted
  have pmg := storeBudget_pmg (askNotice .pack t)
  rw [budgetOf_idle (by rw [noted.pmg]; exact idle), noted.pmg] at pmg
  exact { reported with pmg := pmg }

/-- The timers after a start (R52). -/
def Tdu.started (k : Idx4) (t : Tdu) : Tdu :=
  { t with timers := t.timers.set k (Timer.reloadedFrom (t.entries.get k) true) }

namespace Resting

variable {s t : State} (h : Resting s t)
include h

theorem pack (f : Pmg → Pmg) : Resting (s.modPmg f) (t.modPmg f) := { h with pmg := congrArg f h.pmg }

theorem taken {new : PackState} (dark : new.bleeds = false) : Resting (s.modPmg (Pmg.took new)) (takePackState new t) := by
  rw [takePackState_frame dark]
  exact { h with pmg := congrArg (Pmg.took new) h.pmg }

theorem started : Resting (startTimer .i1 s) (startTimer .i1 t) :=
  { h with tdu := congrArg (Tdu.started .i1) h.tdu }

theorem ordered : Resting (leaveOrder s) (leaveOrder t) :=
  { h with dlc := by unfold leaveOrder serveLine; simp only [State.modDlc, h.dlc] }

theorem learned : Resting (learningTest s) (learningTest t) := by
  unfold learningTest
  rw [h.ka]
  exact h.pack _

theorem asked : Resting (askAnew s) (askAnew t) := by
  have current : currentFor t = currentFor s := by unfold currentFor; rw [h.ka, h.packT, h.dlc, h.pmg]
  have pair := h.pack fun p => { p with askedCurrent := currentFor s }
  unfold askAnew
  rw [current]
  unfold handOver serveLine
  exact { pair with dlc := by simp only [State.modDlc, pair.dlc, pair.pmg] }

theorem fullAsked : Resting (s.modPmg fun p => { p with precharge := 0, askedVoltage := fullVoltage s.ka.charge })
    (t.modPmg fun p => { p with precharge := 0, askedVoltage := fullVoltage t.ka.charge }) := by
  rw [h.ka]
  exact h.pack _

theorem changed {c : Option Snc} (rest : ∀ d, c = some d → DockedRest d) : Resting s (changeStack told c t) :=
  changeStack_keeps (I := Resting s) (fun _ h => h.evaluated) (fun _ h => h.noted .override)
    (fun d some => h.withSnc (rest d some)) h

theorem hardCleared {src : Source} (other : src ≠ .docked) : Resting s (clearHard told src t) := by
  have unmarked : Resting s (setMark src false t) :=
    { h with rest := ⟨h.rest.off, h.rest.adopted, h.rest.docked, h.rest.caps⟩ }
  unfold clearHard
  split
  · exact unmarked.changed fun d cleared => unmarked.rest.cleared other cleared
  · exact h

theorem markCleared : Resting (s.modPmg fun p => { p with lowMark := false }) (clearLowMark told t) := by
  unfold clearLowMark
  split
  · exact (h.pack _).hardCleared (by simp)
  · next clear =>
    refine { h with pmg := h.pmg.trans ?_ }
    have low : s.pmg.lowMark = false := by rw [← h.pmg]; exact Bool.eq_false_iff.mpr clear
    rw [State.modPmg, ← low]

end Resting

/-! ### Charge entry (R80, R81, R185, R186) -/

/-- The records loaded and the shadows kept, at a claim (R80, R81). -/
def claimed (s : State) : State :=
  s.modWcu fun w =>
    { w with
      entries := { w.entries with i2 := loadedW2 s.ka.charge, i3 := loadedW3 s.ka.charge }
      claim := some { w2 := w.entries.i2, w3 := w.entries.i3 } }

theorem Resting.claims {s t : State} (h : Resting s t) : Resting (claimed s) (claimWatches told t) := by
  have cleared : Resting s (tellCleared told [.i2, .i3] t.wcu.comparisons (clearComparisons [.i2, .i3] t)) := by
    refine inAnyOrder_keeps (fun n u h => { h with }) _ (fun e m => ?_) _ { h with }
    obtain ⟨u, -, rfl⟩ := List.mem_map.mp m
    exact fun t h => h.changed fun d cleared => h.rest.cleared (by simp) cleared
  unfold claimWatches
  dsimp only
  rw [h.ka, h.entries]
  generalize tellCleared told [.i2, .i3] t.wcu.comparisons (clearComparisons [.i2, .i3] t) = u at cleared
  exact { cleared with
    entries := congrArg (fun e : Four WatchRecord =>
      { e with i2 := loadedW2 s.ka.charge, i3 := loadedW3 s.ka.charge }) cleared.entries
    claim := rfl }

/-- The blocks after charge entry at rest, before the announcement, but for the watch unit's comparisons and the suction
controller. -/
def chargeAsked (s : State) : State :=
  let t := startTimer .i1 (claimed ((learningTest s).modPmg fun p => { p with lowMark := false }))
  askAnew (t.modPmg fun p =>
    { p.took (.charging (firstPhase s.chan.cell)) with precharge := 0, askedVoltage := fullVoltage s.ka.charge })

/-- The blocks after charge entry at rest. -/
def chargeEntered (s : State) : State := (chargeAsked s).modPmg fun p => { p with budget := 0 }

theorem firstPhase_dark (cell : Six Reading) : (PackState.charging (firstPhase cell)).bleeds = false := by
  unfold firstPhase
  split <;> rfl

theorem Resting.entry {s t : State} (h : Resting s t) :
    ∃ u, Resting (chargeAsked s) u ∧ chargeEntry told t = announcePack told u := by
  have claim := (h.learned.markCleared (told := dirtTold)).claims (told := dirtTold) |>.started
  have cell : firstPhase (startTimer .i1 (claimWatches dirtTold (clearLowMark dirtTold (learningTest t)))).chan.cell =
      firstPhase s.chan.cell := congrArg firstPhase claim.cell
  unfold chargeEntry
  dsimp only
  rw [cell]
  exact ⟨_, (claim.taken (firstPhase_dark s.chan.cell)).fullAsked.asked, rfl⟩

theorem Resting.entered {s t : State} (h : Resting s t) : Resting (chargeEntered s) (chargeEntry told t) := by
  obtain ⟨u, rests, announced⟩ := h.entry (told := told)
  rw [announced]
  exact rests.announced (by simp [chargeAsked, askAnew, handOver, serveLine, Pmg.took])

theorem Resting.entry_notice {s t : State} (h : Resting s t) (enabled : s.link.enables.pack = true) :
    (chargeEntry tellSuction t).link.notices.pack = true := by
  obtain ⟨u, rests, announced⟩ := h.entry (told := tellSuction)
  rw [announced]
  exact announcePack_notice (by rw [rests.enables]; exact enabled)

/-- The blocks after a fault found at the test of charge entry at rest. -/
def faultFound (kind : ChargeFault) (s : State) : State :=
  (leaveOrder (s.modPmg (Pmg.took (.fault kind)))).modPmg fun p => { p with budget := 0 }

theorem Resting.found {s t : State} (h : Resting s t) (kind : ChargeFault) :
    Resting (faultFound kind s) (entryFault told kind t) :=
  (h.taken (new := .fault kind) rfl).ordered.announced (by simp [leaveOrder, serveLine, Pmg.took])

theorem inWindow_valid {e : ChargeEntry} {r : Reading} {v : Int} (valid : r = .valid v) (low : e.windowLow ≤ v)
    (high : v ≤ e.windowHigh) : inWindow e r = true := by
  simp [valid, inWindow, low, high]

/-- What the test of charge entry reads, where only the offer and the cells are left to judge (R185). -/
structure Offered (o : Offer) (s : State) : Prop where
  waits : s.pmg.state = .dockedWait
  session : s.dlc.session = .offered
  offer : s.dlc.offer = some o
  warm : inWindow s.ka.charge s.chan.packT = true

/-- The test of charge entry at rest under DOCKED: a low offer, a cell without a reading, or the charge (R185). -/
theorem Resting.tested {s t : State} {o : Offer} (h : Resting s t) (offered : Offered o s) :
    (o.maxVoltage < fullVoltage s.ka.charge → Resting (faultFound .unsuited s) (chargeEntryTest told t)) ∧
      (fullVoltage s.ka.charge ≤ o.maxVoltage → allCellsValid s.chan.cell = false →
        Resting (faultFound .sense s) (chargeEntryTest told t)) ∧
      (fullVoltage s.ka.charge ≤ o.maxVoltage → allCellsValid s.chan.cell = true →
        chargeEntryTest told t = chargeEntry told t) := by
  have may : mayCharge t = true := by
    simp [mayCharge, h.pmg, offered.waits, h.dlc, offered.session, h.rest.off, Suction.reported, h.rest.docked, h.ka,
      h.packT, offered.warm]
  have test : chargeEntryTest told t =
      if o.maxVoltage < fullVoltage s.ka.charge then entryFault told .unsuited t
      else if allCellsValid s.chan.cell then chargeEntry told t else entryFault told .sense t := by
    unfold chargeEntryTest
    rw [if_pos may, h.dlc, offered.offer, h.ka, h.cell]
  rw [test]
  refine ⟨fun low => ?_, fun enough blind => ?_, fun enough sound => ?_⟩
  · rw [if_pos low]
    exact h.found .unsuited
  · rw [if_neg (Nat.not_lt.mpr enough), blind]
    exact h.found .sense
  · rw [if_neg (Nat.not_lt.mpr enough), sound, if_pos rfl]

/-! ### What the charge entry asks (R169, R185 to R187) -/

theorem firstPhase_eq (cell : Six Reading) :
    firstPhase cell = if ∃ v ∈ validCells cell, v < 3000 then .precharge else .cc := by
  simp [firstPhase]

theorem askedCurrentOf_charging (e : ChargeEntry) (r : Int) (o : Offer) (phase : Phase) :
    askedCurrentOf e (.valid r) (some o) (.charging phase) =
      min (if r < e.cool then planCurrent e phase / 2 else planCurrent e phase) o.maxCurrent := by
  simp [askedCurrentOf, isCool]

theorem planCurrent_first (e : ChargeEntry) (cell : Six Reading) :
    planCurrent e (firstPhase cell) = if firstPhase cell = .precharge then e.iPre else e.iCc := by
  unfold firstPhase
  split <;> rfl

/-- The asked current of the first phase (R186, R187). -/
theorem askedCurrentOf_first {e : ChargeEntry} {v : Int} {o : Offer} (cell : Six Reading) :
    askedCurrentOf e (.valid v) (some o) (.charging (firstPhase cell)) =
      min (if v < e.cool then (if firstPhase cell = .precharge then e.iPre else e.iCc) / 2
        else if firstPhase cell = .precharge then e.iPre else e.iCc) o.maxCurrent := by
  rw [askedCurrentOf_charging, planCurrent_first]

theorem stateOfCharge_low {k : KeepAlive} (full : k.gauge.qFull ≠ 0) :
    stateOfCharge k ≤ 10 ↔ k.qRem * 100 / k.gauge.qFull ≤ 10 := by
  unfold stateOfCharge
  rw [if_neg full]
  omega

theorem learningTest_learning {s : State} (full : s.ka.gauge.qFull ≠ 0) :
    (learningTest s).pmg.learning = if s.ka.trust = .calibrated ∧ s.ka.qRem * 100 / s.ka.gauge.qFull ≤ 10 then
      some { qStart := s.ka.qRem, added := 0 } else none := by
  simp only [learningTest, State.modPmg, stateOfCharge_low full]

/-- The dock line that a pair was handed over to, before it sends (R181). -/
def Dlc.handed (voltage current : Nat) (d : Dlc) : Dlc :=
  { d with
    askVoltage := voltage
    askCurrent := current
    askDue := true
    exchange := d.exchange.map fun x => { x with newer := true } }

/-- On a free line the pair handed over is asked at once (R178, R181). -/
theorem serve_handed {d : Dlc} (free : d.exchange = none) (unquit : d.quitDue = false) (asks : d.session.asks = true)
    (retry : d.retry = none) (voltage current : Nat) :
    (d.handed voltage current).serve = { (d.handed voltage current).send (.ask voltage current) with keepDue := false } := by
  simp [Dlc.serve, Dlc.handed, free, unquit, asks, retry]

/-- What a charge entry leaves to be seen of the pack manager, the claim and T1 (R80, R81, R161, R169, R185 to R187). -/
theorem chargeEntered_facts {s : State} {o : Offer} {v : Int} (offer : s.dlc.offer = some o)
    (valid : s.chan.packT = .valid v) :
    let t := chargeEntered s
    let phase := if ∃ v ∈ validCells s.chan.cell, v < 3000 then Phase.precharge else .cc
    let plan := if phase = .precharge then s.ka.charge.iPre else s.ka.charge.iCc
    let asked := min (if v < s.ka.charge.cool then plan / 2 else plan) o.maxCurrent
    t.pmg.state = .charging phase ∧ t.pmg.askedVoltage = fullVoltage s.ka.charge ∧ t.pmg.askedCurrent = asked ∧
      t.dlc = (s.dlc.handed (fullVoltage s.ka.charge) asked).serve := by
  intro t phase plan asked
  have first := firstPhase_eq s.chan.cell
  have current : askedCurrentOf s.ka.charge s.chan.packT s.dlc.offer (.charging (firstPhase s.chan.cell)) = asked := by
    rw [offer, valid, askedCurrentOf_first, first]
  refine ⟨congrArg _ first, rfl, current, ?_⟩
  rw [← current]
  rfl

end Sys2Proof.Machine
end

section
/-! PROOF. The charge is entered (R80, R81, R169, R180, R181, R185 to R187). -/

namespace Sys2Proof.Machine

/-- The state at which an OFFER in PROBING is judged (R177, R180). -/
def offerTaken (offer : Offer) (s : State) : State :=
  askNotice .dock (((endExchange s).modDlc fun d => { d with offer := some offer }).modDlc (Dlc.enter .offered))

theorem takeOffer_probing {told : State → State} {s : State} (offer : Offer) (probing : s.dlc.session = .probing) :
    takeOffer told offer s = serveLine (chargeEntryTest told (offerTaken offer s)) := by
  unfold takeOffer enterOffered
  rw [setSession_changes (by simp [endExchange, probing])]
  rfl

theorem offerTaken_rests {s : State} (offer : Offer) (rest : DockedRest s.snc) :
    Resting (offerTaken offer s) (offerTaken offer s) := .refl rest

theorem serve_busy {d : Dlc} (busy : d.exchange.isSome = true) : d.serve = d := if_pos busy

/-- Settles O54: the OFFER is stored, the test of charge entry finds the suction controller at rest under DOCKED, and
what it makes of the blocks is then said by the fault found or by the charge entered. -/
theorem chargeIsEntered : Obligations.ChargeIsEntered := by
  intro s dockKind voltage current x temperature quiet busy waits probe probing retry currentLow currentHigh voltageLow
    voltageHigh state off adopted docked caps valid low high sound full phase plan asked
  let o : Offer := ⟨dockKind.toNat, voltage.toNat, current.toNat⟩
  have range : offerInRange voltage.toNat current.toNat = true := by
    simp [offerInRange, currentLow, currentHigh, voltageLow, voltageHigh]
  have stepped : exec (.offerReceived dockKind voltage current) s = .next (takeOffer tellSuction o s) := by
    refine (answerStep_awaited quiet busy waits _).trans ?_
    simp only [takeAnswer, probe, range, if_true]
    rfl
  obtain ⟨held, -⟩ := takeOffer_facts (offer := o) (.inl probing)
  have rests := offerTaken_rests o ⟨off, adopted, docked, caps⟩
  have offered : Offered o (offerTaken o s) := ⟨state, rfl, rfl, inWindow_valid valid low high⟩
  obtain ⟨unsuited, -, entered⟩ := rests.tested (told := tellSuction) offered
  rw [takeOffer_probing o probing] at stepped held
  refine ⟨_, stepped, held.session, held.offer, fun enough => ?_, fun less => ?_⟩
  · have notice := rests.entry_notice
    have rests := rests.entered (told := tellSuction)
    obtain ⟨phased, voltage, asks, line⟩ := chargeEntered_facts (s := offerTaken o s) (o := o) rfl valid
    rw [serve_handed (by rfl) (by rfl) rfl (by exact retry)] at line
    have sent : (serveLine (chargeEntry tellSuction (offerTaken o s))).dlc = (chargeEntered (offerTaken o s)).dlc := by
      show Dlc.serve _ = _
      rw [rests.dlc, line]
      exact serve_busy rfl
    rw [entered enough sound]
    have timers := congrArg (fun d : Tdu => (d.timers.get .i1).running) rests.tdu
    exact ⟨(congrArg Pmg.state rests.pmg).trans phased, (congrArg Pmg.askedVoltage rests.pmg).trans voltage,
      (congrArg Pmg.askedCurrent rests.pmg).trans asks, (congrArg Dlc.askDue (sent.trans line) :),
      (congrArg Dlc.exchange (sent.trans line) :), rests.claim, (congrArg Four.i2 rests.entries :),
      (congrArg Four.i3 rests.entries :), timers, rests.rest.adopted, (congrArg Pmg.lowMark rests.pmg :),
      fun capacity => (congrArg Pmg.learning rests.pmg).trans (learningTest_learning (s := offerTaken o s) capacity),
      fun enabled => notice ((congrArg NoticeMarks.pack (LineKept.askNotice .dock _).enables).trans enabled)⟩
  · have rests := unsuited less
    obtain ⟨-, -, -, -, due⟩ := leaveOrder_dlc ((offerTaken o s).modPmg (Pmg.took (.fault .unsuited)))
    obtain ⟨-, -, -, -, served, -⟩ := serve_kept (chargeEntryTest tellSuction (offerTaken o s)).dlc
    exact ⟨(congrArg Pmg.state rests.pmg :), served.trans ((congrArg Dlc.askDue rests.dlc).trans due), rests.claim,
      (congrArg Pmg.learning rests.pmg :), (congrArg Pmg.lowMark rests.pmg :)⟩

end Sys2Proof.Machine
end

section
/-! PROOF. The test of charge entry after a charge fault (R80, R81, R169, R185 to R187, R194). -/

namespace Sys2Proof.Machine

variable {I : State → Prop} {told : State → State}

/-! ### What the test may find -/

/-- DOCKED_WAIT, a charging phase, or a fault of the test of charge entry (R185, R186). -/
def PackState.judged (p : PackState) : Prop :=
  p = .dockedWait ∨ (∃ phase, p = .charging phase) ∨ p = .fault .unsuited ∨ p = .fault .sense

/-- A judged pack state with its budget, which is 0 (R174, R185). -/
def Judged (t : State) : Prop := t.pmg.state.judged ∧ t.pmg.budget = 0

theorem PackState.judged.idle {p : PackState} (h : p.judged) : p ≠ .discharge := by
  rintro rfl
  rcases h with h | ⟨_, h⟩ | h | h <;> cases h

theorem judged_budgetWay : BudgetWayKeeps Judged where
  drive _ _ driven h := by unfold Judged; rw [driven.pmg]; exact h
  stack _ _ _ _ h := h
  copy _ _ h := h
  comparison _ _ _ h := h
  draws _ _ h := h

theorem announcePack_judged (ht : Keeps Judged told) {s : State} (judged : s.pmg.state.judged) :
    Judged (announcePack told s) := by
  refine judged_budgetWay.announcePack ht ?_
  have pmg := storeBudget_pmg (askNotice .pack s)
  rw [budgetOf_idle (by exact judged.idle)] at pmg
  exact ⟨by rw [pmg]; exact judged, by rw [pmg]⟩

theorem chargeEntryTest_judged (ht : Keeps Judged told) : Keeps Judged (chargeEntryTest told) := by
  have found (kind : ChargeFault) (test : (PackState.fault kind).judged) (s : State) : Judged (entryFault told kind s) :=
    announcePack_judged ht (by rw [takePackState_frame rfl]; exact test)
  intro s h
  unfold chargeEntryTest
  split
  · split
    · exact h
    · split
      · exact found _ (.inr (.inr (.inl rfl))) s
      · split
        · refine announcePack_judged ht ?_
          rw [takePackState_frame (firstPhase_dark _)]
          exact .inr (.inl ⟨_, rfl⟩)
        · exact found _ (.inr (.inr (.inr rfl))) s
  · exact h

theorem tellSuction_judged : Keeps Judged tellSuction := by
  intro s h
  have stopped : Judged (dirtStop id s) := dirtStop_drive judged_budgetWay.drive (fun _ _ h => h) (fun _ h => h) s h
  unfold tellSuction suctionTold
  split
  · exact chargeEntryTest_judged id_keeps _ stopped
  · exact stopped
  all_goals exact h

theorem waitInDock_judged (s : State) : Judged (waitInDock tellSuction s) :=
  chargeEntryTest_judged tellSuction_judged _
    (announcePack_judged tellSuction_judged (by rw [takePackState_frame rfl]; exact .inl rfl))

theorem waitInDock_notice {s : State} (enabled : s.link.enables.pack = true) :
    (waitInDock tellSuction s).link.notices.pack = true :=
  chargeEntryTest_moves (noticeStays_closed .pack) (tellSuction_moves (noticeStays_closed .pack)) _
    (changePack_notice rfl enabled)

/-! ### The test that a condition bars -/

/-- For an invariant that an evaluation keeps and a source that is no unit does not meet. -/
theorem unitWay_of_drive (drive : DriveKeeps I) (ht : Keeps I told)
    (stack : ∀ u s c, (∃ cap, s.snc.raised? (.watch u) cap = some c) ∨ s.snc.cleared? (.watch u) = some c → I s →
      I (s.modSnc fun _ => c))
    (copy : ∀ w, Keeps I (State.modSnc fun c => { c with budget := w }))
    (comparison : ∀ u c, Keeps I (setComparison u c)) (draws : ∀ n, Keeps I (State.setDraws n)) :
    UnitWayKeeps told I where
  evaluate := evaluate_drive drive ht
  noted s := drive s _ (askNotice_driven .override s)
  stack := stack
  copy := copy
  hit u s := drive s _ (recordHit_driven u s)
  comparison := comparison
  draws := draws

theorem packT_of_driven {s t : State} (driven : Driven s t) : t.chan.packT = s.chan.packT :=
  (congrArg Channels.packT driven.chan :)

/-- DOCKED_WAIT with no unreleased DOCKED entry, or with PACK_T without a reading or outside the charge window. -/
structure WaitsBarred (t : State) : Prop where
  waits : t.pmg.state = .dockedWait
  barred : t.snc.hasUnreleased .docked = false ∨ inWindow t.ka.charge t.chan.packT = false

theorem WaitsBarred.test {t : State} (h : WaitsBarred t) : mayCharge t = false := by
  rcases h.barred with undocked | cold
  · exact mayCharge_undocked undocked
  · simp [mayCharge, cold]

theorem waitsBarred_drive : DriveKeeps WaitsBarred := fun s t driven h =>
  ⟨by rw [driven.pmg]; exact h.waits, by
    rw [driven.ka, Snc.hasUnreleased, driven.snc.stack, packT_of_driven driven]
    exact h.barred⟩

theorem waitsBarred_unitWay : UnitWayKeeps tellSuction WaitsBarred :=
  unitWay_of_drive waitsBarred_drive
    (tellSuction_drive waitsBarred_drive (fun _ _ h => ⟨h.waits, h.barred⟩) (fun _ h => ⟨h.waits, h.barred⟩) fun _ h => h.test)
    (fun u s c change h => ⟨h.waits, by
      have kept : c.hasUnreleased .docked = s.snc.hasUnreleased .docked := by
        rcases change with ⟨cap, raised⟩ | cleared
        · exact (raised?_other (by simp) raised).2
        · exact (cleared?_other (by simp) cleared).2
      exact h.barred.imp_left kept.trans⟩)
    (fun _ _ h => ⟨h.waits, h.barred⟩) (fun _ _ _ h => ⟨h.waits, h.barred⟩) (fun _ _ h => ⟨h.waits, h.barred⟩)

theorem waitInDock_barred {s : State}
    (barred : s.snc.hasUnreleased .docked = false ∨ inWindow s.ka.charge s.chan.packT = false) :
    (waitInDock tellSuction s).pmg.state = .dockedWait := by
  have taken : WaitsBarred (takePackState .dockedWait s) := by
    rw [takePackState_frame rfl]
    exact ⟨rfl, barred⟩
  have stored := storeBudget_keeps_of waitsBarred_drive (fun _ _ h => ⟨h.waits, h.barred⟩)
    (fun _ _ h => ⟨h.waits, h.barred⟩) _ (waitsBarred_drive _ _ (askNotice_driven .pack _) taken)
  have waits : WaitsBarred (changePack tellSuction .dockedWait s) := waitsBarred_unitWay.announced stored
  rw [waitInDock, chargeEntryTest_barred waits.test]
  exact waits.waits

/-- A budget that stays and that no trap watches is told to nobody (R174). -/
theorem announcePack_silent {s : State} (untrapped : s.wcu.traps .budget = false) (stays : budgetOf s = s.pmg.budget) :
    announcePack told s = storeBudget (askNotice .pack s) := by
  have entries : (storeBudget (askNotice .pack s)).wcu.entries = s.wcu.entries :=
    storeBudget_keeps_of (I := fun t => t.wcu.entries = s.wcu.entries)
      (fun _ _ driven h => (congrArg Wcu.entries driven.wcu :).trans h) (fun _ _ h => h) (fun _ _ h => h) _ rfl
  have traps : (storeBudget (askNotice .pack s)).wcu.traps .budget = false := by
    unfold Wcu.traps at untrapped ⊢
    rw [entries]
    exact untrapped
  have same : budgetOf (askNotice .pack s) = (askNotice .pack s).pmg.budget := stays
  unfold announcePack computeBudget
  dsimp only
  rw [compareAmong_untrapped traps, same]
  simp only [Bool.false_or, ne_eq, not_true_eq_false, decide_false, Bool.false_eq_true, if_false]
  exact inAnyOrder_nil _

theorem waitInDock_moving {s : State} (moving : s.snc.suction.reported ≠ .off) (spent : s.pmg.budget = 0)
    (untrapped : s.wcu.traps .budget = false) : (waitInDock tellSuction s).pmg.state = .dockedWait := by
  have silent : changePack tellSuction .dockedWait s = storeBudget (askNotice .pack (takePackState .dockedWait s)) := by
    refine announcePack_silent (by rw [takePackState_frame rfl]; exact untrapped) ?_
    rw [takePackState_frame rfl]
    exact (budgetOf_idle (by simp [Pmg.took])).trans spent.symm
  have suction : (changePack tellSuction .dockedWait s).snc.suction = s.snc.suction := by
    rw [silent, storeBudget_suction, takePackState_frame rfl]
    rfl
  have barred : mayCharge (changePack tellSuction .dockedWait s) = false := by simp [mayCharge, suction, moving]
  rw [waitInDock, chargeEntryTest_barred barred, silent, storeBudget_pmg, takePackState_frame rfl]
  rfl

/-! ### The test at rest under DOCKED -/

/-- The blocks at a wait in the dock, at rest. -/
def waiting (s : State) : State := (s.modPmg (Pmg.took .dockedWait)).modPmg fun p => { p with budget := 0 }

theorem changePack_waiting {s : State} (rest : DockedRest s.snc) : Resting (waiting s) (changePack told .dockedWait s) :=
  ((Resting.refl rest).taken (new := .dockedWait) rfl).announced (by simp [Pmg.took])

theorem leaveOrder_unquit {s : State} (offered : s.dlc.session = .offered) (unquit : s.dlc.quitDue = false) :
    (leaveOrder s).dlc.quitDue = false := by
  have kept (d : Dlc) (unquit : d.quitDue = false) : d.serve.quitDue = false := by
    unfold Dlc.serve Dlc.send
    repeat' split
    all_goals simp_all
  exact kept _ (by simp [unquit, offered])

/-- Settles O56: outside CHARGE_FAULT the request is refused; in it the pack waits in the dock, and what the test of
charge entry finds there is said by the condition that bars it, or else by the fault found or by the charge entered. -/
theorem chargeFaultIsCleared : Obligations.ChargeFaultIsCleared := by
  intro s ready
  have stepped : exec .clearChargeFault s = .next ((clearChargeFault s).state.withReply
      (replyFrame 0x16 (clearChargeFault s).status (clearChargeFault s).body)) :=
    requestStep_of_ready ready 0x16 [] rfl rfl
  refine ⟨fun unfaulted => ?_, fun kind fault => ?_⟩
  · have refused : clearChargeFault s = refuse .state s := by
      unfold clearChargeFault
      split
      · next kind fault => exact absurd fault (unfaulted kind)
      all_goals rfl
    rw [stepped, refused]
    rfl
  have judged := waitInDock_judged s
  refine ⟨waitInDock tellSuction s, ?_, waitInDock_notice, judged.2, fun unoffered => ?_, judged.1, ?_⟩
  · rw [stepped, clearChargeFault, fault]
    rfl
  · rw [waitInDock_unoffered unoffered, changePack_pmg rfl (.inl unoffered)]
    rfl
  intro e warm full
  refine ⟨fun barred => waitInDock_barred (barred.imp_right fun cold => ?_), waitInDock_moving, ?_⟩
  · cases temperature : s.chan.packT with
    | noReading => rfl
    | valid v =>
      have outside : ¬(s.ka.charge.windowLow ≤ v ∧ v ≤ s.ka.charge.windowHigh) := fun inside => cold ⟨v, temperature, inside⟩
      simpa [inWindow] using outside
  intro offered off adopted docked caps o v offer valid low high phase plan asked found
  have test : Offered o (waiting s) := ⟨rfl, offered, offer, inWindow_valid valid low high⟩
  have waits := changePack_waiting (told := tellSuction) ⟨off, adopted, docked, caps⟩
  obtain ⟨unsuited, sense, entered⟩ := waits.tested (told := tellSuction) test
  have fault_found (k : ChargeFault) (rests : Resting (faultFound k (waiting s)) (waitInDock tellSuction s)) : found k := by
    obtain ⟨-, -, -, -, due⟩ := leaveOrder_dlc ((waiting s).modPmg (Pmg.took (.fault k)))
    exact ⟨(congrArg Pmg.state rests.pmg :), rests.claim, (congrArg (fun d : Tdu => d.timers.i1) rests.tdu :),
      (congrArg Pmg.lowMark rests.pmg :), (congrArg Pmg.learning rests.pmg :), (congrArg Dlc.askDue rests.dlc).trans due,
      fun unquit => (congrArg Dlc.quitDue rests.dlc).trans
        (leaveOrder_unquit (s := (waiting s).modPmg (Pmg.took (.fault k))) offered unquit)⟩
  refine ⟨fun less => fault_found _ (unsuited less), fun enough blind => fault_found _ (sense enough blind),
    fun enough sound => ?_⟩
  have rests := waits.entered (told := tellSuction)
  rw [← entered enough sound] at rests
  obtain ⟨phased, voltage, asks, line⟩ := chargeEntered_facts (s := waiting s) offer valid
  obtain ⟨-, -, -, -, due, askVoltage, askCurrent, -⟩ := serve_kept ((waiting s).dlc.handed full asked)
  have line := rests.dlc.trans line
  exact ⟨(congrArg Pmg.state rests.pmg).trans phased, (congrArg Pmg.askedVoltage rests.pmg).trans voltage,
    (congrArg Pmg.askedCurrent rests.pmg).trans asks, (congrArg Dlc.askDue line).trans due,
    (congrArg Dlc.askVoltage line).trans askVoltage, (congrArg Dlc.askCurrent line).trans askCurrent, rests.claim,
    (congrArg Four.i2 rests.entries :), (congrArg Four.i3 rests.entries :),
    (congrArg (fun d : Tdu => (d.timers.get .i1).running) rests.tdu :), rests.rest.adopted,
    (congrArg Pmg.lowMark rests.pmg :), (congrArg Pmg.precharge rests.pmg :),
    fun capacity => (congrArg Pmg.learning rests.pmg).trans (learningTest_learning (s := waiting s) capacity)⟩

end Sys2Proof.Machine
end

section
/-! PROOF. A stored sample between the watch unit and its owner: what the watch unit's event leaves of the pack manager's
blocks, and which claimed hits it leaves to be told (R44, R72, R74 to R76, R82). -/

namespace Sys2Proof.Machine

variable {told : State → State}

/-! ### What the watch unit's event leaves -/

/-- Nothing of the pack manager, the dock line, the claim and the watch records moves, nor what the pack manager reads,
nor T1; a notice may be asked for beside a pending PACK notice. -/
structure Watched (s t : State) : Prop extends Undisturbed s t where
  pmg : t.pmg = s.pmg
  ka : t.ka = s.ka
  cell : t.chan.cell = s.chan.cell
  packT : t.chan.packT = s.chan.packT
  safety : t.tdu.timers.i1 = s.tdu.timers.i1
  enables : t.link.enables = s.link.enables
  notice : s.link.notices.pack = true → t.link.notices.pack = true

theorem Watched.refl (s : State) : Watched s s :=
  { Undisturbed.refl s with pmg := rfl, ka := rfl, cell := rfl, packT := rfl, safety := rfl, enables := rfl, notice := id }

theorem Watched.trans {s t u : State} (a : Watched s t) (b : Watched t u) : Watched s u where
  toUndisturbed := a.toUndisturbed.trans b.toUndisturbed
  pmg := b.pmg.trans a.pmg
  ka := b.ka.trans a.ka
  cell := b.cell.trans a.cell
  packT := b.packT.trans a.packT
  safety := b.safety.trans a.safety
  enables := b.enables.trans a.enables
  notice pending := b.notice (a.notice pending)

theorem Watched.drawn (s : State) (n : Nat) : Watched s (s.setDraws n) :=
  { Undisturbed.of_same rfl rfl rfl rfl with
    pmg := rfl, ka := rfl, cell := rfl, packT := rfl, safety := rfl, enables := rfl, notice := id }

/-- The part of `Watched` that an evaluation and the budget's way leave. -/
structure PackSeen (s t : State) : Prop where
  pmg : t.pmg = s.pmg
  dlc : t.dlc = s.dlc
  ka : t.ka = s.ka
  cell : t.chan.cell = s.chan.cell
  packT : t.chan.packT = s.chan.packT
  safety : t.tdu.timers.i1 = s.tdu.timers.i1

theorem packSeen_drive (s : State) : DriveKeeps (PackSeen s) := fun _ _ driven h =>
  ⟨driven.pmg.trans h.pmg, driven.dlc.trans h.dlc, driven.ka.trans h.ka,
    (congrArg Channels.cell driven.chan :).trans h.cell, (packT_of_driven driven).trans h.packT,
    (congrArg Four.i1 (timers_of_driven driven)).trans h.safety⟩

theorem packSeen_budgetWay (s : State) : BudgetWayKeeps (PackSeen s) where
  drive := packSeen_drive s
  stack _ _ _ _ h := { h with }
  copy _ _ h := { h with }
  comparison _ _ _ h := { h with }
  draws _ _ h := { h with }

theorem tellSuction_packSeen {s : State} (shut : Shut s) : Keeps (PackSeen s) tellSuction :=
  tellSuction_drive (packSeen_drive s) (fun _ _ h => { h with }) (fun _ h => { h with })
    fun _ h => mayCharge_shut (by unfold Shut; rw [h.dlc, h.pmg]; exact shut)

/-- Where a charge may end at a stored sample: no unit that waits traps the channel. -/
def ChannelId.endsCharge (ch : ChannelId) : Prop := ch = .cell ∨ ch = .packT

/-- A comparison is stored for a trap of the sample's channel alone, which waits for no sample of the event. -/
theorem compareUnit_undisturbed {ch : ChannelId} (ends : ch.endsCharge) (sample : List Reading) (u : Idx4) (s : State) :
    Undisturbed s (compareUnit ch sample u s).1 := by
  by_cases trap : s.wcu.trapsAt ch u
  · have waits : ¬(s.wcu.entries.get u).waits := fun w => by
      obtain ⟨cell, packT, -⟩ := w trap.1
      rcases ends with rfl | rfl
      · exact cell trap.2
      · exact packT trap.2
    have hit := recordHit_undisturbed u s
    cases claimed : s.wcu.isClaimed u with
    | true =>
      rw [compareUnit_claimed trap claimed]
      exact .refl s
    | false =>
      cases inside : sampleMatches (s.wcu.entries.get u) sample with
      | true =>
        rw [compareUnit_hit trap claimed inside]
        unfold trapHit
        dsimp only
        split
        · exact hit.trans (setComparison_undisturbed (by rw [hit.entries]; exact waits) _)
        · exact hit
      | false =>
        rw [compareUnit_miss trap claimed inside]
        unfold trapMiss
        dsimp only
        split
        · split <;> exact setComparison_undisturbed waits _
        · exact .refl s
  · rw [compareUnit_idle trap]
    exact .refl s

theorem watchEvent_watched {ch : ChannelId} (ends : ch.endsCharge) (sample : List Reading) {s : State} (shut : Shut s) :
    Watched s (watchEvent (deliverTelling tellSuction) ch sample s).1 := by
  rw [watchEvent_fst]
  have kept := undisturbed_budgetKept s
  have undisturbed : Undisturbed s (watchEvent (deliverOverride tellSuction) ch sample s).1 :=
    watchEvent_keeps kept (fun sample u t h => h.trans (compareUnit_undisturbed ends sample u t))
      (deliverOverride_keeps kept (tellSuction_undisturbed shut)) sample s (.refl s)
  have seen : PackSeen s (watchEvent (deliverOverride tellSuction) ch sample s).1 :=
    (packSeen_budgetWay s).watchEvent (tellSuction_packSeen shut) ch sample s ⟨rfl, rfl, rfl, rfl, rfl, rfl⟩
  have moves {R : State → State → Prop} (closed : MainClosed R) :=
    watchEvent_moves closed (deliverOverride_moves closed.toEvalClosed (tellSuction_moves closed)) ch sample s
  exact { undisturbed, seen with
    enables := (moves lineKept_closed).enables
    notice := moves (noticeStays_closed .pack) }

theorem clearHard_watched {s : State} (shut : Shut s) (src : Source) : Watched s (clearHard tellSuction src s) := by
  have seen : PackSeen s (clearHard tellSuction src s) := by
    unfold clearHard
    split
    · exact (packSeen_budgetWay s).changeStack (tellSuction_packSeen shut) (.inr rfl) ⟨rfl, rfl, rfl, rfl, rfl, rfl⟩
    · exact ⟨rfl, rfl, rfl, rfl, rfl, rfl⟩
  exact { clearHard_undisturbed shut src, seen with
    enables := clearHard_enables src s
    notice := clearHard_notice src .pack s }

/-! ### The claimed hits (R82) -/

/-- A claimed unit whose trap a sample matches. -/
def Wcu.claimedMatch (channel : ChannelId) (sample : List Reading) (w : Wcu) (u : Idx4) : Bool :=
  decide ((w.entries.get u).kind = .trap) && decide ((w.entries.get u).channel = channel) && w.isClaimed u &&
    sampleMatches (w.entries.get u) sample

theorem claimedMatch_iff {channel : ChannelId} {sample : List Reading} {w : Wcu} {u : Idx4} :
    w.claimedMatch channel sample u = true ↔
      w.trapsAt channel u ∧ w.isClaimed u = true ∧ sampleMatches (w.entries.get u) sample = true := by
  simp [Wcu.claimedMatch, Wcu.trapsAt, and_assoc]

theorem claimedMatch_congr {channel : ChannelId} {sample : List Reading} {w x : Wcu} (entries : x.entries = w.entries)
    (claim : x.claim = w.claim) : x.claimedMatch channel sample = w.claimedMatch channel sample := by
  funext u
  unfold Wcu.claimedMatch Wcu.isClaimed
  rw [entries, claim]

/-- The tellings that the suction controller is not for. -/
def leftToTell (ts : List Telling) : List Telling := ts.filter fun t => !t.isOverride

theorem compareUnit_left (channel : ChannelId) (sample : List Reading) (u : Idx4) (s : State) :
    leftToTell (compareUnit channel sample u s).2 =
      if s.wcu.claimedMatch channel sample u then [.claimedHit u] else [] := by
  obtain ⟨-, -, tells⟩ := compareUnit_own channel sample u s
  have unclaimed (free : ¬(s.wcu.trapsAt channel u ∧ s.wcu.isClaimed u = true)) :
      leftToTell (compareUnit channel sample u s).2 = [] := by
    refine List.filter_eq_nil_iff.mpr fun t m => ?_
    obtain ⟨-, trap, override⟩ := tells t m
    simp [override.mpr (Bool.eq_false_iff.mpr fun claimed => free ⟨trap, claimed⟩)]
  by_cases claimed : s.wcu.trapsAt channel u ∧ s.wcu.isClaimed u = true
  · rw [compareUnit_claimed claimed.1 claimed.2]
    have same : s.wcu.claimedMatch channel sample u = sampleMatches (s.wcu.entries.get u) sample :=
      Bool.eq_iff_iff.mpr (claimedMatch_iff.trans ⟨fun h => h.2.2, fun h => ⟨claimed.1, claimed.2, h⟩⟩)
    rw [same]
    split <;> rfl
  · rw [unclaimed claimed, if_neg fun h => claimed ⟨(claimedMatch_iff.mp h).1, (claimedMatch_iff.mp h).2.1⟩]

theorem compareUnits_left (channel : ChannelId) (sample : List Reading) (us : List Idx4) (s : State) :
    leftToTell (compareUnits channel sample us s).2 =
      (us.filter (s.wcu.claimedMatch channel sample)).map .claimedHit := by
  induction us generalizing s with
  | nil => rfl
  | cons u us ih =>
    obtain ⟨own, -, -⟩ := compareUnit_own channel sample u s
    have rest := ih (compareUnit channel sample u s).1
    rw [claimedMatch_congr own.entries own.claim] at rest
    have here := compareUnit_left channel sample u s
    unfold leftToTell at rest here ⊢
    rw [compareUnits, List.filter_append, here, rest, List.filter_cons]
    split <;> rfl

theorem watchEvent_hits (deliver : Telling → State → State) (channel : ChannelId) (sample : List Reading) (s : State) :
    (watchEvent deliver channel sample s).2 =
      (allUnits.filter (s.wcu.claimedMatch channel sample)).map .claimedHit :=
  compareUnits_left channel sample allUnits s

/-! ### A sample and its owner -/

/-- No claimed unit has a hit at a sample. -/
def Unhit (channel : ChannelId) (sample : List Reading) (s : State) : Prop :=
  ∀ u, s.wcu.claimedMatch channel sample u = false

theorem Unhit.left {channel : ChannelId} {sample : List Reading} {s : State} (h : Unhit channel sample s)
    (deliver : Telling → State → State) : (watchEvent deliver channel sample s).2 = [] := by
  rw [watchEvent_hits, List.filter_eq_nil_iff.mpr fun u _ => by simp [h u]]
  rfl

theorem Unhit.of_same {channel : ChannelId} {sample : List Reading} {s t : State} (h : Unhit channel sample s)
    (entries : t.wcu.entries = s.wcu.entries) (claim : t.wcu.claim = s.wcu.claim) : Unhit channel sample t := by
  unfold Unhit
  rw [claimedMatch_congr entries claim]
  exact h

theorem unhit_unclaimed {channel : ChannelId} {sample : List Reading} {s : State} (free : s.wcu.claim = none) :
    Unhit channel sample s := fun u => by simp [Wcu.claimedMatch, isClaimed_none free u]

section
variable {ch : ChannelId} (ends : ch.endsCharge) {sample : List Reading} {owner : State → State} {s : State}
include ends

/-- A sample that hits no claimed unit, neither before its owner acts nor after: the owner's event stands through the
watch unit's, whichever comes first. -/
theorem sampleTold_unhit (shut : Shut s) (unhit : Unhit ch sample s)
    (left : ∀ x, Watched s x → Shut (owner x) ∧ Unhit ch sample (owner x)) :
    ∃ x, Watched s x ∧ Watched (owner x) (sampleTold tellSuction ch sample owner s) := by
  have drawn := Watched.drawn s (s.draws + 1)
  unfold sampleTold compareAmong
  split
  · dsimp only
    split
    · have watched := drawn.trans (watchEvent_watched ends sample (shut.of_undisturbed drawn.toUndisturbed))
      rw [(unhit.of_same drawn.entries drawn.claim).left, List.map_nil, List.append_nil, inAnyOrder_one]
      exact ⟨_, watched, .refl _⟩
    · obtain ⟨shut', unhit'⟩ := left _ drawn
      rw [inAnyOrder_one, unhit'.left, List.map_nil, inAnyOrder_nil]
      exact ⟨_, drawn, watchEvent_watched ends sample shut'⟩
  · exact ⟨s, .refl s, .refl _⟩

/-- A sample that hits one claimed unit alone, also after its owner has acted: the owner's event and what the hit makes
stand through the watch unit's event, in each of their orders. -/
theorem sampleTold_hit {u : Idx4} {P : State → Prop} (shut : Shut s)
    (trapped : s.wcu.trapsAt ch u)
    (hit : allUnits.filter (s.wcu.claimedMatch ch sample) = [u])
    (left : ∀ x, Watched s x → Shut (owner x) ∧ (owner x).wcu.entries = s.wcu.entries ∧ (owner x).wcu.claim = s.wcu.claim)
    (first : ∀ x y, Watched s x → Watched (owner x) y → P (claimedHit tellSuction u y))
    (second : ∀ x, Watched s x → P (owner (claimedHit tellSuction u x))) :
    P (sampleTold tellSuction ch sample owner s) := by
  have drawn := Watched.drawn s (s.draws + 1)
  have hits {x : State} (entries : x.wcu.entries = s.wcu.entries) (claim : x.wcu.claim = s.wcu.claim) :
      (watchEvent (deliverTelling tellSuction) ch sample x).2.map (deliverTelling tellSuction) =
        [claimedHit tellSuction u] := by
    rw [watchEvent_hits, claimedMatch_congr entries claim, hit]
    rfl
  unfold sampleTold compareAmong
  rw [if_pos (traps_of_trapsAt trapped)]
  dsimp only
  split
  · have watched := drawn.trans (watchEvent_watched ends sample (shut.of_undisturbed drawn.toUndisturbed))
    rw [hits drawn.entries drawn.claim]
    refine inAnyOrder_two_of (fun n => ?_) fun n => second _ (watched.trans (.drawn _ n))
    exact first _ _ (watched.trans (.drawn _ n)) (.refl _)
  · obtain ⟨shut', entries, claim⟩ := left _ drawn
    rw [inAnyOrder_one, hits entries claim, inAnyOrder_one]
    exact first _ _ drawn (watchEvent_watched ends sample shut')

end

end Sys2Proof.Machine
end

section
/-! PROOF. The samples of a charge: what goes on, what a fault ends, and what the samples of the pack make of the phase,
the pause and the taper (R82, R84, R170, R187, R188, R190, R191, R193). -/

namespace Sys2Proof.Machine

/-! ### Taking and announcing a pack state -/

theorem takePackState_writes (new : PackState) (s : State) :
    takePackState new s = { s with
      pmg := { s.pmg with
        state := new, lowCount := 0, recoveryCount := 0, taper := 0
        bleedSet := if new.bleeds then s.pmg.bleedSet else Six.all false }
      bleedOut := if new.bleeds then s.bleedOut else Six.all false } := by
  cases bleeds : new.bleeds with
  | true => simp only [takePackState, bleeds, if_true, State.modPmg]
  | false => rw [takePackState_frame bleeds]; rfl

/-- While no charge may be entered an announcement leaves all but the budget. -/
theorem announcePack_watched {s : State} (shut : Shut s) :
    Watched (s.modPmg fun p => { p with budget := budgetOf s }) (announcePack tellSuction s) := by
  let u := s.modPmg fun p => { p with budget := budgetOf s }
  have noted : PackSeen s (askNotice .pack s) := packSeen_drive s s _ (askNotice_driven .pack s) ⟨rfl, rfl, rfl, rfl, rfl, rfl⟩
  have reported : PackSeen s (reportIf (decide ((askNotice .pack s).pmg.state = .discharge) &&
      packBlind (askNotice .pack s).chan) .inv .budget (askNotice .pack s)) :=
    reportIf_keeps (I := PackSeen s) (fun flag src t => packSeen_drive s t _ (reportCondition_driven flag src t)) _ _ _ _ noted
  have stored : PackSeen u (storeBudget (askNotice .pack s)) :=
    { reported with pmg := storeBudget_pmg (askNotice .pack s) }
  have seen : PackSeen u (announcePack tellSuction s) :=
    (packSeen_budgetWay u).announcePack (tellSuction_packSeen (s := u) shut) stored
  have kept := announcePack_undisturbed shut
  exact { seen with
    state := kept.state, claim := kept.claim, entries := kept.entries, comparisons := kept.comparisons
    reservation := kept.reservation
    enables := (announcePack_moves lineKept_closed (tellSuction_moves lineKept_closed) s).enables
    notice := announcePack_moves (noticeStays_closed .pack) (tellSuction_moves (noticeStays_closed .pack)) s }

/-! ### A charge that goes on -/

/-- The charge goes on: what its fault would release and tell is as it was. -/
structure GoesOn (s t : State) : Prop where
  charging : t.pmg.state.isCharging = true
  claim : t.wcu.claim = s.wcu.claim
  entries : t.wcu.entries = s.wcu.entries
  reservation : t.reservation = s.reservation
  enables : t.link.enables = s.link.enables

theorem GoesOn.refl {s : State} (charging : s.pmg.state.isCharging = true) : GoesOn s s := ⟨charging, rfl, rfl, rfl, rfl⟩

theorem GoesOn.shut {s t : State} (h : GoesOn s t) : Shut t := shut_of_charging h.charging

theorem GoesOn.watched {s t u : State} (h : GoesOn s t) (w : Watched t u) : GoesOn s u where
  charging := by rw [w.pmg]; exact h.charging
  claim := w.claim.trans h.claim
  entries := w.entries.trans h.entries
  reservation := w.reservation.trans h.reservation
  enables := w.enables.trans h.enables

theorem GoesOn.took {s t : State} (h : GoesOn s t) {new : PackState} (charging : new.isCharging = true) :
    GoesOn s (takePackState new t) := by
  rw [takePackState_writes]
  exact { h with charging := charging }

theorem GoesOn.pack {s t : State} (h : GoesOn s t) (f : Pmg → Pmg) (state : (f t.pmg).state = t.pmg.state) :
    GoesOn s (t.modPmg f) := { h with charging := (congrArg PackState.isCharging state).trans h.charging }

theorem GoesOn.announced {s t : State} (h : GoesOn s t) : GoesOn s (announcePack tellSuction t) :=
  GoesOn.watched (t := t.modPmg fun p => { p with budget := budgetOf t }) { h with } (announcePack_watched h.shut)

theorem GoesOn.asked {s t : State} (h : GoesOn s t) : GoesOn s (askAnew t) := { h with }

theorem GoesOn.askedIfChanged {s t : State} (h : GoesOn s t) : GoesOn s (askCurrentAnew t) := by
  unfold askCurrentAnew askChanged
  split
  · exact h
  · exact { h with }

theorem cellPhase_goesOn {s t : State} (h : GoesOn s t) (phase : Phase) : GoesOn s (cellPhase tellSuction phase t) := by
  have changed (new : Phase) : GoesOn s (changePhase tellSuction new t) :=
    (GoesOn.askedIfChanged (h.took (new := .charging new) rfl)).announced
  have recharged : GoesOn s (recharge tellSuction t) := ((h.took (new := .charging .cc) rfl).pack _ rfl).asked.announced
  cases phase <;> unfold cellPhase <;> dsimp only
  · split
    · exact changed _
    · exact h
  · split
    · exact changed _
    · exact h
  · exact h
  · split
    · exact recharged
    · exact h

theorem takeEstimate_goesOn {s t : State} (h : GoesOn s t) : GoesOn s (takeEstimate t) := by
  unfold takeEstimate
  split
  · exact { h with }
  · exact h

theorem takeEstimate_kept (s : State) :
    (takeEstimate s).pmg = s.pmg ∧ (takeEstimate s).chan = s.chan := by
  unfold takeEstimate
  split <;> exact ⟨rfl, rfl⟩

/-- The states of a charge: a phase, or a pause in one (R158). -/
theorem charging_cases {p : PackState} (charging : p.isCharging = true) :
    (∃ phase, p = .charging phase) ∨ ∃ phase, p = .paused phase := by
  cases p with
  | charging phase => exact .inl ⟨phase, rfl⟩
  | paused phase => exact .inr ⟨phase, rfl⟩
  | discharge | protect | dockedWait | fault _ => cases charging

section
variable {s t : State}

theorem packCell_charging {phase : Phase} (state : s.pmg.state = .charging phase) :
    packCell tellSuction s = if allCellsValid s.chan.cell then cellPhase tellSuction phase (takeEstimate s)
      else chargeFault tellSuction .sense (takeEstimate s) := by
  obtain ⟨pmg, chan⟩ := takeEstimate_kept s
  unfold packCell
  simp only [pmg, state, chan]

theorem packCell_paused {phase : Phase} (state : s.pmg.state = .paused phase) :
    packCell tellSuction s = if allCellsValid s.chan.cell then takeEstimate s
      else chargeFault tellSuction .sense (takeEstimate s) := by
  obtain ⟨pmg, chan⟩ := takeEstimate_kept s
  unfold packCell
  simp only [pmg, state, chan]

/-- With all cells VALID the charge goes on (R188, R190). -/
theorem packCell_goesOn (h : GoesOn s t) (sound : allCellsValid t.chan.cell = true) :
    GoesOn s (packCell tellSuction t) := by
  rcases charging_cases h.charging with ⟨phase, state⟩ | ⟨phase, state⟩
  · rw [packCell_charging state, if_pos sound]
    exact cellPhase_goesOn (takeEstimate_goesOn h) phase
  · rw [packCell_paused state, if_pos sound]
    exact takeEstimate_goesOn h

/-- A cell without a reading is a charge fault (R193). -/
theorem packCell_blind (charging : s.pmg.state.isCharging = true) (blind : allCellsValid s.chan.cell = false) :
    packCell tellSuction s = chargeFault tellSuction .sense (takeEstimate s) := by
  rcases charging_cases charging with ⟨phase, state⟩ | ⟨phase, state⟩
  · rw [packCell_charging state, blind]
    rfl
  · rw [packCell_paused state, blind]
    rfl

/-- The pack manager's judgement of heat where the pack feeds no motor writes the hot mark alone of what is spoken of
here (R162). -/
theorem judgeHot_watched (shut : Shut s) (idle : ¬s.pmg.state.Feeds) (r : Int) :
    ∃ hot, Watched (s.modPmg fun p => { p with hotMark := hot }) (judgeHot tellSuction r s) := by
  by_cases clears : s.pmg.hotMark = true ∧ r ≤ (s.ka.limits.packHot : Int) - 5
  · rw [judgeHot_clears clears.1 clears.2]
    exact ⟨false, clearHard_watched (s := s.modPmg fun p => { p with hotMark := false }) shut .packHot⟩
  · refine ⟨s.pmg.hotMark, ?_⟩
    rw [judgeHot_stays]
    · exact .refl s
    · by_cases marked : s.pmg.hotMark = true
      · exact .inr ⟨marked, Int.not_le.mp fun cool => clears ⟨marked, cool⟩⟩
      · exact .inl ⟨marked, .inl idle⟩

theorem charging_idle (charging : s.pmg.state.isCharging = true) : ¬s.pmg.state.Feeds := by
  rintro (state | state) <;> rw [state] at charging <;> cases charging

theorem GoesOn.judged (h : GoesOn s t) (r : Int) : GoesOn s (judgeHot tellSuction r t) := by
  obtain ⟨hot, watched⟩ := judgeHot_watched h.shut (charging_idle h.charging) r
  exact (h.pack (fun p => { p with hotMark := hot }) rfl).watched watched

theorem chargeTemperature_goesOn (h : GoesOn s t) (r : Int) : GoesOn s (chargeTemperature tellSuction r t) := by
  rcases charging_cases h.charging with ⟨phase, state⟩ | ⟨phase, state⟩
  all_goals
    unfold chargeTemperature
    simp only [state]
    split
  · exact (h.took (new := .paused phase) rfl).asked.announced
  · exact h.askedIfChanged
  · exact (h.took (new := .charging phase) rfl).asked.announced
  · exact h

/-- With a VALID PACK_T the charge goes on (R187, R191). -/
theorem packTemperature_goesOn {r : Int} (h : GoesOn s t) (valid : t.chan.packT = .valid r) :
    GoesOn s (packTemperature tellSuction t) := by
  rw [packTemperature_valid valid]
  exact chargeTemperature_goesOn (h.judged r) r

end

/-! ### A fault of a charge (R82, R193) -/

/-- What a charge fault ends and hands on (R84, R183, R193). -/
structure Faulted (kind : ChargeFault) (s t : State) : Prop where
  state : t.pmg.state = .fault kind
  current : t.pmg.askedCurrent = 0
  learning : t.pmg.learning = none
  released : Released s t
  due : t.dlc.askDue = false
  stopped : (t.tdu.timers.get .i1).running = false
  bleedSet : t.pmg.bleedSet = Six.all false
  notice : s.link.enables.pack = true → t.link.notices.pack = true

section
variable {kind : ChargeFault} {s t u : State}

theorem GoesOn.faulted (h : GoesOn s t) (kind : ChargeFault) : Faulted kind s (chargeFault tellSuction kind t) := by
  obtain ⟨departed, due⟩ := chargeFault_departed kind h.charging
  have claim := h.claim
  exact {
    state := by rw [departed.pmg]; rfl
    current := by rw [departed.pmg]; rfl
    learning := by rw [departed.pmg]; rfl
    released := {
      claim := departed.released.claim
      entries := fun c claimed => by rw [← h.entries]; exact departed.released.entries c (claim.trans claimed)
      w2 := fun c claimed => departed.released.w2 c (claim.trans claimed)
      w3 := fun c claimed => departed.released.w3 c (claim.trans claimed)
      reservation := fun claimed r reserved =>
        departed.released.reservation (by rw [claim]; exact claimed) r (h.reservation.trans reserved) }
    due := due
    stopped := (congrArg Timer.running departed.safety :)
    bleedSet := by rw [departed.pmg]; rfl
    notice := fun enabled => departed.notice (by rw [h.enables]; exact enabled) }

theorem Faulted.shut (h : Faulted kind s t) : Shut t := .inr (by rw [h.state]; simp)

theorem Faulted.watched (h : Faulted kind s t) (w : Watched t u) : Faulted kind s u where
  state := by rw [w.pmg]; exact h.state
  current := by rw [w.pmg]; exact h.current
  learning := by rw [w.pmg]; exact h.learning
  released := h.released.through w.toUndisturbed
  due := by rw [w.dlc]; exact h.due
  stopped := (congrArg Timer.running w.safety :).trans h.stopped
  bleedSet := by rw [w.pmg]; exact h.bleedSet
  notice enabled := w.notice (h.notice enabled)

theorem Faulted.cellTaken (h : Faulted kind s t) : Faulted kind s (packCell tellSuction t) := by
  have estimated : packCell tellSuction t = takeEstimate t := by
    unfold packCell
    simp only [(takeEstimate_kept t).1, h.state]
  rw [estimated]
  unfold takeEstimate
  split
  · exact { h with released := h.released.through (.of_same rfl rfl rfl rfl) }
  · exact h

theorem Faulted.temperatureTaken (h : Faulted kind s t) : Faulted kind s (packTemperature tellSuction t) := by
  have idle : ¬t.pmg.state.Feeds := by rintro (state | state) <;> rw [h.state] at state <;> cases state
  cases reading : t.chan.packT with
  | noReading =>
    have ended : chargeFault tellSuction .sense t = t := if_neg (by simp [h.state, PackState.isCharging])
    rw [packTemperature_noReading reading, ended]
    exact h
  | valid r =>
    obtain ⟨hot, watched⟩ := judgeHot_watched h.shut idle r
    have judged : Faulted kind s (judgeHot tellSuction r t) :=
      Faulted.watched (t := t.modPmg fun p => { p with hotMark := hot })
        { h with released := h.released.through (.of_same rfl rfl rfl rfl) } watched
    have taken : packTemperature tellSuction t = judgeHot tellSuction r t := by
      rw [packTemperature_valid reading]
      unfold chargeTemperature
      simp only [judged.state]
    rw [taken]
    exact judged

end

end Sys2Proof.Machine
end

section
/-! PROOF. The samples of a charge, part by part: the phases, the temperature pause, the taper and what the gauge learns,
and the faults (R82, R84, R170, R187, R188, R190, R191, R193). -/

namespace Sys2Proof.Machine

/-! ### The record of a sample and the claimed units -/

theorem sampleMatches_cells (w : WatchRecord) (cell : Six Reading) :
    sampleMatches w (Six.toList cell) = true ↔ ∃ v ∈ validCells cell, inBand w v = true := by
  simp only [sampleMatches, validCells, List.any_eq_true, List.mem_filterMap]
  constructor
  · rintro ⟨r, mem, inside⟩
    cases r with
    | valid v => exact ⟨v, ⟨_, mem, rfl⟩, inside⟩
    | noReading => cases inside
  · rintro ⟨v, ⟨r, mem, value⟩, inside⟩
    cases r with
    | valid u =>
      obtain rfl : u = v := Option.some.inj value
      exact ⟨_, mem, inside⟩
    | noReading => cases value

theorem sampleMatches_blind (w : WatchRecord) : sampleMatches w [.noReading] = false := rfl

theorem claimed_units {w : Wcu} {u : Idx4} (claimed : w.isClaimed u = true) : u = .i2 ∨ u = .i3 := by
  simp only [Wcu.isClaimed, Bool.and_eq_true, Bool.or_eq_true, decide_eq_true_eq] at claimed
  exact claimed.2

/-- A sample of W2's channel, which W3 does not trap, hits W2 alone at most. -/
theorem unhit_of_w2 {channel : ChannelId} {sample : List Reading} {s : State} (other : s.wcu.entries.i3.channel ≠ channel)
    (outside : sampleMatches s.wcu.entries.i2 sample = false) : Unhit channel sample s := fun u => by
  refine Bool.eq_false_iff.mpr fun hit => ?_
  obtain ⟨trap, claimed, inside⟩ := claimedMatch_iff.mp hit
  rcases claimed_units claimed with rfl | rfl
  · exact Bool.eq_false_iff.mp outside inside
  · exact other trap.2

/-- A claimed unit whose channel the other claimed unit does not trap is hit alone. -/
theorem hits_alone {channel : ChannelId} {sample : List Reading} {w : Wcu} {u : Idx4} (claimed : w.isClaimed u = true)
    (trap : w.trapsAt channel u) (other : ∀ k, k ≠ u → w.isClaimed k = true → (w.entries.get k).channel ≠ channel)
    (inside : sampleMatches (w.entries.get u) sample = true) : allUnits.filter (w.claimedMatch channel sample) = [u] := by
  have hit : w.claimedMatch channel sample u = true := claimedMatch_iff.mpr ⟨trap, claimed, inside⟩
  have silent (k : Idx4) (ne : k ≠ u) : w.claimedMatch channel sample k = false := by
    refine Bool.eq_false_iff.mpr fun hit => ?_
    obtain ⟨trap, claimed, -⟩ := claimedMatch_iff.mp hit
    exact other k ne claimed trap.2
  obtain ⟨before, after, all, below, above⟩ := allUnits_split u
  have none (us : List Idx4) (absent : u ∉ us) : us.filter (w.claimedMatch channel sample) = [] :=
    List.filter_eq_nil_iff.mpr fun k m => by simp [silent k fun same => absent (same ▸ m)]
  rw [all, List.filter_append, List.filter_cons_of_pos hit, none before below, none after above]
  rfl

theorem isClaimed_some {w : Wcu} (claimed : w.claim ≠ none) : w.isClaimed .i2 = true ∧ w.isClaimed .i3 = true := by
  simp [Wcu.isClaimed, Option.isSome_iff_ne_none.mpr claimed]

/-- The state at a CELL sample, before it is told (R38, R39, R44). -/
def cellStored (cell : Six Reading) (s : State) : State :=
  (s.setBleedOut (Six.all false)).modChan fun c => { c with cell := cell }

theorem exec_cell {s : State} (q : Quiet s) (tapOpen : Six Bool) (mv : Six Int) :
    exec (.cellSample tapOpen mv) s = .next (driveBleed (sampleTold tellSuction .cell (Six.toList (cellsOf tapOpen mv))
      (packCell tellSuction) (cellStored (cellsOf tapOpen mv) s))) := exec_cellSample q tapOpen mv

theorem exec_packT {s : State} (q : Quiet s) (v : Int) :
    exec (.channelSample (.packT v)) s = .next (sampleTold tellSuction .packT [temperatureOf v]
      (packTemperature tellSuction) (sampleStored (.packT v) s)) := exec_channelSample q (.packT v)

/-! ### The faults (R82, R193) -/

section
variable {s : State}

theorem faulted_of_stored {kind : ChargeFault} {t : State} {cell : Six Reading} (h : Faulted kind (cellStored cell s) t) :
    Faulted kind s (driveBleed t) :=
  { h with
    released := (Undisturbed.of_same (s := s) (t := cellStored cell s) rfl rfl rfl rfl).releases
      (h.released.through (.of_same rfl rfl rfl rfl)) }

/-- A hit of the claimed W2 (R82, R193). -/
theorem cellSample_over (q : Quiet s) (charging : s.pmg.state.isCharging = true) (claimed : s.wcu.claim ≠ none)
    (trap : s.wcu.trapsAt .cell .i2) (other : s.wcu.entries.i3.channel = .packT) {tapOpen : Six Bool} {mv : Six Int}
    (sound : allCellsValid (cellsOf tapOpen mv) = true)
    (above : ∃ v ∈ validCells (cellsOf tapOpen mv), inBand s.wcu.entries.i2 v = true) :
    ∃ t, exec (.cellSample tapOpen mv) s = .next t ∧ Faulted .cellOver s t := by
  let y := cellStored (cellsOf tapOpen mv) s
  have on {x : State} (w : Watched y x) : GoesOn y x := (GoesOn.refl (s := y) charging).watched w
  have taken {x : State} (w : Watched y x) : GoesOn y (packCell tellSuction x) :=
    packCell_goesOn (on w) (by rw [w.cell]; exact sound)
  refine ⟨_, exec_cell q tapOpen mv, faulted_of_stored (cell := cellsOf tapOpen mv) ?_⟩
  refine sampleTold_hit (.inl rfl) (P := Faulted .cellOver y) (s := y) (shut_of_charging charging) trap
    (hits_alone (isClaimed_some claimed).1 trap (fun k ne own => ?_) ((sampleMatches_cells _ _).mpr above))
    (fun x w => ⟨(taken w).shut, (taken w).entries, (taken w).claim⟩)
    (fun x z w v => ((taken w).watched v).faulted .cellOver) fun x w => ((on w).faulted .cellOver).cellTaken
  rcases claimed_units own with rfl | rfl
  · exact absurd rfl ne
  · exact fun same => absurd (other.symm.trans same) (by decide)

/-- A cell without a reading, at a sample that hits no claimed unit (R193). -/
theorem cellSample_blind (q : Quiet s) (charging : s.pmg.state.isCharging = true) {tapOpen : Six Bool} {mv : Six Int}
    (blind : allCellsValid (cellsOf tapOpen mv) = false)
    (unhit : Unhit .cell (Six.toList (cellsOf tapOpen mv)) s) :
    ∃ t, exec (.cellSample tapOpen mv) s = .next t ∧ Faulted .sense s t := by
  let y := cellStored (cellsOf tapOpen mv) s
  have taken {x : State} (w : Watched y x) : Faulted .sense y (packCell tellSuction x) := by
    have on := (GoesOn.refl (s := y) charging).watched w
    rw [packCell_blind on.charging (by rw [w.cell]; exact blind)]
    exact (takeEstimate_goesOn on).faulted .sense
  obtain ⟨x, watched, after⟩ := sampleTold_unhit (.inl rfl) (owner := packCell tellSuction) (s := y)
    (shut_of_charging charging) (unhit.of_same rfl rfl)
    fun x w => ⟨(taken w).shut, unhit_unclaimed (taken w).released.claim⟩
  exact ⟨_, exec_cell q tapOpen mv, faulted_of_stored (cell := cellsOf tapOpen mv) ((taken watched).watched after)⟩

theorem faulted_of_packT {kind : ChargeFault} {t : State} {v : Int} (h : Faulted kind (sampleStored (.packT v) s) t) :
    Faulted kind s t :=
  { h with released := (Undisturbed.of_same (s := s) (t := sampleStored (.packT v) s) rfl rfl rfl rfl).releases h.released }

/-- A hit of the claimed W3 (R82, R193). -/
theorem packTSample_hot (q : Quiet s) (charging : s.pmg.state.isCharging = true) (claimed : s.wcu.claim ≠ none)
    (trap : s.wcu.trapsAt .packT .i3) (other : s.wcu.entries.i2.channel = .cell) {v r : Int}
    (stored : temperatureOf v = .valid r) (hot : inBand s.wcu.entries.i3 r = true) :
    ∃ t, exec (.channelSample (.packT v)) s = .next t ∧ Faulted .hot s t := by
  let y := sampleStored (.packT v) s
  have valid {x : State} (w : Watched y x) : x.chan.packT = .valid r := w.packT.trans stored
  have on {x : State} (w : Watched y x) : GoesOn y x := (GoesOn.refl (s := y) charging).watched w
  have taken {x : State} (w : Watched y x) : GoesOn y (packTemperature tellSuction x) :=
    packTemperature_goesOn (on w) (valid w)
  refine ⟨_, exec_packT q v, faulted_of_packT (v := v) ?_⟩
  refine sampleTold_hit (.inr rfl) (P := Faulted .hot y) (s := y) (shut_of_charging charging) trap
    (hits_alone (isClaimed_some claimed).2 trap (fun k ne own => ?_) (by rw [stored, sampleMatches_one]; exact hot))
    (fun x w => ⟨(taken w).shut, (taken w).entries, (taken w).claim⟩)
    (fun x z w v => ((taken w).watched v).faulted .hot) fun x w => ((on w).faulted .hot).temperatureTaken
  rcases claimed_units own with rfl | rfl
  · exact fun same => absurd (other.symm.trans same) (by decide)
  · exact absurd rfl ne

/-- A PACK_T without a reading (R193). -/
theorem packTSample_blind (q : Quiet s) (charging : s.pmg.state.isCharging = true) {v : Int}
    (blind : temperatureOf v = .noReading) :
    ∃ t, exec (.channelSample (.packT v)) s = .next t ∧ Faulted .sense s t := by
  let y := sampleStored (.packT v) s
  have unhit : Unhit .packT [temperatureOf v] y := fun u => by
    rw [blind]
    simp [Wcu.claimedMatch, sampleMatches_blind]
  have taken {x : State} (w : Watched y x) : Faulted .sense y (packTemperature tellSuction x) := by
    rw [packTemperature_noReading (w.packT.trans blind)]
    exact ((GoesOn.refl (s := y) charging).watched w).faulted .sense
  obtain ⟨x, watched, after⟩ := sampleTold_unhit (.inr rfl) (owner := packTemperature tellSuction) (s := y)
    (shut_of_charging charging) unhit fun x w => ⟨(taken w).shut, unhit_unclaimed (taken w).released.claim⟩
  exact ⟨_, exec_packT q v, faulted_of_packT (v := v) ((taken watched).watched after)⟩

end

/-! ### The phases (R188, R190) -/

section
variable {s : State}

/-- A sample that no trap of its channel matches hits no claimed unit. -/
theorem unhit_of_outside {channel : ChannelId} {sample : List Reading}
    (outside : ∀ u, s.wcu.trapsAt channel u → sampleMatches (s.wcu.entries.get u) sample = false) :
    Unhit channel sample s := fun u => by
  refine Bool.eq_false_iff.mpr fun hit => ?_
  obtain ⟨trap, -, inside⟩ := claimedMatch_iff.mp hit
  rw [outside u trap] at inside
  cases inside

/-- A CELL sample in a charging phase, with no cell without a reading: the phase's own judgement is all that the pack
manager sees (R188, R190). -/
theorem cellSample_sound (q : Quiet s) {phase : Phase} (state : s.pmg.state = .charging phase)
    (taken : s.ka.estimatePending = false) {tapOpen : Six Bool} {mv : Six Int}
    (sound : allCellsValid (cellsOf tapOpen mv) = true) (unhit : Unhit .cell (Six.toList (cellsOf tapOpen mv)) s) :
    ∃ x t, exec (.cellSample tapOpen mv) s = .next t ∧ Watched (cellStored (cellsOf tapOpen mv) s) x ∧
      t.pmg = (cellPhase tellSuction phase x).pmg := by
  let y := cellStored (cellsOf tapOpen mv) s
  have on {x : State} (w : Watched y x) : GoesOn y (packCell tellSuction x) :=
    packCell_goesOn ((GoesOn.refl (s := y) (by exact congrArg PackState.isCharging state)).watched w)
      (by rw [w.cell]; exact sound)
  obtain ⟨x, watched, after⟩ := sampleTold_unhit (.inl rfl) (owner := packCell tellSuction) (s := y)
    (.inr (by show s.pmg.state ≠ _; simp [state])) (unhit.of_same rfl rfl)
    fun x w => ⟨(on w).shut, (unhit.of_same rfl rfl : Unhit _ _ y).of_same (on w).entries (on w).claim⟩
  refine ⟨x, _, exec_cell q tapOpen mv, watched, after.pmg.trans ?_⟩
  have estimated : takeEstimate x = x := if_neg (by rw [watched.ka]; exact Bool.eq_false_iff.mp taken)
  rw [packCell_charging (by rw [watched.pmg]; exact state), estimated, watched.cell, if_pos (by exact sound)]

theorem askCurrentAnew_state (s : State) : (askCurrentAnew s).pmg.state = s.pmg.state := by
  unfold askCurrentAnew askChanged
  split <;> rfl

theorem changePhase_state (phase : Phase) (s : State) :
    (changePhase tellSuction phase s).pmg.state = .charging phase := by
  have state : (askCurrentAnew (takePackState (.charging phase) s)).pmg.state = .charging phase :=
    (askCurrentAnew_state _).trans (takePackState_facts _ s).1
  exact (announcePack_undisturbed (.inr (by rw [state]; simp))).state.trans state

theorem recharge_pmg (s : State) : (recharge tellSuction s).pmg.state = .charging .cc ∧
    (recharge tellSuction s).pmg.askedVoltage = fullVoltage s.ka.charge := by
  have state := (takePackState_facts (.charging .cc) s).1
  have told := announcePack_pmg (s := askAnew ((takePackState (.charging .cc) s).modPmg fun p =>
    { p with askedVoltage := fullVoltage s.ka.charge })) (.inr (by show (takePackState _ s).pmg.state ≠ _; rw [state]; simp))
  unfold recharge
  dsimp only
  rw [told]
  exact ⟨state, rfl⟩

/-- What a CELL sample makes of each phase (R188, R190). -/
theorem cellPhase_pmg (s : State) :
    let cell := validCells s.chan.cell
    let vCv : Int := s.ka.charge.vCv
    ((∀ v ∈ cell, 3000 ≤ v) → (cellPhase tellSuction .precharge s).pmg.state = .charging .cc) ∧
      ((∃ v ∈ cell, v < 3000) → cellPhase tellSuction .precharge s = s) ∧
      ((∃ v ∈ cell, vCv ≤ v) → (cellPhase tellSuction .cc s).pmg.state = .charging .cv) ∧
      ((∀ v ∈ cell, v < vCv) → cellPhase tellSuction .cc s = s) ∧
      cellPhase tellSuction .cv s = s ∧
      ((∀ v ∈ cell, v < vCv - 150) → (cellPhase tellSuction .done s).pmg.state = .charging .cc ∧
        (cellPhase tellSuction .done s).pmg.askedVoltage = fullVoltage s.ka.charge) ∧
      ((∃ v ∈ cell, vCv - 150 ≤ v) → cellPhase tellSuction .done s = s) := by
  intro cell vCv
  refine ⟨fun all => ?_, fun one => ?_, fun one => ?_, fun all => ?_, rfl, fun all => ?_, fun one => ?_⟩
  · rw [cellPhase, if_pos (by simpa using all)]
    exact changePhase_state .cc s
  · exact if_neg (by simpa using one)
  · rw [cellPhase, if_pos (by simpa using one)]
    exact changePhase_state .cv s
  · exact if_neg (by simpa using all)
  · rw [cellPhase, if_pos (by simpa using all)]
    exact recharge_pmg s
  · exact if_neg (by simpa using one)

end

end Sys2Proof.Machine
end

section
/-! PROOF. The temperature pause, the taper and what the gauge learns there, and the obligation of the charge phases
(R82, R84, R170, R187, R188, R190, R191, R193). -/

namespace Sys2Proof.Machine

section
variable {s z : State}

/-! ### The pause (R187, R191) -/

/-- The pack manager and what it reads once it has judged a PACK_T sample's heat (R162). -/
structure Warmed (r : Int) (s z : State) : Prop where
  pmg : { z.pmg with hotMark := s.pmg.hotMark } = s.pmg
  dlc : z.dlc = s.dlc
  ka : z.ka = s.ka
  packT : z.chan.packT = .valid r
  claim : z.wcu.claim = s.wcu.claim
  safety : z.tdu.timers.i1 = s.tdu.timers.i1
  enables : z.link.enables = s.link.enables

/-- A PACK_T sample that hits no claimed unit, in the charging states: what the temperature makes of the charge is all
that is left to be seen (R187, R191). -/
theorem packTSample_warmed (q : Quiet s) (charging : s.pmg.state.isCharging = true) {v r : Int}
    (stored : temperatureOf v = .valid r) (unhit : Unhit .packT [.valid r] s) :
    ∃ z t, exec (.channelSample (.packT v)) s = .next t ∧ Warmed r s z ∧ Watched (chargeTemperature tellSuction r z) t := by
  let y := sampleStored (.packT v) s
  have valid {x : State} (w : Watched y x) : x.chan.packT = .valid r := w.packT.trans stored
  have on {x : State} (w : Watched y x) : GoesOn y x := (GoesOn.refl (s := y) charging).watched w
  have taken {x : State} (w : Watched y x) : GoesOn y (packTemperature tellSuction x) :=
    packTemperature_goesOn (on w) (valid w)
  have unhit' : Unhit .packT [temperatureOf v] y := by
    rw [stored]
    exact unhit.of_same rfl rfl
  obtain ⟨x, watched, after⟩ := sampleTold_unhit (.inr rfl) (owner := packTemperature tellSuction) (s := y)
    (shut_of_charging charging) unhit' fun x w => ⟨(taken w).shut, unhit'.of_same (taken w).entries (taken w).claim⟩
  obtain ⟨hot, judged⟩ := judgeHot_watched (on watched).shut (charging_idle (on watched).charging) r
  rw [packTemperature_valid (valid watched)] at after
  refine ⟨_, _, exec_packT q v, ?_, after⟩
  exact {
    pmg := by rw [judged.pmg]; exact congrArg (fun p : Pmg => { p with hotMark := s.pmg.hotMark }) watched.pmg
    dlc := judged.dlc.trans watched.dlc
    ka := judged.ka.trans watched.ka
    packT := judged.packT.trans (valid watched :)
    claim := judged.claim.trans watched.claim
    safety := judged.safety.trans watched.safety
    enables := judged.enables.trans watched.enables }

/-- The blocks at a pause and at a return from one, seen by the host (R187, R191). -/
structure Retaken (new : PackState) (z t : State) : Prop where
  state : t.pmg.state = new
  current : t.pmg.askedCurrent = askedCurrentOf z.ka.charge z.chan.packT z.dlc.offer new
  learning : t.pmg.learning = z.pmg.learning
  precharge : t.pmg.precharge = z.pmg.precharge
  due : t.dlc.askDue = true
  asked : t.dlc.askCurrent = askedCurrentOf z.ka.charge z.chan.packT z.dlc.offer new
  claim : t.wcu.claim = z.wcu.claim
  safety : t.tdu.timers.i1 = z.tdu.timers.i1
  notice : z.link.enables.pack = true → t.link.notices.pack = true

/-- A charging state that is taken, asked for and announced. -/
theorem retaken {new : PackState} (charging : new.isCharging = true) {t : State}
    (after : Watched (announcePack tellSuction (askAnew (takePackState new z))) t) : Retaken new z t := by
  let u := askAnew (takePackState new z)
  have current : u.pmg.askedCurrent = askedCurrentOf z.ka.charge z.chan.packT z.dlc.offer new := by
    show currentFor (takePackState new z) = _
    rw [takePackState_writes]
    rfl
  have pmg : u.pmg.state = new ∧ u.pmg.learning = z.pmg.learning ∧ u.pmg.precharge = z.pmg.precharge := by
    show (takePackState new z).pmg.state = new ∧ (takePackState new z).pmg.learning = _ ∧
      (takePackState new z).pmg.precharge = _
    rw [takePackState_writes]
    exact ⟨rfl, rfl, rfl⟩
  have others : u.wcu.claim = z.wcu.claim ∧ u.tdu.timers.i1 = z.tdu.timers.i1 ∧ u.link.enables = z.link.enables := by
    show (takePackState new z).wcu.claim = _ ∧ (takePackState new z).tdu.timers.i1 = _ ∧
      (takePackState new z).link.enables = _
    rw [takePackState_writes]
    exact ⟨rfl, rfl, rfl⟩
  obtain ⟨-, -, -, -, due, -, asked, -⟩ := serve_kept
    ((takePackState new z).dlc.handed (takePackState new z).pmg.askedVoltage u.pmg.askedCurrent)
  have told : Watched (u.modPmg fun p => { p with budget := budgetOf u }) t :=
    (announcePack_watched (shut_of_charging (by rw [pmg.1]; exact charging))).trans after
  exact {
    state := (congrArg Pmg.state told.pmg).trans pmg.1
    current := (congrArg Pmg.askedCurrent told.pmg).trans current
    learning := (congrArg Pmg.learning told.pmg).trans pmg.2.1
    precharge := (congrArg Pmg.precharge told.pmg).trans pmg.2.2
    due := (congrArg Dlc.askDue told.dlc).trans due
    asked := (congrArg Dlc.askCurrent told.dlc).trans (asked.trans current)
    claim := told.claim.trans others.1
    safety := told.safety.trans others.2.1
    notice := fun enabled => after.notice (announcePack_notice (by rw [others.2.2]; exact enabled)) }

/-- The asked current computed anew (R187). -/
theorem askCurrentAnew_facts (z : State) :
    let t := askCurrentAnew z
    t.pmg = { z.pmg with askedCurrent := currentFor z } ∧ t.wcu = z.wcu ∧ t.tdu = z.tdu ∧
      (currentFor z ≠ z.pmg.askedCurrent → t.dlc.askDue = true ∧ t.dlc.askCurrent = currentFor z) ∧
      (currentFor z = z.pmg.askedCurrent → t.dlc = z.dlc) := by
  by_cases same : currentFor z = z.pmg.askedCurrent
  · have stays : askCurrentAnew z = z := if_pos ⟨rfl, same⟩
    rw [stays, same]
    exact ⟨rfl, rfl, rfl, fun other => absurd rfl other, fun _ => rfl⟩
  · have handed : askCurrentAnew z = handOver (z.modPmg fun p =>
        { p with askedVoltage := p.askedVoltage, askedCurrent := currentFor z }) := if_neg fun both => same both.2
    obtain ⟨-, -, -, -, due, -, asked, -⟩ := serve_kept (z.dlc.handed z.pmg.askedVoltage (currentFor z))
    rw [handed]
    exact ⟨rfl, rfl, rfl, fun _ => ⟨due, asked⟩, fun own => absurd own same⟩

/-! ### The taper (R170, R190) -/

theorem channelSampled_packI (untrapped : s.wcu.traps .packI = false) (v : Int) :
    channelSampled tellSuction (.packI v) s = packCurrent tellSuction (sampleStored (.packI v) s) :=
  compareAmong_untrapped (s := sampleStored (.packI v) s) untrapped

/-- What the gauge takes from a charge that is done: the learned Q_full, a full Q_rem, and the trust (R170). -/
theorem doneGauge_facts (s : State) :
    let t := doneGauge s
    t.pmg = { s.pmg with learning := none } ∧ t.dlc = s.dlc ∧ t.tdu = s.tdu ∧ t.wcu = s.wcu ∧ t.link = s.link ∧
      t.ka.trust = .calibrated ∧ t.ka.qRem = t.ka.gauge.qFull ∧
      t.ka.gauge = { s.ka.gauge with qFull := t.ka.gauge.qFull } ∧
      (s.pmg.learning = none → t.ka.gauge = s.ka.gauge ∧ t.reservation = s.reservation) ∧
      ∀ run, s.pmg.learning = some run → t.ka.gauge.qFull = learnedQFull run s.ka.gauge ∧
        t.reservation = (breakReservation .gauge 0 1 s).reservation := by
  intro t
  cases learning : s.pmg.learning with
  | none =>
    have stays : t = s.modKa fun k => { k with qRem := k.gauge.qFull, trust := .calibrated } := by
      simp only [t, doneGauge, learn, learning]
    have pmg : s.pmg = { s.pmg with learning := none } := by rw [← learning]
    rw [stays]
    exact ⟨pmg, rfl, rfl, rfl, rfl, rfl, rfl, rfl, fun _ => ⟨rfl, rfl⟩, fun run same => absurd same (by simp)⟩
  | some run =>
    have learned : t = ((breakReservation .gauge 0 1 (s.modKa fun k =>
        { k with gauge := { k.gauge with qFull := learnedQFull run k.gauge } })).modPmg fun p =>
          { p with learning := none }).modKa fun k => { k with qRem := k.gauge.qFull, trust := .calibrated } := by
      simp only [t, doneGauge, learn, learning]
    rw [learned]
    refine ⟨rfl, rfl, rfl, rfl, rfl, rfl, rfl, rfl, fun absent => absurd absent (by simp), fun own same => ?_⟩
    obtain rfl := Option.some.inj same
    exact ⟨rfl, rfl⟩

/-- The learned Q_full lies a quarter of the way to what the run measured, within its range (R24, R170). -/
theorem learnedQFull_cast (run : Learning) (g : GaugeEntry) :
    (learnedQFull run g : Int) = max (((g.design + 1) / 2 : Nat) : Int)
      (min ((g.design * 11 / 10 : Nat) : Int) ((g.qFull : Int) + ((run.qStart : Int) + run.added - g.qFull).tdiv 4)) := by
  unfold learnedQFull clampInt qFullLow qFullHigh
  dsimp only
  exact Int.toNat_of_nonneg (le_max_of_le_left (Int.natCast_nonneg _))

/-- What entry to DONE leaves to be seen of the pack manager, the dock line, the claim, T1 and the gauge (R170, R190). -/
structure Done (s t : State) : Prop where
  state : t.pmg.state = .charging .done
  current : t.pmg.askedCurrent = 0
  learning : t.pmg.learning = none
  asked : t.dlc.askCurrent = 0
  due : t.dlc.askDue = true
  stopped : (t.tdu.timers.get .i1).running = false
  claim : t.wcu.claim = s.wcu.claim
  notice : s.link.enables.pack = true → t.link.notices.pack = true
  trust : t.ka.trust = .calibrated
  full : t.ka.qRem = t.ka.gauge.qFull
  gauge : t.ka.gauge = { s.ka.gauge with qFull := t.ka.gauge.qFull }
  unlearned : s.pmg.learning = none → t.ka.gauge = s.ka.gauge ∧ t.reservation = s.reservation
  learned : ∀ run, s.pmg.learning = some run → t.ka.gauge.qFull = learnedQFull run s.ka.gauge ∧
    t.reservation = (breakReservation .gauge 0 1 s).reservation

theorem askedCurrentOf_done (e : ChargeEntry) (packT : Reading) (offer : Option Offer) :
    askedCurrentOf e packT offer (.charging .done) = 0 := by
  cases offer <;> simp [askedCurrentOf, planCurrent]

theorem enterDone_done (s : State) : Done s (enterDone tellSuction s) := by
  let x := stopTimer .i1 (askAnew (takePackState (.charging .done) s))
  have taken : x.pmg.state = .charging .done ∧ x.pmg.learning = s.pmg.learning ∧ x.ka = s.ka ∧
      x.reservation = s.reservation ∧ x.wcu.claim = s.wcu.claim ∧ x.link.enables = s.link.enables := by
    simp only [x, takePackState_writes]
    exact ⟨rfl, rfl, rfl, rfl, rfl, rfl⟩
  obtain ⟨state, learning, ka, reservation, claim, enables⟩ := taken
  have current : x.pmg.askedCurrent = 0 := askedCurrentOf_done _ _ _
  obtain ⟨-, -, -, -, due, -, asked, -⟩ := serve_kept
    ((takePackState (.charging .done) s).dlc.handed (takePackState (.charging .done) s).pmg.askedVoltage x.pmg.askedCurrent)
  obtain ⟨pmg, dlc, tdu, wcu, link, trust, full, gauge, unlearned, learned⟩ := doneGauge_facts x
  rw [learning] at unlearned learned
  rw [ka] at gauge unlearned learned
  rw [reservation] at unlearned
  have broken : (breakReservation .gauge 0 1 x).reservation = (breakReservation .gauge 0 1 s).reservation :=
    congrArg (Option.map _) reservation
  rw [broken] at learned
  have told : Watched ((doneGauge x).modPmg fun p => { p with budget := budgetOf (doneGauge x) })
      (enterDone tellSuction s) := announcePack_watched (shut_of_charging (by rw [pmg]; exact congrArg _ state))
  have left : (enterDone tellSuction s).pmg = { x.pmg with learning := none, budget := budgetOf (doneGauge x) } :=
    told.pmg.trans (congrArg (fun p : Pmg => { p with budget := budgetOf (doneGauge x) }) pmg)
  exact {
    state := (congrArg Pmg.state left).trans state
    current := (congrArg Pmg.askedCurrent left).trans current
    learning := (congrArg Pmg.learning left :)
    asked := (congrArg Dlc.askCurrent (told.dlc.trans dlc)).trans (asked.trans current)
    due := (congrArg Dlc.askDue (told.dlc.trans dlc)).trans due
    stopped := (congrArg Timer.running (told.safety.trans (congrArg (fun d : Tdu => d.timers.i1) tdu)) :)
    claim := told.claim.trans ((congrArg Wcu.claim wcu).trans claim)
    notice := fun enabled => announcePack_notice (by rw [link, enables]; exact enabled)
    trust := by rw [told.ka]; exact trust
    full := by rw [told.ka]; exact full
    gauge := by rw [told.ka]; exact gauge
    unlearned := by rw [told.ka, told.reservation]; exact unlearned
    learned := by rw [told.ka, told.reservation]; exact learned }

/-- An untrapped PACK_I sample in CV (R190). -/
theorem packISample_tapers (q : Quiet s) (state : s.pmg.state = .charging .cv) (untrapped : s.wcu.traps .packI = false)
    (v : Int) : exec (.channelSample (.packI v)) s = .next (
      let y := sampleStored (.packI v) s
      if packIOf v < s.ka.charge.iTerm then
        if 6000 ≤ s.pmg.taper + 1 then enterDone tellSuction y else y.modPmg fun p => { p with taper := p.taper + 1 }
      else y.modPmg fun p => { p with taper := 0 }) := by
  rw [exec_channelSample q, channelSampled_packI untrapped]
  exact congrArg Host.Outcome.next (if_pos state)

/-- A reservation of GAUGE breaks at a write of it (R30). -/
theorem gauge_reservation_breaks (reserved : s.reservation = some { sectionId := .gauge, first := 0, count := 1, broken := false }) :
    (breakReservation .gauge 0 1 s).reservation =
      some { sectionId := .gauge, first := 0, count := 1, broken := true } :=
  congrArg (Option.map _) reserved

end

/-! ### The temperature and the charge (R187, R191) -/

section
variable {s z t : State} {r : Int} {phase : Phase}

/-- The claim, T1, the learning run and the precharge clock stay at a PACK_T sample. -/
def ChargeStays (s t : State) : Prop :=
  t.wcu.claim = s.wcu.claim ∧ t.tdu.timers.i1 = s.tdu.timers.i1 ∧ t.pmg.learning = s.pmg.learning ∧
    t.pmg.precharge = s.pmg.precharge

theorem Warmed.state (w : Warmed r s z) : z.pmg.state = s.pmg.state := (congrArg Pmg.state w.pmg :)

theorem Warmed.asks (w : Warmed r s z) {o : Offer} (offer : s.dlc.offer = some o) (phase : Phase) :
    askedCurrentOf z.ka.charge z.chan.packT z.dlc.offer (.charging phase) =
      min (if r < s.ka.charge.cool then planCurrent s.ka.charge phase / 2 else planCurrent s.ka.charge phase)
        o.maxCurrent := by
  rw [w.packT, w.dlc, offer, w.ka, askedCurrentOf_charging]

theorem Retaken.stays {new : PackState} (h : Retaken new z t) (w : Warmed r s z) : ChargeStays s t :=
  ⟨h.claim.trans w.claim, h.safety.trans w.safety, h.learning.trans (congrArg Pmg.learning w.pmg :),
    h.precharge.trans (congrArg Pmg.precharge w.pmg :)⟩

theorem chargeTemperature_pauses (w : Warmed r s z) (state : s.pmg.state = .charging phase)
    (outside : r < s.ka.charge.windowLow ∨ s.ka.charge.windowHigh < r)
    (after : Watched (chargeTemperature tellSuction r z) t) : Retaken (.paused phase) z t := by
  unfold chargeTemperature at after
  simp only [w.state, state, w.ka, if_pos outside] at after
  exact retaken rfl after

theorem chargeTemperature_asks (w : Warmed r s z) (state : s.pmg.state = .charging phase)
    (inside : s.ka.charge.windowLow ≤ r ∧ r ≤ s.ka.charge.windowHigh)
    (after : Watched (chargeTemperature tellSuction r z) t) : Watched (askCurrentAnew z) t := by
  have window : ¬(r < s.ka.charge.windowLow ∨ s.ka.charge.windowHigh < r) := by omega
  unfold chargeTemperature at after
  simpa only [w.state, state, w.ka, if_neg window] using after

theorem chargeTemperature_resumes (w : Warmed r s z) (state : s.pmg.state = .paused phase)
    (inside : s.ka.charge.windowLow + 2 ≤ r ∧ r ≤ s.ka.charge.windowHigh - 2)
    (after : Watched (chargeTemperature tellSuction r z) t) : Retaken (.charging phase) z t := by
  unfold chargeTemperature at after
  simp only [w.state, state, w.ka, if_pos inside] at after
  exact retaken rfl after

theorem chargeTemperature_waits (w : Warmed r s z) (state : s.pmg.state = .paused phase)
    (outside : ¬(s.ka.charge.windowLow + 2 ≤ r ∧ r ≤ s.ka.charge.windowHigh - 2))
    (after : Watched (chargeTemperature tellSuction r z) t) : Watched z t := by
  unfold chargeTemperature at after
  simpa only [w.state, state, w.ka, if_neg outside] using after

theorem Warmed.stays (w : Warmed r s z) (after : Watched z t) : ChargeStays s t :=
  ⟨after.claim.trans w.claim, after.safety.trans w.safety,
    (congrArg Pmg.learning after.pmg).trans (congrArg Pmg.learning w.pmg :),
    (congrArg Pmg.precharge after.pmg).trans (congrArg Pmg.precharge w.pmg :)⟩

/-- In a phase the asked current follows the temperature (R187). -/
theorem asked_facts (w : Warmed r s z) (state : s.pmg.state = .charging phase) (after : Watched (askCurrentAnew z) t) :
    ChargeStays s t ∧ ∀ o, s.dlc.offer = some o →
      let asked := min (if r < s.ka.charge.cool then planCurrent s.ka.charge phase / 2
        else planCurrent s.ka.charge phase) o.maxCurrent
      t.pmg.state = .charging phase ∧ t.pmg.askedCurrent = asked ∧
        (asked ≠ s.pmg.askedCurrent → t.dlc.askDue = true ∧ t.dlc.askCurrent = asked) ∧
        (asked = s.pmg.askedCurrent → t.dlc = s.dlc) := by
  obtain ⟨pmg, wcu, tdu, changed, same⟩ := askCurrentAnew_facts z
  have left := after.pmg.trans pmg
  have before : z.pmg.askedCurrent = s.pmg.askedCurrent := (congrArg Pmg.askedCurrent w.pmg :)
  refine ⟨⟨after.claim.trans (by rw [wcu, w.claim]), after.safety.trans (by rw [tdu, w.safety]),
    (congrArg Pmg.learning left).trans (congrArg Pmg.learning w.pmg :),
    (congrArg Pmg.precharge left).trans (congrArg Pmg.precharge w.pmg :)⟩, fun o offer => ?_⟩
  have current : currentFor z = _ := (congrArg _ (w.state.trans state)).trans (w.asks offer phase)
  rw [current, before] at changed same
  rw [after.dlc, ← w.dlc]
  exact ⟨(congrArg Pmg.state left).trans (w.state.trans state), (congrArg Pmg.askedCurrent left).trans current, changed, same⟩

end

/-! ### The obligation -/

/-- Settles O55: at each sample the owner's event and what a hit of a claimed unit makes stand through the watch unit's
event, so that each part is said by what the pack manager does alone. -/
theorem chargePhases : Obligations.ChargePhases := by
  refine ⟨?cells, ?temperature, ?taper, ?faults⟩
  case cells =>
    intro s tapOpen mv phase q state estimated cell outside vCv
    have unhit : Unhit .cell (Six.toList cell) s := unhit_of_outside fun u trap => Bool.eq_false_iff.mpr fun hit => by
      obtain ⟨v, mem, inside⟩ := (sampleMatches_cells _ _).mp hit
      rw [(outside u trap.1 trap.2).1 v mem] at inside
      cases inside
    cases sound : allCellsValid cell with
    | false =>
      obtain ⟨t, stepped, faulted⟩ := cellSample_blind q (by rw [state]; rfl) sound unhit
      exact ⟨t, stepped, fun _ => ⟨faulted.state, faulted.current, faulted.released, faulted.learning⟩,
        fun h => Bool.noConfusion h⟩
    | true =>
      obtain ⟨x, t, stepped, watched, pmg⟩ := cellSample_sound q state estimated sound unhit
      have judged := cellPhase_pmg x
      have same : x.pmg = s.pmg := watched.pmg
      have stays {phase : Phase} (h : cellPhase tellSuction phase x = x) : (cellPhase tellSuction phase x).pmg = s.pmg := by
        rw [h, same]
      rw [watched.cell, watched.ka] at judged
      obtain ⟨full, low, top, below, cv, again, holds⟩ := judged
      refine ⟨t, stepped, fun h => Bool.noConfusion h, fun _ => ?_⟩
      rw [pmg]
      refine ⟨?_, ?_, ?_, ?_, ?_, ?_, ?_⟩ <;> rintro rfl
      · exact full
      · exact top
      · exact again
      · exact fun charged => stays (holds charged)
      · exact stays cv
      · exact fun weak => stays (low weak)
      · exact fun all => stays (below all)
  case temperature =>
    intro s v r phase q nearest low high outside e plan asked
    have planned : plan = planCurrent e phase := by cases phase <;> rfl
    have unhit : Unhit .packT [.valid r] s := unhit_of_outside fun u trap => by
      rw [sampleMatches_one]
      exact (outside u trap.1 trap.2).1
    by_cases charging : s.pmg.state.isCharging = true
    case neg =>
      have no {p : PackState} (own : p.isCharging = true) : s.pmg.state ≠ p := fun same => charging (same ▸ own)
      refine ⟨_, exec_packT q v, ?_, fun same => absurd same (no rfl), fun same => absurd same (no rfl),
        fun same => absurd same (no rfl), fun same => absurd same (no rfl)⟩
      rintro (same | same) <;> exact absurd same (no rfl)
    obtain ⟨z, t, stepped, warmed, after⟩ := packTSample_warmed q charging (temperatureOf_inRange nearest low high) unhit
    have pauses := fun state => chargeTemperature_pauses (phase := phase) warmed state (after := after)
    have asks := fun state inside => asked_facts warmed state (chargeTemperature_asks (phase := phase) warmed state inside after)
    have resumes := fun state => chargeTemperature_resumes (phase := phase) warmed state (after := after)
    have waits := fun state => chargeTemperature_waits (phase := phase) warmed state (after := after)
    refine ⟨t, stepped, ?_, fun state out => ?_, fun state above beneath o offer => ?_, fun state above beneath o offer => ?_,
      fun state out => ?_⟩
    · rintro (state | state)
      · by_cases inside : s.ka.charge.windowLow ≤ r ∧ r ≤ s.ka.charge.windowHigh
        · exact (asks state inside).1
        · exact (pauses state (by omega)).stays warmed
      · by_cases inside : s.ka.charge.windowLow + 2 ≤ r ∧ r ≤ s.ka.charge.windowHigh - 2
        · exact (resumes state inside).stays warmed
        · exact warmed.stays (waits state inside)
    · have paused := pauses state out
      exact ⟨paused.state, paused.current, paused.due, paused.asked,
        fun enabled => paused.notice (by rw [warmed.enables]; exact enabled)⟩
    · simp only [asked, planned]
      exact (asks state ⟨above, beneath⟩).2 o offer
    · have resumed := resumes state ⟨above, beneath⟩
      simp only [asked, planned]
      exact ⟨resumed.state, resumed.current.trans (warmed.asks offer phase), resumed.due,
        resumed.asked.trans (warmed.asks offer phase),
        fun enabled => resumed.notice (by rw [warmed.enables]; exact enabled)⟩
    · have kept := waits state fun inside => out.elim (Int.not_lt.mpr inside.1) (Int.not_lt.mpr inside.2)
      exact ⟨by rw [kept.pmg]; exact warmed.pmg, kept.dlc.trans warmed.dlc⟩
  case taper =>
    intro s v q state untrapped below
    have stepped := packISample_tapers q state untrapped v
    let y := sampleStored (.packI v) s
    by_cases under : below
    case neg =>
      rw [if_neg (by exact under)] at stepped
      exact ⟨_, stepped, fun _ => rfl, fun h => absurd h under, fun h => absurd h under⟩
    rw [if_pos (by exact under)] at stepped
    by_cases last : 5999 ≤ s.pmg.taper
    case neg =>
      rw [if_neg (by omega)] at stepped
      exact ⟨_, stepped, fun h => absurd under h, fun _ _ => rfl, fun _ h => absurd h last⟩
    rw [if_pos (by omega)] at stepped
    have done := enterDone_done y
    refine ⟨_, stepped, fun h => absurd under h, fun _ h => absurd last (by omega), fun _ _ =>
      ⟨done.state, done.current, done.learning, done.asked, done.due, done.stopped, done.claim, done.notice, done.trust,
        done.full, done.gauge, done.unlearned, fun run learning => ?_⟩⟩
    obtain ⟨capacity, reserved⟩ := done.learned run learning
    exact ⟨by rw [capacity]; exact learnedQFull_cast run _, fun own => reserved.trans (gauge_reservation_breaks own)⟩
  case faults =>
    intro s q charging claimed w2 w3 faulted
    have seen {kind : ChargeFault} {t : State} (h : Faulted kind s t) : faulted kind t :=
      ⟨h.state, h.current, h.learning, h.released, h.due, h.stopped, h.bleedSet, h.notice⟩
    constructor
    · intro trap cells packT tapOpen mv cell
      refine ⟨fun sound above => ?_, fun blind outside => ?_⟩
      · exact (cellSample_over q charging claimed ⟨trap, cells⟩ packT sound above).imp fun t h => ⟨h.1, seen h.2⟩
      · have unmatched : sampleMatches w2 (Six.toList cell) = false := Bool.eq_false_iff.mpr fun hit => by
          obtain ⟨v, mem, inside⟩ := (sampleMatches_cells _ _).mp hit
          rw [outside v mem] at inside
          cases inside
        exact (cellSample_blind q charging blind (unhit_of_w2 (fun same => absurd (packT.symm.trans same) (by decide))
          unmatched)).imp fun t h => ⟨h.1, seen h.2⟩
    · intro trap packT cells v r nearest
      refine ⟨fun low high hot => ?_, fun out => ?_⟩
      · exact (packTSample_hot q charging claimed ⟨trap, packT⟩ cells (temperatureOf_inRange nearest low high) hot).imp
          fun t h => ⟨h.1, seen h.2⟩
      · exact (packTSample_blind q charging (temperatureOf_outOfRange nearest out)).imp fun t h => ⟨h.1, seen h.2⟩

end Sys2Proof.Machine
end

section
/-! PROOF. The bound on the adopted and the pending target (R93, R95, R102): an evaluation sets it up again from any
state that rests in HALT, and whatever changes the target otherwise only takes a bounded one. -/

namespace Sys2Proof.Machine

variable {told : State → State}

/-! ### The computed target lies within the cap and the power (R111, R113, R114) -/

theorem withinPower_iff {kFan budget v : Nat} : withinPower kFan budget v = true ↔ kFan * v ^ 3 ≤ budget * 10 ^ 9 :=
  decide_eq_true_iff

theorem withinPower_zero (kFan budget : Nat) : withinPower kFan budget 0 = true := by
  simp [withinPower]

theorem withinPower_of_le {kFan budget u v : Nat} (le : u ≤ v) (h : withinPower kFan budget v = true) :
    withinPower kFan budget u = true :=
  withinPower_iff.mpr ((Nat.mul_le_mul_left _ (Nat.pow_le_pow_left le 3)).trans (withinPower_iff.mp h))

/-- Trying a bit keeps it only where the raised speed is within the budget. -/
theorem withinPower_raiseBound {kFan budget : Nat} (bits : Nat) {v : Nat} (h : withinPower kFan budget v = true) :
    withinPower kFan budget (raiseBound kFan budget bits v) = true := by
  induction bits generalizing v with
  | zero => exact h
  | succ n ih =>
    refine ih ?_
    split
    · next raised => exact (Bool.and_eq_true_iff.mp raised).2
    · exact h

theorem withinPower_powerBound (kFan budget : Nat) : withinPower kFan budget (powerBound kFan budget) = true :=
  withinPower_raiseBound 11 (withinPower_zero _ _)

theorem target_le_stage5 (i : PipelineInputs) : (pipeline i).target ≤ stage5 i := by
  show (if belowMinimum i then 0 else stage5 i) ≤ stage5 i
  split
  · exact Nat.zero_le _
  · exact Nat.le_refl _

theorem target_le_cap (i : PipelineInputs) : (pipeline i).target ≤ i.cap :=
  (target_le_stage5 i).trans (Nat.min_le_right _ _)

theorem target_withinPower (i : PipelineInputs) : withinPower i.kFan i.budget (pipeline i).target = true :=
  have below : (pipeline i).target ≤ powerBound i.kFan i.budget :=
    (target_le_stage5 i).trans ((Nat.min_le_left _ _).trans (Nat.min_le_right _ _))
  withinPower_of_le below (withinPower_powerBound _ _)

/-! ### The bound, by the speeds that a state bears -/

/-- A speed within the effective cap and within the budget that the suction controller holds. -/
structure Bearable (s : State) (v : Nat) : Prop where
  cap : v ≤ effectiveCap s.snc.stack
  power : withinPower s.ka.suction.kFan s.snc.budget v = true

theorem Bearable.of_le {s : State} {u v : Nat} (le : u ≤ v) (h : Bearable s v) : Bearable s u :=
  ⟨le.trans h.cap, withinPower_of_le le h.power⟩

theorem Bearable.of_same {s t : State} {v : Nat} (h : Bearable s v) (stack : t.snc.stack = s.snc.stack)
    (budget : t.snc.budget = s.snc.budget) (suction : t.ka.suction = s.ka.suction) : Bearable t v :=
  ⟨by rw [stack]; exact h.cap, by rw [budget, suction]; exact h.power⟩

theorem bearable_zero (s : State) : Bearable s 0 := ⟨Nat.zero_le _, withinPower_zero _ _⟩

theorem bearable_target (s : State) : Bearable s (pipeline (pipelineInputs s)).target :=
  ⟨target_le_cap _, target_withinPower (pipelineInputs s)⟩

theorem targetBounded_of_bearable {s : State} (adopted : Bearable s s.snc.adopted)
    (held : ∀ m p, s.snc.suction = .held m p → Bearable s p)
    (halt : s.snc.suction.isHalt = true → s.snc.adopted = 0) : TargetBounded s where
  cap := ⟨adopted.cap, fun m p h => (held m p h).cap, halt⟩
  power := ⟨fun _ _ => adopted.power, fun _ _ m p h => (held m p h).power⟩

/-- A state at rest outside HELD is bounded whatever its caps and its budget. -/
theorem targetBounded_of_rest {s : State} (adopted : s.snc.adopted = 0) (free : ∀ m p, s.snc.suction ≠ .held m p) :
    TargetBounded s :=
  targetBounded_of_bearable (by rw [adopted]; exact bearable_zero s) (fun m p h => absurd h (free m p)) fun _ => adopted

theorem not_held_of_halt {c : Suction} (halt : c.isHalt = true) (m : Motion) (p : Nat) : c ≠ .held m p := by
  rintro rfl
  cases halt

/-! ### Changes that leave the bound -/

/-- What the bound reads of the suction controller stays: the adopted target, the pending one, HALT, the stack and the
budget. The motion may change. -/
structure SameTarget (c d : Snc) : Prop where
  adopted : d.adopted = c.adopted
  pending : ∀ m p, d.suction = .held m p → ∃ n, c.suction = .held n p
  halt : d.suction.isHalt = c.suction.isHalt
  stack : d.stack = c.stack
  budget : d.budget = c.budget

theorem SameTarget.of_suction {c d : Snc} (suction : d.suction = c.suction) (adopted : d.adopted = c.adopted)
    (stack : d.stack = c.stack) (budget : d.budget = c.budget) : SameTarget c d :=
  ⟨adopted, fun m _ h => ⟨m, suction ▸ h⟩, by rw [suction], stack, budget⟩

theorem SameTarget.refl (c : Snc) : SameTarget c c := .of_suction rfl rfl rfl rfl

theorem TargetBounded.of_same {s t : State} (h : TargetBounded s) (snc : SameTarget s.snc t.snc)
    (suction : t.ka.suction = s.ka.suction) (marker : t.ka.marker = s.ka.marker)
    (domain : t.domain = .awake → s.domain = .awake) : TargetBounded t where
  cap :=
    { adopted := by rw [snc.adopted, snc.stack]; exact h.cap.adopted
      held := fun m p held => by
        obtain ⟨n, held⟩ := snc.pending m p held
        rw [snc.stack]
        exact h.cap.held n p held
      halt := by rw [snc.adopted, snc.halt]; exact h.cap.halt }
  power :=
    { adopted := fun d m => by
        rw [suction, snc.budget, snc.adopted]
        exact h.power.adopted (domain d) (marker ▸ m)
      held := fun d m n p held => by
        obtain ⟨n, held⟩ := snc.pending n p held
        rw [suction, snc.budget]
        exact h.power.held (domain d) (marker ▸ m) n p held }

theorem TargetBounded.of_snc {s t : State} (h : TargetBounded s) (snc : t.snc = s.snc) (ka : t.ka = s.ka)
    (domain : t.domain = s.domain) : TargetBounded t :=
  h.of_same (snc ▸ .refl _) (by rw [ka]) (by rw [ka]) fun d => domain ▸ d

theorem TargetBounded.modSnc {s : State} (h : TargetBounded s) {f : Snc → Snc} (same : SameTarget s.snc (f s.snc)) :
    TargetBounded (s.modSnc f) := h.of_same same rfl rfl id

theorem carried_ka (f : Snc → Snc) (s : State) : (carried f s).ka = s.ka := by
  unfold carried
  split <;> rfl

theorem askNotice_targetBounded (k : NoticeKind) : Keeps TargetBounded (askNotice k) := fun _ h => h.of_snc rfl rfl rfl

theorem commitSuction_targetBounded (ht : Keeps TargetBounded told) {f : Snc → Snc} {s : State}
    (h : TargetBounded (carried f s)) : TargetBounded (commitSuction told f s) :=
  commitSuction_keeps askNotice_targetBounded ht h

theorem commitSuction_sameTarget (ht : Keeps TargetBounded told) {f : Snc → Snc} {s : State} (h : TargetBounded s)
    (same : SameTarget s.snc (f s.snc)) : TargetBounded (commitSuction told f s) :=
  commitSuction_targetBounded ht (h.of_same (by rw [carried_snc]; exact same) (by rw [carried_ka]) (by rw [carried_ka])
    fun d => (carried_line f s).domain ▸ d)

/-! ### An adoption, a hold and HALT -/

theorem adoptInto_adopted (target speed : Nat) (m : Motion) (c : Snc) :
    (c.adoptInto target speed m).adopted = target := by
  unfold Snc.adoptInto Snc.adopt
  split
  · next same => exact same.symm
  · rfl

theorem adoptInto_stack (target speed : Nat) (m : Motion) (c : Snc) : (c.adoptInto target speed m).stack = c.stack := by
  unfold Snc.adoptInto Snc.adopt
  split <;> rfl

theorem adoptInto_budget (target speed : Nat) (m : Motion) (c : Snc) :
    (c.adoptInto target speed m).budget = c.budget := by
  unfold Snc.adoptInto Snc.adopt
  split <;> rfl

/-- An adopted target that the state bears leaves the bound, whatever stood before. -/
theorem commitSuction_adopts (ht : Keeps TargetBounded told) {s : State} {target : Nat} (bears : Bearable s target)
    (speed : Nat) (m : Motion) : TargetBounded (commitSuction told (Snc.adoptInto target speed m) s) := by
  refine commitSuction_targetBounded ht (targetBounded_of_bearable ?_ ?_ ?_)
  · rw [carried_snc, adoptInto_adopted]
    exact bears.of_same (by rw [carried_snc, adoptInto_stack]) (by rw [carried_snc, adoptInto_budget]) (by rw [carried_ka])
  · rw [carried_snc]
    exact fun _ _ held => nomatch held
  · rw [carried_snc]
    exact nofun

/-- So does a pending target that it bears, over an adopted one no greater. -/
theorem commitSuction_holds (ht : Keeps TargetBounded told) {s : State} {target : Nat} (bears : Bearable s target)
    (above : s.snc.adopted ≤ target) (m : Motion) :
    TargetBounded (commitSuction told (fun c => { c with suction := .held m target }) s) := by
  have carries : Bearable (carried (fun c => { c with suction := .held m target }) s) target :=
    bears.of_same (by rw [carried_snc]) (by rw [carried_snc]) (by rw [carried_ka])
  refine commitSuction_targetBounded ht (targetBounded_of_bearable ?_ ?_ ?_)
  · exact carries.of_le (by rw [carried_snc]; exact above)
  · rw [carried_snc]
    rintro _ _ ⟨⟩
    exact carries
  · rw [carried_snc]
    exact nofun

theorem halted_isHalt (cause : HaltCause) (c : Snc) : (c.halted cause).suction.isHalt = true := by
  unfold Snc.halted
  split
  · next halt => exact halt
  · rfl

theorem enterHalt_targetBounded (ht : Keeps TargetBounded told) (cause : HaltCause) :
    Keeps TargetBounded (enterHalt told cause) := by
  intro s h
  have adopted : (s.snc.halted cause).adopted = 0 := by
    unfold Snc.halted
    split
    · next halt => exact h.cap.halt halt
    · rfl
  refine commitSuction_targetBounded ht (targetBounded_of_rest ?_ ?_) <;> rw [carried_snc]
  · exact adopted
  · exact not_held_of_halt (halted_isHalt cause _)

/-! ### An evaluation sets the bound up (R91, R93) -/

theorem recordGateHits_ka (target : Nat) (s : State) : (recordGateHits target s).ka = s.ka :=
  recordGateHits_drive (I := fun t => t.ka = s.ka) (fun _ _ driven h => driven.ka.trans h) target s rfl

theorem takeTarget_targetBounded (ht : Keeps TargetBounded told) {s : State} {target : Nat} (bears : Bearable s target)
    (awake : s.snc.suction.isHalt = false) : TargetBounded (takeTarget told target s) := by
  have gated : Bearable (recordGateHits target s) target :=
    bears.of_same (by rw [recordGateHits_snc]) (by rw [recordGateHits_snc]) (by rw [recordGateHits_ka])
  unfold takeTarget
  dsimp only
  split
  · next halt =>
    rw [halt] at awake
    cases awake
  · split
    · next above => exact commitSuction_holds ht bears above.le _
    · exact commitSuction_adopts ht bears _ _
  · split
    · exact commitSuction_adopts ht bears _ _
    · next above =>
      split
      · exact commitSuction_holds ht gated (by rw [recordGateHits_snc]; omega) _
      · exact commitSuction_adopts ht gated _ _

theorem reportComputed_ka (c : Computed) (s : State) : (reportComputed c s).ka = s.ka := by
  have one := reportIf_keeps (I := fun t => t.ka = s.ka) fun flag src t h => (reportCondition_driven flag src t).ka.trans h
  exact one _ _ _ _ (one _ _ _ _ (one _ _ _ _ (one _ _ _ s rfl)))

/-- Whatever stood before, the target that an evaluation leaves is bounded. -/
theorem evaluate_targetBounded (ht : Keeps TargetBounded told) {s : State}
    (halt : s.snc.suction.isHalt = true → s.snc.adopted = 0) : TargetBounded (evaluate told s) := by
  unfold evaluate
  split
  · next halted => exact targetBounded_of_rest (halt halted) (not_held_of_halt halted)
  · next awake =>
    have reported := reportComputed_snc (pipeline (pipelineInputs s)) s
    refine takeTarget_targetBounded ht ((bearable_target s).of_same (congrArg Snc.stack reported :)
      (congrArg Snc.budget reported :) (by rw [reportComputed_ka])) ?_
    rw [show (reportComputed _ s).snc.suction = s.snc.suction from (congrArg Snc.suction reported :)]
    exact Bool.not_eq_true _ ▸ awake

theorem evaluate_keeps_targetBounded (ht : Keeps TargetBounded told) : Keeps TargetBounded (evaluate told) :=
  fun _ h => evaluate_targetBounded ht h.cap.halt

/-- So is the target after a change of the stack. -/
theorem changeStack_targetBounded (ht : Keeps TargetBounded told) {s : State} (h : TargetBounded s) {c : Option Snc}
    (drive : ∀ d, c = some d → d.suction = s.snc.suction ∧ d.adopted = s.snc.adopted) :
    TargetBounded (changeStack told c s) := by
  cases c with
  | none => exact h
  | some d =>
    obtain ⟨suction, adopted⟩ := drive d rfl
    refine evaluate_targetBounded ht ?_
    show d.suction.isHalt = true → d.adopted = 0
    rw [suction, adopted]
    exact h.cap.halt

theorem setMark_targetBounded (src : Source) (b : Bool) : Keeps TargetBounded (setMark src b) := fun _ h =>
  h.modSnc (.of_suction rfl rfl rfl rfl)

/-! ### The events of the suction controller -/

theorem withMotion_pending {c : Suction} {n m : Motion} {p : Nat} (h : c.withMotion n = .held m p) :
    ∃ k, c = .held k p := by
  cases c with
  | held k q =>
    obtain ⟨-, rfl⟩ := Suction.held.inj h
    exact ⟨k, rfl⟩
  | moving _ | halt _ => cases h

theorem withMotion_isHalt (c : Suction) (n : Motion) : (c.withMotion n).isHalt = c.isHalt := by
  cases c <;> rfl

theorem moveTo_sameTarget (old new : Motion) (c : Snc) : SameTarget c (c.moveTo old new) :=
  ⟨rfl, fun _ _ h => withMotion_pending h, withMotion_isHalt _ _, rfl, rfl⟩

theorem testSpinUp_sameTarget (speed : Nat) (c : Snc) : SameTarget c (c.testSpinUp speed) := by
  unfold Snc.testSpinUp
  split
  · exact moveTo_sameTarget _ _ c
  · exact .refl c

theorem speedMoves_sameTarget (speed : Nat) (c : Snc) : SameTarget c (c.speedMoves speed) := by
  unfold Snc.speedMoves
  split
  · exact testSpinUp_sameTarget speed c
  · split
    · have moved := moveTo_sameTarget .brake .off c
      exact ⟨moved.adopted, moved.pending, moved.halt, moved.stack, moved.budget⟩
    · exact .refl c
  · split
    · exact moveTo_sameTarget _ _ c
    · exact .refl c
  all_goals exact .refl c

theorem slewStep_sameTarget (e : SuctionEntry) (c : Snc) : SameTarget c (c.slewStep e) := by
  unfold Snc.slewStep
  split <;> exact .of_suction rfl rfl rfl rfl

theorem countSpinUp_sameTarget (c : Snc) : SameTarget c c.countSpinUp := by
  unfold Snc.countSpinUp
  split <;> exact .of_suction rfl rfl rfl rfl

theorem countStall_sameTarget (speed : Nat) (c : Snc) : SameTarget c (c.countStall speed) := by
  unfold Snc.countStall
  split <;> exact .of_suction rfl rfl rfl rfl

theorem countOver_sameTarget (current limit : Nat) (c : Snc) : SameTarget c (c.countOver current limit) := by
  unfold Snc.countOver
  split <;> exact .of_suction rfl rfl rfl rfl

theorem speedTold_targetBounded (ht : Keeps TargetBounded told) : Keeps TargetBounded (speedTold told) := by
  intro s h
  have counted := h.modSnc (countStall_sameTarget s.chan.speed s.snc)
  unfold speedTold
  dsimp only
  split
  · split
    · exact enterHalt_targetBounded ht _ _ counted
    · exact counted
  · exact commitSuction_sameTarget ht h (speedMoves_sameTarget _ _)

theorem motorITold_targetBounded (ht : Keeps TargetBounded told) : Keeps TargetBounded (motorITold told) := by
  intro s h
  have counted := h.modSnc (countOver_sameTarget s.chan.motorI s.ka.suction.currentLimit s.snc)
  unfold motorITold
  dsimp only
  split
  · exact enterHalt_targetBounded ht _ _ counted
  · exact counted

theorem controlPeriod_targetBounded (ht : Keeps TargetBounded told) : Keeps TargetBounded (controlPeriod told) := by
  intro s h
  have slewed := (evaluate_keeps_targetBounded ht s h).modSnc (slewStep_sameTarget (evaluate told s).ka.suction _)
  have tested := commitSuction_sameTarget ht slewed (testSpinUp_sameTarget (evaluate told s).chan.speed _)
  have counted := tested.modSnc (countSpinUp_sameTarget _)
  unfold controlPeriod
  dsimp only
  split
  · exact enterHalt_targetBounded ht _ _ counted
  · exact counted

theorem raiseHard_targetBounded (ht : Keeps TargetBounded told) (src : Source) :
    Keeps TargetBounded (raiseHard told src) := by
  intro s h
  have marked := setMark_targetBounded src true s h
  unfold raiseHard
  dsimp only
  split
  · exact h
  · split
    · exact enterHalt_targetBounded ht _ _ marked
    · exact changeStack_targetBounded ht marked fun _ raised => raised?_drive raised

theorem clearHard_targetBounded (ht : Keeps TargetBounded told) (src : Source) :
    Keeps TargetBounded (clearHard told src) := by
  intro s h
  unfold clearHard
  split
  · exact changeStack_targetBounded ht (setMark_targetBounded src false s h) fun _ cleared => cleared?_drive cleared
  · exact h

theorem reportCondition_targetBounded (flag : ConditionFlag) (src : ConditionSource) :
    Keeps TargetBounded (reportCondition flag src) := by
  intro s h
  have set := h.modSnc (f := fun c => { c with conditions := c.conditions.set flag src }) (.of_suction rfl rfl rfl rfl)
  unfold reportCondition
  dsimp only
  split
  · exact h
  · split
    · exact askNotice_targetBounded _ _ set
    · exact set

theorem targetBounded_dockKept : DockKept TargetBounded where
  raiseSoft ht src cap s h := by
    unfold raiseSoft
    split
    · exact changeStack_targetBounded ht h fun _ raised => raised?_drive raised
    · exact h
  clearSoft ht src s h := changeStack_targetBounded ht h fun _ cleared => cleared?_drive cleared
  tellBudget ht w s h := evaluate_targetBounded ht h.cap.halt
  report := reportCondition_targetBounded
  compareBudget := compareKept (fun _ _ _ h => h.of_snc rfl rfl rfl) (fun _ _ h => h.of_snc rfl rfl rfl) .budget
  link _ _ _ h := h.of_snc rfl rfl rfl
  chan _ _ _ h := h.of_snc rfl rfl rfl
  budget _ _ h := h.of_snc rfl rfl rfl
  draws _ _ h := h.of_snc rfl rfl rfl
  evaluate := evaluate_keeps_targetBounded
  raiseHard := raiseHard_targetBounded
  clearHard := clearHard_targetBounded
  speedTold := speedTold_targetBounded
  motorITold := motorITold_targetBounded
  controlPeriod := controlPeriod_targetBounded
  ka _ settings s h := h.of_same (.refl _) (settings s.ka).1.suction (settings s.ka).2 id
  t1 _ _ h := h.of_snc rfl rfl rfl
  t2 _ _ h := h.of_snc rfl rfl rfl
  wcu _ _ h := h.of_snc rfl rfl rfl
  dsu _ _ h := h.of_snc rfl rfl rfl
  pmg _ _ h := h.of_snc rfl rfl rfl
  ask _ h := h.of_snc rfl rfl rfl
  leave _ h := h.of_snc rfl rfl rfl
  reservation _ _ h := h.of_snc rfl rfl rfl
  bleed _ _ h := h.of_snc rfl rfl rfl
  dlc _ _ h := h.of_snc rfl rfl rfl

theorem tellSuction_targetBounded : Keeps TargetBounded tellSuction :=
  tellSuction_keeps targetBounded_dockKept.toControlKept

/-! ### Starts, supplies and losses -/

/-- Without the marker, or while the main domain does not run, the bound asks for the caps alone. -/
theorem TargetBounded.of_unpowered {s t : State} (h : TargetBounded s) (snc : t.snc = s.snc)
    (unpowered : ¬(t.domain = .awake ∧ t.ka.marker = true)) : TargetBounded t :=
  ⟨snc ▸ h.cap, fun d m => absurd ⟨d, m⟩ unpowered, fun d m => absurd ⟨d, m⟩ unpowered⟩

theorem targetBounded_stepWrites : StepWrites TargetBounded where
  accept r s h := by
    unfold acceptRequest setOverrun
    split <;> exact h.of_snc rfl rfl rfl
  tdu _ _ _ h := h.of_snc rfl rfl rfl
  sampled _ _ _ h := h.of_snc rfl rfl rfl
  pins _ _ h := h.of_snc rfl rfl rfl
  pending _ _ h := h.of_snc rfl rfl rfl
  stopped _ stopped _ h := h.of_same (.refl _) rfl rfl fun awake => absurd awake stopped
  warm _ _ _ _ _ := targetBounded_of_rest rfl fun _ _ => nofun
  lost _ h := h.of_unpowered rfl fun ⟨_, marker⟩ => nomatch marker
  cold _ stopped _ h := h.of_unpowered rfl fun ⟨awake, _⟩ => absurd awake stopped
  coldWarm _ _ _ _ _ := targetBounded_of_rest rfl fun _ _ => nofun

/-! ### Requests of the host -/

theorem pushMarked_targetBounded : Keeps TargetBounded pushMarked := by
  intro s h
  unfold pushMarked
  generalize markedSources s.snc = sources
  induction sources generalizing s with
  | nil => exact h
  | cons src sources ih =>
    exact ih _ (changeStack_targetBounded tellSuction_targetBounded h fun _ raised => raised?_drive raised)

theorem clearHalt_targetBounded : Keeps TargetBounded fun s => (clearHalt s).state := by
  intro s h
  have pushed := pushMarked_targetBounded s h
  dsimp only
  unfold clearHalt
  split
  · exact h
  · next halted =>
    split
    · exact h
    · split
      · exact h
      · have rests : (pushMarked s).snc.adopted = 0 := pushed.cap.halt (pushMarked_halt (Bool.not_eq_false _ ▸ halted))
        refine evaluate_keeps_targetBounded tellSuction_targetBounded _
          (commitSuction_targetBounded tellSuction_targetBounded (targetBounded_of_rest ?_ ?_)) <;> rw [carried_snc]
        · exact rests
        · exact fun _ _ => nofun

theorem resume_targetBounded : Keeps TargetBounded fun s => (resume s).state := by
  intro s h
  dsimp only
  unfold resume
  split
  · next m p held =>
    refine commitSuction_targetBounded tellSuction_targetBounded ⟨⟨?_, ?_, ?_⟩, ⟨?_, ?_⟩⟩ <;>
      simp only [carried_snc, carried_ka, adoptInto_adopted, adoptInto_stack, adoptInto_budget]
    · exact h.cap.held m p held
    · exact fun _ _ => nofun
    · exact nofun
    · exact fun d marker => h.power.held ((carried_line _ s).domain ▸ d) marker m p held
    · exact fun _ _ _ _ => nofun
  all_goals exact h

theorem selectPreset_targetBounded (p : Byte) : Keeps TargetBounded fun s => (selectPreset p s).state := by
  intro s h
  dsimp only
  unfold selectPreset
  split
  · exact h
  · split
    · exact h
    · refine evaluate_targetBounded tellSuction_targetBounded ?_
      split <;> exact h.cap.halt

theorem setBoost_targetBounded (flag : Byte) : Keeps TargetBounded fun s => (setBoost flag s).state := by
  intro s h
  dsimp only
  unfold setBoost
  split
  · exact h
  · split <;> exact evaluate_targetBounded tellSuction_targetBounded h.cap.halt

theorem setSoftOverrides_targetBounded (flag : Byte) : Keeps TargetBounded fun s => (setSoftOverrides flag s).state := by
  intro s h
  dsimp only
  unfold setSoftOverrides
  split
  · exact h
  · exact h.modSnc (f := fun c => { c with softOverrides := flagOf flag }) (.of_suction rfl rfl rfl rfl)

theorem pushOverride_targetBounded (cap : Nat) : Keeps TargetBounded fun s => (pushOverride cap s).state := by
  intro s h
  dsimp only
  unfold pushOverride
  dsimp only
  split
  · exact h
  · split
    · exact h
    · split
      · exact h
      · next c raised =>
        exact changeStack_targetBounded tellSuction_targetBounded (c := some c) h fun _ same =>
          Option.some.inj same ▸ raised?_drive raised

/-! ### Writes of sections -/

/-- The section that a parsed value is an entry of. -/
def EntryValue.owner : EntryValue → SectionId
  | .preset _ => .preset
  | .suction _ => .suction
  | .dirt _ => .dirt
  | .gauge _ => .gauge
  | .charge _ => .charge
  | .limits _ => .limits
  | .watch _ => .watch
  | .timer _ => .timer
  | .service _ => .service
  | .notice _ _ => .notice

theorem parseEntry_owner {sec : SectionId} {b : List Byte} {p : Parsed} (h : parseEntry sec b = some p) :
    p.value.owner = sec := by
  have given {q : Parsed} (k : some q = some p) (own : q.value.owner = sec) : p.value.owner = sec :=
    Option.some.inj k ▸ own
  have tested {c : Prop} [Decidable c] {q : Parsed} (k : (if c then some q else none) = some p)
      (own : q.value.owner = sec) : p.value.owner = sec :=
    given (Option.ite_none_right_eq_some.mp k).2 own
  unfold parseEntry at h
  split at h
  case h_2 | h_3 | h_5 => exact tested h rfl
  case h_7 =>
    unfold parseWatch at h
    split at h
    · exact tested h rfl
    · cases h
  case h_8 =>
    unfold parseTimer at h
    split at h
    · exact given h rfl
    · cases h
  case h_11 => cases h
  all_goals exact given h rfl

theorem parseAll_owner {sec : SectionId} {parts : List (List Byte)} {entries : List Parsed}
    (h : parseAll sec parts = some entries) : ∀ p ∈ entries, p.value.owner = sec := by
  induction parts generalizing entries with
  | nil =>
    obtain rfl := Option.some.inj h
    exact fun _ m => absurd m List.not_mem_nil
  | cons b rest ih =>
    unfold parseAll at h
    split at h
    · next p qs parsed restParsed =>
      obtain rfl := Option.some.inj h
      exact List.forall_mem_cons.mpr ⟨parseEntry_owner parsed, ih restParsed⟩
    · cases h

theorem storeEntries_snc (first : Nat) (entries : List Parsed) (s : State) :
    (storeEntries first entries s).snc = s.snc := by
  induction entries generalizing first s with
  | nil => rfl
  | cons p entries ih =>
    refine (ih _ _).trans ?_
    unfold storeEntry
    cases p.value <;> rfl

/-- Only entries of SUCTION write what the bound reads of the keep-alive domain. -/
theorem storeEntries_targetBounded {first : Nat} {entries : List Parsed}
    (other : ∀ p ∈ entries, p.value.owner ≠ .suction) : Keeps TargetBounded (storeEntries first entries) := by
  induction entries generalizing first with
  | nil => exact fun _ h => h
  | cons p entries ih =>
    rw [List.forall_mem_cons] at other
    refine fun s h => ih other.2 _ ?_
    have own := other.1
    unfold storeEntry
    cases hv : p.value with
    | suction e => exact absurd (congrArg EntryValue.owner hv) own
    | watch _ | timer _ | notice _ _ => exact h.of_snc rfl rfl rfl
    | preset _ | dirt _ | gauge _ | charge _ | limits _ | service _ => exact h.of_same (.refl _) rfl rfl id

theorem applyWrite_targetBounded {sec : SectionId} {parts : List (List Byte)} {entries : List Parsed}
    (parsed : parseAll sec parts = some entries) (first count : Nat) :
    Keeps TargetBounded (applyWrite tellSuction sec first count entries) := by
  intro s h
  have kept := targetBounded_dockKept.toControlKept
  have ht := tellSuction_targetBounded
  have stored (other : sec ≠ .suction) :
      TargetBounded (breakReservation sec first count (storeEntries first entries s)) :=
    breakReservation_keeps kept sec first count _ (storeEntries_targetBounded (fun p m => by
      rw [parseAll_owner parsed p m]
      exact other) s h)
  have rests : (storeEntries first entries s).snc.suction.isHalt = true →
      (storeEntries first entries s).snc.adopted = 0 := by
    rw [storeEntries_snc]
    exact h.cap.halt
  unfold applyWrite
  cases sec with
  | preset =>
    simp only [sectionWritten]
    split
    · exact evaluate_targetBounded ht rests
    · exact stored nofun
  | suction => exact evaluate_targetBounded ht rests
  | gauge => exact (stored nofun).of_same (.refl _) rfl rfl id
  | charge =>
    simp only [sectionWritten, chargeWritten]
    split
    · exact askChanged_keeps kept _ _ _ (stored nofun)
    · exact chargeEntryTest_keeps kept ht _ (stored nofun)
  | watch => exact tellCleared_keeps kept ht _ _ _ ((stored nofun).of_snc rfl rfl rfl)
  | notice => exact (stored nofun).of_snc rfl rfl rfl
  | dirt | limits | timer | service => exact stored nofun

theorem targetBounded_stepKept : StepKept TargetBounded where
  toDockKept := targetBounded_dockKept
  toStepWrites := targetBounded_stepWrites
  selectPreset := selectPreset_targetBounded
  resume := resume_targetBounded
  clearHalt := clearHalt_targetBounded
  readClearConditions _ h := h.modSnc (f := fun c => { c with conditions := Conditions.clear }) (.of_suction rfl rfl rfl rfl)
  setBoost := setBoost_targetBounded
  setSoftOverrides := setSoftOverrides_targetBounded
  pushOverride := pushOverride_targetBounded
  write _ first count _ _ parsed := applyWrite_targetBounded parsed first count

/-- Settles O43: the bound is an invariant of `StepKept`, which every step keeps; every change of a cap, of the budget or
of the fan coefficient is followed by an evaluation, which sets the bound up. -/
theorem targetStaysBounded : Obligations.TargetStaysBounded := by
  unfold Obligations.TargetStaysBounded
  exact fun _ _ h hst => step_keeps targetBounded_stepKept h hst

end Sys2Proof.Machine
end

section
/-! PROOF. An evaluation whose own adoption leads to another (R91, R105, R153, entry 10): the entry to OFF clears the boost
level, and where a lost keep-alive record has left a base speed above 1250, the figure without boost is the greater one. -/

namespace Sys2Proof.Machine

/-- RUN at 600 su while the motor stands, with a hot motor, boost level 1 and a base speed of 2000 that a lost record has
left. With boost the figure of stage 2 is held at 1250 and the derated one is below S_min, so the computed target is 0;
without boost stage 2 is 2000 and the derated figure is S_min. -/
def lostPresetRun : State :=
  { State.reset with
    ka := { KeepAlive.cold with
      presets := KeepAlive.cold.presets.set .p1 { base := 2000, step := 0, ceiling := 0, notify := false } }
    chan := { Channels.warm with motorT := .valid 105 }
    snc := { Snc.warm with suction := .moving .run, preset := .p1, adopted := 600, applied := 600, budget := 400 }
    dsu := { Dsu.warm with boostLevel := 1 } }

theorem lostPresetRun_target : (pipeline (pipelineInputs lostPresetRun)).target = 0 := by decide

/-- The evaluation adopts 0 and enters OFF; the entry clears the boost level, and the evaluation that follows it adopts 250
and enters SPINUP. -/
theorem lostPresetRun_evaluated :
    (evaluate tellSuction lostPresetRun).snc.adopted = 250 ∧
      (evaluate tellSuction lostPresetRun).snc.suction = .moving .spinUp := by decide

/-- Refutes O34: a computed target below the adopted one is adopted, but the entry to OFF that it leads to is followed by a
further evaluation, with the boost level cleared, within the same event. -/
theorem not_targetIsTaken : ¬ Obligations.TargetIsTaken := by
  unfold Obligations.TargetIsTaken
  intro h
  have sound : HardCapsZero lostPresetRun.snc := fun _ m => nomatch m
  have regulates : RestsAtZero lostPresetRun.snc := show 0 < 600 by decide
  obtain ⟨-, moving, -⟩ := h lostPresetRun sound regulates
  have taken := (moving .run rfl).1 (by decide)
  rw [lostPresetRun_target, lostPresetRun_evaluated.1] at taken
  cases taken

/-- Refutes O35: RUN at target 0 below 50 su goes to OFF, but in the same evaluation on to SPINUP. -/
theorem not_adoptionMoves : ¬ Obligations.AdoptionMoves := by
  unfold Obligations.AdoptionMoves
  intro h
  have sound : HardCapsZero lostPresetRun.snc := fun _ m => nomatch m
  obtain ⟨-, moves⟩ := h lostPresetRun .run sound rfl
  obtain ⟨-, -, -, stops, -⟩ := moves (.inl (by decide))
  have stopped := (stops (.inr rfl) lostPresetRun_target (by decide)).1
  rw [lostPresetRun_evaluated.2] at stopped
  cases stopped

end Sys2Proof.Machine
end

section
/-! PROOF. A change of the drive as it is carried out and told, the entry to HALT, SelectPreset and Resume (R88, R95, R96,
R102, R105, R106). -/

namespace Sys2Proof.Machine

variable {told : State → State}

/-! ### A change of the drive by what it reports -/

/-- A state whose suction controller has taken `d`, with the run mark that follows it (R62). -/
def State.drives (d : Snc) (s : State) : State :=
  (s.modSnc fun _ => d).modTdu fun x => { x with runMark := d.isRunning }

@[simp] theorem drives_snc (d : Snc) (s : State) : (s.drives d).snc = d := rfl
@[simp] theorem drives_chan (d : Snc) (s : State) : (s.drives d).chan = s.chan := rfl

theorem carried_drives {f : Snc → Snc} {s : State} (same : (f s.snc).adopted = s.snc.adopted) :
    carried f s = s.drives (f s.snc) := by
  unfold carried
  rw [if_pos same]
  rfl

theorem carried_link (f : Snc → Snc) (s : State) : (carried f s).link = s.link := by
  unfold carried
  split <;> rfl

/-- A change of the adopted target stores TARGET (R105). -/
theorem carried_target {f : Snc → Snc} {s : State} (moved : (f s.snc).adopted ≠ s.snc.adopted) :
    (carried f s).chan.target = (f s.snc).adopted := by
  unfold carried
  rw [if_neg moved]
  rfl

theorem commitSuction_kept {f : Snc → Snc} {s : State} (kept : (f s.snc).suction.reported = s.snc.suction.reported) :
    commitSuction told f s = carried f s := by
  rw [commitSuction_eq, if_pos kept]

theorem commitSuction_told {f : Snc → Snc} {s : State} (changed : (f s.snc).suction.reported ≠ s.snc.suction.reported) :
    commitSuction told f s = told (askNotice .suction (carried f s)) := by
  rw [commitSuction_eq, if_neg changed]

/-- A change into a state outside OFF and HALT is told to no one who acts on it (R105). -/
theorem commitSuction_silent {f : Snc → Snc} {s : State} (changed : (f s.snc).suction.reported ≠ s.snc.suction.reported)
    (silent : (f s.snc).suction.reported = .spinUp ∨ (f s.snc).suction.reported = .run ∨
      (f s.snc).suction.reported = .held ∨ (f s.snc).suction.reported = .brake) :
    commitSuction tellSuction f s = askNotice .suction (carried f s) := by
  rw [commitSuction_told changed]
  refine tellSuction_silent ?_
  rw [show (askNotice .suction (carried f s)).snc = f s.snc from carried_snc f s]
  exact silent

theorem tellSuction_notice {s : State} (marked : s.link.notices.suction = true) :
    (tellSuction s).link.notices.suction = true :=
  tellSuction_moves (noticeStays_closed .suction) s marked

/-- A change of the reported state asks for the SUCTION notice, which its telling does not withdraw (R106). -/
theorem commitSuction_notice {f : Snc → Snc} {s : State} (changed : (f s.snc).suction.reported ≠ s.snc.suction.reported)
    (enabled : s.link.enables.suction = true) : (commitSuction tellSuction f s).link.notices.suction = true := by
  rw [commitSuction_told changed]
  refine tellSuction_notice (askNotice_marks (k := .suction) ?_)
  rw [carried_link]
  exact enabled

/-! ### The entry to HALT (R102) -/

theorem isHalt_iff_reported {c : Suction} : c.isHalt = true ↔ c.reported = .halt := by
  cases c with
  | moving m => cases m <;> simp [Suction.isHalt, Suction.reported]
  | held _ _ | halt _ => simp [Suction.isHalt, Suction.reported]

theorem tellSuction_halt {s : State} (halt : s.snc.suction.isHalt = true) : (tellSuction s).snc = s.snc := by
  unfold tellSuction suctionTold
  rw [isHalt_iff_reported.mp halt]
  show (dirtStop id s).snc = s.snc
  rw [dirtStop_halt halt, takeBoostLevel]
  split <;> rfl

theorem enterHalt_changes {c : Snc} (awake : c.suction.isHalt = false) (cause : HaltCause) :
    (c.halted cause).suction.reported ≠ c.suction.reported := by
  rw [isHalt_iff_reported.mp (halted_isHalt cause c)]
  intro same
  rw [isHalt_iff_reported.mpr same.symm] at awake
  cases awake

theorem enterHalt_snc {s : State} (awake : s.snc.suction.isHalt = false) (cause : HaltCause) :
    (enterHalt tellSuction cause s).snc = s.snc.halted cause := by
  unfold enterHalt
  rw [commitSuction_told (enterHalt_changes awake cause)]
  have entered : (askNotice .suction (carried (Snc.halted cause) s)).snc = s.snc.halted cause := carried_snc _ s
  rw [tellSuction_halt (by rw [entered]; exact halted_isHalt cause _)]
  exact entered

theorem halted_eq {c : Snc} (awake : c.suction.isHalt = false) (cause : HaltCause) :
    c.halted cause =
      { c with
        suction := .halt cause
        adopted := 0
        applied := 0
        spinUpCount := 0
        stallCount := 0
        overCount := 0 } := by
  unfold Snc.halted
  rw [awake]
  rfl

/-- HALT as it is entered from a state outside it: at rest, and with its notice where the enables of `l` grant it (R102,
R106). -/
structure Halts (cause : HaltCause) (l : Link) (t : State) : Prop where
  suction : t.snc.suction = .halt cause
  adopted : t.snc.adopted = 0
  applied : t.snc.applied = 0
  overCount : t.snc.overCount = 0
  notice : l.enables.suction = true → t.link.notices.suction = true

theorem enterHalt_halts {s : State} (awake : s.snc.suction.isHalt = false) (cause : HaltCause) :
    Halts cause s.link (enterHalt tellSuction cause s) := by
  refine ⟨?_, ?_, ?_, ?_, commitSuction_notice (enterHalt_changes awake cause)⟩ <;>
    rw [enterHalt_snc awake, halted_eq awake]

theorem isHalt_of_motion {c : Suction} {m : Motion} (h : c.motion? = some m) : c.isHalt = false := by
  cases c with
  | halt _ => cases h
  | moving _ | held _ _ => rfl

/-! ### SelectPreset (R88) -/

theorem exec_selectPreset {s : State} (ready : Ready s) (preset : Byte) :
    exec (.selectPreset preset) s =
      .next ((selectPreset preset s).state.withReply
        (replyFrame 0x06 (selectPreset preset s).status (selectPreset preset s).body)) :=
  requestStep_of_ready ready 0x06 [preset] rfl rfl

theorem presetOf?_none {b : Byte} (h : 8 ≤ b.toNat) : presetOf? b = none := by
  unfold presetOf?
  split
  case h_9 => rfl
  all_goals omega

theorem presetOf?_presetNo (p : PresetId) : presetOf? (byteOf (presetNo p)) = some p := by cases p <;> rfl

theorem presetOf?_some {b : Byte} (h : b.toNat < 8) : ∃ p, presetOf? b = some p := by
  unfold presetOf?
  interval_cases b.toNat <;> exact ⟨_, rfl⟩

theorem selectPreset_unknown {b : Byte} (h : 8 ≤ b.toNat) (s : State) : selectPreset b s = refuse .badIndex s := by
  unfold selectPreset
  rw [presetOf?_none h]

theorem selectPreset_halt {b : Byte} (h : b.toNat < 8) {s : State} (halt : s.snc.suction.isHalt = true) :
    selectPreset b s = refuse .state s := by
  obtain ⟨p, known⟩ := presetOf?_some h
  unfold selectPreset
  rw [known]
  exact if_pos halt

theorem selectPreset_selects (p : PresetId) {s : State} (awake : s.snc.suction.isHalt = false) :
    selectPreset (byteOf (presetNo p)) s =
      answerOk (evaluate tellSuction
        (if (s.ka.presets.get p).notify then askNotice .suction (s.modSnc fun c => { c with preset := p })
          else s.modSnc fun c => { c with preset := p })) [] := by
  unfold selectPreset
  rw [presetOf?_presetNo]
  exact if_neg (Bool.eq_false_iff.mp awake)

/-- Settles O38: the tests of SelectPreset in their order. -/
theorem presetIsSelected : Obligations.PresetIsSelected := by
  unfold Obligations.PresetIsSelected
  intro s preset ready
  refine ⟨fun unknown => ?_, fun known halt => ?_, fun p awake => ?_⟩
  · rw [exec_selectPreset ready, selectPreset_unknown unknown]
    rfl
  · rw [exec_selectPreset ready, selectPreset_halt known halt]
    rfl
  · rw [exec_selectPreset ready, selectPreset_selects p awake]
    rfl

/-! ### Resume (R95) -/

theorem exec_resume {s : State} (ready : Ready s) :
    exec .resume s =
      .next ((resume s).state.withReply (replyFrame 0x08 (resume s).status (resume s).body)) :=
  requestStep_of_ready ready 0x08 [] rfl rfl

/-- An adoption of a new target above 0 regulates toward it (R96). -/
theorem adoptInto_regulates {c : Snc} {target : Nat} (positive : 0 < target) (moved : target ≠ c.adopted) (speed : Nat)
    (m : Motion) : (c.adoptInto target speed m).suction = .moving (if m = .run then .run else .spinUp) := by
  unfold Snc.adoptInto motionAfter
  rw [if_neg moved]
  cases m <;> simp [nextMotion, positive]

/-- Settles O39: an adoption from HELD of a target above the adopted one is a change into RUN or SPINUP, which is told to no
one who acts on it. -/
theorem resumeAdoptsThePending : Obligations.ResumeAdoptsThePending := by
  unfold Obligations.ResumeAdoptsThePending
  intro s ready
  refine ⟨fun m p held above => ?_, fun free => ?_⟩
  · let adopts := Snc.adoptInto p s.chan.speed m
    have resumed : resume s = answerOk (commitSuction tellSuction adopts s) [] := by
      unfold resume
      rw [held]
    have suction : (adopts s.snc).suction = .moving (if m = .run then .run else .spinUp) :=
      adoptInto_regulates (Nat.zero_lt_of_lt above) (Nat.ne_of_gt above) s.chan.speed m
    have reported : (adopts s.snc).suction.reported = .spinUp ∨ (adopts s.snc).suction.reported = .run := by
      rw [suction]
      split
      · exact .inr rfl
      · exact .inl rfl
    have changed : (adopts s.snc).suction.reported ≠ s.snc.suction.reported := by
      rw [held]
      rcases reported with spinUp | run
      · rw [spinUp]
        exact nofun
      · rw [run]
        exact nofun
    have silent : commitSuction tellSuction adopts s = askNotice .suction (carried adopts s) :=
      commitSuction_silent changed (reported.imp_right .inl)
    have adopted : (adopts s.snc).adopted = p := adoptInto_adopted p s.chan.speed m s.snc
    refine ⟨commitSuction tellSuction adopts s, ?_, ?_, ?_, ?_, ?_, commitSuction_notice changed⟩
    · rw [exec_resume ready, resumed]
      rfl
    · rw [silent]
      exact (congrArg Snc.adopted (carried_snc adopts s)).trans adopted
    · rw [silent]
      exact (carried_target (by rw [adopted]; exact Nat.ne_of_gt above)).trans adopted
    · rw [silent]
      exact (congrArg Snc.suction (carried_snc adopts s)).trans suction
    · rw [silent]
      show (carried adopts s).wcu = s.wcu
      unfold carried
      split <;> rfl
  · have refused : resume s = refuse .state s := by
      unfold resume
      split
      · next m p held => exact absurd held (free m p)
      all_goals rfl
    rw [exec_resume ready, refused]
    rfl

end Sys2Proof.Machine
end

section
/-! PROOF. The control period: its evaluation, the slew step, the test of SPINUP to RUN and the spin-up stall test (R92, R97
to R99). -/

namespace Sys2Proof.Machine

variable {told : State → State}

/-! ### The moves of SPINUP (R97) -/

theorem spinUpDone_iff {speed : Nat} {c : Snc} : c.spinUpDone speed = true ↔
    c.suction.motion? = some .spinUp ∧ c.applied = c.adopted ∧ 9 * c.adopted ≤ speed * 10 := by
  simp [Snc.spinUpDone, and_assoc]

theorem testSpinUp_waits {speed : Nat} {c : Snc}
    (waits : ¬(c.suction.motion? = some .spinUp ∧ c.applied = c.adopted ∧ 9 * c.adopted ≤ speed * 10)) :
    c.testSpinUp speed = c := if_neg (mt spinUpDone_iff.mp waits)

/-- A SPINUP that has come up moves to RUN, whose stall count starts from 0 (R97, R100). -/
theorem testSpinUp_moves {speed : Nat} {c : Snc} (motion : c.suction.motion? = some .spinUp)
    (up : c.applied = c.adopted ∧ 9 * c.adopted ≤ speed * 10) :
    c.testSpinUp speed = { c with suction := c.suction.withMotion .run, stallCount := 0 } :=
  if_pos (spinUpDone_iff.mpr ⟨motion, up⟩)

/-- The test of SPINUP to RUN, carried out where it has come up and the state is reported. -/
theorem commit_spinUp_reported {speed : Nat} {s : State} (suction : s.snc.suction = .moving .spinUp)
    (up : s.snc.applied = s.snc.adopted ∧ 9 * s.snc.adopted ≤ speed * 10) :
    commitSuction tellSuction (Snc.testSpinUp speed) s =
      askNotice .suction (s.drives { s.snc with suction := .moving .run, stallCount := 0 }) := by
  have moved : s.snc.testSpinUp speed = { s.snc with suction := .moving .run, stallCount := 0 } := by
    rw [testSpinUp_moves (by rw [suction]; rfl) up, suction]
    rfl
  have changed : (s.snc.testSpinUp speed).suction.reported ≠ s.snc.suction.reported := by
    rw [moved, suction]
    exact nofun
  rw [commitSuction_silent changed (.inr (.inl (by rw [moved]; rfl))), carried_drives (by rw [moved]), moved]

/-- So in HELD, where nothing is reported. -/
theorem commit_spinUp_held {speed : Nat} {s : State} {p : Nat} (suction : s.snc.suction = .held .spinUp p)
    (up : s.snc.applied = s.snc.adopted ∧ 9 * s.snc.adopted ≤ speed * 10) :
    commitSuction told (Snc.testSpinUp speed) s =
      s.drives { s.snc with suction := .held .run p, stallCount := 0 } := by
  have moved : s.snc.testSpinUp speed = { s.snc with suction := .held .run p, stallCount := 0 } := by
    rw [testSpinUp_moves (by rw [suction]; rfl) up, suction]
    rfl
  rw [commitSuction_kept (by rw [moved, suction]; rfl), carried_drives (by rw [moved]), moved]

/-- A change that changes nothing sets the run mark anew. -/
theorem commitSuction_still {f : Snc → Snc} {s : State} (still : f s.snc = s.snc) :
    commitSuction told f s = s.drives s.snc := by
  rw [commitSuction_kept (by rw [still]), carried_drives (by rw [still]), still]

/-! ### The control period after its evaluation (R92) -/

/-- The slew step, the test of SPINUP to RUN and the spin-up stall test. -/
def periodAfter (told : State → State) (u : State) : State :=
  let t := commitSuction told (Snc.testSpinUp u.chan.speed) (u.modSnc (Snc.slewStep u.ka.suction))
  if t.snc.spinUpStalls t.chan.speed then enterHalt told .stall (t.modSnc Snc.countSpinUp)
  else t.modSnc Snc.countSpinUp

theorem controlPeriod_eq (told : State → State) (s : State) :
    controlPeriod told s = periodAfter told (evaluate told s) := rfl

theorem exec_controlPeriod {s : State} (q : Quiet s) :
    exec .controlPeriod s = .next (periodAfter tellSuction (evaluate tellSuction s)) := by
  rw [← controlPeriod_eq]
  exact mainStep_of_quiet q (controlPeriod_moves lineKept_closed.toEvalClosed (tellSuction_moves lineKept_closed) s)

theorem spinUpStalls_iff {speed : Nat} {c : Snc} : c.spinUpStalls speed = true ↔
    c.suction.motion? = some .spinUp ∧ c.spinUpCount = 99 ∧ speed * 5 < c.applied := by
  simp [Snc.spinUpStalls, and_assoc]

theorem countSpinUp_idle {c : Snc} (idle : c.suction.motion? ≠ some .spinUp) : c.countSpinUp = c :=
  if_neg fun h => idle h.1

theorem slewStep_rests {c : Snc} (rests : c.suction.motion? = none ∨ c.suction.motion? = some .off) (e : SuctionEntry) :
    c.slewStep e = { c with applied := 0 } := by
  unfold Snc.slewStep
  rcases rests with motion | motion <;> rw [motion]

theorem slewStep_slews {c : Snc} {m : Motion} (motion : c.suction.motion? = some m) (moves : m ≠ .off) (e : SuctionEntry) :
    c.slewStep e = { c with applied := slewed e.slewUp e.slewDown c.adopted c.applied } := by
  unfold Snc.slewStep
  rw [motion]
  cases m with
  | off => exact absurd rfl moves
  | spinUp | run | brake => rfl

theorem drives_countSpinUp (u : State) (d : Snc) :
    (u.drives d).modSnc Snc.countSpinUp = u.drives d.countSpinUp := by
  unfold State.drives
  rw [isRunning_congr (countSpinUp_drive d).1 (countSpinUp_drive d).2]
  rfl

/-- Outside SPINUP a period ends with its slew step. -/
theorem periodAfter_idle {u : State} {d : Snc} (slew : u.snc.slewStep u.ka.suction = d)
    (idle : d.suction.motion? ≠ some .spinUp) : periodAfter told u = u.drives d := by
  have tested : commitSuction told (Snc.testSpinUp u.chan.speed) (u.modSnc (Snc.slewStep u.ka.suction)) = u.drives d := by
    rw [commitSuction_still (testSpinUp_waits fun h => idle (slew ▸ h.1)), State.modSnc_snc, slew]
    rfl
  unfold periodAfter
  dsimp only
  rw [tested, drives_snc, if_neg fun stalls => idle (spinUpStalls_iff.mp stalls).1]
  rw [drives_countSpinUp, countSpinUp_idle idle]

/-- A SPINUP that has come up and is reported moves to RUN, with the notice. -/
theorem periodAfter_up_reported {u : State} {v : Nat} (suction : u.snc.suction = .moving .spinUp)
    (slew : u.snc.slewStep u.ka.suction = { u.snc with applied := v })
    (up : v = u.snc.adopted ∧ 9 * u.snc.adopted ≤ u.chan.speed * 10) :
    periodAfter tellSuction u =
      askNotice .suction (u.drives { u.snc with suction := .moving .run, applied := v, stallCount := 0 }) := by
  have tested : commitSuction tellSuction (Snc.testSpinUp u.chan.speed) (u.modSnc (Snc.slewStep u.ka.suction)) =
      askNotice .suction (u.drives { u.snc with suction := .moving .run, applied := v, stallCount := 0 }) := by
    rw [commit_spinUp_reported (by rw [State.modSnc_snc, slew]; exact suction) (by rw [State.modSnc_snc, slew]; exact up),
      State.modSnc_snc, slew]
    rfl
  unfold periodAfter
  dsimp only
  rw [tested]
  rfl

/-- So in HELD, without one. -/
theorem periodAfter_up_held {u : State} {v p : Nat} (suction : u.snc.suction = .held .spinUp p)
    (slew : u.snc.slewStep u.ka.suction = { u.snc with applied := v })
    (up : v = u.snc.adopted ∧ 9 * u.snc.adopted ≤ u.chan.speed * 10) :
    periodAfter told u = u.drives { u.snc with suction := .held .run p, applied := v, stallCount := 0 } := by
  have tested : commitSuction told (Snc.testSpinUp u.chan.speed) (u.modSnc (Snc.slewStep u.ka.suction)) =
      u.drives { u.snc with suction := .held .run p, applied := v, stallCount := 0 } := by
    rw [commit_spinUp_held (by rw [State.modSnc_snc, slew]; exact suction) (by rw [State.modSnc_snc, slew]; exact up),
      State.modSnc_snc, slew]
    rfl
  unfold periodAfter
  dsimp only
  rw [tested]
  rfl

/-- A SPINUP that has not come up: the stall test at the hundredth period, else the count. -/
theorem periodAfter_waits {u : State} {v : Nat} (motion : u.snc.suction.motion? = some .spinUp)
    (slew : u.snc.slewStep u.ka.suction = { u.snc with applied := v })
    (below : ¬(v = u.snc.adopted ∧ 9 * u.snc.adopted ≤ u.chan.speed * 10)) :
    periodAfter told u =
      if u.snc.spinUpCount = 99 ∧ u.chan.speed * 5 < v then
        enterHalt told .stall ((u.drives { u.snc with applied := v }).modSnc Snc.countSpinUp)
      else u.drives { u.snc with
        applied := v
        spinUpCount := if u.snc.spinUpCount < 100 then u.snc.spinUpCount + 1 else u.snc.spinUpCount } := by
  have tested : commitSuction told (Snc.testSpinUp u.chan.speed) (u.modSnc (Snc.slewStep u.ka.suction)) =
      u.drives { u.snc with applied := v } := by
    rw [commitSuction_still (testSpinUp_waits fun h => below (by
      rw [State.modSnc_snc, slew] at h
      exact h.2)), State.modSnc_snc, slew]
    rfl
  have stalls : ({ u.snc with applied := v } : Snc).spinUpStalls u.chan.speed = true ↔
      u.snc.spinUpCount = 99 ∧ u.chan.speed * 5 < v :=
    spinUpStalls_iff.trans (and_iff_right motion)
  have counted : ({ u.snc with applied := v } : Snc).countSpinUp = { u.snc with
      applied := v
      spinUpCount := if u.snc.spinUpCount < 100 then u.snc.spinUpCount + 1 else u.snc.spinUpCount } := by
    unfold Snc.countSpinUp
    simp only [motion, true_and]
    split <;> rfl
  unfold periodAfter
  dsimp only
  rw [tested]
  simp only [drives_snc, drives_chan, stalls]
  split
  · rfl
  · rw [drives_countSpinUp, counted]

theorem periodAfter_counts {u : State} {v : Nat} (motion : u.snc.suction.motion? = some .spinUp)
    (slew : u.snc.slewStep u.ka.suction = { u.snc with applied := v })
    (below : ¬(v = u.snc.adopted ∧ 9 * u.snc.adopted ≤ u.chan.speed * 10))
    (wait : ¬(u.snc.spinUpCount = 99 ∧ u.chan.speed * 5 < v)) :
    periodAfter told u = u.drives { u.snc with
      applied := v
      spinUpCount := if u.snc.spinUpCount < 100 then u.snc.spinUpCount + 1 else u.snc.spinUpCount } :=
  (periodAfter_waits motion slew below).trans (if_neg wait)

/-- A SPINUP that stalls (R99). -/
theorem periodAfter_stalls {u : State} {v : Nat} (motion : u.snc.suction.motion? = some .spinUp)
    (slew : u.snc.slewStep u.ka.suction = { u.snc with applied := v })
    (below : ¬(v = u.snc.adopted ∧ 9 * u.snc.adopted ≤ u.chan.speed * 10))
    (stalls : u.snc.spinUpCount = 99 ∧ u.chan.speed * 5 < v) :
    Halts .stall u.link (periodAfter tellSuction u) := by
  rw [periodAfter_waits motion slew below, if_pos stalls]
  refine enterHalt_halts (s := (u.drives { u.snc with applied := v }).modSnc Snc.countSpinUp) ?_ .stall
  rw [State.modSnc_snc, (countSpinUp_drive _).1]
  exact isHalt_of_motion motion

/-! ### An evaluation whose computed target stands (R91, R93) -/

/-- What the later parts of a period read is as it was. -/
structure DriveStands (s u : State) : Prop where
  suction : u.snc.suction = s.snc.suction
  adopted : u.snc.adopted = s.snc.adopted
  applied : u.snc.applied = s.snc.applied
  spinUpCount : u.snc.spinUpCount = s.snc.spinUpCount
  ka : u.ka = s.ka
  speed : u.chan.speed = s.chan.speed

theorem reportComputed_stands (c : Computed) (s : State) : DriveStands s (reportComputed c s) where
  suction := (congrArg Snc.suction (reportComputed_snc c s) :)
  adopted := (congrArg Snc.adopted (reportComputed_snc c s) :)
  applied := (congrArg Snc.applied (reportComputed_snc c s) :)
  spinUpCount := (congrArg Snc.spinUpCount (reportComputed_snc c s) :)
  ka := reportComputed_ka c s
  speed := by
    have one := reportIf_keeps (I := fun t => t.chan.speed = s.chan.speed) fun flag src t h =>
      (congrArg Channels.speed (reportCondition_driven flag src t).chan :).trans h
    exact one _ _ _ _ (one _ _ _ _ (one _ _ _ _ (one _ _ _ s rfl)))

/-- The adoption of the target that is adopted moves nothing (R96). -/
theorem takeTarget_adopted {r : State} {m : Motion} (moving : r.snc.suction = .moving m) :
    takeTarget told r.snc.adopted r = r.drives r.snc := by
  have still : r.snc.adoptInto r.snc.adopted r.chan.speed m = r.snc := by
    unfold Snc.adoptInto Snc.adopt motionAfter
    rw [if_pos rfl, if_pos rfl, ← moving]
  unfold takeTarget
  rw [moving]
  dsimp only
  rw [if_pos (Nat.le_refl _), commitSuction_still still]

/-- An evaluation that computes the adopted target leaves the drive. -/
theorem evaluate_stands {s : State} {m : Motion} (moving : s.snc.suction = .moving m)
    (same : (pipeline (pipelineInputs s)).target = s.snc.adopted) : DriveStands s (evaluate told s) := by
  have reported := reportComputed_stands (pipeline (pipelineInputs s)) s
  have taken : evaluate told s = takeTarget told (reportComputed (pipeline (pipelineInputs s)) s).snc.adopted
      (reportComputed (pipeline (pipelineInputs s)) s) := by
    unfold evaluate
    rw [if_neg (by rw [moving]; exact nofun), reported.adopted]
    dsimp only
    rw [same]
  rw [taken, takeTarget_adopted (reported.suction.trans moving)]
  exact ⟨reported.suction, reported.adopted, reported.applied, reported.spinUpCount, reported.ka, reported.speed⟩

/-- Settles O36: the parts of a period after its evaluation by the motion that it leaves; in HALT there is no evaluation, and
with an unchanged target it leaves the drive. -/
theorem controlPeriodActs : Obligations.ControlPeriodActs := by
  unfold Obligations.ControlPeriodActs
  intro s q
  rw [exec_controlPeriod q]
  refine ⟨⟨fun cause handed halt => ?_, fun run same => ?_, fun spinUp same => ?_⟩,
    fun rests => ?_, fun moves => ?_, fun suction up => ?_, fun p suction up => ?_, fun motion below wait => ?_,
    fun motion below stalls => ?_⟩
  · have idle : ({ s.snc with applied := 0 } : Snc).suction.motion? ≠ some .spinUp := by
      rw [show ({ s.snc with applied := 0 } : Snc).suction = .halt cause from halt]
      exact nofun
    rw [evaluate_halt (by rw [halt]; rfl), periodAfter_idle (slewStep_rests (.inl (by rw [halt]; rfl)) _) idle]
    have mark : s.tdu.runMark = ({ s.snc with applied := 0 } : Snc).isRunning := handed.runMark
    unfold State.drives
    rw [← mark]
    rfl
  · have stands := evaluate_stands (told := tellSuction) run same
    have motion : (evaluate tellSuction s).snc.suction.motion? = some .run := by
      rw [stands.suction, run]
      rfl
    rw [← stands.ka, ← stands.adopted, ← stands.applied]
    exact ⟨_, congrArg Host.Outcome.next (periodAfter_idle (slewStep_slews motion nofun _) fun other =>
      nomatch motion.symm.trans other), stands.suction.trans run, rfl, rfl⟩
  · have stands := evaluate_stands (told := tellSuction) spinUp same
    have moving := stands.suction.trans spinUp
    have motion : (evaluate tellSuction s).snc.suction.motion? = some .spinUp := by
      rw [moving]
      rfl
    have slew := slewStep_slews motion nofun (evaluate tellSuction s).ka.suction
    rw [← stands.ka, ← stands.adopted, ← stands.applied, ← stands.spinUpCount, ← stands.speed]
    refine ⟨_, rfl, fun up => ?_, fun below nearly slow => ?_, fun below bounded wait => ?_⟩
    · rw [periodAfter_up_reported moving slew up]
      exact ⟨rfl, rfl⟩
    · have halts := periodAfter_stalls motion slew below ⟨nearly, slow⟩
      exact ⟨halts.suction, halts.adopted, halts.applied⟩
    · rw [periodAfter_counts motion slew below wait]
      refine ⟨moving, rfl, ?_⟩
      show (if (evaluate tellSuction s).snc.spinUpCount < 100 then _ else _) = _
      split <;> omega
  · exact congrArg Host.Outcome.next (periodAfter_idle (slewStep_rests rests _) fun other => by
      rcases rests with motion | motion <;> exact nomatch motion.symm.trans other)
  · obtain ⟨m, motion, still, idle⟩ :
        ∃ m, (evaluate tellSuction s).snc.suction.motion? = some m ∧ m ≠ .off ∧ m ≠ .spinUp := by
      rcases moves with motion | motion
      · exact ⟨_, motion, nofun, nofun⟩
      · exact ⟨_, motion, nofun, nofun⟩
    exact congrArg Host.Outcome.next (periodAfter_idle (slewStep_slews motion still _) fun other =>
      idle (Option.some.inj (motion.symm.trans other)))
  · exact congrArg Host.Outcome.next
      (periodAfter_up_reported suction (slewStep_slews (m := .spinUp) (by rw [suction]; rfl) nofun _) up)
  · exact congrArg Host.Outcome.next
      (periodAfter_up_held suction (slewStep_slews (m := .spinUp) (by rw [suction]; rfl) nofun _) up)
  · exact congrArg Host.Outcome.next (periodAfter_counts motion (slewStep_slews motion nofun _) below wait)
  · have halts := periodAfter_stalls motion (slewStep_slews motion nofun _) below stalls
    exact ⟨_, rfl, halts.suction, halts.adopted, halts.applied, halts.notice⟩

end Sys2Proof.Machine
end

section
/-! PROOF. What a SPEED and a MOTOR_I sample do that no trap watches: the stall test of RUN, the moves on the measured speed
and the over-current test (R97, R100, R101). -/

namespace Sys2Proof.Machine

variable {told : State → State}

/-! ### The tests on the measured speed (R97, R100) -/

theorem channelSampled_speed {s : State} (untrapped : s.wcu.traps .speed = false) (v : Nat) :
    channelSampled told (.speed v) s = speedTold told (sampleStored (.speed v) s) :=
  compareAmong_untrapped (s := sampleStored (.speed v) s) untrapped

theorem channelSampled_motorI {s : State} (untrapped : s.wcu.traps .motorI = false) (v : Int) :
    channelSampled told (.motorI v) s = motorITold told (sampleStored (.motorI v) s) :=
  compareAmong_untrapped (s := sampleStored (.motorI v) s) untrapped

theorem countStall_run {c : Snc} (run : c.suction.motion? = some .run) (speed : Nat) :
    c.countStall speed = { c with stallCount := if speed * 2 < c.applied then c.stallCount + 1 else 0 } := by
  unfold Snc.countStall
  rw [run]

theorem speedTold_stalls {s : State} (run : s.snc.suction.motion? = some .run) (slow : s.chan.speed * 2 < s.snc.applied)
    (last : 20 ≤ s.snc.stallCount) : Halts .stall s.link (speedTold tellSuction s) := by
  have counted := countStall_run run s.chan.speed
  rw [if_pos slow] at counted
  have halts : Halts .stall s.link (enterHalt tellSuction .stall (s.modSnc (Snc.countStall s.chan.speed))) := by
    refine enterHalt_halts (s := s.modSnc (Snc.countStall s.chan.speed)) ?_ .stall
    rw [State.modSnc_snc, counted]
    exact isHalt_of_motion run
  unfold speedTold
  rw [if_pos run]
  dsimp only
  rw [State.modSnc_snc, counted, if_pos (Nat.succ_le_succ last)]
  exact halts

theorem speedTold_counts {s : State} (run : s.snc.suction.motion? = some .run)
    (waits : ¬(s.chan.speed * 2 < s.snc.applied ∧ 20 ≤ s.snc.stallCount)) :
    (speedTold told s).snc =
      { s.snc with stallCount := if s.chan.speed * 2 < s.snc.applied then s.snc.stallCount + 1 else 0 } := by
  have counted := countStall_run run s.chan.speed
  unfold speedTold
  rw [if_pos run]
  dsimp only
  rw [State.modSnc_snc, counted, if_neg]
  · exact counted
  · dsimp only
    split <;> omega

theorem speedTold_unrun {s : State} (other : s.snc.suction.motion? ≠ some .run) :
    speedTold told s = commitSuction told (Snc.speedMoves s.chan.speed) s := if_neg other

theorem commitSuction_congr {f g : Snc → Snc} {s : State} (same : f s.snc = g s.snc) :
    commitSuction told f s = commitSuction told g s := by
  have changed : s.modSnc f = s.modSnc g := by
    unfold State.modSnc
    rw [same]
  unfold commitSuction
  rw [changed]

theorem speedMoves_spinUp {c : Snc} (motion : c.suction.motion? = some .spinUp) (speed : Nat) :
    c.speedMoves speed = c.testSpinUp speed := by
  unfold Snc.speedMoves
  rw [motion]

theorem speedMoves_off {c : Snc} (motion : c.suction.motion? = some .off) {speed : Nat} (fast : 50 ≤ speed) :
    c.speedMoves speed = { c with suction := c.suction.withMotion .brake, stallCount := 0 } := by
  unfold Snc.speedMoves
  rw [motion]
  exact if_pos fast

theorem speedMoves_brake_fast {c : Snc} (motion : c.suction.motion? = some .brake) {speed : Nat} (fast : 50 ≤ speed) :
    c.speedMoves speed = c := by
  unfold Snc.speedMoves
  rw [motion]
  exact if_neg (Nat.not_lt.mpr fast)

theorem speedMoves_brake_slow {c : Snc} (motion : c.suction.motion? = some .brake) {speed : Nat} (slow : speed < 50) :
    c.speedMoves speed = { c with suction := c.suction.withMotion .off, applied := 0, stallCount := 0 } := by
  unfold Snc.speedMoves
  rw [motion]
  exact if_pos slow

/-- In SPINUP the sample makes the test of SPINUP to RUN. -/
theorem speedTold_spinUp {s : State} (motion : s.snc.suction.motion? = some .spinUp) :
    speedTold told s = commitSuction told (Snc.testSpinUp s.chan.speed) s :=
  (speedTold_unrun (by rw [motion]; exact nofun)).trans (commitSuction_congr (speedMoves_spinUp motion _))

/-- A move of a reported motion is carried out and told. -/
theorem speedTold_reported {s : State} {m n : Motion} {d : Snc} (moving : s.snc.suction = .moving m) (other : m ≠ .run)
    (moved : s.snc.speedMoves s.chan.speed = d) (adopted : d.adopted = s.snc.adopted)
    (suction : d.suction = .moving n) (changed : Suction.reported (.moving n) ≠ Suction.reported (.moving m)) :
    speedTold told s = told (askNotice .suction (s.drives d)) := by
  subst moved
  rw [speedTold_unrun (by rw [moving]; exact fun run => other (Option.some.inj run)),
    commitSuction_told (by rw [suction, moving]; exact changed), carried_drives adopted]

/-- A move in HELD is carried out and told to no one. -/
theorem speedTold_held {s : State} {m n : Motion} {p : Nat} {d : Snc} (held : s.snc.suction = .held m p) (other : m ≠ .run)
    (moved : s.snc.speedMoves s.chan.speed = d) (adopted : d.adopted = s.snc.adopted) (suction : d.suction = .held n p) :
    speedTold told s = s.drives d := by
  subst moved
  rw [speedTold_unrun (by rw [held]; exact fun run => other (Option.some.inj run)),
    commitSuction_kept (by rw [suction, held]; rfl), carried_drives adopted]

/-- A move into OFF at rest leaves the suction controller as it is while boost is off and no charge waits. -/
theorem tellSuction_rest {s : State} (unboosted : s.dsu.boostLevel = 0) (undocked : s.pmg.state ≠ .dockedWait) :
    (tellSuction s).snc = s.snc := by
  have rested : dirtStop id s = stopTimer .i2 (s.modDsu fun d => { d with dirtLevel := 0, quiet := 0 }) := by
    unfold dirtStop setBoostLevel
    exact if_pos unboosted.symm
  unfold tellSuction suctionTold
  split
  · rw [chargeEntryTest_closed (.inr (by rw [rested]; exact undocked)), rested]
    rfl
  · rw [rested]
    rfl
  all_goals rfl

/-! ### The over-current test (R101) -/

theorem countOver_awake {c : Snc} (awake : c.suction.isHalt = false) (current limit : Nat) :
    c.countOver current limit = { c with overCount := if limit < current then c.overCount + 1 else 0 } := by
  unfold Snc.countOver
  exact if_neg (Bool.eq_false_iff.mp awake)

theorem motorITold_halts {s : State} (awake : s.snc.suction.isHalt = false)
    (above : s.ka.suction.currentLimit < s.chan.motorI) (last : 2 ≤ s.snc.overCount) :
    Halts .overcurrent s.link (motorITold tellSuction s) := by
  have counted := countOver_awake awake s.chan.motorI s.ka.suction.currentLimit
  rw [if_pos above] at counted
  have halts : Halts .overcurrent s.link (enterHalt tellSuction .overcurrent
      (s.modSnc (Snc.countOver s.chan.motorI s.ka.suction.currentLimit))) := by
    refine enterHalt_halts (s := s.modSnc (Snc.countOver s.chan.motorI s.ka.suction.currentLimit)) ?_ .overcurrent
    rw [State.modSnc_snc, counted]
    exact awake
  unfold motorITold
  dsimp only
  rw [State.modSnc_snc, counted, if_pos (Nat.succ_le_succ last)]
  exact halts

theorem motorITold_counts {s : State} (awake : s.snc.suction.isHalt = false)
    (waits : ¬(s.ka.suction.currentLimit < s.chan.motorI ∧ 2 ≤ s.snc.overCount)) :
    (motorITold told s).snc =
      { s.snc with overCount := if s.ka.suction.currentLimit < s.chan.motorI then s.snc.overCount + 1 else 0 } := by
  have counted := countOver_awake awake s.chan.motorI s.ka.suction.currentLimit
  unfold motorITold
  dsimp only
  rw [State.modSnc_snc, counted, if_neg]
  · exact counted
  · dsimp only
    split <;> omega

/-- Settles O37: the counts of RUN and of the over-current test, and the moves on the measured speed, each carried out and
told where it is reported. -/
theorem stallAndOverCurrent : Obligations.StallAndOverCurrent := by
  unfold Obligations.StallAndOverCurrent
  intro s q
  have motionOf {c : Suction} {m : Motion} (h : c = .moving m) : c.motion? = some m := h ▸ rfl
  refine ⟨fun v untrapped => ?_, fun v untrapped => ?_, fun v untrapped => ?_⟩
  · refine ⟨_, (exec_channelSample q _).trans (congrArg _ (channelSampled_speed untrapped v)), ?_⟩
    let z := sampleStored (.speed v) s
    refine ⟨fun run slow last => ?_, fun run slow few => ?_, fun run fast => ?_, fun off fast => ?_, fun brake fast => ?_⟩
    · have halts : Halts .stall z.link (speedTold tellSuction z) := speedTold_stalls run slow last
      exact ⟨halts.suction, halts.adopted, halts.applied, halts.notice⟩
    · refine (speedTold_counts (s := z) run fun h => absurd h.2 (Nat.not_le.mpr few)).trans ?_
      rw [if_pos (show z.chan.speed * 2 < z.snc.applied from slow)]
      rfl
    · refine (speedTold_counts (s := z) run fun h => fast h.1).trans ?_
      rw [if_neg (show ¬z.chan.speed * 2 < z.snc.applied from fast)]
      rfl
    · have moved := speedMoves_off (motionOf off) fast
      have suction : (s.snc.suction.withMotion .brake) = .moving .brake := by rw [off]; rfl
      rw [speedTold_reported (s := z) off nofun moved rfl suction nofun, tellSuction_silent (by
        exact .inr (.inr (.inr (congrArg Suction.reported suction))))]
      exact ⟨suction, askNotice_marks (k := .suction)⟩
    · have still := commitSuction_still (told := tellSuction) (f := Snc.speedMoves z.chan.speed) (s := z)
        (speedMoves_brake_fast (motionOf brake) fast)
      rw [speedTold_unrun (s := z) (by rw [show z.snc.suction = _ from brake]; exact nofun), still]
      rfl
  · rw [(exec_channelSample q _).trans (congrArg Host.Outcome.next (channelSampled_speed untrapped v))]
    let z := sampleStored (.speed v) s
    refine ⟨fun spinUp up => congrArg Host.Outcome.next ?_, fun p held up => congrArg Host.Outcome.next ?_,
      fun motion below => congrArg Host.Outcome.next ?_, fun brake slow => ?_,
      fun p held slow => congrArg Host.Outcome.next ?_, fun p held fast => congrArg Host.Outcome.next ?_⟩
    · exact (speedTold_spinUp (s := z) (motionOf spinUp)).trans (commit_spinUp_reported (s := z) spinUp up)
    · exact (speedTold_spinUp (s := z) (by rw [show z.snc.suction = _ from held]; rfl)).trans
        (commit_spinUp_held (s := z) held up)
    · exact (speedTold_spinUp (s := z) motion).trans
        (commitSuction_still (s := z) (testSpinUp_waits fun h => below h.2))
    · have moved := speedMoves_brake_slow (motionOf brake) slow
      rw [show s.snc.suction.withMotion .off = .moving .off by rw [brake]; rfl] at moved
      have rests := speedTold_reported (told := tellSuction) (s := z) brake nofun moved rfl rfl nofun
      refine ⟨congrArg Host.Outcome.next rests, fun unboosted undocked => ⟨_, congrArg Host.Outcome.next rests, ?_, ?_⟩⟩
      · exact tellSuction_rest unboosted undocked
      · exact fun enabled => tellSuction_notice (askNotice_marks (k := .suction) enabled)
    · have moved := speedMoves_brake_slow (c := s.snc) (by rw [held]; rfl) slow
      rw [show s.snc.suction.withMotion .off = .held .off p by rw [held]; rfl] at moved
      exact speedTold_held (s := z) held nofun moved rfl rfl
    · have moved := speedMoves_off (c := s.snc) (by rw [held]; rfl) fast
      rw [show s.snc.suction.withMotion .brake = .held .brake p by rw [held]; rfl] at moved
      exact speedTold_held (s := z) held nofun moved rfl rfl
  · refine ⟨_, (exec_channelSample q _).trans (congrArg _ (channelSampled_motorI untrapped v)), ?_⟩
    let z := sampleStored (.motorI v) s
    refine ⟨fun awake above last => ?_, fun awake above few => ?_, fun awake under => ?_⟩
    · have halts : Halts .overcurrent z.link (motorITold tellSuction z) := motorITold_halts awake above last
      exact ⟨halts.suction, halts.adopted, halts.applied, halts.overCount, halts.notice⟩
    · refine (motorITold_counts (s := z) awake fun h => absurd h.2 (Nat.not_le.mpr few)).trans ?_
      rw [if_pos (show z.ka.suction.currentLimit < z.chan.motorI from above)]
      rfl
    · refine (motorITold_counts (s := z) awake fun h => under h.1).trans ?_
      rw [if_neg (show ¬z.ka.suction.currentLimit < z.chan.motorI from under)]
      rfl

end Sys2Proof.Machine
end

section
/-! PROOF. What the telling of a suction state keeps, when it is at most a charge entry, and ClearHalt (R104, R105, R137,
R186). -/

namespace Sys2Proof.Machine

variable {I : State → Prop} {told : State → State}

/-! ### The telling of a suction state, for an invariant of the sources -/

/-- An invariant that the telling of a suction state keeps: an evaluation's writes, the stack changes of the watch unit, the
clear of PACK_LOW at a charge entry, and the other writes of a charge entry and of its faults. -/
structure ReportKeeps (I : State → Prop) : Prop where
  drive : DriveKeeps I
  stack : ∀ u s c, (∃ cap, s.snc.raised? (.watch u) cap = some c) ∨ s.snc.cleared? (.watch u) = some c → I s →
    I (s.modSnc fun _ => c)
  unmark : Keeps I (setMark .packLow false)
  stackLow : ∀ s c, s.snc.marks.get .packLow = false → s.snc.cleared? .packLow = some c → I s → I (s.modSnc fun _ => c)
  copy : ∀ w, Keeps I (State.modSnc fun c => { c with budget := w })
  draws : ∀ n, Keeps I (State.setDraws n)
  budget : ∀ w, Keeps I (State.modChan fun c => { c with budget := w })
  pmg : ∀ f, (∀ p, (f p).lowMark = true → p.lowMark = true) → Keeps I (State.modPmg f)
  dsu : ∀ f, Keeps I (State.modDsu f)
  wcu : ∀ f, Keeps I (State.modWcu f)
  dlc : ∀ f, Keeps I (State.modDlc f)
  timer : ∀ k b, Keeps I (setTimerRunning k b)
  reservation : ∀ r, Keeps I (State.setReservation r)
  bleed : ∀ b, Keeps I (State.setBleedOut b)

namespace ReportKeeps

variable (h : ReportKeeps I)
include h

theorem noted (k : NoticeKind) : Keeps I (askNotice k) := fun s => h.drive s _ (askNotice_driven k s)

theorem evaluated (ht : Keeps I told) : Keeps I (evaluate told) := evaluate_drive h.drive ht

theorem unitWay (ht : Keeps I told) : UnitWayKeeps told I where
  evaluate := h.evaluated ht
  noted := h.noted .override
  stack := h.stack
  copy := h.copy
  hit u s := h.drive s _ (recordHit_driven u s)
  comparison _ _ := h.wcu _
  draws := h.draws

theorem announced (ht : Keeps I told) : Keeps I (announcePack told) := fun s hs =>
  (h.unitWay ht).announced (storeBudget_keeps_of h.drive h.budget (fun _ => h.pmg _ fun _ low => low) _ (h.noted .pack s hs))

theorem dirtStopped : Keeps I (dirtStop id) := dirtStop_drive h.drive h.dsu (h.timer .i2 false)

theorem dirtTold : Keeps I dirtTold := by
  intro s hs
  unfold Machine.dirtTold
  split
  · exact h.dirtStopped s hs
  · exact h.dirtStopped s hs
  all_goals exact hs

theorem packStateTaken (new : PackState) : Keeps I (takePackState new) := by
  intro s hs
  have taken := h.pmg (fun p => { p with state := new, lowCount := 0, recoveryCount := 0, taper := 0 }) (fun _ low => low) s hs
  unfold takePackState
  dsimp only
  split
  · exact taken
  · exact h.bleed _ _ (h.pmg (fun p => { p with bleedSet := Six.all false }) (fun _ low => low) _ taken)

theorem lowMarkCleared (ht : Keeps I told) : Keeps I (clearLowMark told) := by
  intro s hs
  have marked := h.pmg (fun p => { p with lowMark := false }) (fun _ low => nomatch low) s hs
  unfold clearLowMark clearHard
  split
  · split
    · exact changeStack_keeps (h.evaluated ht) (h.noted .override)
        (fun c cleared => h.stackLow _ c rfl cleared (h.unmark _ marked)) (h.unmark _ marked)
    · exact marked
  · exact hs

theorem unitsCleared (ht : Keeps I told) (units : List Idx4) (before : Four Comparison) :
    Keeps I (tellCleared told units before) :=
  inAnyOrder_keeps h.draws _ fun e m => by
    obtain ⟨u, -, rfl⟩ := List.mem_map.mp m
    exact fun s hs => changeStack_keeps (h.evaluated ht) (h.noted .override)
      (fun c cleared => h.stack u s c (.inr cleared) hs) hs

theorem watchesClaimed (ht : Keeps I told) : Keeps I (claimWatches told) := fun s hs =>
  h.reservation _ _ (h.wcu _ _ (h.unitsCleared ht _ _ _ (h.wcu _ s hs)))

theorem entryFaulted (ht : Keeps I told) (kind : ChargeFault) : Keeps I (entryFault told kind) := fun s hs =>
  h.announced ht _ (h.dlc _ _ (h.dlc _ _ (h.packStateTaken _ s hs)))

theorem askedAnew : Keeps I askAnew := fun s hs =>
  h.dlc _ _ (h.dlc _ _ (h.pmg (fun p => { p with askedCurrent := currentFor s }) (fun _ low => low) s hs))

theorem chargeEntered (ht : Keeps I told) : Keeps I (chargeEntry told) := by
  intro s hs
  have learning : I (learningTest s) := by
    unfold learningTest
    exact h.pmg _ (by exact fun _ low => low) s hs
  have claimed := h.timer .i1 true _ (h.watchesClaimed h.dirtTold _ (h.lowMarkCleared h.dirtTold _ learning))
  unfold chargeEntry startTimer
  dsimp only
  generalize setTimerRunning .i1 true _ = t at claimed ⊢
  have taken := h.packStateTaken (.charging (firstPhase t.chan.cell)) t claimed
  refine h.announced ht _ (h.askedAnew _ ?_)
  exact h.pmg (fun p => { p with precharge := 0, askedVoltage := _ }) (fun _ low => low) _ taken

theorem entryTested (ht : Keeps I told) : Keeps I (chargeEntryTest told) := by
  intro s hs
  unfold chargeEntryTest
  split
  · split
    · exact hs
    · split
      · exact h.entryFaulted ht _ s hs
      · split
        · exact h.chargeEntered ht s hs
        · exact h.entryFaulted ht _ s hs
  · exact hs

theorem tellSuction : Keeps I tellSuction := by
  intro s hs
  have stopped := h.dirtStopped s hs
  unfold Machine.tellSuction suctionTold
  split
  · exact h.entryTested id_keeps _ stopped
  · exact stopped
  all_goals exact hs

end ReportKeeps

/-! ### Outside HALT, with every hard condition in force -/

/-- Every marked source has an unreleased entry (R104, R128). -/
def ConditionsInForce (c : Snc) : Prop := ∀ src, c.marks.get src = true → c.hasUnreleased src = true

theorem ConditionsInForce.of_same {c d : Snc} (h : ConditionsInForce c) (marks : d.marks = c.marks)
    (stack : d.stack = c.stack) : ConditionsInForce d := by
  intro src marked
  rw [hasUnreleased_congr stack]
  exact h src (marks ▸ marked)

/-- A change of the entry of a source without a mark leaves the conditions in force. -/
theorem ConditionsInForce.of_other {c d : Snc} (h : ConditionsInForce c) {other : Source}
    (unmarked : c.marks.get other = false) (same : ∀ src, other ≠ src → SameFor src c d) : ConditionsInForce d := by
  have marks : d.marks = c.marks := by
    cases other with
    | hostCap => exact (same .lowCharge nofun).1
    | _ => exact (same .hostCap nofun).1
  intro src marked
  rw [marks] at marked
  have ne : other ≠ src := by
    rintro rfl
    rw [marked] at unmarked
    cases unmarked
  exact (same src ne).2.trans (h src marked)

/-- Outside HALT with every hard condition in force. -/
def RunsInForce (s : State) : Prop := s.snc.suction.isHalt = false ∧ ConditionsInForce s.snc

theorem runsInForce_report : ReportKeeps RunsInForce where
  drive _ _ driven h := ⟨driven.snc.halt.trans h.1, h.2.of_same driven.snc.marks driven.snc.stack⟩
  stack u s c change h := by
    rcases change with ⟨cap, raised⟩ | cleared
    · exact ⟨by rw [State.modSnc_snc, (raised?_drive raised).1]; exact h.1,
        h.2.of_other (other := .watch u) rfl fun _ ne => raised?_other ne raised⟩
    · exact ⟨by rw [State.modSnc_snc, (cleared?_drive cleared).1]; exact h.1,
        h.2.of_other (other := .watch u) rfl fun _ ne => cleared?_other ne cleared⟩
  unmark s h := by
    refine ⟨h.1, fun src marked => ?_⟩
    by_cases own : src = .packLow
    · subst own
      cases marked
    · exact h.2 src ((HardMarks.get_set_other (Ne.symm own) s.snc.marks false).symm.trans marked)
  stackLow s c unmarked cleared h :=
    ⟨by rw [State.modSnc_snc, (cleared?_drive cleared).1]; exact h.1,
      h.2.of_other unmarked fun _ ne => cleared?_other ne cleared⟩
  copy _ _ h := ⟨h.1, h.2.of_same rfl rfl⟩
  draws _ _ h := h
  budget _ _ h := h
  pmg _ _ _ h := h
  dsu _ _ h := h
  wcu _ _ h := h
  dlc _ _ h := h
  timer _ _ _ h := h
  reservation _ _ h := h
  bleed _ _ h := h

/-! ### The pushes of ClearHalt (R104) -/

/-- The suction controller after a hard source is raised: pushed, reactivated, or as it was (R125, R126). -/
def Snc.enforce (src : Source) (c : Snc) : Snc := (c.raised? src 0).getD c

theorem enforce_marks (src : Source) (c : Snc) : (c.enforce src).marks = c.marks := by
  unfold Snc.enforce
  cases raised : c.raised? src 0 with
  | none => rfl
  | some d => exact (raised?_inForce raised).1

theorem enforce_suction (src : Source) (c : Snc) : (c.enforce src).suction = c.suction := by
  unfold Snc.enforce
  cases raised : c.raised? src 0 with
  | none => rfl
  | some d => exact (raised?_drive raised).1

/-- What is in force stays so. -/
theorem enforce_keeps {src : Source} (other : Source) {c : Snc} (inForce : c.hasUnreleased src = true) :
    (c.enforce other).hasUnreleased src = true := by
  unfold Snc.enforce
  cases raised : c.raised? other 0 with
  | none => exact inForce
  | some d =>
    by_cases own : other = src
    · exact own ▸ (raised?_inForce raised).2
    · exact (raised?_other own raised).2.trans inForce

/-- The sources that have an entry, newest first. -/
def Snc.sources (c : Snc) : List Source := c.stack.map OverrideEntry.source

theorem findEntry_isNone (src : Source) (c : Snc) : (findEntry src c.stack).isNone = decide (src ∉ c.sources) := by
  rw [Bool.eq_iff_iff, decide_eq_true_eq, Option.isNone_iff_eq_none]
  simp [findEntry, Snc.sources]

theorem enforce_inForce {src : Source} {c : Snc} (room : src ∈ c.sources ∨ c.sources.length < 4) :
    (c.enforce src).hasUnreleased src = true := by
  unfold Snc.enforce
  cases raised : c.raised? src 0 with
  | some d => exact (raised?_inForce raised).2
  | none =>
    rcases room with entry | place
    · refine raised?_none_of_entry raised fun entryless => ?_
      have absent := findEntry_isNone src c
      rw [show findEntry src c.stack = none from entryless] at absent
      exact absurd entry (of_decide_eq_true absent.symm)
    · exact raised?_none raised (by rwa [Snc.sources, List.length_map] at place)

/-- A source without an entry takes a place; any other takes none. -/
theorem enforce_sources {src : Source} {c : Snc} :
    (c.enforce src).sources = c.sources ∨ src ∉ c.sources ∧ (c.enforce src).sources = src :: c.sources := by
  have absent := findEntry_isNone src c
  unfold Snc.enforce Snc.raised?
  split
  · split
    · exact .inl (mapEntry_sources (f := fun e => { e with cap := 0, released := false }) (fun _ => rfl) c.stack)
    · exact .inl rfl
  · next none =>
    rw [none] at absent
    split
    · exact .inr ⟨of_decide_eq_true absent.symm, rfl⟩
    · exact .inl rfl

/-- There is a place for each of the sources of a list that have no entry. -/
def Roomy (sources : List Source) (c : Snc) : Prop :=
  (sources.filter fun src => decide (src ∉ c.sources)).length + c.sources.length ≤ 4

theorem Roomy.head {src : Source} {sources : List Source} {c : Snc} (h : Roomy (src :: sources) c) :
    src ∈ c.sources ∨ c.sources.length < 4 := by
  by_cases entry : src ∈ c.sources
  · exact .inl entry
  · unfold Roomy at h
    rw [List.filter_cons_of_pos (by simpa using entry), List.length_cons] at h
    exact .inr (by omega)

theorem Roomy.tail {src : Source} {sources : List Source} {c : Snc} (h : Roomy (src :: sources) c) :
    Roomy sources (c.enforce src) := by
  unfold Roomy at h ⊢
  rcases enforce_sources (src := src) (c := c) with same | ⟨entryless, pushed⟩
  · rw [same]
    have fewer := (List.Sublist.filter (fun src => decide (src ∉ c.sources)) (List.sublist_cons_self src sources)).length_le
    omega
  · rw [List.filter_cons_of_pos (by simpa using entryless), List.length_cons] at h
    have fewer := (List.monotone_filter_right sources (p := fun a => decide (a ∉ src :: c.sources))
      (q := fun a => decide (a ∉ c.sources)) (fun a out => by simp_all)).length_le
    rw [pushed, List.length_cons]
    omega

theorem foldl_enforce_keeps {src : Source} (sources : List Source) {c : Snc} (inForce : c.hasUnreleased src = true) :
    (sources.foldl (fun c src => c.enforce src) c).hasUnreleased src = true := by
  induction sources generalizing c with
  | nil => exact inForce
  | cons other sources ih => exact ih (enforce_keeps other inForce)

/-- With a place for each, every source of the list comes into force. -/
theorem foldl_enforce_inForce {sources : List Source} {c : Snc} (room : Roomy sources c) :
    ∀ src ∈ sources, (sources.foldl (fun c src => c.enforce src) c).hasUnreleased src = true := by
  induction sources generalizing c with
  | nil => exact fun _ m => absurd m List.not_mem_nil
  | cons head sources ih =>
    intro src m
    rcases List.mem_cons.mp m with rfl | m
    · exact foldl_enforce_keeps sources (enforce_inForce room.head)
    · exact ih room.tail src m

theorem foldl_enforce_marks (sources : List Source) (c : Snc) :
    (sources.foldl (fun c src => c.enforce src) c).marks = c.marks := by
  induction sources generalizing c with
  | nil => rfl
  | cons src sources ih => exact (ih _).trans (enforce_marks src c)

/-- In HALT a push evaluates nothing (R137). -/
theorem pushMarked_snc {s : State} (halt : s.snc.suction.isHalt = true) :
    (pushMarked s).snc = (markedSources s.snc).foldl (fun c src => c.enforce src) s.snc := by
  unfold pushMarked
  generalize markedSources s.snc = sources
  induction sources generalizing s with
  | nil => rfl
  | cons src sources ih =>
    have step : (changeStack tellSuction (s.snc.raised? src 0) s).snc = s.snc.enforce src := by
      unfold Snc.enforce
      cases raised : s.snc.raised? src 0 with
      | none => rfl
      | some c => exact stackChange_halt (by rw [(raised?_drive raised).1]; exact halt) s
    rw [List.foldl_cons, List.foldl_cons, ih (by rw [step, enforce_suction]; exact halt), step]

theorem mem_markedSources {c : Snc} {src : Source} (marked : c.marks.get src = true) : src ∈ markedSources c := by
  refine List.mem_filter.mpr ⟨?_, marked⟩
  cases src with
  | watch _ | lowCharge | hostCap => cases marked
  | binOpen | packLow | packHot | motorHot | docked => simp [hardSources]

theorem waitingSources_eq (c : Snc) :
    waitingSources c = hardSources.filter fun src => c.marks.get src && (findEntry src c.stack).isNone := by
  unfold waitingSources markedSources
  rw [List.filter_filter]
  simp only [Bool.and_comm]

theorem pushMarked_inForce {s : State} (halt : s.snc.suction.isHalt = true)
    (room : (waitingSources s.snc).length + s.snc.stack.length ≤ 4) : ConditionsInForce (pushMarked s).snc := by
  have roomy : Roomy (markedSources s.snc) s.snc := by
    unfold Roomy
    simp only [← findEntry_isNone]
    rw [Snc.sources, List.length_map]
    exact room
  rw [pushMarked_snc halt]
  intro src marked
  rw [foldl_enforce_marks] at marked
  exact foldl_enforce_inForce roomy src (mem_markedSources marked)

/-! ### ClearHalt (R104) -/

theorem exec_clearHalt {s : State} (ready : Ready s) :
    exec .clearHalt s =
      .next ((clearHalt s).state.withReply (replyFrame 0x09 (clearHalt s).status (clearHalt s).body)) :=
  requestStep_of_ready ready 0x09 [] rfl rfl

theorem clearHalt_refused {s : State} (refused : s.snc.suction.isHalt = false ∨ 50 ≤ s.chan.speed ∨
    4 < (waitingSources s.snc).length + min 4 s.snc.stack.length) : clearHalt s = refuse .state s := by
  unfold clearHalt
  split
  · rfl
  · next halted =>
    split
    · rfl
    · next slow =>
      rw [if_pos]
      rcases refused with awake | fast | full
      · exact absurd awake halted
      · exact absurd fast slow
      · omega

/-- The state becomes OFF, which is told, before the evaluation. -/
def haltLeft (s : State) : State :=
  commitSuction tellSuction (fun c => { c with suction := .moving .off, applied := 0 }) (pushMarked s)

theorem clearHalt_passes {s : State} (halt : s.snc.suction.isHalt = true) (slow : s.chan.speed < 50)
    (room : (waitingSources s.snc).length + s.snc.stack.length ≤ 4) :
    clearHalt s = answerOk (evaluate tellSuction (haltLeft s)) [] := by
  unfold clearHalt
  rw [if_neg (by simp [halt]), if_neg (by omega), if_neg (by omega)]
  rfl

theorem haltLeft_inForce {s : State} (halt : s.snc.suction.isHalt = true)
    (room : (waitingSources s.snc).length + s.snc.stack.length ≤ 4) : RunsInForce (haltLeft s) := by
  refine commitSuction_keeps runsInForce_report.noted runsInForce_report.tellSuction ?_
  unfold RunsInForce
  rw [carried_snc]
  exact ⟨rfl, (pushMarked_inForce halt room).of_same rfl rfl⟩

theorem haltLeft_notice {s : State} (halt : s.snc.suction.isHalt = true) (enabled : s.link.enables.suction = true) :
    (haltLeft s).link.notices.suction = true := by
  refine commitSuction_notice ?_ (by rw [(pushMarked_line s).enables]; exact enabled)
  rw [isHalt_iff_reported.mp (pushMarked_halt halt)]
  exact nofun

/-- Settles O40: with a place for each waiting source every marked source comes into force, and neither the telling of OFF
nor the evaluation enters HALT or takes one out of force. -/
theorem haltIsCleared : Obligations.HaltIsCleared := by
  unfold Obligations.HaltIsCleared
  intro s ready
  rw [← waitingSources_eq]
  refine ⟨fun refused => ?_, fun halt slow room => ?_⟩
  · rw [exec_clearHalt ready, clearHalt_refused refused]
    rfl
  · have left := haltLeft_inForce halt room
    have evaluated : RunsInForce (evaluate tellSuction (haltLeft s)) :=
      runsInForce_report.evaluated runsInForce_report.tellSuction _ left
    have bounded : TargetBounded (evaluate tellSuction (haltLeft s)) :=
      evaluate_targetBounded tellSuction_targetBounded fun halted => by
        rw [left.1] at halted
        cases halted
    refine ⟨evaluate tellSuction (haltLeft s), ?_, evaluated.1, bounded.cap.adopted, evaluated.2, fun enabled => ?_⟩
    · rw [exec_clearHalt ready, clearHalt_passes halt slow room]
      rfl
    · exact evaluate_moves (noticeStays_closed .suction).toEvalClosed (tellSuction_moves (noticeStays_closed .suction)) _
        (haltLeft_notice halt enabled)

end Sys2Proof.Machine
end

section
/-! PROOF. The CELL sample outside a charge: the low count and PROTECT, the recovery, and the estimate after a cold start
(R103, R160, R161, R167, R174). -/

namespace Sys2Proof.Machine

variable {I J : State → Prop} {told : State → State}

/-! ### A stored sample between the watch unit and its owner (R44, entry 26) -/

/-- What the watch unit's event leaves to be told are hits of claimed units. -/
theorem watchEvent_leftHits {ch : ChannelId} {sample : List Reading} {s : State} :
    ∀ e ∈ (watchEvent (deliverTelling told) ch sample s).2.map (deliverTelling told), ∃ u, e = claimedHit told u := by
  rw [watchEvent_hits, List.map_map]
  intro e m
  obtain ⟨u, -, rfl⟩ := List.mem_map.mp m
  exact ⟨u, rfl⟩

/-- In a free order, what comes before an event keeps `J`, the event takes it to `I`, and what comes after keeps `I`. -/
theorem inAnyOrder_reaches {event : State → State} {others : List (State → State)} (drawsJ : ∀ n, Keeps J (State.setDraws n))
    (keepJ : ∀ e ∈ others, Keeps J e) (keepI : ∀ e ∈ others, Keeps I e) (reach : ∀ s, J s → I (event s)) {s : State}
    (hs : J s) : I (inAnyOrder (event :: others) s) := by
  have perm := arrange_perm s.draws (event :: others)
  obtain ⟨before, after, split⟩ := List.append_of_mem (perm.mem_iff.mpr List.mem_cons_self)
  rw [split] at perm
  have rest := (List.perm_middle.symm.trans perm).cons_inv
  have first := foldl_keeps before (fun e m => keepJ e (rest.mem_iff.mp (List.mem_append_left _ m)))
    (s.setDraws (arrange s.draws (event :: others)).2) (drawsJ _ s hs)
  unfold inAnyOrder
  dsimp only
  rw [split, List.foldl_append, List.foldl_cons]
  exact foldl_keeps after (fun e m => keepI e (rest.mem_iff.mp (List.mem_append_right _ m))) _ (reach _ first)

/-- The owner of a sample takes `J` to `I`; where the watch unit's event and the hits of claimed units keep both, the sample
does so too, in each of the free orders. -/
theorem sampleTold_reaches {ch : ChannelId} {sample : List Reading} {owner : State → State}
    (drawsJ : ∀ n, Keeps J (State.setDraws n)) (drawsI : ∀ n, Keeps I (State.setDraws n))
    (watchJ : Keeps J fun s => (watchEvent (deliverTelling told) ch sample s).1)
    (watchI : Keeps I fun s => (watchEvent (deliverTelling told) ch sample s).1)
    (hitJ : ∀ u, Keeps J (claimedHit told u)) (hitI : ∀ u, Keeps I (claimedHit told u))
    (owned : ∀ s, J s → I (owner s)) {s : State} (hs : J s) : I (sampleTold told ch sample owner s) := by
  have drawn := drawsJ (s.draws + 1) s hs
  unfold sampleTold compareAmong
  split
  · dsimp only
    split
    · have watched := watchJ _ drawn
      refine inAnyOrder_reaches drawsJ (fun e m => ?_) (fun e m => ?_) owned watched
      · obtain ⟨u, rfl⟩ := watchEvent_leftHits e m
        exact hitJ u
      · obtain ⟨u, rfl⟩ := watchEvent_leftHits e m
        exact hitI u
    · refine inAnyOrder_keeps drawsI _ (fun e m => ?_) _ (watchI _ (owned _ drawn))
      obtain ⟨u, rfl⟩ := watchEvent_leftHits e m
      exact hitI u
  · exact owned s hs

/-- A hit of a claimed unit ends a charge, and does nothing outside one (R193). -/
theorem claimedHit_idle {s : State} (idle : s.pmg.state.isCharging = false) (u : Idx4) : claimedHit told u s = s := by
  have unfaulted (kind : ChargeFault) : chargeFault told kind s = s := if_neg (Bool.eq_false_iff.mp idle)
  cases u with
  | i0 | i1 => rfl
  | i2 | i3 => exact unfaulted _

theorem Watched.shut {s t : State} (w : Watched s t) (shut : Shut s) : Shut t := shut.of_undisturbed w.toUndisturbed

/-- A CELL sample outside a charge and outside DOCKED_WAIT: the owner's event stands through the watch unit's. -/
theorem cellTold_reaches {z : State} (idle : z.pmg.state.isCharging = false) (shut : Shut z) {sample : List Reading}
    (drawsI : ∀ n, Keeps I (State.setDraws n)) (idleI : ∀ y, I y → y.pmg.state.isCharging = false)
    (watchI : Keeps I fun y => (watchEvent (deliverTelling tellSuction) .cell sample y).1)
    (owned : ∀ x, Watched z x → I (packCell tellSuction x)) :
    I (sampleTold tellSuction .cell sample (packCell tellSuction) z) := by
  refine sampleTold_reaches (J := Watched z) (fun n x w => w.trans (.drawn x n)) drawsI
    (fun x w => w.trans (watchEvent_watched (.inl rfl) sample (w.shut shut))) watchI (fun u x w => ?_) (fun u y h => ?_) owned
    (.refl z)
  · rw [claimedHit_idle (by rw [w.pmg]; exact idle)]
    exact w
  · rw [claimedHit_idle (idleI y h)]
    exact h

/-! ### What stands of the pack manager through the budget's way -/

/-- The pack manager's block, BUDGET, and the mark of PACK_LOW. -/
structure PackStands (p : Pmg) (w : Nat) (m : Bool) (t : State) : Prop where
  pmg : t.pmg = p
  budget : t.chan.budget = w
  mark : t.snc.marks.packLow = m

theorem packStands_budgetWay (p : Pmg) (w : Nat) (m : Bool) : BudgetWayKeeps (PackStands p w m) where
  drive _ _ driven h := ⟨driven.pmg.trans h.pmg, (congrArg Channels.budget driven.chan :).trans h.budget,
    (congrArg HardMarks.packLow driven.snc.marks).trans h.mark⟩
  stack s c src change h := by
    have marks : c.marks = s.snc.marks := by
      rcases change with ⟨cap, raised⟩ | cleared
      · exact (raised?_inForce raised).1
      · exact cleared?_marks cleared
    exact ⟨h.pmg, h.budget, (congrArg HardMarks.packLow marks).trans h.mark⟩
  copy _ _ h := { h with }
  comparison _ _ _ h := { h with }
  draws _ _ h := { h with }

theorem tellSuction_packStands {p : Pmg} (free : p.state ≠ .dockedWait) (w : Nat) (m : Bool) :
    Keeps (PackStands p w m) tellSuction :=
  tellSuction_drive (packStands_budgetWay p w m).drive (fun _ _ h => { h with }) (fun _ h => { h with })
    fun _ h => mayCharge_shut (.inr (by rw [h.pmg]; exact free))

/-- An announcement outside DOCKED_WAIT stores the budget in BUDGET and in the pack manager. -/
theorem announcePack_stands {s : State} (free : s.pmg.state ≠ .dockedWait) :
    PackStands { s.pmg with budget := budgetOf s } (budgetOf s) s.snc.marks.packLow (announcePack tellSuction s) := by
  refine (packStands_budgetWay _ _ _).announcePack (tellSuction_packStands (by exact free) _ _) ⟨?_, rfl, ?_⟩
  · exact storeBudget_pmg (askNotice .pack s)
  · exact reportIf_keeps (I := fun t => t.snc.marks.packLow = s.snc.marks.packLow) (fun flag src t h =>
      (congrArg HardMarks.packLow (reportCondition_driven flag src t).snc.marks).trans h) _ _ _ (askNotice .pack s) rfl

/-- PACK_LOW raised, pushed, reactivated or met by a full stack, is marked (R103, R128). -/
theorem raiseHard_stands {s : State} (free : s.pmg.state ≠ .dockedWait) :
    PackStands s.pmg s.chan.budget true (raiseHard tellSuction .packLow s) := by
  have way := packStands_budgetWay s.pmg s.chan.budget true
  have told := tellSuction_packStands free s.chan.budget true
  have marked : PackStands s.pmg s.chan.budget true (setMark .packLow true s) := ⟨rfl, rfl, rfl⟩
  unfold raiseHard
  dsimp only
  split
  · next already => exact ⟨rfl, rfl, already⟩
  · split
    · refine commitSuction_keeps (fun k t => way.drive t _ (askNotice_driven k t)) told ?_
      have marks := (halted_driveMove .stackFull (setMark .packLow true s).snc).1
      unfold carried
      split <;> exact ⟨rfl, rfl, congrArg HardMarks.packLow marks⟩
    · exact way.changeStack told (.inl ⟨0, rfl⟩) marked

/-! ### The low count and PROTECT (R160) -/

theorem isLowSample_iff {vCut : Nat} {cell : Six Reading} :
    isLowSample vCut cell = true ↔ ∃ v ∈ validCells cell, v < vCut := by
  simp [isLowSample]

theorem takeEstimate_taken {s : State} (taken : s.ka.estimatePending = false) : takeEstimate s = s :=
  if_neg (Bool.eq_false_iff.mp taken)

theorem packCell_discharge {s : State} (state : s.pmg.state = .discharge) (taken : s.ka.estimatePending = false) :
    packCell told s = judgeLow told s := by
  unfold packCell
  rw [takeEstimate_taken taken]
  dsimp only
  rw [state]

theorem enterProtect_stands (s : State) :
    PackStands { s.pmg.took .protect with lowMark := true, budget := 0 } 0 true (enterProtect tellSuction s) := by
  let y := (takePackState .protect s).modPmg fun p => { p with lowMark := true }
  have pmg : y.pmg = { s.pmg.took .protect with lowMark := true } := by
    show { (takePackState .protect s).pmg with lowMark := true } = _
    rw [takePackState_frame rfl]
  have raised := raiseHard_stands (s := y) (by rw [pmg]; exact nofun)
  have protect : (raiseHard tellSuction .packLow y).pmg.state = .protect := by rw [raised.pmg, pmg]; rfl
  have announced := announcePack_stands (s := raiseHard tellSuction .packLow y) (by rw [protect]; exact nofun)
  rw [budgetOf_idle (by rw [protect]; exact nofun), raised.mark, raised.pmg, pmg] at announced
  exact announced

theorem enterProtect_notice {s : State} (enabled : s.link.enables.pack = true) :
    (enterProtect tellSuction s).link.notices.pack = true := by
  refine announcePack_notice ?_
  rw [raiseHard_enables]
  show (takePackState .protect s).link.enables.pack = true
  rw [takePackState_frame rfl]
  exact enabled

/-- What a CELL sample in DISCHARGE makes of the pack manager, for a sample that is not the third low one in a row. -/
theorem discharge_counts {z : State} (state : z.pmg.state = .discharge) (taken : z.ka.estimatePending = false)
    {sample : List Reading} {p : Pmg} (still : p.state = .discharge)
    (counted : ∀ x, Watched z x → (judgeLow tellSuction x).pmg = p) :
    (sampleTold tellSuction .cell sample (packCell tellSuction) z).pmg = p := by
  have shut {y : State} (h : y.pmg.state = .discharge) : Shut y := .inr (by rw [h]; exact nofun)
  refine cellTold_reaches (I := fun y => y.pmg = p) (by rw [state]; rfl) (shut state) (fun _ _ h => h)
    (fun y h => by rw [h, still]; rfl) (fun y h => ?_) fun x w => ?_
  · exact (watchEvent_watched (.inl rfl) sample (shut (by rw [h, still]))).pmg.trans h
  · rw [packCell_discharge (by rw [w.pmg, state]) (by rw [w.ka, taken])]
    exact counted x w

/-- The third low sample in a row enters PROTECT, which stands through what the watch unit does. -/
theorem discharge_protects {z : State} (state : z.pmg.state = .discharge) (taken : z.ka.estimatePending = false)
    {sample : List Reading} (low : isLowSample z.ka.limits.vCut z.chan.cell = true) (third : 2 ≤ z.pmg.lowCount) :
    let t := sampleTold tellSuction .cell sample (packCell tellSuction) z
    PackStands { z.pmg.took .protect with lowMark := true, budget := 0 } 0 true t ∧
      (z.link.enables.pack = true → t.link.notices.pack = true) := by
  have free : Pmg.state { z.pmg.took .protect with lowMark := true, budget := 0 } ≠ .dockedWait := nofun
  refine cellTold_reaches (I := fun y => PackStands { z.pmg.took .protect with lowMark := true, budget := 0 } 0 true y ∧
    (z.link.enables.pack = true → y.link.notices.pack = true)) (by rw [state]; rfl) (.inr (by rw [state]; exact nofun))
    (fun _ _ h => ⟨{ h.1 with }, h.2⟩) (fun y h => by rw [h.1.pmg]; rfl) (fun y h => ⟨?_, fun enabled => ?_⟩) fun x w => ?_
  · dsimp only
    rw [watchEvent_fst]
    exact (packStands_budgetWay _ _ _).watchEvent (tellSuction_packStands free _ _) .cell sample y h.1
  · have closed := noticeStays_closed .pack
    dsimp only
    rw [watchEvent_fst]
    exact watchEvent_moves closed (deliverOverride_moves closed.toEvalClosed (tellSuction_moves closed)) .cell sample y
      (h.2 enabled)
  · have entered : judgeLow tellSuction x = enterProtect tellSuction x := by
      unfold judgeLow
      rw [w.ka, w.cell, w.pmg, if_pos low, if_pos (by omega)]
    rw [packCell_discharge (by rw [w.pmg, state]) (by rw [w.ka, taken]), entered]
    have stands := enterProtect_stands x
    rw [w.pmg] at stands
    exact ⟨stands, fun enabled => enterProtect_notice (by rw [w.enables]; exact enabled)⟩

/-! ### The recovery (R161) -/

/-- The low mark and the mark of PACK_LOW are clear. -/
def LowCleared (t : State) : Prop := t.pmg.lowMark = false ∧ t.snc.marks.packLow = false

/-- And its entry is out of force. -/
def LowReleased (t : State) : Prop := LowCleared t ∧ t.snc.hasUnreleased .packLow = false

theorem lowCleared_report : ReportKeeps LowCleared where
  drive _ _ driven h := ⟨(congrArg Pmg.lowMark driven.pmg).trans h.1, (congrArg HardMarks.packLow driven.snc.marks).trans h.2⟩
  stack u s c change h := by
    have marks : c.marks = s.snc.marks := by
      rcases change with ⟨cap, raised⟩ | cleared
      · exact (raised?_inForce raised).1
      · exact cleared?_marks cleared
    exact ⟨h.1, (congrArg HardMarks.packLow marks).trans h.2⟩
  unmark _ h := ⟨h.1, rfl⟩
  stackLow s c _ cleared h := ⟨h.1, (congrArg HardMarks.packLow (cleared?_marks cleared)).trans h.2⟩
  copy _ _ h := h
  draws _ _ h := h
  budget _ _ h := h
  pmg f lowers s h := ⟨Bool.eq_false_iff.mpr fun low => Bool.eq_false_iff.mp h.1 (lowers _ low), h.2⟩
  dsu _ _ h := h
  wcu _ _ h := h
  dlc _ _ h := h
  timer _ _ _ h := h
  reservation _ _ h := h
  bleed _ _ h := h

theorem cleared?_idle {c : Snc} {src : Source} (out : c.hasUnreleased src = false) : c.cleared? src = none := by
  unfold Snc.cleared?
  rw [out]
  rfl

theorem Source.watch_ne_packLow (u : Idx4) : Source.watch u ≠ .packLow := nofun

theorem lowReleased_report : ReportKeeps LowReleased where
  drive s t driven h := ⟨lowCleared_report.drive s t driven h.1, (hasUnreleased_congr driven.snc.stack).trans h.2⟩
  stack u s c change h := by
    refine ⟨lowCleared_report.stack u s c change h.1, ?_⟩
    rcases change with ⟨cap, raised⟩ | cleared
    · exact (raised?_other (Source.watch_ne_packLow u) raised).2.trans h.2
    · exact (cleared?_other (Source.watch_ne_packLow u) cleared).2.trans h.2
  unmark s h := ⟨lowCleared_report.unmark s h.1, h.2⟩
  stackLow s c _ cleared h := by
    rw [cleared?_idle h.2] at cleared
    cases cleared
  copy _ _ h := h
  draws _ _ h := h
  budget _ _ h := h
  pmg f lowers s h := ⟨lowCleared_report.pmg f lowers s h.1, h.2⟩
  dsu _ _ h := h
  wcu _ _ h := h
  dlc _ _ h := h
  timer _ _ _ h := h
  reservation _ _ h := h
  bleed _ _ h := h

/-- A clear of PACK_LOW clears its mark. -/
theorem clearHard_lowCleared {s : State} (low : s.pmg.lowMark = false) : LowCleared (clearHard tellSuction .packLow s) := by
  have report := lowCleared_report
  have unmarked : LowCleared (setMark .packLow false s) := ⟨low, rfl⟩
  unfold clearHard
  split
  · exact changeStack_keeps (report.evaluated report.tellSuction) (report.noted .override)
      (fun c cleared => report.stackLow _ c rfl cleared unmarked) unmarked
  · next clear => exact ⟨low, Bool.eq_false_iff.mpr clear⟩

/-- And takes its entry out of force, where no source has two. -/
theorem clearHard_lowReleased {s : State} (low : s.pmg.lowMark = false) (sound : StackSound s.snc)
    (marked : s.snc.marks.packLow = true) : LowReleased (clearHard tellSuction .packLow s) := by
  have report := lowReleased_report
  unfold clearHard
  rw [if_pos (show s.snc.marks.get .packLow = true from marked)]
  dsimp only
  cases cleared : (setMark .packLow false s).snc.cleared? .packLow with
  | none => exact ⟨⟨low, rfl⟩, cleared?_none cleared⟩
  | some c =>
    have marks : c.marks.packLow = false := congrArg HardMarks.packLow (cleared?_marks cleared)
    exact report.evaluated report.tellSuction _ (report.noted .override _
      ⟨⟨low, marks⟩, cleared?_outOfForce (c := (setMark .packLow false s).snc) sound.sources cleared⟩)

theorem isGoodSample_iff {vCut : Nat} {cell : Six Reading} {packI : Int} :
    isGoodSample vCut cell packI = true ↔ allCellsValid cell = true ∧
      (∀ v ∈ validCells cell, (vCut : Int) + 200 ≤ v) ∧ -200 < packI ∧ packI < 200 := by
  simp [isGoodSample, and_assoc]

theorem packCell_recovering {s : State} (low : s.pmg.lowMark = true) (state : s.pmg.state = .protect ∨ s.pmg.state = .dockedWait)
    (taken : s.ka.estimatePending = false) : packCell told s = judgeGood told s := by
  unfold packCell
  rw [takeEstimate_taken taken]
  dsimp only
  rcases state with protect | waits
  · rw [protect]
    exact if_pos low
  · rw [waits]
    exact if_pos low

/-- The tenth good sample, before PACK_LOW is cleared. -/
def recovered (s : State) : State := s.modPmg fun p => { p with lowMark := false, recoveryCount := 0 }

theorem judgeGood_recovers {s : State} (good : isGoodSample s.ka.limits.vCut s.chan.cell s.chan.packI = true)
    (tenth : 9 ≤ s.pmg.recoveryCount) : judgeGood told s = recover told s := by
  unfold judgeGood
  rw [if_pos good, if_pos (by omega)]

theorem recover_protect {s : State} (state : s.pmg.state = .protect) :
    recover told s = changePack told .discharge (clearHard told .packLow (recovered s)) := if_pos state

theorem recover_docked {s : State} (state : s.pmg.state = .dockedWait) :
    recover told s = clearHard told .packLow (recovered s) := if_neg (by rw [state]; exact nofun)

/-- An invariant of the sources that the clear of PACK_LOW sets up stands at the end of a recovery. -/
theorem recover_keeps (report : ReportKeeps I) {s : State} (cleared : I (clearHard tellSuction .packLow (recovered s))) :
    I (recover tellSuction s) := by
  unfold recover
  dsimp only
  split
  · exact report.announced report.tellSuction _ (report.packStateTaken .discharge _ cleared)
  · exact cleared

/-- From PROTECT into DISCHARGE, with its budget stored (R161, R174). -/
theorem recover_discharges {s : State} (state : s.pmg.state = .protect) :
    let w := budgetOf { s with pmg := (recovered s).pmg.took .discharge }
    (recover tellSuction s).pmg = { (recovered s).pmg.took .discharge with budget := w } ∧
      (recover tellSuction s).chan.budget = w := by
  let c := clearHard tellSuction .packLow (recovered s)
  have cleared : Watched (recovered s) c :=
    clearHard_watched (s := recovered s) (.inr (show s.pmg.state ≠ .dockedWait by rw [state]; exact nofun)) .packLow
  have taken := takePackState_frame (new := .discharge) rfl c
  have same : budgetOf (takePackState .discharge c) = budgetOf { s with pmg := (recovered s).pmg.took .discharge } := by
    have ka : c.ka = s.ka := cleared.ka
    have cell : c.chan.cell = s.chan.cell := cleared.cell
    have packT : c.chan.packT = s.chan.packT := cleared.packT
    rw [taken]
    unfold budgetOf packBlind
    simp only [cleared.pmg, ka, cell, packT]
  have stands := announcePack_stands (s := takePackState .discharge c) (by rw [taken]; exact nofun)
  rw [recover_protect state, ← same]
  refine ⟨stands.pmg.trans ?_, stands.budget⟩
  rw [taken, cleared.pmg]

theorem recover_notice {s : State} (state : s.pmg.state = .protect) (enabled : s.link.enables.pack = true) :
    (recover tellSuction s).link.notices.pack = true := by
  rw [recover_protect state]
  exact changePack_notice rfl (by rw [clearHard_enables]; exact enabled)

/-- The budget of DISCHARGE by the formula of R174, while all cells are VALID. -/
theorem budgetOf_discharge {s : State} (state : s.pmg.state = .discharge) (full : s.ka.gauge.qFull ≠ 0)
    (sound : allCellsValid s.chan.cell = true) :
    let soc := min 100 (s.ka.qRem * 100 / s.ka.gauge.qFull)
    let w := (if s.ka.limits.socKnee ≤ soc then s.ka.limits.wPackMax
      else s.ka.limits.wPackMax * soc / s.ka.limits.socKnee) * s.pmg.foldback / 100
    budgetOf s = min 600 (if s.chan.packT = .noReading then w / 2 else w) := by
  have blind : packBlind s.chan = true ↔ s.chan.packT = .noReading := by
    unfold packBlind
    rw [sound]
    cases s.chan.packT <;> simp [Reading.isValid]
  unfold budgetOf heldBudget fullBudget stateOfCharge
  simp only [if_pos state, if_neg full, blind]

/-! ### The estimate (R167) -/

/-- After the estimate the pack manager writes nothing of the keep-alive domain at a CELL sample. -/
theorem packCell_ka (s : State) : (packCell tellSuction s).ka = (takeEstimate s).ka := by
  have closed := kaKept_closed
  have told := tellSuction_moves closed
  unfold packCell
  dsimp only
  split
  · exact judgeLow_moves closed told _
  · split
    · exact judgeGood_moves closed told _
    · rfl
  · split
    · exact judgeGood_moves closed told _
    · rfl
  · split
    · exact cellPhase_moves closed told _ _
    · exact chargeFault_moves closed told _ _
  · split
    · rfl
    · exact chargeFault_moves closed told _ _
  · rfl

theorem takeEstimate_ka_congr {s t : State} (ka : t.ka = s.ka) (cell : t.chan.cell = s.chan.cell) :
    (takeEstimate t).ka = (takeEstimate s).ka := by
  unfold takeEstimate
  rw [ka]
  split
  · simp only [State.modKa, ka, cell]
  · exact ka

theorem cell_of_standing {t u : State} (h : standing .docked t = standing .docked u) : t.chan.cell = u.chan.cell :=
  (congrArg Channels.cell (chan_of_standing h) :)

/-- What a CELL sample writes of the keep-alive domain is the estimate from its own cells, in each of the free orders. -/
theorem sampleTold_ka (sample : List Reading) (z : State) :
    (sampleTold tellSuction .cell sample (packCell tellSuction) z).ka = (takeEstimate z).ka := by
  have closed := kaKept_closed
  have told := tellSuction_moves closed
  have watched (y : State) : (watchEvent (deliverTelling tellSuction) .cell sample y).1.ka = y.ka :=
    watchEvent_moves closed (deliverTelling_moves closed told) .cell sample y
  have stands : Leaves .docked tellSuction := tellSuction_leaves rfl
  refine sampleTold_reaches (J := fun y => y.ka = z.ka ∧ y.chan.cell = z.chan.cell) (I := fun y => y.ka = (takeEstimate z).ka)
    (fun _ _ h => h) (fun _ _ h => h) (fun y h => ⟨(watched y).trans h.1, ?_⟩) (fun y h => (watched y).trans h)
    (fun u y h => ⟨(claimedHit_moves closed told u y).trans h.1, ?_⟩) (fun u y h => (claimedHit_moves closed told u y).trans h)
    (fun y h => (packCell_ka y).trans (takeEstimate_ka_congr h.1 h.2)) ⟨rfl, rfl⟩
  · dsimp only
    rw [watchEvent_fst]
    exact (cell_of_standing (watchEvent_leaves (deliverOverride_leaves rfl stands) .cell sample y)).trans h.2
  · refine (cell_of_standing ?_).trans h.2
    cases u with
    | i0 | i1 => rfl
    | i2 | i3 => exact chargeFault_leaves rfl stands _ y

theorem estimateOf_between {qFull : Nat} {v : Int} (low : 3300 < v) (high : v < 4150) :
    (estimateOf qFull (some v) : Int) = (qFull : Int) * (v - 3300) / 850 := by
  have positive : (0 : Int) ≤ (qFull : Int) * (v - 3300) := Int.mul_nonneg (Int.natCast_nonneg _) (by omega)
  unfold estimateOf
  dsimp only
  rw [if_neg (by omega), if_neg (by omega), Int.toNat_of_nonneg (Int.ediv_nonneg positive (by decide))]

/-- Settles O52: the sample between the watch unit and the pack manager, in DISCHARGE by the low count, in PROTECT and
DOCKED_WAIT by the recovery, and by the estimate alone in the keep-alive domain. -/
theorem lowPackIsProtected : Obligations.LowPackIsProtected := by
  unfold Obligations.LowPackIsProtected
  refine ⟨fun s tapOpen mv q state taken => ?_, fun s tapOpen mv q low state taken untrapped => ?_, fun s tapOpen mv q => ?_⟩
  · let z := cellStored (cellsOf tapOpen mv) s
    refine ⟨_, exec_cell q tapOpen mv, fun below third => ?_, fun below few => ?_, fun sound => ?_⟩
    · obtain ⟨stands, notice⟩ := discharge_protects (z := z) state taken (isLowSample_iff.mpr below) third
      exact ⟨(congrArg Pmg.state stands.pmg :), (congrArg Pmg.lowMark stands.pmg :), (congrArg Pmg.lowCount stands.pmg :),
        (congrArg Pmg.budget stands.pmg :), stands.budget, stands.mark, notice⟩
    · refine discharge_counts (z := z) state taken (by exact state) fun x w => ?_
      have below : isLowSample z.ka.limits.vCut z.chan.cell = true := isLowSample_iff.mpr below
      unfold judgeLow
      rw [w.ka, w.cell, if_pos below, w.pmg, if_neg (by show ¬3 ≤ s.pmg.lowCount + 1; omega)]
      exact congrArg (fun p : Pmg => { p with lowCount := p.lowCount + 1 }) w.pmg
    · refine discharge_counts (z := z) state taken (by exact state) fun x w => ?_
      have sound : ¬isLowSample z.ka.limits.vCut z.chan.cell = true := mt isLowSample_iff.mp sound
      unfold judgeLow
      rw [w.ka, w.cell, if_neg sound]
      exact congrArg (fun p : Pmg => { p with lowCount := 0 }) w.pmg
  · let z := cellStored (cellsOf tapOpen mv) s
    have told : sampleTold tellSuction .cell (Six.toList (cellsOf tapOpen mv)) (packCell tellSuction) z =
        judgeGood tellSuction z :=
      (compareAmong_untrapped (s := z) untrapped).trans (packCell_recovering (s := z) low state taken)
    refine ⟨_, (exec_cell q tapOpen mv).trans (congrArg (fun t => Host.Outcome.next (driveBleed t)) told), fun bad => ?_,
      fun good early => ?_, fun good tenth => ?_⟩
    · have bad : ¬isGoodSample z.ka.limits.vCut z.chan.cell z.chan.packI = true := mt isGoodSample_iff.mp bad
      unfold judgeGood
      rw [if_neg bad]
      rfl
    · have good : isGoodSample z.ka.limits.vCut z.chan.cell z.chan.packI = true := isGoodSample_iff.mpr good
      unfold judgeGood
      rw [if_pos good, if_neg (by show ¬10 ≤ s.pmg.recoveryCount + 1; omega)]
      rfl
    · rw [judgeGood_recovers (s := z) (isGoodSample_iff.mpr good) tenth]
      have cleared := recover_keeps lowCleared_report (clearHard_lowCleared (s := recovered z) rfl)
      refine ⟨cleared.1, cleared.2, fun sound marked => ?_, fun protect => ?_, fun waits off adopted docked caps => ?_⟩
      · exact (recover_keeps lowReleased_report (clearHard_lowReleased (s := recovered z) rfl sound marked)).2
      · obtain ⟨pmg, budget⟩ := recover_discharges (s := z) protect
        refine ⟨(congrArg Pmg.state pmg :), (congrArg Pmg.recoveryCount pmg :), fun full => ?_, ?_,
          recover_notice (s := z) protect⟩
        · exact (congrArg Pmg.budget pmg).trans
            (budgetOf_discharge (s := { z with pmg := (recovered z).pmg.took .discharge }) rfl full good.1)
        · exact budget.trans (congrArg Pmg.budget pmg).symm
      · rw [recover_docked (s := z) waits]
        have rest : DockedRest (recovered z).snc := ⟨off, adopted, docked, caps⟩
        exact ((Resting.refl rest).hardCleared (told := tellSuction) (src := .packLow) nofun).pmg
  · let z := cellStored (cellsOf tapOpen mv) s
    have ka : (driveBleed (sampleTold tellSuction .cell (Six.toList (cellsOf tapOpen mv)) (packCell tellSuction) z)).ka =
        (takeEstimate z).ka := sampleTold_ka _ z
    refine ⟨_, exec_cell q tapOpen mv, fun taken => ?_, fun pending => ?_⟩
    · rw [ka, takeEstimate_taken (s := z) taken]
      rfl
    · have estimated : (takeEstimate z).ka = { s.ka with
          qRem := estimateOf s.ka.gauge.qFull (lowestCell (cellsOf tapOpen mv)), estimatePending := false } :=
        congrArg State.ka (if_pos (show z.ka.estimatePending = true from pending))
      rw [ka, estimated]
      refine ⟨rfl, fun none => ?_, fun v lowest => ⟨fun low => ?_, fun high => ?_, fun low high => ?_⟩⟩
      · exact congrArg (estimateOf s.ka.gauge.qFull) none
      · exact (congrArg (estimateOf s.ka.gauge.qFull) lowest).trans (if_pos low)
      · refine (congrArg (estimateOf s.ka.gauge.qFull) lowest).trans ?_
        exact (if_neg (by omega)).trans (if_pos high)
      · exact (congrArg (fun r => (estimateOf s.ka.gauge.qFull r : Int)) lowest).trans (estimateOf_between low high)

end Sys2Proof.Machine
end
